-- ==== Sys2Proof/Word.lean ====
section
/-!
DEFINITION. The word types of the part and the numberings of its resources (00_scope.md, "Numbering of the
part's resources").
-/

namespace Sys2Proof

/-- One byte of a control-link message or of the media memory. -/
abbrev Byte := BitVec 8

/-- A signed 16-bit sample value in two's complement. -/
abbrev Sample := BitVec 16

/-- A 48-bit count of sample periods (house counter, station offset). -/
abbrev Count48 := BitVec 48

/-- A 32-bit event count. -/
abbrev Count32 := BitVec 32

/-- A station number, 0 to 5. -/
abbrev StationId := Fin 6

/-- A deck number, 0 to 15. -/
abbrev DeckId := Fin 16

/-- A condition set: 0 to 5 a station's set, 6 the device set. -/
abbrev SetId := Fin 7

end Sys2Proof
end

