-- ==== Sys2Proof/Config.lean ====
section
/-!
DEFINITION. The fixed figures of the part (00_scope.md, "Main figures") and the constants the model adds. The spec
fixes every value of every effect, so there is no free value here; the two constants the model chooses are marked.
-/

namespace Sys2Proof.Config

/-- 2^48: station times and the house counter are taken modulo this (R148, R149). -/
def timeModulus : Nat := 281474976710656

/-- The expected start of a deck request whose start cannot be foreseen, 2^48 - 1 (R25). -/
def unforeseen : Nat := 281474976710655

/-- Media blocks (R1). -/
def blockCount : Nat := 131072

/-- Sample pairs of one block (R1). -/
def blockPairs : Nat := 16384

/-- Directory slots (R3). -/
def slotCount : Nat := 4096

/-- The longest item (R5). -/
def maxLength : Nat := 134217728

/-- The shortest loop (R5). -/
def minLoop : Nat := 4096

/-- Unity gain (00_scope.md, "Audio"). -/
def unity : Nat := 32768

/-- The longest fade (00_scope.md, "Main figures"). -/
def maxFade : Nat := 480000

/-- Where a ramp's progress is held (R49). -/
def progressHold : Nat := 480001

/-- Places of a player's buffer (R23). -/
def bufferPairs : Nat := 8192

/-- The largest fetch, and the free places a claim needs (R29, R31). -/
def fetchPairs : Nat := 2048

/-- The buffered count at or below which a reader claims (R29). -/
def claimLevel : Nat := 6144

/-- The priming level (R33). -/
def primeLevel : Nat := 4096

/-- Decks held plus requests waiting that a station may have (R25). -/
def deckCap : Nat := 4

/-- Entries of a run list (R62). -/
def listLimit : Nat := 64

/-- Records of the as-run queue (R182). -/
def asrunLimit : Nat := 512

/-- Messages of the request queue (R202). -/
def queueLimit : Nat := 16

/-- Sample periods a receiver waits for the next byte of a message (R200). -/
def receiveGap : Nat := 480

/-- Good periods that complete a lock (R156). -/
def lockPeriods : Nat := 64

/-- Missed windows that lose a reference (R154). -/
def lossMisses : Nat := 4

/-- Well-spaced pulses that make a link SYNC (R171). -/
def syncRun : Nat := 16

/-- Bits of a link frame; also the number of the boundary bit (R165, R170). -/
def frameBits : Nat := 768

/-- One nominal period, in the model's unit of real time (assumption 3, DESIGN CHOICE): millionths of 1/48,000 s. -/
def nominal : Nat := 1000000

/-- 0.99 nominal periods (R151, R153, R156). -/
def windowOpen : Nat := 990000

/-- 1.01 nominal periods (R151, R153, R156). -/
def windowClose : Nat := 1010000

/-- Half a nominal period (R157). -/
def halfPeriod : Nat := 500000

/-- Four nominal frame lengths, at which a SLAVE link is LOST (R171). -/
def lossTime : Nat := 4000000

/-- What a byte of the media memory that no upload has written reads as (assumption 2, DESIGN CHOICE; R1 and R15 keep
such a byte from ever reaching a player). -/
def unwrittenByte : Byte := 0

/-- Re-evaluations one command may set off before the rest wait for the next command (assumption 9, DESIGN CHOICE). -/
def poolFuel : Nat := 64

end Sys2Proof.Config
end

