-- ==== Sys2Proof/Syntax.lean ====
section
/-!
DEFINITION. The commands of the part: one constructor per row of spec/opcode_table.json. A request command carries
what the request's message carries (tag, station field, payload bytes, R198); an event command carries what the event
itself brings from outside (the bytes received, the moment of an edge, the straps).
-/

namespace Sys2Proof

/-- What a request message carries besides its kind (R198). -/
structure Req where
  /-- The scheduler's own number for the request, returned unchanged. -/
  tag : Byte
  /-- The station field, 0 to 5 or 0xFF where the kind allows it. -/
  station : Byte
  /-- The payload bytes, in the order sent. -/
  payload : List Byte
  deriving DecidableEq, Repr

/-- The two air links. -/
inductive LinkId where
  | a
  | b
  deriving DecidableEq, Repr

/-- A moment inside a sample period: millionths of the nominal period since the boundary that began the period in
progress, by the internal oscillator (R151; assumption 3). -/
abbrev Phase := Nat

/-- The commands. -/
inductive Instr where
  | echo (r : Req)
  | deviceInfo (r : Req)
  | restart (r : Req)
  | restartPeriod
  | itemOpen (r : Req)
  | itemData (r : Req)
  | writeBegin
  | writeComplete
  | itemClose (r : Req)
  | itemDrop (r : Req)
  | itemPurge (r : Req)
  | itemInfo (r : Req)
  | storeInfo (r : Req)
  | entryInsert (r : Req)
  | entryRemove (r : Req)
  | entryAmend (r : Req)
  | listRead (r : Req)
  | listClear (r : Req)
  | stationSet (r : Req)
  | stationMode (r : Req)
  | stationStatus (r : Req)
  | take (r : Req)
  | takeCancel (r : Req)
  | stop (r : Req)
  | resume (r : Req)
  | setTime (r : Req)
  | refSelect (r : Req)
  | refCancel (r : Req)
  | refStatus (r : Req)
  | linkSet (r : Req)
  | linkAssign (r : Req)
  | linkStatus (r : Req)
  | asrunFetch (r : Req)
  | faultRead (r : Req)
  | condClear (r : Req)
  | noticeMask (r : Req)
  | unknownKindRequest (kind : Byte) (r : Req)
  | messageComplete (bytes : List Byte)
  | receiveGapTimeout
  | messageSent
  | resetAssert
  | powerOnReset (straps : Fin 4)
  | internalPeriodEnd
  | refEdgeAccepted (phase : Phase)
  | refWindowMiss
  | targetEdge (phase : Phase)
  | targetWindowTimeout
  | bridgingEnd (edge : Option Phase)
  | refSwitchInternal (edge : Option Phase)
  | silenceWindowReached (st : StationId)
  | entryStart (st : StationId)
  | armHorizonReached (st : StationId)
  | preFade (st : StationId)
  | hardEventDue (st : StationId)
  | hardItemTooLate (st : StationId)
  | breakStart (st : StationId)
  | breakSkip (st : StationId)
  | spotStart (st : StationId)
  | fillStart (st : StationId)
  | fillClosingFade (st : StationId)
  | breakClose (st : StationId)
  | deckEndOfPlay (d : DeckId)
  | bedPlayerStart (st : StationId)
  | bedPlayerEnd (st : StationId)
  | fetchBegin
  | fetchComplete (mediaError : Bool)
  | framePulse (link : LinkId) (bit : Nat) (phase : Phase)
  | flywheelFrame (link : LinkId)
  | linkLost (link : LinkId)
  | linkModeChange (link : LinkId)
  | framingError (bytes : List Byte)
  | bodyLengthOutOfRange (length : BitVec 16)
  deriving DecidableEq, Repr

end Sys2Proof
end

