-- ==== Sys2Proof/Machine/State.lean ====
section
/-!
DEFINITION. Everything the spec gives the part, as plain data, and its values after a power-on reset. Fields marked
MODEL's are the model's own bookkeeping (they carry what the prose implies or what the model needs to run a period);
every other field is one the spec names. The rules are cited field by field in INVENTORY.md, "State".
-/

namespace Sys2Proof.Machine

/-! ## Audio and players -/

/-- A stereo sample pair (00_scope.md, "Audio"). -/
structure Pair where
  l : Sample
  r : Sample
  deriving DecidableEq, Repr

/-- The pair of zero values. -/
def Pair.zero : Pair := ⟨0, 0⟩

/-- A ramp: start value, target value, length, progress (R23, R48). -/
structure Ramp where
  start : Nat
  target : Nat
  length : Nat
  progress : Nat
  deriving DecidableEq, Repr

/-- The cleared ramp of a grant (R27). -/
def Ramp.cleared : Ramp := ⟨0, 0, 0, 0⟩

/-- The states of a player. For a deck `free` is FREE and `bound` BOUND (R24); for a bed player `free` is EMPTY and
`bound` PRIMING (R39). -/
inductive PlayerState where
  | free
  | bound
  | primed
  | playing
  | fading
  deriving DecidableEq, Repr

/-- The cause of an end of play (R37, R43). -/
inductive EndCause where
  | trimOut
  | faded
  deriving DecidableEq, Repr

/-- The fields a deck and a bed player both hold (R23, R39). The buffered count is the buffer's length. -/
structure Player where
  state : PlayerState
  slot : Option Nat
  generation : Count32
  looping : Bool
  fetchPos : Nat
  playPos : Nat
  buffer : List Pair
  level : Nat
  ramp : Ramp
  consumed : Nat
  stalls : Nat
  mediaErrors : Nat
  /-- MODEL's: the station time of the first period of the run of stalls in progress, none where none is (R35): a further
  stall reports nothing, and a play that ends in the run ended with the pair before that period (R93, R145). -/
  stalling : Option Nat
  /-- MODEL's: the period in progress is the last of the player's play, and with which cause (R37): the end itself
  falls at the close of the period. -/
  ended : Option EndCause
  deriving DecidableEq, Repr

/-- A player after a power-on reset (R45). -/
def Player.reset : Player :=
  ⟨.free, none, 0, false, 0, 0, [], 0, Ramp.cleared, 0, 0, 0, none, none⟩

/-- What the record of a break's deck needs once the break has left its list (R130, R132). -/
structure Trail where
  entryId : Nat
  cart : Nat
  spotRef : Option Nat
  scheduled : Option Nat
  startTime : Nat
  lateness : Option Int
  cut : Bool
  /-- The place of the record among its break's: the spot's index, and behind the spots for the fill (R132). -/
  index : Nat
  deriving DecidableEq, Repr

/-- The thing a deck or a deck request serves (R23, R25, R130). -/
inductive Target where
  | item (id : Nat)
  | spot (id : Nat) (index : Nat)
  | fill (id : Nat)
  | trailSpot (t : Trail)
  | trailFill (t : Trail)
  deriving DecidableEq, Repr

/-- A deck: a player with its station and target (R23). -/
structure Deck where
  player : Player
  station : Option StationId
  target : Option Target
  deriving DecidableEq, Repr

/-- A deck after a power-on reset (R45). -/
def Deck.reset : Deck := ⟨Player.reset, none, none⟩

/-- A bed player: a player with its two flags (R39). -/
structure Bed where
  player : Player
  airWanted : Bool
  spent : Bool
  /-- MODEL's: the station time of the airing's first period, for its record (R145). -/
  startTime : Nat
  /-- MODEL's: the lateness of the airing, counted when the bed starts (R145). -/
  lateness : Nat
  deriving DecidableEq, Repr

/-- A bed player after a power-on reset (R45). -/
def Bed.reset : Bed := ⟨Player.reset, false, false, 0, 0⟩

/-- Who reads the media memory: deck 0 to 15, or bed player 16 + s (R30). -/
inductive Reader where
  | deck (d : DeckId)
  | bed (st : StationId)
  deriving DecidableEq, Repr

/-- A fetch on the media port (R31), void after a RESTART (R46). `place` is the media pair address of its first pair. -/
structure Fetch where
  reader : Reader
  generation : Count32
  place : Nat
  count : Nat
  void : Bool
  deriving DecidableEq, Repr

/-- The write claim of an accepted ITEM_DATA (R14): the slot of its entry, the offset of its first pair, its pairs. -/
structure WriteClaim where
  slot : Nat
  offset : Nat
  pairs : List Pair
  deriving DecidableEq, Repr

/-- What is on the media port (R30). -/
inductive Port where
  | idle
  | fetch (f : Fetch)
  | write
  deriving DecidableEq, Repr

/-! ## The item store -/

inductive Category where
  | music
  | spot
  | bed
  deriving DecidableEq, Repr

inductive Retention where
  | keep
  | transient
  deriving DecidableEq, Repr

inductive ItemState where
  | loading
  | ready
  | dropping
  deriving DecidableEq, Repr

/-- A loop of an item: its first pair, and the pair behind its last (R4). -/
structure Loop where
  first : Nat
  stop : Nat
  deriving DecidableEq, Repr

/-- A run of consecutive media blocks: the model's way to write a list of block numbers (assumption 4). -/
structure Run where
  first : Nat
  count : Nat
  deriving DecidableEq, Repr

/-- A directory entry (R4). Owner none is SHARED. -/
structure DirEntry where
  slot : Nat
  cart : Nat
  owner : Option StationId
  category : Category
  retention : Retention
  state : ItemState
  length : Nat
  trimIn : Nat
  segue : Option Nat
  trimOut : Nat
  loop : Option Loop
  level : Nat
  blocks : List Run
  received : Nat
  bindings : Nat
  /-- MODEL's: the number of the ITEM_OPEN that made the entry, so that a plan can tell the entry it found from a
  later one in the same slot (R113, R123). -/
  serial : Nat
  deriving DecidableEq, Repr

/-! ## Run lists and breaks -/

inductive StartKind where
  | segue
  | follow
  | hard
  | take
  deriving DecidableEq, Repr

inductive EntryState where
  | waiting
  | armed
  | pending
  | onAir
  | ending
  deriving DecidableEq, Repr

/-- Served-by: none, a waiting deck request, or a deck (R63, R111). -/
inductive Served where
  | none
  | waiting
  | deck (d : DeckId)
  deriving DecidableEq, Repr

inductive Plan where
  | unplanned
  | included
  | excluded
  | missing
  | wrongKind
  deriving DecidableEq, Repr

inductive SpotState where
  | waiting
  | armed
  | pending
  | onAir
  | done
  deriving DecidableEq, Repr

inductive FillState where
  | none
  | waiting
  | armed
  | pending
  | onAir
  | done
  | absent
  deriving DecidableEq, Repr

/-- The directory entry a plan found (R111). -/
structure Planned where
  slot : Nat
  serial : Nat
  owner : Option StationId
  category : Category
  level : Nat
  effective : Nat
  deriving DecidableEq, Repr

/-- A spot record with its running state (R64, R111). -/
structure Spot where
  cart : Nat
  ref : Nat
  plan : Plan
  state : SpotState
  planned : Option Planned
  served : Served
  cut : Bool
  startTime : Nat
  deriving DecidableEq, Repr

/-- What a BREAK entry holds besides the common fields (R63, R111). -/
structure BreakData where
  duration : Nat
  spots : List Spot
  fillCart : Option Nat
  join : Option Nat
  gap : Nat
  fillUsed : Option Nat
  fillPlanned : Option Planned
  fillServed : Served
  fillState : FillState
  fillStart : Nat
  /-- MODEL's: the fill has been resolved, which happens once in the life of the break (R125). -/
  fillResolved : Bool
  /-- MODEL's: the last spot that remained went missing in the midst of a period before the end, so that the fill is due
  although no period has begun that found it so (R126, R127). -/
  fillDue : Bool
  deriving DecidableEq, Repr

/-- An entry's kind with what belongs to it alone (R63). -/
inductive Body where
  | item (cart : Nat)
  | brk (b : BreakData)
  deriving DecidableEq, Repr

/-- A run-list entry (R63), with its cut mark (R84), the station time of its start, and the mark of its pre-fade. -/
structure Entry where
  id : Nat
  startKind : StartKind
  due : Option Nat
  level : Option Nat
  fadeIn : Option Nat
  fadeOut : Option Nat
  state : EntryState
  served : Served
  lateness : Option Int
  startTime : Nat
  cut : Bool
  /-- MODEL's: the pre-fade of this HARD entry has begun, which commits it until it starts or leaves the list (R66, R96);
  the station's pre-fade record (R84) may be cleared before (R104, R139). -/
  preFaded : Bool
  body : Body
  deriving DecidableEq, Repr

/-- A waiting deck request (R25): its target, the directory slot the lookup found, looping, and its key in house time. -/
structure DeckRequest where
  target : Target
  slot : Nat
  looping : Bool
  key : Nat
  deriving DecidableEq, Repr

/-! ## Stations -/

inductive Mode where
  | idle
  | auto
  | manual
  | fallback
  deriving DecidableEq, Repr

/-- The eleven settings of R86. -/
structure Settings where
  outLevel : Nat
  hardFade : Nat
  stopFade : Nat
  breakFade : Nat
  armHorizon : Nat
  lateTolerance : Nat
  threshold : Nat
  window : Nat
  fallbackCart : Option Nat
  fillCart : Option Nat
  lowMark : Nat
  deriving DecidableEq, Repr

/-- The power-on values of R86. -/
def Settings.powerOn : Settings :=
  ⟨32768, 24000, 9600, 4800, 480000, 96000, 16, 480000, none, none, 4⟩

/-- A pending take (R84). -/
structure PendingTake where
  target : Nat
  time : Nat
  deriving DecidableEq, Repr

/-- A running pre-fade (R84). -/
structure PreFade where
  id : Nat
  due : Nat
  deriving DecidableEq, Repr

/-- The due moment with the house counter kept beside it (R84). -/
structure DueMoment where
  time : Nat
  house : Count48
  deriving DecidableEq, Repr

inductive FaultCause where
  | underrun
  | mediaError
  | missing
  | tooLate
  | silence
  deriving DecidableEq, Repr

/-- A FULL fault record (R187). -/
structure FaultRecord where
  cause : FaultCause
  entryId : Nat
  cart : Nat
  time : Nat
  further : Bool
  deriving DecidableEq, Repr

/-- What a mixer hands on for a period (R60). -/
structure Output where
  l : Sample
  r : Sample
  m : Sample
  quiet : Bool
  deriving DecidableEq, Repr

/-- The output of a silent station. -/
def Output.zero : Output := ⟨0, 0, 0, true⟩

/-- MODEL's: what a taken request does from the first period that begins after it (R85). -/
inductive Deferred where
  /-- The move to IDLE (R104); whether from FALLBACK, and whether a pending take was withdrawn. -/
  | toIdle (fromFallback : Bool) (dropTake : Bool)
  /-- Entry to FALLBACK (R139). -/
  | fallback (dropTake : Bool)
  | autoToManual
  | manualToAuto
  | leaveIdle
  /-- RESUME to the left mode given (R106). -/
  | resume (left : Mode)
  /-- The cut of STOP, and whether it changed AUTO to MANUAL (R103). -/
  | stop (fromAuto : Bool)
  /-- The skips and the cut of a taken TAKE of the entry given (R100). -/
  | take (id : Nat)
  /-- The cut of a taken TAKE whose target LIST_CLEAR or ENTRY_REMOVE has taken out of the list since (R73, R85). -/
  | cut
  /-- The re-evaluation of SET_TIME (R108). -/
  | reevaluate
  deriving DecidableEq, Repr

/-- A station: sequencer, mixer, silence monitor, fault record (R84, R56, R135, R187) and offset (R149). -/
structure Station where
  mode : Mode
  leftMode : Option Mode
  stayStart : Option Count48
  cfg : Settings
  take : Option PendingTake
  preFade : Option PreFade
  due : Option DueMoment
  list : List Entry
  requests : List DeckRequest
  lowRel : Bool
  silence : Nat
  clips : Count32
  offset : Count48
  fault : Option FaultRecord
  out : Output
  /-- MODEL's: a re-evaluation of the arming candidates is owed (R75). -/
  dirty : Bool
  /-- MODEL's: in the period in progress an entry has started or left the list MISSING from its head, so that the entry
  behind it is judged from the next period (R88, R91). -/
  acted : Bool
  /-- MODEL's: in the period in progress a HARD item has left TOO_LATE from the head of the list: an ITEM behind it is
  judged from the next period (R98), while the pre-fade and the start of a break do not wait (R95, R108, R118). -/
  lateHead : Bool
  /-- MODEL's: the last judgement brought the silence counter to the window and the order is not given yet (R137). -/
  silenceDue : Bool
  deriving DecidableEq, Repr

/-- A station after a power-on reset (R110, R147, R61, R82). The low relation is taken as it then stands (R81). -/
def Station.reset : Station :=
  { mode := .idle, leftMode := none, stayStart := none, cfg := Settings.powerOn, take := none, preFade := none,
    due := none, list := [], requests := [], lowRel := true, silence := 0, clips := 0, offset := 0, fault := none,
    out := Output.zero, dirty := false, acted := false, lateHead := false, silenceDue := false }

/-! ## Timebase -/

/-- The reference sources (R151). -/
inductive Source where
  | internal
  | word
  | link (l : LinkId)
  deriving DecidableEq, Repr

inductive Origin where
  | selected
  | autoReturn
  deriving DecidableEq, Repr

/-- MODEL's: a completed lock whose bridging period is in progress (R157): the new source, the origin it was a target
by, and the moment of the lock edge. -/
structure Bridge where
  source : Source
  origin : Origin
  lockAt : Nat
  deriving DecidableEq, Repr

/-- The reference controller (R152). -/
structure RefControl where
  current : Source
  target : Option Source
  origin : Origin
  progress : Nat
  miss : Nat
  preferred : Source
  autoReturn : Bool
  fallen : Bool
  /-- MODEL's: the source that still paces the period in progress while a switch to INTERNAL waits (R158). -/
  switchFrom : Option Source
  /-- MODEL's: the bridging period in progress (R157). -/
  bridging : Option Bridge
  /-- MODEL's: the target's previous edge, none while no measurement is open (R156). -/
  lastEdge : Option Nat
  deriving DecidableEq, Repr

/-- The reference controller after a power-on reset (R163). -/
def RefControl.reset : RefControl :=
  { current := .internal, target := none, origin := .selected, progress := 0, miss := 0, preferred := .internal,
    autoReturn := false, fallen := false, switchFrom := none, bridging := none, lastEdge := none }

/-! ## Air links -/

inductive LinkMode where
  | off
  | master
  | slave
  deriving DecidableEq, Repr

inductive SlotFormat where
  | stereo
  | mono
  | stereoMono
  deriving DecidableEq, Repr

/-- A station's assignment on a link (R166). -/
structure Assignment where
  base : Nat
  format : SlotFormat
  deriving DecidableEq, Repr

inductive SubState where
  | hunt
  | sync
  | lost
  deriving DecidableEq, Repr

/-- A period image: the 32 slots of 24 bits, slot 0 first (R165, R166). -/
abbrev Image := List (BitVec 24)

/-- The image of zeros. -/
def Image.zero : Image := List.replicate 32 0

/-- The framing fields of a SLAVE link (R166). The loss timer is the time since `lossFrom`. -/
structure Framing where
  sub : SubState
  bit : Option Nat
  run : Nat
  lossFrom : Nat
  newPlace : Option Image
  sentPlace : Option Image
  deriving DecidableEq, Repr

/-- An air link (R166). -/
structure AirLink where
  mode : LinkMode
  /-- MODEL's: the mode in force; a stored mode takes effect at the next boundary (R175). -/
  active : LinkMode
  mirror : Bool
  assigns : Vector (Option Assignment) 6
  framing : Option Framing
  alignments : Count32
  repeats : Count32
  drops : Count32
  /-- MODEL's: the image of the period in progress (R167). -/
  image : Image
  /-- MODEL's: what the frame in progress carries on the two data outputs; none where no frame runs (outputs low). -/
  frame : Option Image
  /-- MODEL's: the frame in progress began with the boundary of the period in progress and its content is still to be
  formed with that period's image (R172). -/
  frameOpens : Bool
  deriving DecidableEq, Repr

/-- A link after a power-on reset (R180). -/
def AirLink.reset : AirLink :=
  { mode := .off, active := .off, mirror := false, assigns := Vector.replicate 6 none, framing := none,
    alignments := 0, repeats := 0, drops := 0, image := Image.zero, frame := none, frameOpens := false }

/-! ## As-run log and conditions -/

inductive Outcome where
  | complete
  | cut
  | notAired
  | dropped
  | skipped
  | missing
  | tooLate
  | wrongKind
  | fill
  | fallback
  deriving DecidableEq, Repr

/-- Owner used and category of an as-run record: none where no directory entry was found (R183). -/
structure Used where
  owner : Option StationId
  category : Category
  deriving DecidableEq, Repr

/-- An as-run record (R183). -/
structure Record where
  seq : Count32
  station : StationId
  entryId : Nat
  spotRef : Option Nat
  cart : Nat
  used : Option Used
  scheduled : Option Nat
  startTime : Nat
  endTime : Nat
  aired : Nat
  outcome : Outcome
  stalls : Nat
  mediaErrors : Nat
  lateness : Option Int
  deriving DecidableEq, Repr

/-- The pending and enable bits of one condition set, laid out as the condition byte (R189, R219). -/
structure CondSet where
  pending : Byte
  enabled : Byte
  deriving DecidableEq, Repr

/-! ## Control link -/

/-- A message of the request queue (R198, R202). -/
structure Message where
  kind : Byte
  tag : Byte
  station : Byte
  payload : List Byte
  deriving DecidableEq, Repr

inductive ReceiverState where
  | hunt
  | length
  | body
  | check
  deriving DecidableEq, Repr

/-- The receiver (R200): its state and the bytes of the message in progress (length bytes, body, check bytes). -/
structure Receiver where
  state : ReceiverState
  lengthBytes : List Byte
  body : List Byte
  checkBytes : List Byte
  /-- MODEL's: sample periods begun since the last byte of the message in progress (R200). -/
  gap : Nat
  deriving DecidableEq, Repr

/-- A receiver in HUNT with no message in progress (R214). -/
def Receiver.reset : Receiver := ⟨.hunt, [], [], [], 0⟩

/-- The request handler's state (R203). -/
inductive Handler where
  | ready
  | working
  | held
  | restarting
  deriving DecidableEq, Repr

/-- What is placed in the transmit order: a reply's body, or the notice of a set, formed at its turn (R205). -/
inductive TxItem where
  | reply (body : List Byte)
  | notice (set : SetId)
  deriving DecidableEq, Repr

/-! ## Outcomes -/

/-- Why the machine stops with a fault. -/
inductive Fault where
  /-- Raised by FETCH_BEGIN and WRITE_COMPLETE when a pair index maps to no place of the 131,072 blocks (R1): an
  address the spec says does not exist. No run from reset reaches it, since an entry's block list covers its length.
  Safe. -/
  | noSuchPlace
  deriving DecidableEq, Repr

/-- Why a command is refused. -/
inductive Refusal where
  /-- Raised by exec for a command that has no meaning yet; safe. No arm uses it. -/
  | notModelled (mnemonic : String)
  deriving DecidableEq, Repr

/-! ## The state -/

/-- The part. -/
structure State where
  /-- The commands that wait, first in first out: the model's interface, not the part's. -/
  pending : List Instr
  inReset : Bool
  straps : Fin 4
  rx : Receiver
  badMessages : Count32
  queue : List Message
  handler : Handler
  inHand : Option Message
  sending : Option (List Byte)
  txOrder : List TxItem
  behind : List SetId
  media : List Host.Cell
  freeBlocks : List Run
  dir : List DirEntry
  reclaim : Nat
  opens : Nat
  decks : Vector Deck 16
  beds : Vector Bed 6
  port : Port
  claim : Option WriteClaim
  stations : Vector Station 6
  deferred : List (StationId × Deferred)
  house : Count48
  periodStart : Nat
  opening : Bool
  ref : RefControl
  linkA : AirLink
  linkB : AirLink
  asrun : List Record
  nextSeq : Count32
  wrapHold : Bool
  /-- MODEL's: the records made in the period in progress that the log has not taken yet, in their order, a break's each
  with its place among its break's (the spot's index, behind the spots for the fill). A break's record stands here while
  an earlier spot of the break may still make its own in the period (R132), and what is made behind it stands behind it
  (R109, R185). -/
  recordsHeld : List (Option Nat × Record)
  conds : Vector CondSet 7
  deriving DecidableEq, Repr

/-- The values a power-on reset gives (R21, R45, R61, R82, R110, R134, R147, R163, R180, R195, R214), with the straps
sampled as RSTN rises (R197) and the first sample period, house counter 0, begun (R148). -/
def State.powerOn (straps : Fin 4) : State :=
  { pending := [], inReset := false, straps := straps, rx := Receiver.reset, badMessages := 0, queue := [],
    handler := .ready, inHand := none, sending := none, txOrder := [], behind := [], media := [],
    freeBlocks := [⟨0, Config.blockCount⟩], dir := [], reclaim := 0, opens := 0,
    decks := Vector.replicate 16 Deck.reset, beds := Vector.replicate 6 Bed.reset, port := .idle, claim := none,
    stations := Vector.replicate 6 Station.reset, deferred := [], house := 0, periodStart := 0, opening := false,
    ref := RefControl.reset, linkA := AirLink.reset, linkB := AirLink.reset, asrun := [], nextSeq := 0,
    wrapHold := false, recordsHeld := [], conds := Vector.replicate 7 ⟨0, 0⟩ }

/-- The part right after a power-on reset with both straps low (assumption 1: the spec gives the straps no value). -/
def State.reset : State := State.powerOn 0

end Sys2Proof.Machine
end

