-- ==== Sys2Proof/Machine/Flags.lean ====
section
/-!
DEFINITION. The condition flags (R189, R219): the condition bytes of the station sets and of the device set, and how a
set's pending and enable bits are read and written.
-/

namespace Sys2Proof.Machine

/-- The six conditions of a station set (R189). -/
inductive StationCond where
  | fault
  | fallback
  | breakGap
  | listLow
  | takeDropped
  | clip
  deriving DecidableEq, Repr

/-- The seven conditions of the device set (R189). -/
inductive DeviceCond where
  | asrunPending
  | asrunLost
  | refSwitched
  | refFail
  | linkAlarm
  | linkSlip
  | badMessage
  deriving DecidableEq, Repr

/-- A station condition's bit of the condition byte (R219). -/
def StationCond.mask : StationCond → Byte
  | .fault => 0x01
  | .fallback => 0x02
  | .breakGap => 0x04
  | .listLow => 0x08
  | .takeDropped => 0x10
  | .clip => 0x20

/-- A device condition's bit of the condition byte (R219). -/
def DeviceCond.mask : DeviceCond → Byte
  | .asrunPending => 0x01
  | .asrunLost => 0x02
  | .refSwitched => 0x04
  | .refFail => 0x08
  | .linkAlarm => 0x10
  | .linkSlip => 0x20
  | .badMessage => 0x40

/-- A station's condition set. -/
def stationSet (st : StationId) : SetId := ⟨st.val, by omega⟩

/-- The device's condition set. -/
def deviceSet : SetId := 6

/-- The set a station field names, 0xFF for the device set (R191, R207). -/
def setOf (b : Byte) : Option SetId :=
  if b = 0xFF then some deviceSet else if h : b.toNat < 6 then some ⟨b.toNat, by omega⟩ else none

/-- The station field of a NOTICE (R205). -/
def setByte (i : SetId) : Byte := if i.val < 6 then BitVec.ofNat 8 i.val else 0xFF

/-- The bits a set has (R219). -/
def setBits (i : SetId) : Byte := if i.val < 6 then 0x3F else 0x7F

/-- The conditions of a set that follow their cause (R189): LIST_LOW, or ASRUN_PENDING. -/
def followBits (i : SetId) : Byte := if i.val < 6 then StationCond.listLow.mask else DeviceCond.asrunPending.mask

/-- The pending-and-enabled conditions a notice carries (R193). -/
def CondSet.notice (c : CondSet) : Byte := c.pending &&& c.enabled

/-- A set with a condition pending. -/
def CondSet.raise (c : CondSet) (m : Byte) : CondSet := { c with pending := c.pending ||| m }

/-- A set with conditions not pending. -/
def CondSet.drop (c : CondSet) (m : Byte) : CondSet := { c with pending := c.pending &&& ~~~m }

end Sys2Proof.Machine
end

