-- ==== Sys2Proof/Machine/Mix.lean ====
section
/-!
DEFINITION. The exact arithmetic of the mix (03_programme_mix_arithmetic.md).
-/

namespace Sys2Proof.Machine

/-- The value of a ramp at its progress (R48): start + trunc((target - start) × progress / length), and the target from
progress = length on. -/
def Ramp.value (r : Ramp) : Nat :=
  if r.length ≤ r.progress then r.target
  else ((r.start : Int) + (((r.target : Int) - (r.start : Int)) * (r.progress : Int)).tdiv (r.length : Int)).toNat

/-- The progress rises by one and is held at 480,001 (R49). -/
def Ramp.advance (r : Ramp) : Ramp := { r with progress := min (r.progress + 1) Config.progressHold }

/-- The ramp that replaces another in the period in progress: it starts from the old ramp's value (R36, R50). Where the
old one began in this period with length 0, that value is its target, as R48 gives it from progress 0: the model's choice
(assumption 33). -/
def Ramp.replaced (r : Ramp) (target length : Nat) : Ramp := ⟨r.value, target, length, 0⟩

/-- The effective gain (R51). -/
def gain (level ramp : Nat) : Nat := level * ramp / 32768

/-- A player's term for one channel (R52): floor((s × G + 16384) / 32768). -/
def term (s : Int) (g : Nat) : Int := (s * (g : Int) + 16384) / 32768

/-- A bus sum scaled by the output level, before saturation (R55). -/
def scaled (b : Int) (m : Nat) : Int := (b * (m : Int) + 16384) / 32768

/-- Saturation to 16 bits (R55). -/
def saturate (v : Int) : Int := if 32767 < v then 32767 else if v < -32768 then -32768 else v

/-- A channel saturates when its floored value lies outside the range (R55). -/
def saturates (v : Int) : Bool := decide (32767 < v) || decide (v < -32768)

/-- The mono sum (R58). -/
def monoSum (l r : Int) : Int := (l + r) / 2

/-- The silence test of a period's output (R59). -/
def isQuiet (threshold : Nat) (l r : Int) : Bool :=
  decide (l.natAbs ≤ threshold) && decide (r.natAbs ≤ threshold)

/-- A 32-bit count that holds at its largest value (R56, R166, R201). -/
def Count32.succHold (c : BitVec 32) : BitVec 32 := if c = 4294967295 then c else c + 1

/-- What a mixer hands on for the bus sums (bl, br) at output level m and silence threshold th (R55, R58, R59, R60). -/
def mixOutput (bl br : Int) (m th : Nat) : Output :=
  let l := saturate (scaled bl m)
  let r := saturate (scaled br m)
  ⟨BitVec.ofInt 16 l, BitVec.ofInt 16 r, BitVec.ofInt 16 (monoSum l r), isQuiet th l r⟩

end Sys2Proof.Machine
end

