-- ==== Sys2Proof/Machine/Operands.lean ====
section
/-!
DEFINITION. The byte forms of the control link (11_control_link_and_message_formats.md): fields of a payload, most
significant byte first (R198, R208), code fields (R208, R215), the check (R199), and a message as sent (R198).
-/

namespace Sys2Proof.Machine

/-! ## Reading fields -/

/-- The number that bytes spell, most significant first (R198). -/
def beNat (bs : List Byte) : Nat := bs.foldl (fun acc b => acc * 256 + b.toNat) 0

/-- The field of `n` bytes at offset `o` of a payload. -/
def field (p : List Byte) (o n : Nat) : Nat := beNat ((p.drop o).take n)

/-- The byte at offset `o` of a payload. -/
def byteAt (p : List Byte) (o : Nat) : Byte := (p.drop o).headD 0

/-- Bit `i` of a presence byte (R215: bit 0 is the least significant). -/
def hasBit (b : Byte) (i : Nat) : Bool := b.getLsbD i

/-! ## Writing fields -/

/-- `v` in `n` bytes, most significant first. -/
def toBytes : Nat → Nat → List Byte
  | 0, _ => []
  | n + 1, v => BitVec.ofNat 8 (v / 256 ^ n) :: toBytes n v

/-- A signed value in `n` bytes of two's complement (R183, lateness). -/
def intBytes (n : Nat) (v : Int) : List Byte := toBytes n (v % ((256 ^ n : Nat) : Int)).toNat

/-- An optional reply field: an action byte, then the value, 0 when absent (R208). -/
def optBytes (n : Nat) : Option Nat → List Byte
  | none => 0 :: toBytes n 0
  | some v => 1 :: toBytes n v

/-- A presence byte from its bits, bit 0 first (R215). -/
def presence : List Bool → Byte
  | [] => 0
  | b :: bs => (presence bs <<< (1 : Nat)) ||| (if b then 1 else 0)

/-- A flag as one byte. -/
def flagByte (b : Bool) : Byte := if b then 1 else 0

/-! ## Codes -/

/-- The station a station field names, if it is 0 to 5. -/
def stationOf (b : Byte) : Option StationId :=
  if h : b.toNat < 6 then some ⟨b.toNat, h⟩ else none

/-- The device or SHARED value of the station field. -/
def deviceField : Byte := 0xFF

/-- An owner field of an item kind: 0 to 5, or 0xFF for SHARED (R207). Outer none: not allowed. -/
def ownerOf (b : Byte) : Option (Option StationId) :=
  if b = deviceField then some none else (stationOf b).map some

def ownerByte : Option StationId → Byte
  | none => deviceField
  | some s => BitVec.ofNat 8 s.val

def categoryOf (n : Nat) : Option Category :=
  match n with
  | 0 => some .music
  | 1 => some .spot
  | 2 => some .bed
  | _ => none

def categoryByte : Category → Byte
  | .music => 0
  | .spot => 1
  | .bed => 2

def retentionOf (n : Nat) : Option Retention :=
  match n with
  | 0 => some .keep
  | 1 => some .transient
  | _ => none

def retentionByte : Retention → Byte
  | .keep => 0
  | .transient => 1

def itemStateByte : ItemState → Byte
  | .loading => 0
  | .ready => 1
  | .dropping => 2

def startKindOf (n : Nat) : Option StartKind :=
  match n with
  | 0 => some .segue
  | 1 => some .follow
  | 2 => some .hard
  | 3 => some .take
  | _ => none

def startKindByte : StartKind → Byte
  | .segue => 0
  | .follow => 1
  | .hard => 2
  | .take => 3

def entryStateByte : EntryState → Byte
  | .waiting => 0
  | .armed => 1
  | .pending => 2
  | .onAir => 3
  | .ending => 4

def spotStateByte : SpotState → Byte
  | .waiting => 0
  | .armed => 1
  | .pending => 2
  | .onAir => 3
  | .done => 4

def planByte : Plan → Byte
  | .unplanned => 0
  | .included => 1
  | .excluded => 2
  | .missing => 3
  | .wrongKind => 4

def servedByte : Served → Byte
  | .none => 0xFF
  | .waiting => 0xFE
  | .deck d => BitVec.ofNat 8 d.val

def outcomeByte : Outcome → Byte
  | .complete => 0
  | .cut => 1
  | .notAired => 2
  | .dropped => 3
  | .skipped => 4
  | .missing => 5
  | .tooLate => 6
  | .wrongKind => 7
  | .fill => 8
  | .fallback => 9

/-- Modes in the order R84 lists them (R208). -/
def modeOf (n : Nat) : Option Mode :=
  match n with
  | 0 => some .idle
  | 1 => some .auto
  | 2 => some .manual
  | 3 => some .fallback
  | _ => none

def modeByte : Mode → Byte
  | .idle => 0
  | .auto => 1
  | .manual => 2
  | .fallback => 3

/-- Fault causes in the order R187 lists them (R208). -/
def causeByte : FaultCause → Byte
  | .underrun => 0
  | .mediaError => 1
  | .missing => 2
  | .tooLate => 3
  | .silence => 4

/-- Sources in the order R151 and R152 list them (R208). -/
def sourceOf (n : Nat) : Option Source :=
  match n with
  | 0 => some .internal
  | 1 => some .word
  | 2 => some (.link .a)
  | 3 => some (.link .b)
  | _ => none

def sourceByte : Source → Byte
  | .internal => 0
  | .word => 1
  | .link .a => 2
  | .link .b => 3

def originByte : Origin → Byte
  | .selected => 0
  | .autoReturn => 1

/-- The auto-return flag, ON 0 and OFF 1 in the order R152 lists them (R208; assumption 6, DEDUCED). -/
def autoReturnOf (n : Nat) : Option Bool :=
  match n with
  | 0 => some true
  | 1 => some false
  | _ => none

def autoReturnByte (b : Bool) : Byte := if b then 0 else 1

def linkOf (n : Nat) : Option LinkId :=
  match n with
  | 0 => some .a
  | 1 => some .b
  | _ => none

/-- Link modes in the order R175 lists them (R208). -/
def linkModeOf (n : Nat) : Option LinkMode :=
  match n with
  | 0 => some .off
  | 1 => some .master
  | 2 => some .slave
  | _ => none

def linkModeByte : LinkMode → Byte
  | .off => 0
  | .master => 1
  | .slave => 2

/-- The mirror setting, OFF 0 and ON 1 in the order R175 lists them (R208). -/
def mirrorOf (n : Nat) : Option Bool :=
  match n with
  | 0 => some false
  | 1 => some true
  | _ => none

def subStateByte : SubState → Byte
  | .hunt => 0
  | .sync => 1
  | .lost => 2

/-- Formats in the order R166 lists them, NONE behind them (R177, R208). Inner none is NONE. -/
def formatOf (n : Nat) : Option (Option SlotFormat) :=
  match n with
  | 0 => some (some .stereo)
  | 1 => some (some .mono)
  | 2 => some (some .stereoMono)
  | 3 => some none
  | _ => none

def formatByte : SlotFormat → Byte
  | .stereo => 0
  | .mono => 1
  | .stereoMono => 2

/-! ## Samples on the link -/

/-- The pairs of an ITEM_DATA, 4 bytes each, left value first (R13). -/
def pairsOf : List Byte → List Pair
  | a :: b :: c :: d :: rest => ⟨a ++ b, c ++ d⟩ :: pairsOf rest
  | _ => []

/-! ## The check and the message -/

/-- One bit of the check (R199). -/
def checkBit (reg : BitVec 16) (b : Bool) : BitVec 16 :=
  if (b ^^ reg.msb) then (reg <<< (1 : Nat)) ^^^ 0x1021 else reg <<< (1 : Nat)

/-- One byte of the check, most significant bit first (R199). -/
def checkByte (reg : BitVec 16) (b : Byte) : BitVec 16 :=
  [7, 6, 5, 4, 3, 2, 1, 0].foldl (fun r i => checkBit r (b.getLsbD i)) reg

/-- The check over a body (R199). -/
def check (body : List Byte) : BitVec 16 := body.foldl checkByte 0xFFFF

/-- A 16-bit value as two bytes, high byte first. -/
def word2 (w : BitVec 16) : List Byte := [w.extractLsb' 8 8, w.extractLsb' 0 8]

/-- A whole message: start byte, body length, body, check (R198). -/
def frameMessage (body : List Byte) : List Byte :=
  0xA5 :: (toBytes 2 body.length ++ body ++ word2 (check body))

/-- The message a complete body carries (R198). -/
def messageOf (body : List Byte) : Message :=
  ⟨byteAt body 0, byteAt body 1, byteAt body 2, body.drop 3⟩

end Sys2Proof.Machine
end

