-- ==== Sys2Proof/Machine/Ops.lean ====
section
/-!
DEFINITION. The named operations over the part's memories and records: the media memory and the directory (01), the
transmit order and the conditions (10, 11), the as-run log and the fault records (10), run lists (04), and players (02).
-/

namespace Sys2Proof.Machine

/-! ## Reading and writing the parts of State -/

/-- The stations, decks in rising order. -/
def allStations : List StationId := [0, 1, 2, 3, 4, 5]

def allDecks : List DeckId := [0, 1, 2, 3, 4, 5, 6, 7, 8, 9, 10, 11, 12, 13, 14, 15]

def State.station (s : State) (st : StationId) : Station := s.stations[st]

def State.setStation (s : State) (st : StationId) (x : Station) : State := { s with stations := s.stations.set st x }

def State.modStation (s : State) (st : StationId) (f : Station → Station) : State := s.setStation st (f (s.station st))

def State.deck (s : State) (d : DeckId) : Deck := s.decks[d]

def State.setDeck (s : State) (d : DeckId) (x : Deck) : State := { s with decks := s.decks.set d x }

def State.bed (s : State) (st : StationId) : Bed := s.beds[st]

def State.setBed (s : State) (st : StationId) (x : Bed) : State := { s with beds := s.beds.set st x }

def State.cond (s : State) (i : SetId) : CondSet := s.conds[i]

def State.setCond (s : State) (i : SetId) (c : CondSet) : State := { s with conds := s.conds.set i c }

def State.link (s : State) : LinkId → AirLink
  | .a => s.linkA
  | .b => s.linkB

def State.setLink (s : State) : LinkId → AirLink → State
  | .a, x => { s with linkA := x }
  | .b, x => { s with linkB := x }

/-- A player with its fields changed, in its deck. -/
def State.modPlayer (s : State) (d : DeckId) (f : Player → Player) : State :=
  s.setDeck d { s.deck d with player := f (s.deck d).player }

def State.modBedPlayer (s : State) (st : StationId) (f : Player → Player) : State :=
  s.setBed st { s.bed st with player := f (s.bed st).player }

/-- Runs one state change per list member, in order. -/
def forEach {α : Type} (xs : List α) (f : α → State → State) (s : State) : State := xs.foldl (fun acc x => f x acc) s

/-! ## Time -/

/-- The station time of the period in progress (R149); between two sample periods, that of the period last begun, by the
offset then in force, is the station time now: the model's choice (assumption 56). -/
def State.stationTime (s : State) (st : StationId) : Nat := (s.house + (s.station st).offset).toNat

/-- The station time of the next period (R149, R150). -/
def State.nextTime (s : State) (st : StationId) : Nat := (s.house + 1 + (s.station st).offset).toNat

/-! ## The transmit order and notices -/

/-- A notice's body (R205). -/
def noticeBody (i : SetId) (conds : Byte) : List Byte := [0x7F, 0, setByte i, conds]

/-- The next message of the transmit order, notices formed at their turn and withdrawn when empty (R194, R205). -/
def startNext (conds : Vector CondSet 7) : List TxItem → Option (List Byte) × List TxItem
  | [] => (none, [])
  | .reply body :: rest => (some (frameMessage body), rest)
  | .notice i :: rest =>
    if conds[i].notice = 0 then startNext conds rest
    else (some (frameMessage (noticeBody i conds[i].notice)), rest)

/-- The transmitter starts the next message as soon as the one before it has ended (R205). -/
def State.pump (s : State) : State :=
  if s.sending.isSome then s
  else { s with sending := (startNext s.conds s.txOrder).1, txOrder := (startNext s.conds s.txOrder).2 }

/-- A notice of the set waits, in the order or behind the reply in hand (R194). -/
def State.noticeWaits (s : State) (i : SetId) : Bool := s.behind.contains i || s.txOrder.contains (.notice i)

/-- A trigger: at most one waiting notice per set; behind the reply while the handler works on a request or is held,
at once otherwise (R194). -/
def State.trigger (s : State) (i : SetId) : State :=
  if s.noticeWaits i then s
  else if s.handler = .working ∨ s.handler = .held then { s with behind := s.behind ++ [i] }
  else State.pump { s with txOrder := s.txOrder ++ [.notice i] }

/-- Places a reply, and behind it the notices triggered meanwhile (R194, R203). -/
def State.placeReply (s : State) (body : List Byte) : State :=
  State.pump { s with txOrder := s.txOrder ++ .reply body :: s.behind.map .notice, behind := [] }

/-- A reply waits to begin sending (R203). -/
def State.replyWaits (s : State) : Bool :=
  s.txOrder.any fun
    | .reply _ => true
    | .notice _ => false

/-! ## Conditions -/

/-- Conditions become pending, and an enabled one that was not pending triggers a notice (R189, R193). -/
def State.raiseBits (s : State) (i : SetId) (m : Byte) : State :=
  let s1 := s.setCond i ((s.cond i).raise m)
  if m &&& (s.cond i).enabled &&& ~~~(s.cond i).pending = 0 then s1 else s1.trigger i

/-- Conditions stop being pending; no notice follows (R190, R193). -/
def State.dropBits (s : State) (i : SetId) (m : Byte) : State := s.setCond i ((s.cond i).drop m)

def State.raiseStation (s : State) (st : StationId) (c : StationCond) : State := s.raiseBits (stationSet st) c.mask

def State.raiseDevice (s : State) (c : DeviceCond) : State := s.raiseBits deviceSet c.mask

/-! ## The as-run log -/

/-- Whether the log accepts the next record (R185). -/
def State.logAccepts (s : State) : Bool := decide (s.asrun.length < Config.asrunLimit) && !s.wrapHold

/-- A record is made (R185): it takes the next number, joins the queue or is discarded, and the wrap hold flag is
judged when the counter wraps. -/
def State.addRecord (s : State) (r : Record) : State :=
  let accepted := s.logAccepts
  let q := if accepted then s.asrun ++ [{ r with seq := s.nextSeq }] else s.asrun
  let s1 : State :=
    { s with
      asrun := q
      nextSeq := s.nextSeq + 1
      wrapHold := s.wrapHold || (s.nextSeq == 4294967295 && !q.isEmpty) }
  if !accepted then s1.raiseDevice .asrunLost
  else if s.asrun.isEmpty then s1.raiseDevice .asrunPending
  else s1

/-- An entry or a bed player makes a record: it reaches the log at once (R109, R185), or behind the records that are
held back for a break's order (assumption 25). -/
def State.record (s : State) (r : Record) : State :=
  if s.recordsHeld.isEmpty then s.addRecord r else { s with recordsHeld := s.recordsHeld ++ [(none, r)] }

/-- A break's record taken into its place: behind those of the period, but ahead of its break's for later spots
(R132). -/
def placeRecord (i : Nat) (r : Record) : List (Option Nat × Record) → List (Option Nat × Record)
  | [] => [(some i, r)]
  | x :: xs =>
    if x.2.station = r.station ∧ x.2.entryId = r.entryId ∧ (x.1.any fun k => decide (i < k)) = true then
      (some i, r) :: x :: xs
    else x :: placeRecord i r xs

/-- A break makes a record for its spot at index `i`, or behind its spots for its fill (R132). It is held back while an
earlier spot of the break may still make its own in the period (assumption 25). -/
def State.breakRecord (s : State) (i : Nat) (r : Record) : State :=
  { s with recordsHeld := placeRecord i r s.recordsHeld }

/-- The entry id a target's faults carry (R44, R133). -/
def Target.entryId : Target → Nat
  | .item id => id
  | .spot id _ => id
  | .fill id => id
  | .trailSpot t => t.entryId
  | .trailFill t => t.entryId

/-- The index of the spot a target names. -/
def Target.spotIndex : Target → Option Nat
  | .item _ => none
  | .spot _ i => some i
  | .fill _ => none
  | .trailSpot t => some t.index
  | .trailFill _ => none

/-- A record of a break waits: the play of an earlier spot of its break ends with this period (R132). -/
def State.mustWait (s : State) (x : Option Nat × Record) : Bool :=
  x.1.any fun k => allDecks.any fun d =>
    (s.deck d).player.ended.isSome && (s.deck d).station == some x.2.station &&
      (s.deck d).target.any fun t => t.entryId == x.2.entryId && t.spotIndex.any fun i => decide (i < k)

/-- The records held back reach the log in their order, up to the first that `p` keeps from it (R132, R185). -/
def State.logWhile (s : State) (p : Option Nat × Record → Bool) : State :=
  forEach (s.recordsHeld.takeWhile p) (fun x acc => acc.addRecord x.2)
    { s with recordsHeld := s.recordsHeld.dropWhile p }

/-- Behind the events of a period's beginning its ends of play are known, and the records held back reach the log up to
the first that waits for one of them (R132, R185; assumption 25). -/
def State.release (s : State) : State := if s.opening then s else s.logWhile fun x => !s.mustWait x

/-- Every record held back reaches the log. -/
def State.logHeld (s : State) : State := s.logWhile fun _ => true

/-! ## Fault records -/

/-- A fault report (R187). -/
def State.reportFault (s : State) (st : StationId) (cause : FaultCause) (entryId cart time : Nat) : State :=
  match (s.station st).fault with
  | none =>
    (s.modStation st fun x => { x with fault := some ⟨cause, entryId, cart, time, false⟩ }).raiseStation st .fault
  | some f => s.modStation st fun x => { x with fault := some { f with further := true } }

/-! ## The media memory -/

/-- The byte at an address of the media memory (assumption 2 for a byte nothing has written). -/
def readByte : List Host.Cell → Nat → Byte
  | [], _ => Config.unwrittenByte
  | c :: cs, a => if c.1 = a then c.2 else readByte cs a

/-- Writes one byte, keeping addresses rising and no cell equal to what an unlisted address reads as. -/
def writeByte : List Host.Cell → Nat → Byte → List Host.Cell
  | [], a, b => if b = Config.unwrittenByte then [] else [(a, b)]
  | c :: cs, a, b =>
    if a < c.1 then (if b = Config.unwrittenByte then c :: cs else (a, b) :: c :: cs)
    else if a = c.1 then (if b = Config.unwrittenByte then cs else (a, b) :: cs)
    else c :: writeByte cs a b

/-- The canonical form of the media memory: addresses strictly rising, no cell at the unwritten value. -/
def Memory.wf : List Host.Cell → Bool
  | [] => true
  | [c] => c.2 != Config.unwrittenByte
  | c :: d :: cs => c.2 != Config.unwrittenByte && decide (c.1 < d.1) && Memory.wf (d :: cs)

/-- The pair at a pair address: 4 bytes, left value first (00_scope.md, "Audio"). -/
def readPair (m : List Host.Cell) (place : Nat) : Pair :=
  ⟨readByte m (4 * place) ++ readByte m (4 * place + 1), readByte m (4 * place + 2) ++ readByte m (4 * place + 3)⟩

def writePair (m : List Host.Cell) (place : Nat) (p : Pair) : List Host.Cell :=
  writeByte
    (writeByte
      (writeByte (writeByte m (4 * place) (p.l.extractLsb' 8 8)) (4 * place + 1) (p.l.extractLsb' 0 8))
      (4 * place + 2) (p.r.extractLsb' 8 8))
    (4 * place + 3) (p.r.extractLsb' 0 8)

/-- `count` pairs from a pair address on. -/
def readPairs (m : List Host.Cell) (place : Nat) : Nat → List Pair
  | 0 => []
  | n + 1 => readPair m place :: readPairs m (place + 1) n

/-! ## Blocks -/

/-- The blocks an item of the length occupies (R1). -/
def blocksFor (length : Nat) : Nat := (length + (Config.blockPairs - 1)) / Config.blockPairs

/-- The block numbers a list of runs names. -/
def runsTotal (rs : List Run) : Nat := (rs.map Run.count).sum

/-- The block at a position of a block list (R1). -/
def blockAt : List Run → Nat → Option Nat
  | [], _ => none
  | r :: rs, k => if k < r.count then some (r.first + k) else blockAt rs (k - r.count)

/-- Takes `n` blocks from the front of a list: the blocks taken, and the rest (assumption 4). -/
def takeBlocks : Nat → List Run → List Run × List Run
  | _, [] => ([], [])
  | n, r :: rs =>
    if n = 0 then ([], r :: rs)
    else if r.count ≤ n then (r :: (takeBlocks (n - r.count) rs).1, (takeBlocks (n - r.count) rs).2)
    else ([⟨r.first, n⟩], ⟨r.first + n, r.count - n⟩ :: rs)

/-- The media pair address of pair `p` of an entry (R1); none where the spec gives no place. -/
def DirEntry.place (e : DirEntry) (p : Nat) : Option Nat :=
  match blockAt e.blocks (p / Config.blockPairs) with
  | some b => if b < Config.blockCount then some (b * Config.blockPairs + p % Config.blockPairs) else none
  | none => none

/-! ## The directory -/

/-- The entry in a slot. -/
def State.entryAt (s : State) (slot : Nat) : Option DirEntry := s.dir.find? fun e => e.slot == slot

/-- The entry with a key in one of the states given, lowest slot first (the directory is kept in slot order). -/
def State.keyed (s : State) (cart : Nat) (owner : Option StationId) (p : ItemState → Bool) : Option DirEntry :=
  s.dir.find? fun e => e.cart == cart && e.owner == owner && p e.state

/-- A lookup (R7). -/
def State.lookup (s : State) (st : StationId) (cart : Nat) : Option DirEntry :=
  match s.keyed cart (some st) (· == .ready) with
  | some e => some e
  | none => s.keyed cart none (· == .ready)

def State.modDir (s : State) (slot : Nat) (f : DirEntry → DirEntry) : State :=
  { s with dir := s.dir.map fun e => if e.slot = slot then f e else e }

/-- Discards, removes or evicts the entry of a slot: its blocks return to the free block list (R2, R3). -/
def State.removeDir (s : State) (slot : Nat) : State :=
  match s.entryAt slot with
  | none => s
  | some e => { s with dir := s.dir.filter (fun x => x.slot != slot), freeBlocks := e.blocks ++ s.freeBlocks }

/-- Puts an entry into the directory at its slot's place. -/
def insertDir (e : DirEntry) : List DirEntry → List DirEntry
  | [] => [e]
  | x :: xs => if e.slot < x.slot then e :: x :: xs else x :: insertDir e xs

/-- The lowest-numbered empty slot from `k` on, for a directory in slot order (R3). -/
def lowestEmpty : List DirEntry → Nat → Nat
  | [], k => k
  | e :: es, k => if e.slot = k then lowestEmpty es (k + 1) else k

/-- A reclaim candidate (R11). -/
def DirEntry.isCandidate (e : DirEntry) : Bool := e.retention == .transient && e.state == .ready && e.bindings == 0

/-- One binding more (R9). -/
def State.bindSlot (s : State) (slot : Nat) : State := s.modDir slot fun e => { e with bindings := e.bindings + 1 }

/-- One binding less; a DROPPING entry whose count reaches 0 is removed (R9, R17). -/
def State.unbindSlot (s : State) (slot : Nat) : State :=
  match s.entryAt slot with
  | none => s
  | some e =>
    if e.state = .dropping ∧ e.bindings ≤ 1 then s.removeDir slot
    else s.modDir slot fun x => { x with bindings := x.bindings - 1 }

/-- The directory entry a player plays. -/
def State.playerEntry (s : State) (p : Player) : Option DirEntry :=
  match p.slot with
  | none => none
  | some k => s.entryAt k

/-- Owner and category for a record, from an entry (R184). -/
def usedOf (e : Option DirEntry) : Option Used := e.map fun x => ⟨x.owner, x.category⟩

/-- The plan's note of a found entry (R111, R113). -/
def DirEntry.planned (e : DirEntry) : Planned :=
  ⟨e.slot, e.serial, e.owner, e.category, e.level, e.trimOut - e.trimIn⟩

/-- The planned entry is still the READY entry it was (R121, R123). -/
def State.plannedReady (s : State) (p : Planned) : Bool :=
  s.dir.any fun e => e.slot == p.slot && e.serial == p.serial && e.state == .ready

/-! ## Players -/

/-- A player is sounding: PLAYING or FADING (R24). -/
def Player.sounds (p : Player) : Bool := p.state == .playing || p.state == .fading

/-- The player a binding makes (R27, R40): positions at trim-in, buffer empty, counts, level and ramp cleared. -/
def Player.bound (p : Player) (e : DirEntry) (looping : Bool) : Player :=
  { p with
    state := .bound, slot := some e.slot, generation := p.generation + 1, looping := looping && e.loop.isSome,
    fetchPos := e.trimIn, playPos := e.trimIn, buffer := [], level := 0, ramp := Ramp.cleared, consumed := 0,
    stalls := 0, mediaErrors := 0, stalling := none, ended := none }

/-- The player an end of play or a release leaves (R37, R38): FREE or EMPTY, counts held (R23). -/
def Player.freed (p : Player) : Player := { p with state := .free, slot := none, stalling := none, ended := none }

/-- A player that starts: level and first ramp (R34). A ramp whose target is 0 makes it FADING (R36). -/
def Player.started (p : Player) (level : Nat) (r : Ramp) : Player :=
  { p with state := if r.target = 0 then .fading else .playing, level := level, ramp := r }

/-- A fade to 0 of the length begins (R36). -/
def Player.faded (p : Player) (length : Nat) : Player :=
  { p with ramp := p.ramp.replaced 0 length, state := if p.state = .playing then .fading else p.state }

/-- The ramp already reaches 0 within `length` periods (R94). -/
def Ramp.endsWithin (r : Ramp) (length : Nat) : Bool := r.target == 0 && decide (r.length - r.progress ≤ length)

/-- The buffered pairs at which a player is primed (R33). -/
def primeThreshold (p : Player) (e : DirEntry) : Nat :=
  if p.looping then Config.primeLevel else min Config.primeLevel (e.trimOut - p.playPos)

/-! ## Run lists -/

def EntryState.notStarted : EntryState → Bool
  | .waiting => true
  | .armed => true
  | .pending => true
  | .onAir => false
  | .ending => false

def Entry.notStarted (e : Entry) : Bool := e.state.notStarted

def Entry.isBreak (e : Entry) : Bool :=
  match e.body with
  | .item _ => false
  | .brk _ => true

/-- The cart of an ITEM, 0 of a BREAK. -/
def Entry.cart (e : Entry) : Nat :=
  match e.body with
  | .item c => c
  | .brk _ => 0

/-- A HARD entry's due time (R63); entries of other kinds have none and are not asked. -/
def Entry.dueTime (e : Entry) : Nat := e.due.getD 0

/-- A break's end time E, an item's due time (R63, R68). -/
def Entry.endTime (e : Entry) : Nat :=
  match e.body with
  | .item _ => e.dueTime
  | .brk b => e.dueTime + b.duration

/-- The not-started entries in order (R62). -/
def Station.waitingList (x : Station) : List Entry := x.list.filter Entry.notStarted

def Station.notStarted (x : Station) : Nat := x.waitingList.length

/-- The due moment that stands where an entry no longer has one: the moment is that of the first not-started entry, so
another's stays (R84, R88). -/
def Station.dueBut (x : Station) (id : Nat) : Option DueMoment :=
  if x.waitingList.head?.any fun e => e.id == id then none else x.due

def Station.onAir (x : Station) : Option Entry := x.list.find? fun e => e.state == .onAir

/-- The ON_AIR break, if what is on air is a break. -/
def Station.onAirBreak (x : Station) : Option (Entry × BreakData) :=
  match x.onAir with
  | none => none
  | some e =>
    match e.body with
    | .item _ => none
    | .brk b => some (e, b)

def Station.find (x : Station) (id : Nat) : Option Entry := x.list.find? fun e => e.id == id

/-- The hard entry: the first not-started HARD entry (R95). -/
def Station.hardEntry (x : Station) : Option Entry := x.waitingList.find? fun e => e.startKind == .hard

def Station.airs (x : Station) : Bool := x.mode == .auto || x.mode == .manual

/-- Changes the entry with the id. -/
def State.modEntry (s : State) (st : StationId) (id : Nat) (f : Entry → Entry) : State :=
  s.modStation st fun x => { x with list := x.list.map fun e => if e.id = id then f e else e }

/-- Changes the break data of the entry with the id. -/
def State.modBreak (s : State) (st : StationId) (id : Nat) (f : BreakData → BreakData) : State :=
  s.modEntry st id fun e =>
    match e.body with
    | .item _ => e
    | .brk b => { e with body := .brk (f b) }

/-- Changes one spot of a break. -/
def State.modSpot (s : State) (st : StationId) (id i : Nat) (f : Spot → Spot) : State :=
  s.modBreak st id fun b => { b with spots := b.spots.modify i f }

/-- The station owes a re-evaluation of its arming candidates (R75). -/
def State.markDirty (s : State) (st : StationId) : State := s.modStation st fun x => { x with dirty := true }

/-- The low relation is evaluated, and LIST_LOW follows it (R80, R190). -/
def State.evalLow (s : State) (st : StationId) : State :=
  let x := s.station st
  let low := decide (x.notStarted < x.cfg.lowMark)
  let s1 := s.modStation st fun y => { y with lowRel := low }
  if low && !x.lowRel then s1.raiseStation st .listLow
  else if !low && x.lowRel then s1.dropBits (stationSet st) StationCond.listLow.mask
  else s1

/-- An entry leaves the list; a take of it, a pre-fade and a due moment that was its own end with it (R62, R66). -/
def State.removeEntry (s : State) (st : StationId) (id : Nat) : State :=
  let s1 := s.modStation st fun x =>
    { x with
      list := x.list.filter fun e => e.id != id
      take := if x.take.any fun tk => tk.target == id then none else x.take
      preFade := if x.preFade.any fun p => p.id == id then none else x.preFade
      due := x.dueBut id
      dirty := true }
  s1.evalLow st

/-! ## Decks of a station -/

/-- The decks a station holds (R25). -/
def State.held (s : State) (st : StationId) : List DeckId := allDecks.filter fun d => (s.deck d).station == some st

/-- A station is below its cap (R25). -/
def State.belowCap (s : State) (st : StationId) : Bool :=
  decide ((s.held st).length + (s.station st).requests.length < Config.deckCap)

/-- A fault of a deck, reported to its station (R44). A media error of a fetch that completes between two sample periods
carries the station time of the period last begun: the model's choice (assumption 56). -/
def State.deckFault (s : State) (d : DeckId) (cause : FaultCause) : State :=
  match (s.deck d).station with
  | none => s
  | some st =>
    s.reportFault st cause (((s.deck d).target.map Target.entryId).getD 0)
      (((s.playerEntry (s.deck d).player).map DirEntry.cart).getD 0) (s.stationTime st)

/-- A fault of a bed player, reported to its station with entry id 0 (R44), at the time a deck's would carry (assumption
56). -/
def State.bedFault (s : State) (st : StationId) (cause : FaultCause) : State :=
  s.reportFault st cause 0 (((s.playerEntry (s.bed st).player).map DirEntry.cart).getD 0) (s.stationTime st)

/-- The cut mark of what a deck serves is set (R94, R111). -/
def State.setCutMark (s : State) (d : DeckId) : State :=
  match (s.deck d).station, (s.deck d).target with
  | some st, some (.item id) => s.modEntry st id fun e => { e with cut := true }
  | some st, some (.spot id i) => s.modSpot st id i fun p => { p with cut := true }
  | some _, some (.trailSpot t) => s.setDeck d { s.deck d with target := some (.trailSpot { t with cut := true }) }
  | _, _ => s

/-- A cut of one deck over `length` periods (R94): a fade already ending no later is left as it is. -/
def State.cutDeck (s : State) (length : Nat) (d : DeckId) : State :=
  if !(s.deck d).player.sounds then s
  else if (s.deck d).player.ramp.endsWithin length then s
  else (s.modPlayer d fun p => p.faded length).setCutMark d

/-- The decks serving an ON_AIR or ENDING item entry (R94). -/
def Station.soundingDecks (x : Station) : List DeckId :=
  x.list.filterMap fun e =>
    match e.state, e.served with
    | .onAir, .deck d => some d
    | .ending, .deck d => some d
    | _, _ => none

/-- A cut of every deck serving an ON_AIR or ENDING entry (R94). -/
def State.cutSounding (s : State) (st : StationId) (length : Nat) : State :=
  forEach (s.station st).soundingDecks (fun d acc => acc.cutDeck length d) s

/-- A cut of the bed player (R43, R144). -/
def State.cutBed (s : State) (st : StationId) (length : Nat) : State :=
  if !(s.bed st).player.sounds then s
  else if (s.bed st).player.ramp.endsWithin length then s
  else s.modBedPlayer st fun p => p.faded length

end Sys2Proof.Machine
end

