-- ==== Sys2Proof/Machine/Pool.lean ====
section
/-!
DEFINITION. The deck pool, the deck grant arbiter and the bed players' bindings (02: R25 to R28, R38 to R43), and the
directory change announcement (R8).
-/

namespace Sys2Proof.Machine

/-! ## What a target is told -/

/-- Notes on a target that a waiting request serves it. -/
def State.setWaiting (s : State) (st : StationId) : Target → State
  | .item id => s.modEntry st id fun e => { e with served := .waiting }
  | .spot id i => s.modSpot st id i fun p => { p with served := .waiting }
  | .fill id => s.modBreak st id fun b => { b with fillServed := .waiting }
  | .trailSpot _ => s
  | .trailFill _ => s

def EntryState.armedBy : EntryState → EntryState
  | .waiting => .armed
  | x => x

def SpotState.armedBy : SpotState → SpotState
  | .waiting => .armed
  | x => x

def FillState.armedBy : FillState → FillState
  | .waiting => .armed
  | x => x

/-- Notes a grant on its target: the entry, spot or fill becomes ARMED if it was WAITING (R27, R78, R112, R116). -/
def State.setGranted (s : State) (st : StationId) (d : DeckId) : Target → State
  | .item id => s.modEntry st id fun e => { e with served := .deck d, state := e.state.armedBy }
  | .spot id i =>
    (s.modSpot st id i fun p => { p with served := .deck d, state := p.state.armedBy }).modEntry st id fun e =>
      { e with state := e.state.armedBy }
  | .fill id =>
    (s.modBreak st id fun b => { b with fillServed := .deck d, fillState := b.fillState.armedBy }).modEntry st id
      fun e => { e with state := e.state.armedBy }
  | .trailSpot _ => s
  | .trailFill _ => s

/-! ## Spots and fills that cannot be had -/

/-- An INCLUDED spot still to start (R121). -/
def Spot.remains (p : Spot) : Bool := p.plan == .included && p.state != .onAir && p.state != .done

/-- The effective length counted for a spot: that of an INCLUDED spot's planned entry (R113). -/
def Spot.includedLength (p : Spot) : Nat :=
  if p.plan = .included then (p.planned.map Planned.effective).getD 0 else 0

/-- The planned start of the spot at an index (R113). -/
def BreakData.plannedStart (b : BreakData) (i : Nat) : Nat :=
  b.join.getD 0 + ((b.spots.take i).map Spot.includedLength).sum

/-- The scheduled time of a spot's record (R132): its planned start if the final plan INCLUDED it, else T. -/
def BreakData.spotSchedule (b : BreakData) (due i : Nat) (p : Spot) : Nat :=
  if b.join.isSome ∧ p.plan = .included then b.plannedStart i else due

/-- The record of a spot disposed of without airing at time `t` (R132, R184). -/
def spotDisposed (st : StationId) (e : Entry) (b : BreakData) (i : Nat) (p : Spot) (used : Option Used) (t : Nat)
    (o : Outcome) : Record :=
  { seq := 0, station := st, entryId := e.id, spotRef := some p.ref, cart := p.cart, used := used,
    scheduled := some (b.spotSchedule e.dueTime i p), startTime := t, endTime := t, aired := 0, outcome := o,
    stalls := 0, mediaErrors := 0, lateness := none }

/-- The owner and category a plan found (R184). -/
def Planned.used (p : Planned) : Used := ⟨p.owner, p.category⟩

/-- No spot but the one at an index is ON_AIR or still to start (R126). -/
def BreakData.endsWith (b : BreakData) (i : Nat) : Bool :=
  (b.spots.eraseIdx i).all fun p => !p.remains && p.state != .onAir

/-- An INCLUDED spot of an ON_AIR break goes missing (R123). Where it was the last that remained, the fill is due from
this period if the period is before E (R126). The station time now of a spot that a request between two periods makes go
missing is that of the period last begun: the model's choice (assumption 56). -/
def State.spotMissing (s : State) (st : StationId) (e : Entry) (b : BreakData) (i : Nat) (p : Spot) : State :=
  let t := s.stationTime st
  let s1 := s.modBreak st e.id fun b' =>
    { b' with
      spots := b'.spots.modify i fun q => { q with state := .done, served := .none }
      gap := b'.gap + p.includedLength
      fillDue := b'.fillDue || (b'.endsWith i && decide (t < e.endTime)) }
  let s2 := (s1.breakRecord i (spotDisposed st e b i p (p.planned.map Planned.used) t .missing)).release
  (s2.reportFault st .missing e.id p.cart t).markDirty st

/-- A fill that cannot be had is ABSENT and raises BREAK_GAP (R125, R127). -/
def State.fillAbsent (s : State) (st : StationId) (id : Nat) : State :=
  (s.modBreak st id fun b => { b with fillState := .absent, fillServed := .none }).raiseStation st .breakGap

/-! ## Requests -/

/-- Withdraws the waiting requests whose target satisfies `p` (R25). The caller settles the target's served-by. -/
def State.withdraw (s : State) (st : StationId) (p : Target → Bool) : State :=
  s.modStation st fun x => { x with requests := x.requests.filter fun r => !p r.target, dirty := true }

/-- A waiting request whose directory entry has left READY is withdrawn and its target told (R28, R78, R117, R123,
R125). -/
def State.deadRequest (s : State) (st : StationId) (r : DeckRequest) : State :=
  let s1 := s.modStation st fun x => { x with requests := x.requests.erase r, dirty := true }
  match r.target with
  | .item id => s1.modEntry st id fun e => { e with served := .none }
  | .spot id i =>
    match (s1.station st).find id with
    | none => s1
    | some e =>
      match e.body with
      | .item _ => s1
      | .brk b =>
        match b.spots[i]? with
        | none => s1
        | some p =>
          if e.state = .onAir then s1.spotMissing st e b i p
          else s1.modSpot st id i fun q => { q with served := .none, state := .waiting }
  | .fill id => s1.fillAbsent st id
  | .trailSpot _ => s1
  | .trailFill _ => s1

/-- The lowest-numbered FREE deck (R26). -/
def State.freeDeckNo (s : State) : Option DeckId := allDecks.find? fun d => (s.deck d).player.state == .free

/-- The better of a choice so far and a further request: only a smaller key displaces it, so that at equal keys the
lower station, and within a station the earlier request, wins (R26). -/
def betterRequest (acc : Option (StationId × DeckRequest)) (st : StationId) (r : DeckRequest) :
    Option (StationId × DeckRequest) :=
  match acc with
  | none => some (st, r)
  | some (st', r') => if r.key < r'.key then some (st, r) else some (st', r')

/-- The request the arbiter chooses (R26). -/
def State.bestRequest (s : State) : Option (StationId × DeckRequest) :=
  allStations.foldl (fun acc st => (s.station st).requests.foldl (fun a r => betterRequest a st r) acc) none

/-- A grant (R27). -/
def State.grant (s : State) (st : StationId) (r : DeckRequest) (d : DeckId) (e : DirEntry) : State :=
  let s1 := s.modStation st fun x => { x with requests := x.requests.erase r, dirty := true }
  let s2 := s1.setDeck d ⟨(s.deck d).player.bound e r.looping, some st, some r.target⟩
  (s2.bindSlot e.slot).setGranted st d r.target

/-- One choice of the arbiter: a grant, or the withdrawal of a request whose entry is no longer READY (R26, R28). -/
def State.arbitrateOnce (s : State) : Option State :=
  match s.freeDeckNo, s.bestRequest with
  | some d, some (st, r) =>
    match s.entryAt r.slot with
    | some e => some (if e.state = .ready then s.grant st r d e else s.deadRequest st r)
    | none => some (s.deadRequest st r)
  | _, _ => none

/-- The waiting requests of all stations. -/
def State.waitingRequests (s : State) : Nat := (allStations.map fun st => (s.station st).requests.length).sum

def arbitrateLoop : Nat → State → State
  | 0, s => s
  | n + 1, s =>
    match s.arbitrateOnce with
    | none => s
    | some s' => arbitrateLoop n s'

/-- The deck grant arbiter grants one request at a time while a deck is FREE and a request waits (R26). -/
def State.arbitrate (s : State) : State := arbitrateLoop s.waitingRequests s

/-- The house-time key of an expected start (R25). -/
def State.requestKey (s : State) (st : StationId) (expected : Nat) : Nat :=
  if expected = Config.unforeseen then Config.unforeseen
  else (BitVec.ofNat 48 expected - (s.station st).offset).toNat

/-- A station at its cap makes no request; below it, the request joins the station's queue and is granted as it is
made if a deck is FREE (R25, R26). -/
def State.requestDeck (s : State) (st : StationId) (t : Target) (slot : Nat) (looping : Bool) (expected : Nat) :
    State :=
  if !s.belowCap st then s
  else
    ((s.modStation st fun x =>
        { x with requests := x.requests ++ [⟨t, slot, looping, s.requestKey st expected⟩] }).setWaiting st t).arbitrate

/-- A waiting request is withdrawn and made anew with expected start now (R90, R122). -/
def State.remakeRequest (s : State) (st : StationId) (t : Target) : State :=
  match (s.station st).requests.find? fun r => r.target == t with
  | none => s
  | some r =>
    (s.modStation st fun x => { x with requests := x.requests.erase r }).requestDeck st t r.slot r.looping
      (s.stationTime st)

/-- A deck goes FREE: its binding ends, and waiting requests may be granted (R26, R37, R38). -/
def State.freeDeck (s : State) (d : DeckId) : State :=
  match (s.deck d).station with
  | none => s
  | some st =>
    let s1 := s.setDeck d ⟨(s.deck d).player.freed, none, none⟩
    let s2 :=
      match (s.deck d).player.slot with
      | none => s1
      | some k => s1.unbindSlot k
    (s2.markDirty st).arbitrate

/-- A release of the deck that serves something, if one does (R38). -/
def State.freeServed (s : State) : Served → State
  | .deck d => s.freeDeck d
  | .waiting => s
  | .none => s

/-! ## Bed players -/

/-- A bed player unbinds and becomes EMPTY (R41, R43). -/
def State.bedUnbind (s : State) (st : StationId) : State :=
  let s1 := s.modBedPlayer st fun p => { p.freed with buffer := [] }
  match (s.bed st).player.slot with
  | none => s1
  | some k => s1.unbindSlot k

/-- A bed player binds the entry found (R40). -/
def State.bedBind (s : State) (st : StationId) (e : DirEntry) : State :=
  (s.modBedPlayer st fun p => p.bound e true).bindSlot e.slot

/-- What the station's fallback cart is found as (R40, R41). -/
def State.fallbackEntry (s : State) (st : StationId) : Option DirEntry :=
  match (s.station st).cfg.fallbackCart with
  | none => none
  | some c => s.lookup st c

/-- An EMPTY bed player binds when it may (R40). -/
def State.bedTryBind (s : State) (st : StationId) : State :=
  if (s.bed st).player.state = .free ∧ (s.bed st).spent = false then
    match s.fallbackEntry st with
    | none => s
    | some e => s.bedBind st e
  else s

/-- The check of a bed player's binding, and its binding anew (R40, R41). -/
def State.bedCheck (s : State) (st : StationId) : State :=
  let p := (s.bed st).player
  let s1 :=
    if (p.state = .bound ∨ p.state = .primed) ∧ (s.fallbackEntry st).map DirEntry.slot ≠ p.slot then s.bedUnbind st
    else s
  s1.bedTryBind st

/-! ## Directory changes -/

/-- The requests of a station whose entry has left READY (R28). -/
def State.deadOf (s : State) (st : StationId) : List DeckRequest :=
  (s.station st).requests.filter fun r =>
    match s.entryAt r.slot with
    | some e => e.state != .ready
    | none => true

/-- A directory change is announced (R8): dead requests are withdrawn (R28), every station owes a re-evaluation (R75)
and every bed player checks its binding (R40, R41). -/
def State.announce (s : State) : State :=
  let s1 := forEach allStations (fun st acc => forEach (acc.deadOf st) (fun r a => a.deadRequest st r) acc) s
  let s2 := forEach allStations (fun st acc => acc.markDirty st) s1
  forEach allStations (fun st acc => acc.bedCheck st) s2

end Sys2Proof.Machine
end

