-- ==== Sys2Proof/Machine/Arming.lean ====
section
/-!
DEFINITION. The fit plan and the arming of run-list entries (04: R74 to R79; 06: R113 to R117, R121, R125).
-/

namespace Sys2Proof.Machine

/-! ## The fit plan -/

/-- One spot judged against the entry taken for it (R113): the spot as planned, and the running sum after it. -/
def planSpot (dEff sum : Nat) (p : Spot) (found : Option Planned) : Spot × Nat :=
  match found with
  | none => ({ p with plan := .missing, planned := none }, sum)
  | some q =>
    if q.category ≠ .spot then ({ p with plan := .wrongKind, planned := some q }, sum)
    else if sum + q.effective ≤ dEff then ({ p with plan := .included, planned := some q }, sum + q.effective)
    else ({ p with plan := .excluded, planned := some q }, sum)

/-- The walk of the spot list (R113): the spots as planned, and the sum of the INCLUDED lengths. -/
def planWalk (dEff : Nat) : Nat → List (Spot × Option Planned) → List Spot × Nat
  | sum, [] => ([], sum)
  | sum, (p, found) :: rest =>
    let (p', sum') := planSpot dEff sum p found
    ((p' :: (planWalk dEff sum' rest).1), (planWalk dEff sum' rest).2)

/-- The usable span for a join time (R113). -/
def usableSpan (due duration join : Nat) : Nat := due + duration - join

/-- A break's plan for a join time, with the entries taken for its spots (R113). -/
def BreakData.planned (b : BreakData) (due join : Nat) (found : List (Option Planned)) : BreakData :=
  let dEff := usableSpan due b.duration join
  let w := planWalk dEff 0 (b.spots.zip found)
  { b with spots := w.1, gap := dEff - w.2 }

/-- The entries lookups find for a break's spots (R114). -/
def State.lookups (s : State) (st : StationId) (b : BreakData) : List (Option Planned) :=
  b.spots.map fun p => (s.lookup st p.cart).map DirEntry.planned

/-- The entry taken for a spot in the final plan: the one its deck is bound to, else the one a lookup finds (R115). -/
def State.finalFound (s : State) (st : StationId) (p : Spot) : Option Planned :=
  match p.served with
  | .deck d => (s.playerEntry (s.deck d).player).map DirEntry.planned
  | .waiting => (s.lookup st p.cart).map DirEntry.planned
  | .none => (s.lookup st p.cart).map DirEntry.planned

/-! ## Spots and fill of a break -/

/-- The next spot (R121). -/
def BreakData.nextSpot (b : BreakData) : Option (Nat × Spot) :=
  match b.spots.findIdx? Spot.remains with
  | none => none
  | some i => (b.spots[i]?).map fun p => (i, p)

def BreakData.spotOnAir (b : BreakData) : Option (Nat × Spot) :=
  match b.spots.findIdx? (fun p => p.state == .onAir) with
  | none => none
  | some i => (b.spots[i]?).map fun p => (i, p)

/-- No spot or fill of the break is served (R114, R116). -/
def BreakData.unserved (b : BreakData) : Bool := b.spots.all (fun p => p.served == .none) && b.fillServed == .none

/-- The pairs a deck has left to a point of its item, 0 if it is past it (R77, R121). -/
def State.pairsTo (s : State) (d : DeckId) (point : Nat) : Nat := point - (s.deck d).player.playPos

/-- The pairs remaining to trim-out of the deck that serves something (R121). -/
def State.pairsToTrimOut (s : State) (v : Served) : Nat :=
  match v with
  | .deck d =>
    match s.playerEntry (s.deck d).player with
    | none => 0
    | some e => s.pairsTo d e.trimOut
  | .waiting => 0
  | .none => 0

/-- The expected start of a next spot or fill (R121, R125), the station time now as assumption 56 has it. -/
def State.breakExpected (s : State) (st : StationId) (b : BreakData) : Nat :=
  s.stationTime st +
    match b.spotOnAir with
    | none => 0
    | some (_, p) => s.pairsToTrimOut p.served

/-- The fill is resolved (R125), once in the life of its break. -/
def State.resolveFill (s : State) (st : StationId) (id : Nat) (b : BreakData) : State :=
  match (b.fillCart <|> (s.station st).cfg.fillCart) with
  | none => (s.modBreak st id fun b' => { b' with fillResolved := true }).fillAbsent st id
  | some c =>
    match s.lookup st c with
    | none => (s.modBreak st id fun b' => { b' with fillResolved := true, fillUsed := some c }).fillAbsent st id
    | some e =>
      if e.category = .bed then
        s.modBreak st id fun b' =>
          { b' with fillResolved := true, fillUsed := some c, fillPlanned := some e.planned, fillState := .waiting }
      else (s.modBreak st id fun b' => { b' with fillResolved := true, fillUsed := some c }).fillAbsent st id

/-- The break data of an entry as it now stands. -/
def State.breakOf (s : State) (st : StationId) (id : Nat) : Option (Entry × BreakData) :=
  match (s.station st).find id with
  | none => none
  | some e =>
    match e.body with
    | .item _ => none
    | .brk b => some (e, b)

/-- A WAITING fill with no deck and no request asks for a deck while the station is below its cap; one whose planned
entry is gone when it would ask is ABSENT (R125). That a PENDING fill asks as a WAITING one does is the model's choice
(assumption 37), and so is that a fill resolved without a request asks with the cart it was resolved with, also where a
STATION_SET has changed the station's fill cart since (R87, R125; assumption 54). -/
def State.requestFill (s : State) (st : StationId) (id : Nat) (b : BreakData) (expected : Nat) : State :=
  if (b.fillState = .waiting ∨ b.fillState = .pending) ∧ b.fillServed = .none ∧ s.belowCap st = true then
    match b.fillPlanned with
    | none => s
    | some q =>
      if s.plannedReady q then s.requestDeck st (.fill id) q.slot true expected
      else s.fillAbsent st id
  else s

/-- The next spot of an ON_AIR break asks for a deck, spots whose planned entry is gone going missing (R121, R123). A
spot behind it that holds its deck from arming keeps it (R115), so that two spots besides the one ON_AIR may hold a deck
or a request: the model's choice (assumption 35). -/
def serveSpot : Nat → StationId → Nat → State → State
  | 0, _, _, s => s
  | n + 1, st, id, s =>
    match s.breakOf st id with
    | none => s
    | some (e, b) =>
      match b.nextSpot with
      | none => s
      | some (i, p) =>
        if p.served ≠ .none then s
        else
          match p.planned with
          | none => s
          | some q =>
            if s.plannedReady q then s.requestDeck st (.spot id i) q.slot false (s.breakExpected st b)
            else serveSpot n st id (s.spotMissing st e b i p)

/-- The fill of an ON_AIR break is resolved at its moment (R125). -/
def State.resolveIfDue (s : State) (st : StationId) (id : Nat) : State :=
  match s.breakOf st id with
  | none => s
  | some (_, b) =>
    if b.nextSpot.isNone ∧ 0 < b.gap ∧ b.fillResolved = false then s.resolveFill st id b else s

/-- An ON_AIR break is served first: its next spot, then its fill (R121, R125). -/
def State.serveBreak (s : State) (st : StationId) : State :=
  match (s.station st).onAirBreak with
  | none => s
  | some (e, b) =>
    let s1 := (serveSpot b.spots.length st e.id s).resolveIfDue st e.id
    match s1.breakOf st e.id with
    | none => s1
    | some (_, b1) => s1.requestFill st e.id b1 (s1.breakExpected st b1)

/-! ## Arming candidates -/

/-- The horizon entry (R74). -/
def State.horizonEntry (s : State) (st : StationId) : Option Entry :=
  match (s.station st).hardEntry with
  | none => none
  | some e => if e.dueTime ≤ s.stationTime st + (s.station st).cfg.armHorizon then some e else none

/-- The candidates' ids in visiting order (R74, R75). -/
def State.candidates (s : State) (st : StationId) : List Nat :=
  let two := ((s.station st).waitingList.take 2).map Entry.id
  match s.horizonEntry st with
  | none => two
  | some e => e.id :: two.filter fun i => i != e.id

/-- The end point of an on-air item's directory entry, for a following entry of the start kind (R77, R89). -/
def endPoint (e : DirEntry) (k : StartKind) : Nat :=
  match k, e.segue with
  | .segue, some g => if e.category = .spot then e.trimOut else g
  | _, _ => e.trimOut

/-- The pairs an on-air item has left to its end point (R77). -/
def State.pairsToEnd (s : State) (x : Entry) (k : StartKind) : Nat :=
  match x.served with
  | .deck d =>
    match s.playerEntry (s.deck d).player with
    | none => 0
    | some e => s.pairsTo d (endPoint e k)
  | .waiting => 0
  | .none => 0

/-- The expected start of a SEGUE or FOLLOW entry that is first not-started in AUTO (R77). -/
def State.expectedFirst (s : State) (st : StationId) (k : StartKind) : Nat :=
  match (s.station st).onAir with
  | none => s.stationTime st
  | some x =>
    match x.body with
    | .item _ => s.stationTime st + s.pairsToEnd x k
    | .brk _ => x.endTime

/-- The expected start of an ITEM candidate's request (R77). A PENDING HARD entry has its due time: R77 has a row for
each, and the order of the two is the model's choice (assumption 34). So is the station time of a re-evaluation set off
between two sample periods: that of the period last begun (assumption 56). -/
def State.expectedStart (s : State) (st : StationId) (e : Entry) : Nat :=
  if e.startKind = .hard then e.dueTime
  else if e.state = .pending then s.stationTime st
  else if (s.station st).mode = .auto ∧ (e.startKind = .segue ∨ e.startKind = .follow) ∧
      (s.station st).waitingList.head?.any (fun x => x.id == e.id) then s.expectedFirst st e.startKind
  else Config.unforeseen

/-- A re-evaluation acts on an ITEM candidate (R76). -/
def State.armItem (s : State) (st : StationId) (e : Entry) (cart : Nat) : State :=
  if e.served ≠ .none then s
  else
    match s.lookup st cart with
    | none => s
    | some x => s.requestDeck st (.item e.id) x.slot false (s.expectedStart st e)

/-- The provisional plan (R114), the station time now as assumption 56 has it. -/
def State.planProvisional (s : State) (st : StationId) (e : Entry) (b : BreakData) : BreakData :=
  b.planned e.dueTime (max e.dueTime (s.stationTime st)) (s.lookups st b)

/-- A re-evaluation acts on a BREAK candidate (R114, R116). -/
def State.armBreak (s : State) (st : StationId) (e : Entry) (b : BreakData) : State :=
  if e.state ≠ .waiting ∨ b.unserved = false then s
  else
    let b1 := s.planProvisional st e b
    let s1 := s.modBreak st e.id fun x => s.planProvisional st e x
    match b1.nextSpot with
    | some (i, p) =>
      match p.planned with
      | none => s1
      | some q => s1.requestDeck st (.spot e.id i) q.slot false e.dueTime
    | none =>
      let s2 := s1.resolveIfDue st e.id
      match s2.breakOf st e.id with
      | none => s2
      | some (_, b2) => if 0 < b2.gap then s2.requestFill st e.id b2 e.dueTime else s2

/-- A re-evaluation acts on one candidate (R75). -/
def State.armOne (st : StationId) (id : Nat) (s : State) : State :=
  match (s.station st).find id with
  | none => s
  | some e =>
    match e.body with
    | .item c => s.armItem st e c
    | .brk b => s.armBreak st e b

/-- A re-evaluation of a station's arming candidates (R75); none is made in IDLE or FALLBACK (R79). A break still ON_AIR
between a move to IDLE or FALLBACK and the boundary at which it acts is not served either: no spot of it goes missing and
its fill is not resolved (R121, R123, R125), the model's choice (assumption 61). -/
def State.reevaluate (s : State) (st : StationId) : State :=
  let s1 := s.modStation st fun x => { x with dirty := false }
  if !(s1.station st).airs then s1
  else
    let s2 := s1.serveBreak st
    forEach (s2.candidates st) (fun id acc => acc.armOne st id) s2

/-- The owed re-evaluations, lowest station first (assumption 9). -/
def settleLoop : Nat → State → State
  | 0, s => s
  | n + 1, s =>
    match allStations.find? fun st => (s.station st).dirty with
    | none => s
    | some st => settleLoop n (s.reevaluate st)

/-- The re-evaluations an event sets off (R75). -/
def State.settlePool (s : State) : State := settleLoop Config.poolFuel s

end Sys2Proof.Machine
end

