-- ==== Sys2Proof/Machine/Air.lean ====
section
/-!
DEFINITION. How entries become due, start, end and leave the list, the pre-fade, takes, and the records of what aired
(05: R88 to R102; 10: R183, R184). Every operation here acts in the period in progress.
-/

namespace Sys2Proof.Machine

/-! ## Records -/

/-- The record of something a player aired (R93, R132, R145, R183): counts from the player. -/
def playedRecord (st : StationId) (id : Nat) (ref : Option Nat) (cart : Nat) (used : Option Used)
    (scheduled : Option Nat) (start stop : Nat) (lateness : Option Int) (o : Outcome) (p : Player) : Record :=
  { seq := 0, station := st, entryId := id, spotRef := ref, cart := cart, used := used, scheduled := scheduled,
    startTime := start, endTime := stop, aired := p.consumed, outcome := o, stalls := p.stalls,
    mediaErrors := p.mediaErrors, lateness := lateness }

/-- The scheduled time an item entry's record carries: T for a HARD item (R93, R184). -/
def Entry.scheduled (e : Entry) : Option Nat := if e.startKind = .hard then some e.dueTime else none

/-- The record of an item entry disposed of without airing (R96, R91, R97, R98, R184). -/
def entryDisposed (st : StationId) (e : Entry) (used : Option Used) (scheduled : Option Nat) (t : Nat) (o : Outcome)
    (lateness : Option Int) : Record :=
  { seq := 0, station := st, entryId := e.id, spotRef := none, cart := e.cart, used := used, scheduled := scheduled,
    startTime := t, endTime := t, aired := 0, outcome := o, stalls := 0, mediaErrors := 0, lateness := lateness }

/-- Owner and category for an entry disposed of (R184): its deck's entry, else the one a lookup finds now. -/
def State.disposalUsed (s : State) (st : StationId) (e : Entry) : Option Used :=
  match e.served with
  | .deck d => usedOf (s.playerEntry (s.deck d).player)
  | .waiting => usedOf (s.lookup st e.cart)
  | .none => usedOf (s.lookup st e.cart)

/-! ## Leaving the list -/

/-- The target belongs to the entry (R70). -/
def Target.belongs (id : Nat) : Target → Bool
  | .item i => i == id
  | .spot i _ => i == id
  | .fill i => i == id
  | .trailSpot _ => false
  | .trailFill _ => false

/-- What serves an entry: its deck, or those of its spots and fill (R70). -/
def Entry.serving (e : Entry) : List Served :=
  match e.body with
  | .item _ => [e.served]
  | .brk b => b.spots.map Spot.served ++ [b.fillServed]

/-- The entry as the list now holds it: a disposal of the entry before it may have had it granted a deck (R26). -/
def State.current (s : State) (st : StationId) (e : Entry) : Entry := ((s.station st).find e.id).getD e

/-- An entry leaves the list unaired: its requests are withdrawn and its decks released (R70, R73, R96). -/
def State.dropEntry (s : State) (st : StationId) (e : Entry) : State :=
  let s1 := (s.withdraw st (Target.belongs e.id)).removeEntry st e.id
  forEach (s.current st e).serving (fun v acc => acc.freeServed v) s1

/-! ## Takes -/

/-- An entry that was PENDING returns to ARMED or WAITING (R65, R101). -/
def Entry.returned (e : Entry) : Entry :=
  if e.state = .pending then
    { e with
      state :=
        match e.served with
        | .deck _ => .armed
        | .waiting => .waiting
        | .none => .waiting }
  else e

/-- A pending take is withdrawn and its target returned (R101, R102); no condition is raised here. The due moment of an
entry ahead that is PENDING itself stays with it (R88). -/
def State.withdrawTake (s : State) (st : StationId) : State :=
  match (s.station st).take with
  | none => s
  | some tk =>
    (s.modStation st fun x => { x with take := none, due := x.dueBut tk.target, dirty := true }).modEntry st tk.target
      Entry.returned

/-- A pending take is withdrawn by an event not asked for: TAKE_DROPPED (R102). -/
def State.dropTake (s : State) (st : StationId) : State :=
  match (s.station st).take with
  | none => s
  | some _ => (s.withdrawTake st).raiseStation st .takeDropped

/-- A not-started entry is skipped: its SKIPPED record, and it leaves the list (R96, R100). -/
def State.skipEntry (s : State) (st : StationId) (e : Entry) : State :=
  (s.record (entryDisposed st e (s.disposalUsed st (s.current st e)) none (s.stationTime st) .skipped none)).dropEntry
    st e

/-- Every not-started entry ahead of the one named is skipped (R96, R100), with its record in list order (assumption
25). -/
def State.skipAhead (s : State) (st : StationId) (id : Nat) : State :=
  let w := (s.station st).waitingList
  if w.any fun e => e.id == id then
    forEach (w.takeWhile fun e => e.id != id) (fun e acc => acc.skipEntry st e) s
  else s

/-! ## The pre-fade -/

/-- The hard entry whose pre-fade begins in this period, if one does (R95). It waits for the period behind one in which
the entry ahead has started or left MISSING (R88, R91), and not behind one that leaves TOO_LATE (R108; assumption 38). A
break met at or after its end is skipped and has none (R119). That the pre-fade of an entry whose record a move to IDLE or
FALLBACK cleared begins anew in AUTO or MANUAL is the model's choice (assumption 53). -/
def State.preFadeDue (s : State) (st : StationId) : Option Entry :=
  let x := s.station st
  let t := s.stationTime st
  if !x.airs || x.preFade.isSome || x.onAirBreak.isSome || x.acted then none
  else
    match x.hardEntry with
    | none => none
    | some e =>
      if e.isBreak ∧ e.endTime ≤ t then none
      else if e.dueTime ≤ t ∨ (e.dueTime ≤ t + x.cfg.hardFade ∧ e.state = .armed) then some e
      else none

/-- A pre-fade that begins at T belongs to a hard fade of 0, and not to an entry met late (R95): a break that has no
arming deck by then is met late (R116; assumption 32). -/
def State.hardCut (s : State) (st : StationId) (e : Entry) : Bool :=
  (s.station st).cfg.hardFade == 0 && s.stationTime st == e.dueTime && (!e.isBreak || e.state == .armed)

/-- The length of the pre-fade's cut (R95): it ends at T, with a hard fade of 0 in the period T itself, and is the stop
fade where T was met late. -/
def State.preFadeLength (s : State) (st : StationId) (e : Entry) : Nat :=
  if s.stationTime st < e.dueTime then e.dueTime - s.stationTime st
  else if s.hardCut st e then 0
  else (s.station st).cfg.stopFade

/-- The station records the pre-fade of a hard entry (R96 step 1), and the entry is committed from then on (R66). -/
def State.beginPreFade (s : State) (st : StationId) (e : Entry) : State :=
  (s.modStation st fun x => { x with preFade := some ⟨e.id, e.dueTime⟩ }).modEntry st e.id fun y =>
    { y with preFaded := true }

/-- The pre-fade begins if it is due (R95, R96). -/
def State.opPreFade (s : State) (st : StationId) : State :=
  match s.preFadeDue st with
  | none => s
  | some e =>
    let s1 := s.beginPreFade st e
    let s2 := s1.dropTake st
    let s3 := s2.cutSounding st (s.preFadeLength st e)
    s3.skipAhead st e.id

/-! ## Becoming due -/

/-- The first not-started entry, when it is an ITEM that may be judged in this period (R88). -/
def State.firstItem (s : State) (st : StationId) : Option Entry :=
  let x := s.station st
  if !x.airs || x.acted || x.lateHead then none
  else
    match x.waitingList.head? with
    | none => none
    | some e => if e.isBreak then none else some e

/-- A SEGUE entry's condition (R88, R89). -/
def State.segueDue (s : State) (st : StationId) : Bool :=
  match (s.station st).onAir with
  | none => true
  | some x =>
    match x.body, x.served with
    | .item _, .deck d =>
      match s.playerEntry (s.deck d).player with
      | none => false
      | some e => decide (endPoint e .segue ≤ (s.deck d).player.playPos)
    | _, _ => false

/-- The entry is due in this period (R88, R90, R97, R100). A SEGUE or FOLLOW entry behind a HARD item that left TOO_LATE
or MISSING is held to R88's condition too, and waits where something is ON_AIR: the model's choice (assumption 45). A HARD
item that is PENDING stays due where a SET_TIME moves its time ahead again (R90, R108): the model's choice (assumption
60). -/
def State.isDue (s : State) (st : StationId) (e : Entry) : Bool :=
  e.state == .pending || (s.station st).take.any (fun tk => tk.target == e.id) ||
  match e.startKind with
  | .hard => decide (e.dueTime ≤ s.stationTime st) && (s.station st).onAirBreak.isNone
  | .segue => (s.station st).mode == .auto && s.segueDue st
  | .follow => (s.station st).mode == .auto && (s.station st).onAir.isNone
  | .take => false

/-- The deck that serves something, if it is PRIMED (R90). -/
def State.primedDeck (s : State) (v : Served) : Option DeckId :=
  match v with
  | .deck d => if (s.deck d).player.state = .primed then some d else none
  | .waiting => none
  | .none => none

/-! ## Starting -/

/-- The lateness an entry records at its start (R90, R100). -/
def State.startLateness (s : State) (st : StationId) (e : Entry) : Int :=
  if e.startKind = .hard then (s.stationTime st : Int) - (e.dueTime : Int)
  else
    match (s.station st).due with
    | none => 0
    | some m => ((s.house - m.house).toNat : Int)

/-- The outgoing ON_AIR entry becomes ENDING, and fades out under a SEGUE start that no take made (R92, R100). -/
def State.displace (s : State) (st : StationId) (e : Entry) : State :=
  match (s.station st).onAir with
  | none => s
  | some x =>
    let s1 := s.modEntry st x.id fun y => { y with state := .ending }
    if e.startKind = .segue ∧ (s.station st).take.all (fun tk => tk.target != e.id) then
      match x.fadeOut, x.served with
      | some f, .deck d => if (s.deck d).player.sounds then s1.modPlayer d fun p => p.faded f else s1
      | _, _ => s1
    else s1

/-- An item entry starts on its PRIMED deck (R92, R34). -/
def State.startItem (s : State) (st : StationId) (e : Entry) (d : DeckId) : State :=
  let level := e.level.getD (((s.playerEntry (s.deck d).player).map DirEntry.level).getD 0)
  let late := s.startLateness st e
  let s1 := s.displace st e
  let s2 := s1.modPlayer d fun p => p.started level ⟨0, Config.unity, e.fadeIn.getD 0, 0⟩
  let s3 := s2.modEntry st e.id fun y =>
    { y with state := .onAir, lateness := some late, startTime := s.stationTime st }
  let s4 := s3.modStation st fun x =>
    { x with
      due := none
      take := if x.take.any fun tk => tk.target == e.id then none else x.take
      preFade := if x.preFade.any fun p => p.id == e.id then none else x.preFade
      acted := true
      dirty := true }
  s4.evalLow st

/-- The due entry whose deck is PRIMED (R90). -/
def State.startable (s : State) (st : StationId) : Option (Entry × DeckId) :=
  match s.firstItem st with
  | none => none
  | some e => if s.isDue st e then (s.primedDeck e.served).map fun d => (e, d) else none

/-- The start of a due entry whose deck is PRIMED, behind the pre-fade it may owe (R90, R92, R96). -/
def State.opEntryStart (s : State) (st : StationId) : State :=
  let s1 := s.opPreFade st
  match s1.startable st with
  | none => s1
  | some (e, d) => s1.startItem st e d

/-! ## Pending, missing, too late -/

/-- A due entry whose cart is not found leaves the list MISSING (R91, R97, R102). -/
def State.entryMissing (s : State) (st : StationId) (e : Entry) : State :=
  let t := s.stationTime st
  let s1 := s.record (entryDisposed st e none e.scheduled t .missing none)
  let s2 := s1.reportFault st .missing e.id e.cart t
  let s3 := if (s.station st).take.any fun tk => tk.target == e.id then s2.dropTake st else s2
  (s3.dropEntry st e).modStation st fun x => { x with acted := true }

/-- The due moment an entry that cannot start gets (R88, R97). -/
def State.dueFor (s : State) (st : StationId) (e : Entry) : DueMoment :=
  ⟨if e.startKind = .hard then e.dueTime else s.stationTime st, s.house⟩

/-- A due entry that cannot start becomes PENDING, a waiting request of it being remade (R90). -/
def State.entryPending (s : State) (st : StationId) (e : Entry) : State :=
  let m := s.dueFor st e
  let s1 := s.modEntry st e.id fun y => { y with state := .pending }
  let s2 := s1.modStation st fun x => { x with due := x.due <|> some m, dirty := true }
  if e.state = .pending then s2 else s2.remakeRequest st (.item e.id)

/-- A due entry that cannot start: MISSING when it has no deck, no request and no cart, PENDING otherwise (R90, R91,
R97). A HARD item is looked up only in the period that makes it due. -/
def State.judgeDue (s : State) (st : StationId) (e : Entry) : State :=
  if e.served = .none ∧ (s.lookup st e.cart).isNone ∧ (e.startKind = .hard → e.state ≠ .pending) then
    s.entryMissing st e
  else s.entryPending st e

/-- The judgement of the first not-started entry in a period (R88, R90, R91). A PENDING entry whose request a directory
change withdraws between periods is looked up here, in the next period: the model's choice (assumption 47). -/
def State.opJudgeFirst (s : State) (st : StationId) : State :=
  match s.firstItem st with
  | none => s
  | some e =>
    if s.isDue st e then
      match s.primedDeck e.served with
      | some d => s.startItem st e d
      | none => s.judgeDue st e
    else s

/-- A HARD item reaches its due time: it starts, becomes PENDING, or leaves MISSING (R97). -/
def State.opHardDue (s : State) (st : StationId) : State :=
  let s1 := s.opPreFade st
  match s1.firstItem st with
  | none => s1
  | some e => if e.startKind = .hard ∧ e.state ≠ .pending then s1.opJudgeFirst st else s1

/-- A HARD item is beyond the late tolerance (R98). -/
def State.isTooLate (s : State) (st : StationId) (e : Entry) : Bool :=
  e.startKind == .hard && !e.isBreak && e.notStarted &&
    decide (e.dueTime + (s.station st).cfg.lateTolerance < s.stationTime st)

/-- A HARD item leaves the list TOO_LATE (R98). -/
def State.entryTooLate (s : State) (st : StationId) (e : Entry) : State :=
  let t := s.stationTime st
  let s1 := s.record
    (entryDisposed st e (s.disposalUsed st (s.current st e)) (some e.dueTime) t .tooLate (some ((t : Int) - (e.dueTime : Int))))
  (s1.reportFault st .tooLate e.id e.cart t).dropEntry st e

/-- Every HARD item beyond the tolerance leaves the list (R98), with its record and fault in list order (assumption 25). -/
def State.judgeTooLate (s : State) (st : StationId) : State :=
  if !(s.station st).airs then s
  else forEach ((s.station st).list.filter fun e => s.isTooLate st e) (fun e acc => acc.entryTooLate st e) s

/-- The judgement of a period: an ITEM behind one that leaves from the head is judged from the next period (R98;
assumption 38). -/
def State.opTooLate (s : State) (st : StationId) : State :=
  if (s.station st).airs ∧ (s.station st).waitingList.head?.any (fun e => s.isTooLate st e) then
    (s.judgeTooLate st).modStation st fun x => { x with lateHead := true }
  else s.judgeTooLate st

/-! ## Ends of play -/

/-- The outcome of an item entry (R93). -/
def itemOutcome (c : EndCause) (cut : Bool) : Outcome :=
  match c with
  | .trimOut => .complete
  | .faded => if cut then .cut else .complete

/-- The record of an item entry whose deck's play ends or is ended (R93, R212). -/
def State.itemPlayed (s : State) (st : StationId) (e : Entry) (d : DeckId) (stop : Nat) (o : Outcome) : Record :=
  playedRecord st e.id none e.cart (usedOf (s.playerEntry (s.deck d).player)) e.scheduled e.startTime stop e.lateness o
    (s.deck d).player

/-- The record of a break's spot (R124, R132, R212). -/
def State.spotPlayed (s : State) (st : StationId) (e : Entry) (b : BreakData) (i : Nat) (p : Spot) (d : DeckId)
    (stop : Nat) (o : Outcome) : Record :=
  playedRecord st e.id (some p.ref) p.cart (usedOf (s.playerEntry (s.deck d).player)) (some (b.plannedStart i))
    p.startTime stop (some ((p.startTime : Int) - (b.plannedStart i : Int))) o (s.deck d).player

/-- The record of a break's fill (R128, R132). -/
def State.fillPlayed (s : State) (st : StationId) (e : Entry) (b : BreakData) (d : DeckId) (stop : Nat) : Record :=
  playedRecord st e.id none (b.fillUsed.getD 0) (usedOf (s.playerEntry (s.deck d).player)) none b.fillStart stop none
    .fill (s.deck d).player

/-- The record of a deck that trailed its break (R130). -/
def State.trailPlayed (s : State) (st : StationId) (t : Trail) (d : DeckId) (stop : Nat) (o : Outcome) : Record :=
  playedRecord st t.entryId t.spotRef t.cart (usedOf (s.playerEntry (s.deck d).player)) t.scheduled t.startTime stop
    t.lateness o (s.deck d).player

/-- The outcome of a spot's record at its deck's end (R124). -/
def spotOutcome (cut : Bool) : Outcome := if cut then .cut else .complete

/-- The end time of what a player of the station played, as it ends: the station time of the period after its last pair
(R93, R132, R145), which is the first of the stalls it ended in, or the period to come. -/
def State.endTimeOf (s : State) (st : StationId) (p : Player) : Nat := p.stalling.getD (s.nextTime st)

/-- The station ends the target of a deck that reported its end (R93, R124, R128, R130). -/
def State.endTarget (s : State) (st : StationId) (d : DeckId) (c : EndCause) : State :=
  let stop := s.endTimeOf st (s.deck d).player
  match (s.deck d).target with
  | none => s
  | some (.item id) =>
    match (s.station st).find id with
    | none => s
    | some e => (s.record (s.itemPlayed st e d stop (itemOutcome c e.cut))).removeEntry st id
  | some (.spot id i) =>
    match s.breakOf st id with
    | none => s
    | some (e, b) =>
      match b.spots[i]? with
      | none => s
      | some p =>
        (s.breakRecord i (s.spotPlayed st e b i p d stop (spotOutcome p.cut))).modSpot st id i fun q =>
          { q with state := .done, served := .none }
  | some (.fill id) =>
    match s.breakOf st id with
    | none => s
    | some (e, b) =>
      (s.breakRecord b.spots.length (s.fillPlayed st e b d stop)).modBreak st id fun b' =>
        { b' with fillState := .done, fillServed := .none }
  | some (.trailSpot t) => s.breakRecord t.index (s.trailPlayed st t d stop (spotOutcome t.cut))
  | some (.trailFill t) => s.breakRecord t.index (s.trailPlayed st t d stop .fill)

/-- A deck's end of play: the report, the station's ending of the target, the deck FREE, and the records that waited for
this end in the log (R37, R93, R132). -/
def State.opDeckEnd (s : State) (d : DeckId) : State :=
  match (s.deck d).player.ended, (s.deck d).station with
  | some c, some st => ((s.endTarget st d c).freeDeck d).release
  | _, _ => s

/-- The record of a bed player's airing (R145). -/
def State.bedPlayed (s : State) (st : StationId) (stop : Nat) : Record :=
  let b := s.bed st
  let e := s.playerEntry b.player
  playedRecord st 0 none ((e.map DirEntry.cart).getD 0) (usedOf e) none b.startTime stop (some (b.lateness : Int))
    .fallback b.player

/-- A bed player's end of play (R43): the record, the spent flag, EMPTY, and bound anew unless spent. The spent flag is set
by the mode in force as the end is handled: a bed FADING from an earlier stay that reaches trim-out is marked spent where a
STATION_MODE FALLBACK is taken behind the audio of its last period and ahead of its end, so it airs nothing in the new
stay (R142): the model's choice (assumption 64). -/
def State.opBedEnd (s : State) (st : StationId) : State :=
  match (s.bed st).player.ended with
  | none => s
  | some c =>
    let s1 := s.record (s.bedPlayed st (s.endTimeOf st (s.bed st).player))
    let s2 := s1.bedUnbind st
    let s3 :=
      if c = .trimOut ∧ (s.station st).mode = .fallback then s2.setBed st { s2.bed st with spent := true } else s2
    s3.bedTryBind st

/-- A PRIMED bed player whose air-wanted flag is set starts (R42, R142). -/
def State.opBedStart (s : State) (st : StationId) : State :=
  let b := s.bed st
  if b.player.state = .primed ∧ b.airWanted then
    s.setBed st
      { b with
        player := b.player.started (((s.playerEntry b.player).map DirEntry.level).getD 0)
          ⟨Config.unity, Config.unity, 0, 0⟩
        airWanted := false
        startTime := s.stationTime st
        lateness := (s.house - (s.station st).stayStart.getD s.house).toNat }
  else s

end Sys2Proof.Machine
end

