-- ==== Sys2Proof/Machine/Breaks.lean ====
section
/-!
DEFINITION. The running of hard-timed breaks (06: R118 to R131). Every operation here acts in the period in progress.
-/

namespace Sys2Proof.Machine

/-! ## Starting and skipping a break -/

/-- The hard entry, when it is a break and no break is ON_AIR in AUTO or MANUAL (R118, R119). -/
def State.hardBreak (s : State) (st : StationId) : Option (Entry × BreakData) :=
  let x := s.station st
  if !x.airs || x.onAirBreak.isSome || x.acted then none
  else
    match x.hardEntry with
    | none => none
    | some e =>
      match e.body with
      | .item _ => none
      | .brk b => some (e, b)

/-- A spot that does not air, at the start of its break (R120 step 3). -/
def startOutcome : Plan → Option Outcome
  | .unplanned => none
  | .included => none
  | .excluded => some .notAired
  | .missing => some .missing
  | .wrongKind => some .wrongKind

/-- Disposes of one spot that the final plan does not include (R120 step 3, R133). -/
def State.disposeAtStart (st : StationId) (id i : Nat) (s : State) : State :=
  match s.breakOf st id with
  | none => s
  | some (e, b) =>
    match b.spots[i]? with
    | none => s
    | some p =>
      match startOutcome p.plan with
      | none => s
      | some o =>
        let t := s.stationTime st
        let s1 := s.modSpot st id i fun q => { q with state := .done, served := .none }
        let s2 := s1.breakRecord i (spotDisposed st e b i p (p.planned.map Planned.used) t o)
        let s3 := if o = .missing then s2.reportFault st .missing id p.cart t else s2
        s3.freeServed p.served

/-- The spots' indices in spot order. -/
def BreakData.indices (b : BreakData) : List Nat := List.range b.spots.length

/-- The entry on air, if any, becomes ENDING, and the break ON_AIR (R120 step 2). -/
def State.breakOnAir (s : State) (st : StationId) (e : Entry) : State :=
  let s1 :=
    match (s.station st).onAir with
    | none => s
    | some x => s.modEntry st x.id fun y => { y with state := .ending }
  let s2 := s1.modEntry st e.id fun y =>
    { y with
      state := .onAir
      lateness := some ((s.stationTime st : Int) - (e.dueTime : Int))
      startTime := s.stationTime st }
  s2.modStation st fun x => { x with preFade := none, due := none, acted := true, dirty := true }

/-- With a gap of 0 a fill deck held from arming is released and the fill is NONE (R120 step 4, R125); an ABSENT fill
stays so. A fill so made NONE was resolved at arming, and stays NONE where the gap rises later (assumption 43). -/
def State.releaseArmedFill (s : State) (st : StationId) (id : Nat) : State :=
  match s.breakOf st id with
  | none => s
  | some (_, b) =>
    if b.gap = 0 ∧ b.fillState ≠ .absent then
      (s.modBreak st id fun b' => { b' with fillState := .none, fillServed := .none }).freeServed b.fillServed
    else s

/-- A waiting request withdrawn leaves its spot with served-by none (R115). -/
def Served.withdrawn : Served → Served
  | .waiting => .none
  | v => v

/-- The start of a break in the period in progress (R120). -/
def State.startBreak (s : State) (st : StationId) (e : Entry) (b : BreakData) : State :=
  let t := s.stationTime st
  let s0 := s.withdraw st (Target.belongs e.id)
  let b0 : BreakData :=
    { b with
      spots := b.spots.map fun p => { p with served := p.served.withdrawn }
      fillServed := b.fillServed.withdrawn }
  let b1 := { b0.planned e.dueTime t (b0.spots.map (s0.finalFound st)) with join := some t }
  let s1 := s0.modBreak st e.id fun x =>
    { x with spots := b1.spots, gap := b1.gap, join := b1.join, fillServed := b1.fillServed }
  let s2 := s1.breakOnAir st e
  let s3 := forEach b1.indices (fun i acc => acc.disposeAtStart st e.id i) s2
  let s4 := s3.releaseArmedFill st e.id
  (s4.resolveIfDue st e.id).evalLow st

/-- A break starts if it is the hard entry with T reached and E ahead, its pre-fade with it (R118). -/
def State.opBreakStart (s : State) (st : StationId) : State :=
  let s1 := s.opPreFade st
  match s1.hardBreak st with
  | none => s1
  | some (e, b) =>
    if e.dueTime ≤ s1.stationTime st ∧ s1.stationTime st < e.endTime then s1.startBreak st e b else s1

/-- A spot's record when its break is skipped (R119, R184). -/
def State.spotSkipped (s : State) (st : StationId) (e : Entry) (b : BreakData) (i : Nat) : State :=
  match b.spots[i]? with
  | none => s
  | some p => s.record (spotDisposed st e b i p (p.planned.map Planned.used) (s.stationTime st) .skipped)

/-- A break is skipped: its spots' records, and it leaves the list (R119). -/
def State.skipBreak (s : State) (st : StationId) (e : Entry) (b : BreakData) : State :=
  (forEach b.indices (fun i acc => acc.spotSkipped st e b i) s).dropEntry st e

/-- The hard entry, when it is a break met at or after its end (R119). -/
def State.breakPast (s : State) (st : StationId) : Option (Entry × BreakData) :=
  match s.hardBreak st with
  | none => none
  | some (e, b) => if e.endTime ≤ s.stationTime st then some (e, b) else none

/-- One break met at or after its end is skipped (R119). -/
def State.opBreakSkip (s : State) (st : StationId) : State :=
  match s.breakPast st with
  | none => s
  | some (e, b) => s.skipBreak st e b

/-- Every break whose end time has passed is skipped, as a station leaves IDLE or FALLBACK (R105, R119). -/
def State.skipPastBreaks (s : State) (st : StationId) : State :=
  forEach ((s.station st).waitingList.filter fun e => e.isBreak && decide (e.endTime ≤ s.stationTime st))
    (fun e acc =>
      match e.body with
      | .item _ => acc
      | .brk b => acc.skipBreak st e b) s

/-! ## Spots -/

/-- The next spot of the ON_AIR break, when it is due (R122): no spot is ON_AIR, and E is ahead. -/
def State.dueSpot (s : State) (st : StationId) : Option (Entry × BreakData × Nat × Spot) :=
  match (s.station st).onAirBreak with
  | none => none
  | some (e, b) =>
    if b.spotOnAir.isSome ∨ e.endTime ≤ s.stationTime st then none
    else
      match b.nextSpot with
      | none => none
      | some (i, p) => some (e, b, i, p)

/-- A spot starts on its PRIMED deck (R122). -/
def State.startSpot (s : State) (st : StationId) (e : Entry) (i : Nat) (p : Spot) (d : DeckId) : State :=
  let s1 := s.modPlayer d fun q =>
    q.started ((p.planned.map Planned.level).getD 0) ⟨Config.unity, Config.unity, 0, 0⟩
  let s2 := s1.modSpot st e.id i fun q => { q with state := .onAir, startTime := s.stationTime st }
  (s2.resolveIfDue st e.id).markDirty st

/-- The next due spot whose deck is PRIMED starts (R122). -/
def State.opSpotStart (s : State) (st : StationId) : State :=
  match s.dueSpot st with
  | none => s
  | some (e, _, i, p) =>
    match s.primedDeck p.served with
    | none => s
    | some d => s.startSpot st e i p d

/-- A due spot that cannot start becomes PENDING, a waiting request of it being remade (R122). -/
def State.opSpotPending (s : State) (st : StationId) : State :=
  match s.dueSpot st with
  | none => s
  | some (e, _, i, p) =>
    if p.state = .pending then s
    else
      ((s.modSpot st e.id i fun q => { q with state := .pending }).remakeRequest st (.spot e.id i)).markDirty st

/-! ## Fill -/

/-- The fill of the ON_AIR break, when it is due and has not started (R126). -/
def State.dueFill (s : State) (st : StationId) : Option (Entry × BreakData) :=
  match (s.station st).onAirBreak with
  | none => none
  | some (e, b) =>
    if b.spotOnAir.isSome ∨ b.nextSpot.isSome ∨ e.endTime ≤ s.stationTime st then none
    else if b.fillState = .waiting ∨ b.fillState = .armed ∨ b.fillState = .pending then some (e, b)
    else none

/-- The ramp a fill starts with (R126): closing at once when the start is within the break fade of E. -/
def State.fillRamp (s : State) (st : StationId) (e : Entry) : Ramp :=
  if e.endTime ≤ s.stationTime st + (s.station st).cfg.breakFade then
    ⟨Config.unity, 0, e.endTime - s.stationTime st, 0⟩
  else ⟨Config.unity, Config.unity, 0, 0⟩

/-- A due fill whose deck is PRIMED starts (R126). -/
def State.opFillStart (s : State) (st : StationId) : State :=
  match s.dueFill st with
  | none => s
  | some (e, b) =>
    match s.primedDeck b.fillServed with
    | none => s
    | some d =>
      let s1 := s.modPlayer d fun p =>
        p.started ((b.fillPlanned.map Planned.level).getD 0) (s.fillRamp st e)
      s1.modBreak st e.id fun b' => { b' with fillState := .onAir, fillStart := s.stationTime st }

/-- A due fill that cannot start is PENDING (R126). -/
def State.opFillPending (s : State) (st : StationId) : State :=
  match s.dueFill st with
  | none => s
  | some (e, _) => (s.modBreak st e.id fun b => { b with fillState := .pending }).markDirty st

/-- The deck of an ON_AIR fill whose closing fade begins in this period (R126). Where a STATION_SET has raised the break
fade above what is left to E, so that period A is past, it begins at once, over what is left: the model's choice
(assumption 55). -/
def State.closingFill (s : State) (st : StationId) : Option (Entry × DeckId) :=
  match (s.station st).onAirBreak with
  | none => none
  | some (e, b) =>
    match b.fillState, b.fillServed with
    | .onAir, .deck d =>
      if e.endTime ≤ s.stationTime st + (s.station st).cfg.breakFade ∧ (s.deck d).player.state = .playing then
        some (e, d)
      else none
    | _, _ => none

/-- The fill's closing fade begins, to end at E (R126). -/
def State.opFillClosing (s : State) (st : StationId) : State :=
  match s.closingFill st with
  | none => s
  | some (e, d) => s.modPlayer d fun p => p.faded (e.endTime - s.stationTime st)

/-! ## The close -/

/-- A deck of the break still sounding at the close trails with what its record needs (R130). -/
def State.trailDeck (s : State) (st : StationId) (d : DeckId) : State :=
  match (s.deck d).target with
  | some (.spot id i) =>
    match s.breakOf st id with
    | none => s
    | some (e, b) =>
      match b.spots[i]? with
      | none => s
      | some p =>
        s.setDeck d { s.deck d with
          target := some (.trailSpot ⟨e.id, p.cart, some p.ref, some (b.plannedStart i), p.startTime,
            some ((p.startTime : Int) - (b.plannedStart i : Int)), p.cut, i⟩) }
  | some (.fill id) =>
    match s.breakOf st id with
    | none => s
    | some (e, b) =>
      s.setDeck d { s.deck d with
        target := some (.trailFill ⟨e.id, b.fillUsed.getD 0, none, none, b.fillStart, none, false, b.spots.length⟩) }
  | _ => s

/-- The deck of a spot or fill that is ON_AIR. -/
def Served.deckNo : Served → Option DeckId
  | .deck d => some d
  | .waiting => Option.none
  | .none => Option.none

/-- An INCLUDED spot not started at the close is DROPPED (R129 step 2). -/
def State.dropSpot (st : StationId) (id i : Nat) (s : State) : State :=
  match s.breakOf st id with
  | none => s
  | some (e, b) =>
    match b.spots[i]? with
    | none => s
    | some p =>
      if p.remains then
        let s1 := s.modSpot st id i fun q => { q with state := .done, served := .none }
        let s2 := s1.withdraw st fun t => t == .spot id i
        (s2.breakRecord i (spotDisposed st e b i p (p.planned.map Planned.used) (s.stationTime st) .dropped)).freeServed
          p.served
      else s

/-- The fill of a break that closes has not started, though it was due before the end (R126, R127): a period found it so
and made it PENDING, or the last spot that remained went missing behind the beginning of one. -/
def BreakData.fillOwed (b : BreakData) : Bool := b.fillDue || b.fillState == .pending

/-- A fill not started at the close: its request withdrawn or its deck released, and BREAK_GAP if it was due and the
close is not an early one (R127, R129 step 3, R131). -/
def State.dropFill (s : State) (st : StationId) (e : Entry) (b : BreakData) (early : Bool) : State :=
  if b.fillState = .waiting ∨ b.fillState = .armed ∨ b.fillState = .pending then
    let s1 := s.modBreak st e.id fun b' => { b' with fillState := .done, fillServed := .none }
    let s2 := (s1.withdraw st fun t => t == .fill e.id).freeServed b.fillServed
    if b.fillOwed = true ∧ early = false then s2.raiseStation st .breakGap else s2
  else s

/-- The close of the ON_AIR break, at its end (R129) or early (R131). The requests of the break go first, so that no deck
it lets go comes back to it. -/
def State.closeBreak (s : State) (st : StationId) (e : Entry) (b : BreakData) (early : Bool) : State :=
  let stop := (s.station st).cfg.stopFade
  let s0 := s.withdraw st (Target.belongs e.id)
  let spotDeck := b.spotOnAir.bind fun (_, p) => p.served.deckNo
  let fillDeck := if b.fillState = .onAir then b.fillServed.deckNo else none
  let s1 := forEach spotDeck.toList (fun d acc => (acc.cutDeck stop d).trailDeck st d) s0
  let s2 := forEach b.indices (fun i acc => acc.dropSpot st e.id i) s1
  let s3 := forEach fillDeck.toList
    (fun d acc => (if early then acc.cutDeck stop d else acc).trailDeck st d) s2
  let s4 := s3.dropFill st e b early
  s4.removeEntry st e.id

/-- The ON_AIR break closes in the period in which its end time is reached (R129). -/
def State.opBreakClose (s : State) (st : StationId) : State :=
  match (s.station st).onAirBreak with
  | none => s
  | some (e, b) =>
    if e.endTime ≤ s.stationTime st then (s.opFillClosing st).closeBreak st e b false else s

end Sys2Proof.Machine
end

