-- ==== Sys2Proof/Machine/Reference.lean ====
section
/-!
DEFINITION. What the reference controller and the links ask of each other (08: R152 to R161; 09: R172 to R175).
-/

namespace Sys2Proof.Machine

/-- The source that paces the period in progress: the old one while a switch to INTERNAL waits (R158). -/
def RefControl.pacing (r : RefControl) : Source := r.switchFrom.getD r.current

/-- The source that counts as current for REF_SELECT and REF_CANCEL: the new one once a lock is complete (R155, R157,
R159). -/
def RefControl.judged (r : RefControl) : Source :=
  match r.bridging with
  | some b => if r.switchFrom.isSome then .internal else b.source
  | none => r.current

/-- The target is still the one whose completed lock the bridging period belongs to: a REF_SELECT would have set another,
or the same one anew with progress 0 (R155, R157). -/
def RefControl.completed (r : RefControl) (b : Bridge) : Bool :=
  r.target == some b.source && r.progress == Config.lockPeriods

/-- The target that counts for requests: none between a completed lock and the end of its bridging period, unless a
REF_SELECT has set one (R155, R157, R159). -/
def RefControl.judgedTarget (r : RefControl) : Option Source :=
  match r.bridging with
  | some b => if r.completed b then none else r.target
  | none => r.target

/-- A link is the current source or the target (R161, R175): in a bridging period the old source, which is current until
its end (R157), and the new one (assumption 19). -/
def RefControl.uses (r : RefControl) (l : LinkId) : Bool :=
  r.current == .link l || r.judged == .link l || r.judgedTarget == some (.link l)

/-- The target is withdrawn with its lock progress (R154, R155, R159, R164). -/
def RefControl.noTarget (r : RefControl) : RefControl := { r with target := none, progress := 0, lastEdge := none }

/-- A target is set with lock progress 0 (R155, R160). -/
def RefControl.withTarget (r : RefControl) (src : Source) (o : Origin) : RefControl :=
  { r with target := some src, origin := o, progress := 0, lastEdge := none }

/-- The preferred source is one the auto-return watch may follow (R160). -/
def State.watchable (s : State) : Source → Bool
  | .internal => false
  | .word => true
  | .link l => (s.link l).active == .slave && (s.link l).mode == .slave

/-- The auto-return watch sets its target while its four conditions hold and there is none (R160). -/
def State.watch (s : State) : State :=
  if s.ref.fallen && s.ref.autoReturn && s.watchable s.ref.preferred && s.ref.target.isNone then
    { s with ref := s.ref.withTarget s.ref.preferred .autoReturn }
  else s

/-- A SLAVE link uses its elastic store unless it paces the periods (R172, R173, R174). -/
def State.usesStore (s : State) (l : LinkId) : Bool := s.ref.pacing != .link l

end Sys2Proof.Machine
end

