-- ==== Sys2Proof/Machine/Answer.lean ====
section
/-!
DEFINITION. How a request is answered (11: R203 to R208): the result codes, the handler's taking of a request and the
placing of its reply.
-/

namespace Sys2Proof.Machine

/-- A result code (R206). -/
def rOK : Byte := 0x00
def rREDUNDANT : Byte := 0x01
def rUNKNOWN_KIND : Byte := 0x10
def rMALFORMED : Byte := 0x11
def rBAD_STATION : Byte := 0x12
def rBAD_STATE : Byte := 0x13
def rBAD_KIND : Byte := 0x14
def rRANGE : Byte := 0x15
def rORDER : Byte := 0x16
def rNOT_FOUND : Byte := 0x17
def rNOT_READY : Byte := 0x18
def rEXISTS : Byte := 0x19
def rLIST_FULL : Byte := 0x1A
def rDIR_FULL : Byte := 0x1B
def rSTORE_FULL : Byte := 0x1C
def rCONFLICT : Byte := 0x1D
def rBREAK_ACTIVE : Byte := 0x1E
def rINCOMPLETE : Byte := 0x1F
def rOUT_OF_ORDER : Byte := 0x20

/-- What the handler does with a request it has judged: a reply, or none yet while an ITEM_DATA's write is awaited
(R203). -/
inductive Answer where
  | reply (code : Byte) (payload : List Byte)
  | held
  deriving DecidableEq, Repr

/-- A refused request changes nothing, and its reply carries no payload (R204, R206). -/
def refuse (s : State) (code : Byte) : State × Answer := (s, .reply code [])

/-- A taken request answered OK. -/
def answerOk (s : State) (payload : List Byte) : State × Answer := (s, .reply rOK payload)

/-- A request that allows only the device field 0xFF and a payload of the length given (R206, R207, R208). -/
def deviceRequest (r : Req) (len : Nat) (s : State) (f : State × Answer) : State × Answer :=
  if r.payload.length ≠ len then refuse s rMALFORMED
  else if r.station ≠ deviceField then refuse s rBAD_STATION
  else f

/-- A request that names a station 0 to 5 and has a payload of the length given (R206, R207, R208). -/
def stationRequest (r : Req) (len : Nat) (s : State) (f : StationId → State × Answer) : State × Answer :=
  if r.payload.length ≠ len then refuse s rMALFORMED
  else
    match stationOf r.station with
    | none => refuse s rBAD_STATION
    | some st => f st

/-- A clear option: 0 or 1 (R208). -/
def clearOf (b : Byte) : Option Bool := if b = 0 then some false else if b = 1 then some true else none

/-- A reply's body (R204). -/
def replyBody (kind : Byte) (r : Req) (code : Byte) (payload : List Byte) : List Byte :=
  (kind ||| 0x80) :: r.tag :: r.station :: code :: payload

/-- The handler may take a request: READY, and no reply waits to begin sending (R203). -/
def State.canTake (s : State) : Bool := s.handler == .ready && !s.replyWaits

/-- The handler after a reply is placed: RESTARTING stays (R203). -/
def Handler.replied : Handler → Handler
  | .restarting => .restarting
  | _ => .ready

/-- The part with a request in the handler's hands (R203). -/
def State.working (s : State) : State := { s with handler := .working }

/-- A request judged and applied is answered: its reply is placed, and what its effects set off in other blocks goes on
after it (R203, R204). -/
def State.replied (s : State) (kind : Byte) (r : Req) (code : Byte) (payload : List Byte) : State :=
  State.settlePool (State.placeReply { s with handler := s.handler.replied } (replyBody kind r code payload))

/-- An ITEM_DATA's write is awaited, its request kept in hand (R203). -/
def State.heldBy (s : State) (kind : Byte) (r : Req) : State :=
  State.settlePool { s with handler := .held, inHand := some ⟨kind, r.tag, r.station, r.payload⟩ }

/-- What follows a request's judgement (R203). -/
def Answer.after (kind : Byte) (r : Req) : State × Answer → State
  | (s, .reply code payload) => s.replied kind r code payload
  | (s, .held) => s.heldBy kind r

/-- The handler takes a request (R203). -/
def State.serve (s : State) (kind : Byte) (r : Req) (h : Req → State → State × Answer) : State :=
  Answer.after kind r (h r s.working)

/-- A message joins the tail of the request queue, or is discarded if the queue holds 16 (R201, R202). -/
def State.enqueue (s : State) (m : Message) : State :=
  if s.queue.length < Config.queueLimit then { s with queue := s.queue ++ [m] }
  else State.raiseDevice { s with badMessages := Count32.succHold s.badMessages } .badMessage

end Sys2Proof.Machine
end

