-- ==== Sys2Proof/Machine/RunList.lean ====
section
/-!
DEFINITION. The run-list editing requests (04: R66 to R73) and their layouts (11: R217).
-/

namespace Sys2Proof.Machine

/-! ## Order, commitment, places -/

/-- The list passes the order of due times (R68): `fl` is the greatest due time or break end ahead. -/
def orderFrom : Nat → List Entry → Bool
  | _, [] => true
  | fl, e :: es =>
    if e.startKind = .hard then decide (fl ≤ e.dueTime) && orderFrom (max fl e.endTime) es else orderFrom fl es

def orderOk (l : List Entry) : Bool := orderFrom 0 l

/-- A not-started entry is committed (R66): PENDING, the target of a pending take wherever it stands until the take acts
(assumption 12), or a HARD entry whose pre-fade has begun, which stays committed until it starts or leaves the list,
through a move to IDLE or FALLBACK too, where the station's pre-fade record is cleared (R96, R104, R139). -/
def Station.isCommitted (x : Station) (e : Entry) : Bool :=
  e.state == .pending || x.take.any (fun tk => tk.target == e.id) || (e.notStarted && e.preFaded)

/-- The place just behind the last committed entry, 0 with none (R69). -/
def Station.behindCommitted (x : Station) : Nat :=
  x.notStarted - (x.waitingList.reverse.takeWhile fun e => !x.isCommitted e).length

/-- The started entries of a list. -/
def Station.startedCount (x : Station) : Nat := x.list.length - x.notStarted

/-- The insert position as stored and raised (R69). -/
def Station.insertPlace (x : Station) (p : Nat) : Nat :=
  max (min p x.notStarted) x.behindCommitted

/-- The list with an entry at a place among the not-started entries (R69). -/
def Station.listWith (x : Station) (p : Nat) (e : Entry) : List Entry :=
  x.list.insertIdx (x.startedCount + p) e

/-! ## ENTRY_INSERT -/

/-- The fixed part of an ENTRY_INSERT and its spots (R217). -/
structure InsertForm where
  position : Nat
  id : Nat
  kind : Nat
  startKind : Option StartKind
  presence : Byte
  count : Nat
  due : Nat
  cart : Nat
  level : Nat
  fadeIn : Nat
  fadeOut : Nat
  duration : Nat
  spots : List (Nat × Nat)
  deriving DecidableEq, Repr

/-- The spot records of an ENTRY_INSERT, 8 bytes each (R217). -/
def spotsFrom (p : List Byte) (n : Nat) : List (Nat × Nat) :=
  (List.range n).map fun i => (field p (31 + 8 * i) 4, field p (35 + 8 * i) 4)

def insertForm (p : List Byte) : InsertForm :=
  { position := field p 0 1, id := field p 1 2, kind := field p 3 1, startKind := startKindOf (field p 4 1),
    presence := byteAt p 5, count := field p 6 1, due := field p 7 6, cart := field p 13 4, level := field p 17 2,
    fadeIn := field p 19 4, fadeOut := field p 23 4, duration := field p 27 4, spots := spotsFrom p (field p 6 1) }

/-- The checks an ITEM passes beside those of every entry (R67). -/
def InsertForm.itemOk (f : InsertForm) : Bool :=
  f.cart != 0 && !hasBit f.presence 4 && !hasBit f.presence 5 && f.count == 0

/-- The checks a BREAK passes beside those of every entry (R67). -/
def InsertForm.breakOk (f : InsertForm) : Bool :=
  f.startKind == some .hard && !hasBit f.presence 1 && !hasBit f.presence 2 && !hasBit f.presence 3 &&
    hasBit f.presence 4 && decide (48000 ≤ f.duration) && decide (f.duration ≤ 28800000) &&
    decide (f.due + f.duration < Config.timeModulus) && f.count != 0 && decide (f.count ≤ 12) &&
    f.spots.all (fun q => q.1 != 0) && (!hasBit f.presence 5 || f.cart != 0)

/-- The RANGE check of ENTRY_INSERT passes (R67, R215, R217). -/
def InsertForm.inRange (f : InsertForm) : Bool :=
  f.id != 0 && f.startKind.isSome && f.presence &&& 0xC0 == 0 &&
    (f.startKind == some .hard) == hasBit f.presence 0 &&
    match f.kind with
    | 0 => f.itemOk
    | 1 => f.breakOk
    | _ => false

def clampLevel (v : Nat) : Nat := min v Config.unity

def clampFade (v : Nat) : Nat := min v Config.maxFade

/-- A field that a presence bit marks (R215). -/
def presentIf (b : Bool) (v : Nat) : Option Nat := if b then some v else none

/-- The new spot of a break (R64, R111). -/
def Spot.fresh (q : Nat × Nat) : Spot :=
  { cart := q.1, ref := q.2, plan := .unplanned, state := .waiting, planned := none, served := .none, cut := false,
    startTime := 0 }

def InsertForm.body (f : InsertForm) : Body :=
  if f.kind = 0 then .item f.cart
  else
    .brk
      { duration := f.duration, spots := f.spots.map Spot.fresh, fillCart := presentIf (hasBit f.presence 5) f.cart,
        join := none, gap := 0, fillUsed := none, fillPlanned := none, fillServed := .none, fillState := .none,
        fillStart := 0, fillResolved := false, fillDue := false }

/-- The new entry: WAITING, served-by none, lateness absent (R69), with the clamps of R67. -/
def InsertForm.entry (f : InsertForm) : Entry :=
  { id := f.id, startKind := f.startKind.getD .segue, due := presentIf (hasBit f.presence 0) f.due,
    level := presentIf (hasBit f.presence 1) (clampLevel f.level),
    fadeIn := presentIf (hasBit f.presence 2) (clampFade f.fadeIn),
    fadeOut := presentIf (hasBit f.presence 3) (clampFade f.fadeOut),
    state := .waiting, served := .none, lateness := none, startTime := 0, cut := false,
    preFaded := false, body := f.body }

/-- The stored level and fades, as replies carry them (R69, R71, R208). -/
def Entry.storedBytes (e : Entry) : List Byte := optBytes 2 e.level ++ optBytes 4 e.fadeIn ++ optBytes 4 e.fadeOut

/-- The insert, taken (R69). -/
def State.insertEntry (s : State) (st : StationId) (f : InsertForm) : State :=
  let x := s.station st
  ((s.modStation st fun y => { y with list := x.listWith (x.insertPlace f.position) f.entry }).markDirty st).evalLow st

def handleEntryInsert (r : Req) (s : State) : State × Answer :=
  let f := insertForm r.payload
  stationRequest r (31 + 8 * f.count) s fun st =>
    let x := s.station st
    let place := x.insertPlace f.position
    if !f.inRange then refuse s rRANGE
    else if f.entry.due.isSome && !orderOk (x.listWith place f.entry) then refuse s rORDER
    else if (x.find f.id).isSome then refuse s rEXISTS
    else if Config.listLimit ≤ x.list.length then refuse s rLIST_FULL
    else
      answerOk (s.insertEntry st f)
        (toBytes 1 (x.startedCount + place) ++ toBytes 1 (x.notStarted + 1) ++ f.entry.storedBytes)

/-! ## ENTRY_REMOVE -/

/-- A taken TAKE whose target has left the list at a request keeps its cut and has no entry left to skip to, also where
the id comes again before it acts (R73, R85; assumption 50). -/
def State.takesGone (s : State) (st : StationId) (gone : List Entry) : State :=
  { s with
    deferred := s.deferred.map fun p =>
      match p.2 with
      | .take id => if p.1 = st ∧ (gone.any fun e => e.id == id) = true then (st, .cut) else p
      | _ => p }

/-- An entry ENTRY_REMOVE may not take (R70). -/
def Station.fixedEntry (x : Station) (e : Entry) : Bool :=
  e.state == .onAir || e.state == .ending || e.state == .pending || x.isCommitted e

def handleEntryRemove (r : Req) (s : State) : State × Answer :=
  stationRequest r 2 s fun st =>
    match (s.station st).find (field r.payload 0 2) with
    | none => refuse s rNOT_FOUND
    | some e =>
      if (s.station st).fixedEntry e then refuse s rBAD_STATE
      else
        let s1 := (s.dropEntry st e).takesGone st [e]
        answerOk s1 (toBytes 1 (s1.station st).notStarted)

/-! ## ENTRY_AMEND -/

/-- An amendment's action on one field (R71). -/
inductive Action where
  | leave
  | set (v : Nat)
  | absent
  deriving DecidableEq, Repr

/-- The action byte and value at an offset (R208): none where the byte is no action. -/
def actionAt (p : List Byte) (o n : Nat) : Option Action :=
  match field p o 1 with
  | 0 => some .leave
  | 1 => some (.set (field p (o + 1) n))
  | 2 => some .absent
  | _ => none

def Action.changes : Option Action → Bool
  | some .leave => false
  | some (.set _) => true
  | some .absent => true
  | none => false

def Action.sets : Option Action → Bool
  | some (.set _) => true
  | _ => false

def Action.on (f : Nat → Nat) (old : Option Nat) : Option Action → Option Nat
  | some .leave => old
  | some (.set v) => some (f v)
  | some .absent => none
  | none => old

/-- The four actions of an ENTRY_AMEND (R71). -/
structure AmendForm where
  id : Nat
  level : Option Action
  fadeIn : Option Action
  fadeOut : Option Action
  due : Option Action
  deriving DecidableEq, Repr

def amendForm (p : List Byte) : AmendForm :=
  { id := field p 0 2, level := actionAt p 2 2, fadeIn := actionAt p 5 4, fadeOut := actionAt p 10 4,
    due := actionAt p 15 6 }

def AmendForm.codesOk (f : AmendForm) : Bool :=
  f.level.isSome && f.fadeIn.isSome && f.fadeOut.isSome && f.due.isSome

/-- BAD_KIND (R71 step 2). -/
def AmendForm.badKind (f : AmendForm) (e : Entry) : Bool :=
  (e.isBreak && (Action.changes f.level || Action.changes f.fadeIn || Action.changes f.fadeOut)) ||
    (Action.sets f.due && e.startKind != .hard)

/-- The amended entry, all actions together with the clamps of R67 (R71). -/
def AmendForm.apply (f : AmendForm) (e : Entry) : Entry :=
  { e with
    level := Action.on clampLevel e.level f.level
    fadeIn := Action.on clampFade e.fadeIn f.fadeIn
    fadeOut := Action.on clampFade e.fadeOut f.fadeOut
    due := Action.on (fun v => v) e.due f.due }

/-- The list as it would stand (R68, R71). -/
def Station.amended (x : Station) (f : AmendForm) : List Entry :=
  x.list.map fun e => if e.id = f.id then f.apply e else e

/-- A break's waiting arming request is withdrawn (R114). -/
def State.withdrawArming (s : State) (st : StationId) (id : Nat) : State :=
  (s.withdraw st fun t => t == .fill id || Target.belongs id t && t != .item id).modBreak st id fun b =>
    { b with
      spots := b.spots.map fun p => { p with served := p.served.withdrawn }
      fillServed := b.fillServed.withdrawn }

/-- The amendment, taken (R71): the station re-evaluates, as after every editing request (R75). An action that sets the due
time counts as a change of it, also where the value set is the one that stands (R114; assumption 36). -/
def State.amendEntry (s : State) (st : StationId) (f : AmendForm) : State :=
  let s1 := s.modStation st fun x => { x with list := x.amended f }
  (if Action.sets f.due then s1.withdrawArming st f.id else s1).markDirty st

def handleEntryAmend (r : Req) (s : State) : State × Answer :=
  stationRequest r 22 s fun st =>
    let f := amendForm r.payload
    let x := s.station st
    match x.find f.id with
    | none => if f.codesOk then refuse s rNOT_FOUND else refuse s rRANGE
    | some e =>
      if e.state ≠ .waiting ∨ x.isCommitted e then refuse s rBAD_STATE
      else if f.badKind e then refuse s rBAD_KIND
      else if !f.codesOk ∨ (e.startKind = .hard ∧ f.due = some .absent) then refuse s rRANGE
      else if Action.sets f.due && !orderOk (x.amended f) then refuse s rORDER
      else answerOk (s.amendEntry st f) ((f.apply e).storedBytes ++ optBytes 6 (f.apply e).due)

/-! ## LIST_READ -/

/-- The duration a BREAK carries. -/
def Entry.duration (e : Entry) : Option Nat :=
  match e.body with
  | .item _ => none
  | .brk b => some b.duration

def Entry.fillCart (e : Entry) : Option Nat :=
  match e.body with
  | .item _ => none
  | .brk b => b.fillCart

/-- The spots of an entry, none of an ITEM. -/
def Entry.spots (e : Entry) : List Spot :=
  match e.body with
  | .item _ => []
  | .brk b => b.spots

/-- The cart field: an ITEM's cart, a BREAK's fill cart or 0 (R217). -/
def Entry.cartField (e : Entry) : Nat :=
  match e.body with
  | .item c => c
  | .brk b => b.fillCart.getD 0

/-- The fixed part of an entry record (R217). -/
def Entry.fixedPart (e : Entry) : List Byte :=
  toBytes 2 e.id ++
    [if e.isBreak then 1 else 0, startKindByte e.startKind,
      presence [e.due.isSome, e.level.isSome, e.fadeIn.isSome, e.fadeOut.isSome, e.isBreak, e.fillCart.isSome]] ++
    toBytes 1 e.spots.length ++ toBytes 6 (e.due.getD 0) ++ toBytes 4 e.cartField ++ toBytes 2 (e.level.getD 0) ++
    toBytes 4 (e.fadeIn.getD 0) ++ toBytes 4 (e.fadeOut.getD 0) ++ toBytes 4 (e.duration.getD 0)

/-- The status part (R217): a BREAK's served-by is 0xFF. -/
def Entry.statusPart (e : Entry) : List Byte :=
  [entryStateByte e.state, if e.isBreak then 0xFF else servedByte e.served, flagByte e.lateness.isSome] ++
    intBytes 6 (e.lateness.getD 0)

/-- A spot as LIST_READ gives it (R217). -/
def Spot.record (p : Spot) : List Byte := toBytes 4 p.cart ++ toBytes 4 p.ref ++ [planByte p.plan, spotStateByte p.state]

def Entry.record (e : Entry) : List Byte := e.fixedPart ++ e.statusPart ++ e.spots.flatMap Spot.record

def handleListRead (r : Req) (s : State) : State × Answer :=
  stationRequest r 1 s fun st =>
    let p := field r.payload 0 1
    let x := s.station st
    let got := (x.list.drop p).take 8
    if 63 < p then refuse s rRANGE
    else
      answerOk s
        (toBytes 1 x.list.length ++ toBytes 1 x.notStarted ++ toBytes 1 got.length ++ got.flatMap Entry.record)

/-! ## LIST_CLEAR -/

/-- The clear (R73): each not-started entry leaves with its requests and decks; the take goes without a condition. -/
def State.clearList (s : State) (st : StationId) : State :=
  let s1 := s.modStation st fun x => { x with take := none, due := none, preFade := none, dirty := true }
  let gone := (s.station st).waitingList
  let s2 := s1.withdraw st fun t => gone.any fun e => Target.belongs e.id t
  (forEach gone (fun e acc => acc.dropEntry st e) s2).takesGone st gone

def handleListClear (r : Req) (s : State) : State × Answer :=
  stationRequest r 0 s fun st => answerOk (s.clearList st) (toBytes 1 (s.station st).notStarted)

end Sys2Proof.Machine
end

