-- ==== Sys2Proof/Machine/StationReq.lean ====
section
/-!
DEFINITION. The station requests (05: R86, R87, R99 to R108; 07: R138, R140). What a request changes at once is its
mode, left mode, offset and take target; what it does in sample periods is noted for the next boundary (R85).
-/

namespace Sys2Proof.Machine

/-- Notes what a taken request does from the next period on (R85). -/
def State.defer (s : State) (st : StationId) (d : Deferred) : State := { s with deferred := s.deferred ++ [(st, d)] }

/-! ## STATION_SET -/

/-- The action on a setting: leave or set; 2 only where the setting can be absent (R86, R208). -/
def settingAt (p : List Byte) (o n : Nat) : Option Action :=
  match actionAt p o n with
  | some .absent => none
  | a => a

/-- The value of a setting after its action, clamped to its range (R86). -/
def Action.apply (lo hi old : Nat) : Option Action → Nat
  | some (.set v) => max lo (min v hi)
  | _ => old

/-- A cart setting given as cart number 0 (R86). -/
def Action.zeroCart : Option Action → Bool
  | some (.set 0) => true
  | _ => false

/-- The eleven actions of a STATION_SET (R86). -/
structure SetForm where
  outLevel : Option Action
  hardFade : Option Action
  stopFade : Option Action
  breakFade : Option Action
  armHorizon : Option Action
  lateTolerance : Option Action
  threshold : Option Action
  window : Option Action
  fallbackCart : Option Action
  fillCart : Option Action
  lowMark : Option Action
  deriving DecidableEq, Repr

def setForm (p : List Byte) : SetForm :=
  { outLevel := settingAt p 0 2, hardFade := settingAt p 3 4, stopFade := settingAt p 8 4, breakFade := settingAt p 13 4,
    armHorizon := settingAt p 18 4, lateTolerance := settingAt p 23 4, threshold := settingAt p 28 2,
    window := settingAt p 31 4, fallbackCart := actionAt p 36 4, fillCart := actionAt p 41 4,
    lowMark := settingAt p 46 1 }

/-- The RANGE check of STATION_SET passes (R86, R208). -/
def SetForm.inRange (f : SetForm) : Bool :=
  f.outLevel.isSome && f.hardFade.isSome && f.stopFade.isSome && f.breakFade.isSome && f.armHorizon.isSome &&
    f.lateTolerance.isSome && f.threshold.isSome && f.window.isSome && f.fallbackCart.isSome && f.fillCart.isSome &&
    f.lowMark.isSome && !Action.zeroCart f.fallbackCart && !Action.zeroCart f.fillCart

/-- The settings as stored, all actions applied together (R86). -/
def SetForm.apply (f : SetForm) (c : Settings) : Settings :=
  { outLevel := Action.apply 0 Config.unity c.outLevel f.outLevel
    hardFade := Action.apply 0 Config.maxFade c.hardFade f.hardFade
    stopFade := Action.apply 0 Config.maxFade c.stopFade f.stopFade
    breakFade := Action.apply 0 Config.maxFade c.breakFade f.breakFade
    armHorizon := Action.apply 48000 2880000 c.armHorizon f.armHorizon
    lateTolerance := Action.apply 0 480000 c.lateTolerance f.lateTolerance
    threshold := Action.apply 0 32767 c.threshold f.threshold
    window := Action.apply 48000 2880000 c.window f.window
    fallbackCart := Action.on (fun v => v) c.fallbackCart f.fallbackCart
    fillCart := Action.on (fun v => v) c.fillCart f.fillCart
    lowMark := Action.apply 0 63 c.lowMark f.lowMark }

/-- Every setting as stored (R86, R208). -/
def Settings.bytes (c : Settings) : List Byte :=
  toBytes 2 c.outLevel ++ toBytes 4 c.hardFade ++ toBytes 4 c.stopFade ++ toBytes 4 c.breakFade ++
    toBytes 4 c.armHorizon ++ toBytes 4 c.lateTolerance ++ toBytes 2 c.threshold ++ toBytes 4 c.window ++
    optBytes 4 c.fallbackCart ++ optBytes 4 c.fillCart ++ toBytes 1 c.lowMark

/-- The settings stored, with what each changed setting sets off (R87). -/
def State.applySettings (s : State) (st : StationId) (c : Settings) : State :=
  let old := (s.station st).cfg
  let s1 := s.modStation st fun x => { x with cfg := c }
  let s2 := if c.armHorizon = old.armHorizon then s1 else s1.markDirty st
  let s3 := if c.lowMark = old.lowMark then s2 else s2.evalLow st
  if c.fallbackCart = old.fallbackCart then s3 else s3.bedCheck st

def handleStationSet (r : Req) (s : State) : State × Answer :=
  stationRequest r 48 s fun st =>
    let f := setForm r.payload
    let c := f.apply (s.station st).cfg
    if f.inRange then answerOk (s.applySettings st c) c.bytes else refuse s rRANGE

/-! ## STATION_MODE -/

/-- What the change of mode does from the next period on (R104, R105, R139). -/
def modeAction (old new : Mode) (dropTake : Bool) : Deferred :=
  match old, new with
  | _, .fallback => .fallback dropTake
  | .fallback, .idle => .toIdle true dropTake
  | _, .idle => .toIdle false dropTake
  | .auto, .manual => .autoToManual
  | .manual, .auto => .manualToAuto
  | _, _ => .leaveIdle

/-- The move to a mode that withdraws a pending take: IDLE and FALLBACK (R102). -/
def Mode.ends : Mode → Bool
  | .idle => true
  | .fallback => true
  | .auto => false
  | .manual => false

/-- The change of mode as it is taken (R85, R104, R140). -/
def State.changeMode (s : State) (st : StationId) (m : Mode) : State :=
  let x := s.station st
  let s1 := if m.ends then s.withdrawTake st else s
  let s2 := s1.modStation st fun y =>
    { y with mode := m, leftMode := if m = .fallback then some x.mode else none, silenceDue := false }
  s2.defer st (modeAction x.mode m (m.ends && x.take.isSome))

def handleStationMode (r : Req) (s : State) : State × Answer :=
  stationRequest r 1 s fun st =>
    let old := (s.station st).mode
    match modeOf (field r.payload 0 1) with
    | none => refuse s rRANGE
    | some m =>
      if old = .fallback ∧ (m = .auto ∨ m = .manual) then refuse s rBAD_STATE
      else if old = m then (s, .reply rREDUNDANT [])
      else answerOk (s.changeMode st m) []

/-! ## STATION_STATUS -/

/-- An optional id with a station time (R107, R208). -/
def idTimeBytes : Option (Nat × Nat) → List Byte
  | none => 0 :: (toBytes 2 0 ++ toBytes 6 0)
  | some (i, t) => 1 :: (toBytes 2 i ++ toBytes 6 t)

/-- The ids of the ENDING entries. -/
def Station.endingIds (x : Station) : List Nat := (x.list.filter fun e => e.state == .ending).map Entry.id

/-- What STATION_STATUS returns (R107, in its order). -/
def State.statusBytes (s : State) (st : StationId) : List Byte :=
  let x := s.station st
  modeByte x.mode :: optBytes 1 (x.leftMode.map fun m => (modeByte m).toNat) ++ toBytes 6 (s.stationTime st) ++
    toBytes 1 x.list.length ++ toBytes 1 x.notStarted ++ optBytes 2 (x.onAir.map Entry.id) ++
    toBytes 1 x.endingIds.length ++ x.endingIds.flatMap (toBytes 2) ++
    toBytes 1 (s.held st).length ++ (s.held st).flatMap (fun d => toBytes 1 d.val) ++ toBytes 1 x.requests.length ++
    idTimeBytes (x.take.map fun k => (k.target, k.time)) ++ idTimeBytes (x.preFade.map fun p => (p.id, p.due)) ++
    optBytes 6 (x.due.map DueMoment.time) ++ toBytes 4 x.silence ++ toBytes 4 x.clips.toNat

def handleStationStatus (r : Req) (s : State) : State × Answer :=
  stationRequest r 1 s fun st =>
    match clearOf (byteAt r.payload 0) with
    | none => refuse s rRANGE
    | some c => answerOk (if c then s.modStation st fun x => { x with clips := 0 } else s) (s.statusBytes st)

/-! ## TAKE and TAKE_CANCEL -/

/-- The entry a TAKE acts on: the named one, or the first not-started one (R99). -/
def Station.takeEntry (x : Station) (named : Option Nat) : Option Entry :=
  match named with
  | some id => x.find id
  | none => x.waitingList.head?

/-- A TAKE's BAD_STATE (R99 step 1). -/
def Station.takeBadState (x : Station) (named : Option Nat) : Bool :=
  !x.airs || x.preFade.isSome || x.onAirBreak.isSome ||
    (named.bind x.find).any fun e => e.state == .ending

/-- A TAKE's ORDER: a not-started HARD entry stands ahead of the named one (R99 step 3). -/
def Station.takeBehindHard (x : Station) (e : Entry) : Bool :=
  e.notStarted && (x.waitingList.takeWhile fun y => y.id != e.id).any fun y => y.startKind == .hard

/-- A TAKE's NOT_READY (R99 step 5). -/
def State.takeNotReady (s : State) (st : StationId) (e : Entry) : Bool :=
  e.served == .none && (s.lookup st e.cart).isNone

/-- The TAKE, taken (R85, R100). The period recorded is the next one's station time by the offset of this moment; that a
SET_TIME taken behind it leaves the record is the model's choice (assumption 48). -/
def State.takeEntry (s : State) (st : StationId) (e : Entry) : State :=
  (s.modStation st fun x => { x with take := some ⟨e.id, s.nextTime st⟩ }).defer st (.take e.id)

/-- TAKE in the order of R99 and R206. An action byte that is no code names no entry, so BAD_KIND is judged by the first
not-started entry before the byte is refused RANGE: the model's choice (assumption 49). -/
def handleTake (r : Req) (s : State) : State × Answer :=
  stationRequest r 3 s fun st =>
    let x := s.station st
    let act := field r.payload 0 1
    let named := if act = 1 then some (field r.payload 1 2) else none
    let target := x.takeEntry named
    if x.takeBadState named then refuse s rBAD_STATE
    else if target.any (fun e => e.startKind == .hard) then refuse s rBAD_KIND
    else if 1 < act then refuse s rRANGE
    else
      match target with
      | none => refuse s rNOT_FOUND
      | some e =>
        if x.takeBehindHard e then refuse s rORDER
        else if s.takeNotReady st e then refuse s rNOT_READY
        else if e.state = .onAir ∨ x.take.any (fun k => k.target == e.id) then (s, .reply rREDUNDANT [])
        else answerOk (s.takeEntry st e) []

def handleTakeCancel (r : Req) (s : State) : State × Answer :=
  stationRequest r 0 s fun st =>
    if (s.station st).take.isSome then answerOk (s.withdrawTake st) [] else (s, .reply rREDUNDANT [])

/-! ## STOP and RESUME -/

/-- An entry is sounding: ON_AIR or ENDING. -/
def Station.sounding (x : Station) : Bool := x.list.any fun e => e.state == .onAir || e.state == .ending

/-- STOP, taken (R103). -/
def State.stopStation (s : State) (st : StationId) : State :=
  let auto := (s.station st).mode == .auto
  ((s.withdrawTake st).modStation st fun x => { x with mode := .manual }).defer st (.stop auto)

def handleStop (r : Req) (s : State) : State × Answer :=
  stationRequest r 0 s fun st =>
    let x := s.station st
    if x.mode = .fallback ∨ x.onAirBreak.isSome then refuse s rBAD_STATE
    else if x.mode = .idle ∨ (x.mode = .manual ∧ x.sounding = false ∧ x.take = none) then (s, .reply rREDUNDANT [])
    else answerOk (s.stopStation st) []

/-- RESUME, taken: the left mode at once, the rest from the next period (R85, R106). -/
def State.resumeStation (s : State) (st : StationId) : State :=
  let left := (s.station st).leftMode.getD .idle
  (s.modStation st fun x => { x with mode := left, leftMode := none }).defer st (.resume left)

def handleResume (r : Req) (s : State) : State × Answer :=
  stationRequest r 0 s fun st =>
    if (s.station st).mode = .fallback then answerOk (s.resumeStation st) [] else refuse s rBAD_STATE

/-! ## SET_TIME -/

/-- The stations a SET_TIME names (R108). -/
def namedStations (b : Byte) : Option (List StationId) :=
  if b = deviceField then some allStations else (stationOf b).map fun st => [st]

/-- A break of the station is ARMED or ON_AIR (R108). -/
def Station.breakActive (x : Station) : Bool :=
  x.list.any fun e => e.isBreak && (e.state == .armed || e.state == .onAir)

/-- One station's new offset (R150), and its re-evaluation in the next period (R108). -/
def State.setTime (s : State) (st : StationId) (v : Nat) : State :=
  (s.modStation st fun x => { x with offset := BitVec.ofNat 48 v - (s.house + 1) }).defer st .reevaluate

/-- SET_TIME (R108). A break that a taken entry to FALLBACK is still to close or stand down refuses it until the boundary,
though R141 has SET_TIME taken in FALLBACK: the model's choice (assumption 62). -/
def handleSetTime (r : Req) (s : State) : State × Answer :=
  if r.payload.length ≠ 6 then refuse s rMALFORMED
  else
    match namedStations r.station with
    | none => refuse s rBAD_STATION
    | some sts =>
      let v := field r.payload 0 6
      if sts.any fun st => (s.station st).breakActive then refuse s rBREAK_ACTIVE
      else answerOk (forEach sts (fun st acc => acc.setTime st v) s) (toBytes 6 v)

end Sys2Proof.Machine
end

