-- ==== Sys2Proof/Machine/Deferred.lean ====
section
/-!
DEFINITION. What taken station requests and the silence monitor's order do in the first period after them (05: R100,
R103 to R106, R108; 06: R117; 07: R137, R139, R144).
-/

namespace Sys2Proof.Machine

/-! ## Entries and decks let go -/

/-- An unstarted spot returns to WAITING with no deck (R79, R117). -/
def Spot.stoodDown (p : Spot) : Spot :=
  { p with served := .none, state := if p.state = .armed ∨ p.state = .pending then .waiting else p.state }

/-- A break's spots and fill return to WAITING (R117). -/
def BreakData.stoodDown (b : BreakData) : BreakData :=
  { b with
    spots := b.spots.map Spot.stoodDown
    fillServed := .none
    fillState := if b.fillState = .armed ∨ b.fillState = .pending then .waiting else b.fillState }

/-- A not-started entry returns to WAITING with served-by none (R79, R104, R139). -/
def Entry.stoodDown (e : Entry) : Entry :=
  if e.notStarted then
    { e with
      state := .waiting
      served := .none
      body :=
        match e.body with
        | .item c => .item c
        | .brk b => .brk b.stoodDown }
  else e

/-- The decks of ARMED and PENDING entries are released, the waiting requests withdrawn, and the entries return to
WAITING (R79, R104, R117, R139). -/
def State.standDown (s : State) (st : StationId) : State :=
  let decks := (s.station st).waitingList.flatMap Entry.serving
  let s1 := s.withdraw st fun _ => true
  let s2 := s1.modStation st fun x => { x with list := x.list.map Entry.stoodDown, due := none }
  forEach decks (fun v acc => acc.freeServed v) s2

/-- An ON_AIR break closes early (R131). -/
def State.closeEarly (s : State) (st : StationId) : State :=
  match (s.station st).onAirBreak with
  | none => s
  | some (e, b) => s.closeBreak st e b true

/-- The bed player of a station that leaves FALLBACK (R106 step 2, R144). -/
def State.bedLeave (s : State) (st : StationId) : State :=
  let s1 := s.setBed st { s.bed st with airWanted := false, spent := false }
  let s2 := s1.modStation st fun x => { x with stayStart := none }
  (s2.cutBed st (s.station st).cfg.stopFade).bedTryBind st

/-- The silence counter becomes 0 at a taken mode change (R136). -/
def State.resetSilence (s : State) (st : StationId) : State := s.modStation st fun x => { x with silence := 0 }

/-- TAKE_DROPPED for a take that a mode change withdrew (R102). -/
def State.raiseDropped (s : State) (st : StationId) (b : Bool) : State :=
  if b then s.raiseStation st .takeDropped else s

/-- A later TAKE of the station is still to act (R85: the actions come in the order in which the requests came). -/
def State.takeToCome (s : State) (st : StationId) : Bool :=
  s.deferred.any fun p =>
    p.1 == st &&
      match p.2 with
      | .take _ => true
      | _ => false

/-! ## The actions -/

/-- The move to IDLE (R104). The pre-fade record goes and the hard entry stays committed (R66, R96). -/
def State.actIdle (s : State) (st : StationId) (fromFallback dropTake : Bool) : State :=
  let s1 := (s.resetSilence st).raiseDropped st dropTake
  let s2 := if s1.takeToCome st then s1 else s1.dropTake st
  let s3 := s2.modStation st fun x => { x with preFade := none, due := none }
  let s4 := if fromFallback then s3.bedLeave st else s3
  let s5 := (s4.closeEarly st).cutSounding st (s4.station st).cfg.stopFade
  (s5.standDown st).markDirty st

/-- Entry to FALLBACK (R139). The pre-fade record goes and the hard entry stays committed (R66, R96). -/
def State.actFallback (s : State) (st : StationId) (dropTake : Bool) : State :=
  let s1 := (s.resetSilence st).raiseDropped st dropTake
  let s2 := if s1.takeToCome st then s1 else s1.dropTake st
  let s3 := s2.modStation st fun x => { x with stayStart := some s.house, preFade := none, due := none }
  let s4 := (s3.closeEarly st).cutSounding st (s3.station st).cfg.stopFade
  let s5 := s4.standDown st
  let s6 := s5.setBed st { s5.bed st with airWanted := true }
  (s6.raiseStation st .fallback).markDirty st

/-- AUTO to MANUAL (R105): an entry PENDING by its start kind returns, a pending take and a PENDING HARD entry stay. -/
def State.actManual (s : State) (st : StationId) : State :=
  let x := s.station st
  let s1 := (s.resetSilence st).markDirty st
  match x.waitingList.head? with
  | none => s1
  | some e =>
    if e.state = .pending ∧ e.startKind ≠ .hard ∧ x.take.all (fun k => k.target != e.id) then
      (s1.modEntry st e.id Entry.returned).modStation st fun y => { y with due := none }
    else s1

/-- IDLE to AUTO or MANUAL (R105). Behind it in one interval a move back to IDLE or to FALLBACK leaves of it the skips of
past breaks (assumption 63). -/
def State.actLeaveIdle (s : State) (st : StationId) : State :=
  (((s.resetSilence st).skipPastBreaks st).judgeTooLate st).markDirty st

/-- The target of a take, where it has no deck and no request, asks for a deck at once (R100): below the cap, and ahead of
every candidate of a re-evaluation. -/
def State.requestTaken (s : State) (st : StationId) (id : Nat) : State :=
  match (s.station st).find id with
  | none => s
  | some e =>
    if e.served ≠ .none then s
    else
      match s.lookup st e.cart with
      | none => s
      | some x => s.requestDeck st (.item id) x.slot false (s.stationTime st)

/-- The first not-started entry, when RESUME takes it (R106 step 6). -/
def State.resumeTarget (s : State) (st : StationId) : Option Entry :=
  match (s.station st).waitingList.head? with
  | none => none
  | some e => if e.startKind ≠ .hard ∧ (s.lookup st e.cart).isSome then some e else none

/-- The take RESUME makes (R106 steps 5 and 6); a TAKE sent behind the RESUME keeps its own target (R85). It is recorded
here and not when the RESUME is taken, so a TAKE_CANCEL behind the RESUME, or a STOP in MANUAL with nothing sounding, is
REDUNDANT and the take is still made: the model's choice (assumption 59). -/
def State.resumeTake (s : State) (st : StationId) : State :=
  if (s.preFadeDue st).isSome ∨ (s.station st).airs = false then s
  else
    match s.resumeTarget st with
    | none => s
    | some e =>
      let s1 := (s.modStation st fun x => { x with take := x.take <|> some ⟨e.id, s.stationTime st⟩ }).cutSounding st
        (s.station st).cfg.stopFade
      if (s1.station st).take.any (fun k => k.target == e.id) then s1.requestTaken st e.id else s1

/-- RESUME (R106). Where a STATION_MODE to IDLE or FALLBACK stands behind it in its interval, the mode is that one already
(R85), and the RESUME skips past breaks but judges no HARD item and makes no take: the model's choice (assumption 63). -/
def State.actResume (s : State) (st : StationId) (left : Mode) : State :=
  let s1 := ((s.resetSilence st).bedLeave st).markDirty st
  if left = .idle then s1
  else ((((s1.skipPastBreaks st).judgeTooLate st).markDirty st).settlePool).resumeTake st

/-- STOP (R103): the cut, and in AUTO the change to MANUAL. -/
def State.actStop (s : State) (st : StationId) (fromAuto : Bool) : State :=
  let s1 := if s.takeToCome st then s else s.withdrawTake st
  let s2 := s1.cutSounding st (s.station st).cfg.stopFade
  if fromAuto then s2.actManual st else s2

/-- Where the skips of a taken TAKE end: at its own target, or at the target of a TAKE taken behind it in the interval
that names an entry ahead of its own. R101 has the new target stand behind the old one; here the later TAKE wins
(assumption 51). -/
def Station.skipsTo (x : Station) (id : Nat) : Nat :=
  ((x.waitingList.find? fun e => e.id == id || x.take.any fun k => k.target == e.id).map Entry.id).getD id

/-- A taken TAKE (R100, R101): the skips and the cut; the target, returned from an earlier due moment, asks for a deck
where nothing serves it, and is judged in this period as due by the take. -/
def State.actTake (s : State) (st : StationId) (id : Nat) : State :=
  let s1 := (s.skipAhead st ((s.station st).skipsTo id)).cutSounding st (s.station st).cfg.stopFade
  if (s1.station st).take.any (fun k => k.target == id) then
    ((s1.modEntry st id Entry.returned).modStation st fun x => { x with due := none, dirty := true }).requestTaken st id
  else s1

/-- One action (R85). The re-evaluation behind a SET_TIME (R108) comes with the actions, ahead of the period's judgement
and pre-fade (assumption 46). -/
def State.act (s : State) (st : StationId) : Deferred → State
  | .toIdle f d => s.actIdle st f d
  | .fallback d => s.actFallback st d
  | .autoToManual => s.actManual st
  | .manualToAuto => (s.resetSilence st).markDirty st
  | .leaveIdle => s.actLeaveIdle st
  | .resume left => s.actResume st left
  | .stop a => s.actStop st a
  | .take id => s.actTake st id
  | .cut => s.cutSounding st (s.station st).cfg.stopFade
  | .reevaluate => s.markDirty st

/-- One action after another, each with the re-evaluations it sets off. Where a RESUME stands behind the entry of an order
or a STATION_MODE FALLBACK of its interval, the station has its left mode already (R85), so the entry's re-evaluation
asks for decks, which R139 has none ask for, before the RESUME deals with breaks and HARD items (R106): the model's
choice (assumption 58). -/
def deferredLoop : Nat → State → State
  | 0, s => s
  | n + 1, s =>
    match s.deferred with
    | [] => s
    | (st, d) :: rest => deferredLoop n (State.settlePool (State.act { s with deferred := rest } st d))

/-- The actions of the requests taken since the last boundary, in their order (R85). That they come ahead of every event
of the period that begins, and of a restart that acts in it, is the model's choice (assumption 46). -/
def State.runDeferred (s : State) : State := deferredLoop s.deferred.length s

/-! ## The silence order -/

/-- The entry id and cart a SILENCE fault carries (R137). -/
def Station.silenceSource (x : Station) : Nat × Nat :=
  match x.onAir with
  | some e =>
    match e.body with
    | .item c => (e.id, c)
    | .brk b =>
      match b.spotOnAir with
      | some (_, p) => (e.id, p.cart)
      | none => (e.id, if b.fillState = .onAir then b.fillUsed.getD 0 else 0)
  | none =>
    match x.waitingList.head? with
    | some e => if e.state = .pending then (e.id, e.cart) else (0, 0)
    | none => (0, 0)

/-- The monitor orders the station into FALLBACK, from the next period (R137). The fault's time is reckoned here, and a
SET_TIME taken behind the order leaves it (R108): the model's choice (assumption 57). -/
def State.silenceOrder (s : State) (st : StationId) : State :=
  let x := s.station st
  if !x.silenceDue || !x.airs then s.modStation st fun y => { y with silenceDue := false }
  else
    let s1 := s.reportFault st .silence x.silenceSource.1 x.silenceSource.2 (s.nextTime st)
    let s2 := (s1.withdrawTake st).modStation st fun y =>
      { y with mode := .fallback, leftMode := some x.mode, silenceDue := false }
    s2.defer st (.fallback x.take.isSome)

end Sys2Proof.Machine
end

