-- ==== Sys2Proof/Machine/LogReq.lean ====
section
/-!
DEFINITION. The requests to the as-run log, the fault records and the condition unit (10: R186, R188, R191, R192), and
the requests of the control link itself (11: R209 to R211).
-/

namespace Sys2Proof.Machine

/-! ## ASRUN_FETCH -/

/-- An owner-used code (R215). -/
def usedOwnerByte : Option Used → Byte
  | none => 0xFE
  | some u => ownerByte u.owner

def usedCategoryByte : Option Used → Byte
  | none => 0xFE
  | some u => categoryByte u.category

/-- A 32-bit count as reported (R218). -/
def count32 (n : Nat) : List Byte := toBytes 4 (min n 4294967295)

/-- The as-run record (R218). -/
def Record.bytes (x : Record) : List Byte :=
  toBytes 4 x.seq.toNat ++ [BitVec.ofNat 8 x.station.val, outcomeByte x.outcome] ++ toBytes 2 x.entryId ++
    [presence [x.spotRef.isSome, x.scheduled.isSome, x.lateness.isSome], usedOwnerByte x.used,
      usedCategoryByte x.used] ++
    toBytes 4 x.cart ++ toBytes 4 (x.spotRef.getD 0) ++ toBytes 6 (x.scheduled.getD 0) ++ toBytes 6 x.startTime ++
    toBytes 6 x.endTime ++ toBytes 6 x.aired ++ count32 x.stalls ++ count32 x.mediaErrors ++
    intBytes 6 (x.lateness.getD 0)

/-- The oldest records leave the queue; an emptied queue ends ASRUN_PENDING and the wrap hold (R185, R186, R190). -/
def State.fetchRecords (s : State) (n : Nat) : State :=
  let s1 : State := { s with asrun := s.asrun.drop n, wrapHold := s.wrapHold && !(s.asrun.drop n).isEmpty }
  if (s.asrun.drop n).isEmpty then s1.dropBits deviceSet DeviceCond.asrunPending.mask else s1

/-- What ASRUN_FETCH returns, as the log stands after the removal (R186, R218). -/
def State.fetchBytes (s1 : State) (got : List Record) : List Byte :=
  toBytes 1 got.length ++ toBytes 2 s1.asrun.length ++ toBytes 4 s1.nextSeq.toNat ++ flagByte s1.wrapHold ::
    got.flatMap Record.bytes

def handleAsrunFetch (r : Req) (s : State) : State × Answer :=
  deviceRequest r 1 s <|
    let n := min (field r.payload 0 1) 16
    let s1 := s.fetchRecords n
    if field r.payload 0 1 = 0 then refuse s rRANGE else answerOk s1 (s1.fetchBytes (s.asrun.take n))

/-! ## FAULT_READ -/

/-- The record's state, EMPTY 0 or FULL 1, and its fields when FULL (R188, R208). -/
def faultBytes : Option FaultRecord → List Byte
  | none => 0 :: 0 :: 0 :: (toBytes 2 0 ++ toBytes 4 0 ++ toBytes 6 0 ++ [0])
  | some f =>
    1 :: 1 :: causeByte f.cause :: (toBytes 2 f.entryId ++ toBytes 4 f.cart ++ toBytes 6 f.time ++ [flagByte f.further])

def handleFaultRead (r : Req) (s : State) : State × Answer :=
  stationRequest r 1 s fun st =>
    match clearOf (byteAt r.payload 0) with
    | none => refuse s rRANGE
    | some c =>
      answerOk (if c then s.modStation st fun x => { x with fault := none } else s) (faultBytes (s.station st).fault)

/-! ## COND_CLEAR and NOTICE_MASK -/

/-- A request that names a set and carries a condition byte of that set (R191, R192, R219). -/
def setRequest (r : Req) (s : State) (f : SetId → Byte → State × Answer) : State × Answer :=
  if r.payload.length ≠ 1 then refuse s rMALFORMED
  else
    match setOf r.station with
    | none => refuse s rBAD_STATION
    | some i => if byteAt r.payload 0 &&& ~~~setBits i = 0 then f i (byteAt r.payload 0) else refuse s rRANGE

/-- The named latched conditions cleared (R190, R191). -/
def State.clearConds (s : State) (i : SetId) (m : Byte) : State := s.dropBits i (m &&& ~~~followBits i)

def handleCondClear (r : Req) (s : State) : State × Answer :=
  setRequest r s fun i m => answerOk (s.clearConds i m) [((s.clearConds i m).cond i).pending]

/-- The enable bits stored; a pending condition newly enabled triggers a notice (R192, R193). -/
def State.storeMask (s : State) (i : SetId) (m : Byte) : State :=
  let c := s.cond i
  let s1 := s.setCond i { c with enabled := m }
  if c.pending &&& m &&& ~~~c.enabled = 0 then s1 else s1.trigger i

def handleNoticeMask (r : Req) (s : State) : State × Answer :=
  setRequest r s fun i m =>
    if m = (s.cond i).enabled then (s, .reply rREDUNDANT [m, (s.cond i).pending])
    else answerOk (s.storeMask i m) [m, (s.cond i).pending]

/-! ## ECHO, DEVICE_INFO, RESTART and unknown kinds -/

def handleEcho (r : Req) (s : State) : State × Answer :=
  if 256 < r.payload.length then refuse s rMALFORMED
  else if r.station ≠ deviceField then refuse s rBAD_STATION
  else answerOk s r.payload

/-- What DEVICE_INFO returns (R210). -/
def State.infoBytes (s : State) : List Byte :=
  toBytes 2 6200 ++ toBytes 1 1 ++ toBytes 1 s.straps.val ++ toBytes 4 s.badMessages.toNat ++
    toBytes 1 s.queue.length ++ toBytes 6 s.house.toNat

def handleDeviceInfo (r : Req) (s : State) : State × Answer :=
  deviceRequest r 1 s <|
    match clearOf (byteAt r.payload 0) with
    | none => refuse s rRANGE
    | some c => answerOk (if c then { s with badMessages := 0 } else s) s.infoBytes

/-- The reply carries the house counter of the restart period, and the handler holds RESTARTING (R211). -/
def handleRestart (r : Req) (s : State) : State × Answer :=
  deviceRequest r 0 s (answerOk { s with handler := .restarting } (toBytes 6 (s.house + 1).toNat))

def handleUnknown (_ : Req) (s : State) : State × Answer := refuse s rUNKNOWN_KIND

end Sys2Proof.Machine
end

