-- ==== Sys2Proof/Machine/RefReq.lean ====
section
/-!
DEFINITION. The requests to the reference controller (08: R155, R158, R159, R162) and to the air links (09: R175, R177,
R178).
-/

namespace Sys2Proof.Machine

/-! ## Reference controller -/

/-- A link named as a source is not in SLAVE mode, as stored (R155, R175). -/
def State.sourceAbsent (s : State) : Source → Bool
  | .internal => false
  | .word => false
  | .link l => (s.link l).mode != .slave

/-- What REF_SELECT's reply carries (R155). -/
def RefControl.selectBytes (r : RefControl) : List Byte :=
  sourceByte r.judged :: optBytes 1 (r.judgedTarget.map fun x => (sourceByte x).toNat) ++
    [sourceByte r.preferred, autoReturnByte r.autoReturn]

/-- The target is withdrawn, but for the source a completed lock is already switching to (R155, R157). -/
def RefControl.dropTarget (r : RefControl) : RefControl := if r.judgedTarget.isSome then r.noTarget else r

/-- A switch to INTERNAL begins to wait for the boundary of the period in progress (R158), and the target is withdrawn, in
a bridging period the completed one as well (R155). The miss count of the old source stands until that boundary makes it
0: the model's choice (assumption 39). -/
def RefControl.toInternal (r : RefControl) : RefControl :=
  { r.noTarget with switchFrom := some r.pacing, current := .internal }

/-- A taken REF_SELECT's change of the controller (R155). -/
def RefControl.select (r : RefControl) (src : Source) (auto : Bool) : RefControl :=
  let r1 := { r with preferred := src, autoReturn := auto, fallen := false }
  if src = r.judged then r1.dropTarget
  else if src = .internal then r1.toInternal
  else r1.withTarget src .selected

def handleRefSelect (r : Req) (s : State) : State × Answer :=
  deviceRequest r 2 s <|
    match sourceOf (field r.payload 0 1), autoReturnOf (field r.payload 1 1) with
    | some src, some auto =>
      let c := s.ref.select src auto
      if s.sourceAbsent src then refuse s rBAD_STATE
      else ({ s with ref := c }, .reply (if src = s.ref.judged then rREDUNDANT else rOK) c.selectBytes)
    | some src, none => if s.sourceAbsent src then refuse s rBAD_STATE else refuse s rRANGE
    | none, _ => refuse s rRANGE

def handleRefCancel (r : Req) (s : State) : State × Answer :=
  deviceRequest r 0 s
    ({ s with ref := { s.ref.dropTarget with fallen := false } },
      .reply (if s.ref.judgedTarget.isSome then rOK else rREDUNDANT)
        [sourceByte s.ref.judged, sourceByte s.ref.preferred])

/-- What REF_STATUS returns (R162, in its order). -/
def State.refBytes (s : State) : List Byte :=
  let r := s.ref
  sourceByte r.current ::
    (match r.target with
      | none => [0, 0, 0]
      | some x => [1, sourceByte x, originByte r.origin]) ++
    toBytes 1 r.progress ++ toBytes 1 r.miss ++
    [sourceByte r.preferred, autoReturnByte r.autoReturn, flagByte r.fallen] ++ toBytes 6 s.house.toNat

def handleRefStatus (r : Req) (s : State) : State × Answer := deviceRequest r 0 s (answerOk s s.refBytes)

/-! ## Air links -/

/-- LINK_SET's BAD_STATE (R175 step 1). -/
def State.linkInUse (s : State) (l : LinkId) (m : LinkMode) : Bool := m != .slave && s.ref.uses l

/-- A link with its stored mode and mirror set; the mode acts at the next boundary (R175). -/
def State.setLinkMode (s : State) (l : LinkId) (m : LinkMode) (mirror : Bool) : State :=
  s.setLink l { s.link l with mode := m, mirror := mirror }

def AirLink.modeBytes (x : AirLink) : List Byte := [linkModeByte x.mode, flagByte x.mirror]

/-- Both fields of a LINK_SET, judged once its codes are read (R175). -/
def linkSetTaken (s : State) (l : LinkId) (m : LinkMode) (mirror : Bool) : State × Answer :=
  if l = .a ∧ mirror then refuse s rRANGE
  else if (s.link l).mode = m ∧ (s.link l).mirror = mirror then (s, .reply rREDUNDANT (s.link l).modeBytes)
  else
    let s1 := s.setLinkMode l m mirror
    answerOk s1 (s1.link l).modeBytes

def handleLinkSet (r : Req) (s : State) : State × Answer :=
  deviceRequest r 3 s <|
    match linkOf (field r.payload 0 1), linkModeOf (field r.payload 1 1) with
    | some l, some m =>
      if s.linkInUse l m then refuse s rBAD_STATE
      else
        match mirrorOf (field r.payload 2 1) with
        | none => refuse s rRANGE
        | some b => linkSetTaken s l m b
    | _, _ => refuse s rRANGE

/-- The slots a format takes (R167). -/
def SlotFormat.width : SlotFormat → Nat
  | .stereo => 2
  | .mono => 1
  | .stereoMono => 3

/-- Two assignments share a slot. -/
def Assignment.overlaps (x y : Assignment) : Bool :=
  decide (x.base < y.base + y.format.width) && decide (y.base < x.base + x.format.width)

/-- LINK_ASSIGN's CONFLICT (R177 step 2). -/
def AirLink.conflicts (k : AirLink) (st : StationId) (a : Assignment) : Bool :=
  allStations.any fun o => o != st && (k.assigns[o] : Option Assignment).any a.overlaps

def assignBytes : Option Assignment → List Byte
  | none => [0, 0, 0]
  | some a => 1 :: toBytes 1 a.base ++ [formatByte a.format]

/-- The link's assignments of all six stations (R177). -/
def AirLink.assignsBytes (k : AirLink) : List Byte := k.assigns.toList.flatMap assignBytes

/-- The assignment a LINK_ASSIGN asks for, none for NONE; outer none where a code or slot is out of range (R177). -/
def assignOf (base fmt : Nat) : Option (Option Assignment) :=
  match formatOf fmt with
  | none => none
  | some none => some none
  | some (some f) => if base + f.width ≤ 32 then some (some ⟨base, f⟩) else none

/-- A link with a station's assignment replaced or removed (R177). -/
def State.setAssign (s : State) (l : LinkId) (st : StationId) (a : Option Assignment) : State :=
  s.setLink l { s.link l with assigns := (s.link l).assigns.set st a }

def handleLinkAssign (r : Req) (s : State) : State × Answer :=
  stationRequest r 3 s fun st =>
    match linkOf (field r.payload 0 1), assignOf (field r.payload 1 1) (field r.payload 2 1) with
    | some l, some a =>
      if a.any fun x => (s.link l).conflicts st x then refuse s rCONFLICT
      else if ((s.link l).assigns[st] : Option Assignment) = a then (s, .reply rREDUNDANT (s.link l).assignsBytes)
      else
        let s1 := s.setAssign l st a
        answerOk s1 (s1.link l).assignsBytes
    | _, _ => refuse s rRANGE

/-- The link's role for the reference controller: current source 0, target 1, neither 2 (R178, R208). -/
def State.roleByte (s : State) (l : LinkId) : Byte :=
  if s.ref.current = .link l then 0 else if s.ref.target = some (.link l) then 1 else 2

/-- What LINK_STATUS returns (R178, in its order). Between a LINK_SET and the boundary at which its mode acts, the mode
is the stored one and the framing that of the mode in force: the model's choice (assumption 41). -/
def State.linkBytes (s : State) (l : LinkId) : List Byte :=
  let k := s.link l
  linkModeByte k.mode ::
    (match l with
      | .a => [0, 0]
      | .b => [1, flagByte k.mirror]) ++
    (match k.framing with
      | none => [0, 0, 0]
      | some f => 1 :: subStateByte f.sub :: toBytes 1 f.run) ++
    s.roleByte l :: k.assignsBytes ++ flagByte k.mirror :: toBytes 4 k.alignments.toNat ++
    toBytes 4 k.repeats.toNat ++ toBytes 4 k.drops.toNat

/-- A link with its counts cleared (R178). -/
def AirLink.clearCounts (k : AirLink) : AirLink := { k with alignments := 0, repeats := 0, drops := 0 }

def handleLinkStatus (r : Req) (s : State) : State × Answer :=
  deviceRequest r 2 s <|
    match linkOf (field r.payload 0 1), clearOf (byteAt r.payload 1) with
    | some l, some c => answerOk (if c then s.setLink l (s.link l).clearCounts else s) (s.linkBytes l)
    | _, _ => refuse s rRANGE

end Sys2Proof.Machine
end

