-- ==== Sys2Proof/Machine/Store.lean ====
section
/-!
DEFINITION. The item store's requests (01: R5, R10 to R20) and the uploads' writes (R14, R30).
-/

namespace Sys2Proof.Machine

/-! ## ITEM_OPEN -/

/-- What an ITEM_OPEN declares (R10, R216: bytes 2 to 36 of the directory record). -/
structure OpenForm where
  cart : Nat
  category : Option Category
  retention : Option Retention
  presence : Byte
  length : Nat
  trimIn : Nat
  segue : Option Nat
  trimOut : Nat
  loop : Option Loop
  level : Nat
  deriving DecidableEq, Repr

def openForm (p : List Byte) : OpenForm :=
  { cart := field p 0 4
    category := categoryOf (field p 5 1)
    retention := retentionOf (field p 6 1)
    presence := byteAt p 8
    length := field p 9 4
    trimIn := field p 13 4
    segue := if hasBit (byteAt p 8) 0 then some (field p 17 4) else none
    trimOut := field p 21 4
    loop := if hasBit (byteAt p 8) 1 then some ⟨field p 25 4, field p 29 4⟩ else none
    level := min (field p 33 2) Config.unity }

/-- The marker constraints (R5). -/
def markersOk (length trimIn : Nat) (segue : Option Nat) (trimOut : Nat) (loop : Option Loop) : Bool :=
  decide (1 ≤ length) && decide (length ≤ Config.maxLength) && decide (trimIn < trimOut) &&
    decide (trimOut ≤ length) &&
    segue.all (fun g => decide (trimIn < g) && decide (g ≤ trimOut)) &&
    loop.all (fun l =>
      decide (trimIn ≤ l.first) && decide (l.first + Config.minLoop ≤ l.stop) && decide (l.stop ≤ trimOut))

/-- The RANGE check of ITEM_OPEN passes (R5, R215). -/
def OpenForm.inRange (f : OpenForm) : Bool :=
  f.cart != 0 && f.category.isSome && f.retention.isSome && f.presence &&& 0xFC == 0 &&
    markersOk f.length f.trimIn f.segue f.trimOut f.loop

/-- Some slot is empty (R3). -/
def State.slotFree (s : State) : Bool := decide (s.dir.length < Config.slotCount)

/-- The free block count (R2). -/
def State.freeCount (s : State) : Nat := runsTotal s.freeBlocks

/-- The reclaim candidates (R11). -/
def State.reclaimable (s : State) : List DirEntry := s.dir.filter DirEntry.isCandidate

/-- The blocks the candidates hold (R11, R20). -/
def State.reclaimBlocks (s : State) : Nat := (s.reclaimable.map fun e => runsTotal e.blocks).sum

/-- The candidates' slots in the order the walk visits them (R12). -/
def State.walkOrder (s : State) : List Nat :=
  let c := s.reclaimable.map DirEntry.slot
  (c.filter fun k => decide (s.reclaim ≤ k)) ++ c.filter fun k => decide (k < s.reclaim)

/-- An eviction (R12). -/
def State.evict (s : State) (slot : Nat) : State :=
  State.announce { s.removeDir slot with reclaim := (slot + 1) % Config.slotCount }

/-- The reclaim walk: it stops once the need is met (R12). -/
def reclaimWalk (need : Nat) : List Nat → State → State
  | [], s => s
  | k :: ks, s => if need ≤ s.freeCount ∧ s.slotFree then s else reclaimWalk need ks (s.evict k)

/-- The new LOADING entry (R10). -/
def OpenForm.entry (f : OpenForm) (s : State) (owner : Option StationId) : DirEntry :=
  { slot := lowestEmpty s.dir 0, cart := f.cart, owner := owner, category := f.category.getD .music,
    retention := f.retention.getD .keep, state := .loading, length := f.length, trimIn := f.trimIn, segue := f.segue,
    trimOut := f.trimOut, loop := f.loop, level := f.level,
    blocks := (takeBlocks (blocksFor f.length) s.freeBlocks).1, received := 0, bindings := 0, serial := s.opens }

/-- The entry is created in the lowest empty slot with its blocks reserved (R3, R10). -/
def OpenForm.create (f : OpenForm) (s : State) (owner : Option StationId) : State × Answer :=
  let e := f.entry s owner
  answerOk
    { s with
      dir := insertDir e s.dir
      freeBlocks := (takeBlocks (blocksFor f.length) s.freeBlocks).2
      opens := s.opens + 1 }
    (toBytes 2 e.slot ++ toBytes 2 (blocksFor f.length) ++ toBytes 2 e.level)

def handleItemOpen (r : Req) (s : State) : State × Answer :=
  if r.payload.length ≠ 35 then refuse s rMALFORMED
  else
    match ownerOf r.station with
    | none => refuse s rBAD_STATION
    | some owner =>
      let f := openForm r.payload
      let need := blocksFor f.length
      if !f.inRange then refuse s rRANGE
      else if (s.keyed f.cart owner (· != .dropping)).isSome then refuse s rEXISTS
      else if need ≤ s.freeCount ∧ s.slotFree then f.create s owner
      else if s.slotFree = false ∧ s.reclaimable = [] then refuse s rDIR_FULL
      else if s.reclaimBlocks < need - s.freeCount then refuse s rSTORE_FULL
      else f.create (reclaimWalk need s.walkOrder s) owner

/-! ## ITEM_DATA -/

/-- The LOADING entry an ITEM_DATA names, if the station field names an owner (R13). -/
def State.loadingFor (s : State) (r : Req) (cart : Nat) : Option DirEntry :=
  match ownerOf r.station with
  | none => none
  | some owner => s.keyed cart owner (· == .loading)

/-- The received count an ITEM_DATA's reply carries whenever the body holds its cart field and a LOADING entry has the
key (R13, R204). -/
def receivedReply (r : Req) (e : Option DirEntry) : List Byte :=
  if r.payload.length < 10 then []
  else
    match e with
    | none => []
    | some x => toBytes 4 x.received

def handleItemData (r : Req) (s : State) : State × Answer :=
  let count := field r.payload 0 2
  let offset := field r.payload 2 4
  let e := s.loadingFor r (field r.payload 6 4)
  let no := fun code => (s, Answer.reply code (receivedReply r e))
  if r.payload.length ≠ 10 + 4 * count then no rMALFORMED
  else if (ownerOf r.station).isNone then no rBAD_STATION
  else if count = 0 ∨ 1024 < count ∨ e.any (fun x => decide (x.length < offset + count)) then no rRANGE
  else
    match e with
    | none => no rNOT_FOUND
    | some x =>
      if offset ≠ x.received then no rOUT_OF_ORDER
      else ({ s with claim := some ⟨x.slot, offset, pairsOf (r.payload.drop 10)⟩ }, .held)

/-! ## ITEM_CLOSE -/

def handleItemClose (r : Req) (s : State) : State × Answer :=
  if r.payload.length ≠ 4 then refuse s rMALFORMED
  else
    match ownerOf r.station with
    | none => refuse s rBAD_STATION
    | some owner =>
      let cart := field r.payload 0 4
      match s.keyed cart owner (· == .loading) with
      | some e =>
        if e.received < e.length then refuse s rINCOMPLETE
        else answerOk (s.modDir e.slot fun x => { x with state := .ready, bindings := 0 }).announce []
      | none =>
        if (s.keyed cart owner (· == .ready)).isSome then (s, .reply rREDUNDANT []) else refuse s rNOT_FOUND

/-! ## Removing items -/

/-- The drop of a LOADING or READY entry (R16): what befell it, 0 discarded, 1 removed, 2 made DROPPING. -/
def State.dropItem (s : State) (e : DirEntry) : State × Nat :=
  match e.state with
  | .loading => (s.removeDir e.slot, 0)
  | .ready =>
    if e.bindings = 0 then ((s.removeDir e.slot).announce, 1)
    else ((s.modDir e.slot fun x => { x with state := .dropping }).announce, 2)
  | .dropping => (s, 2)

def handleItemDrop (r : Req) (s : State) : State × Answer :=
  if r.payload.length ≠ 4 then refuse s rMALFORMED
  else
    match ownerOf r.station with
    | none => refuse s rBAD_STATION
    | some owner =>
      let cart := field r.payload 0 4
      match s.keyed cart owner (· != .dropping) with
      | some e => answerOk (s.dropItem e).1 (toBytes 1 (s.dropItem e).2)
      | none =>
        if (s.keyed cart owner (· == .dropping)).isSome then (s, .reply rREDUNDANT (toBytes 1 2))
        else refuse s rNOT_FOUND

/-- Whether an entry lies in a purge's scope: 0 STATION, 1 NON_SHARED, 2 ALL (R18). -/
def inScope (scope : Nat) (st : Option StationId) (e : DirEntry) : Bool :=
  match scope with
  | 0 => st.isSome && e.owner == st
  | 1 => e.owner.isSome
  | _ => true

/-- One slot of a purge: the drop, and the counts of LOADING discarded, READY removed, READY made DROPPING (R18). That
each drop is announced, with what bed players do upon it, before the next slot is visited is the model's choice
(assumption 44). -/
def purgeStep (acc : State × Nat × Nat × Nat) (slot : Nat) : State × Nat × Nat × Nat :=
  let (s, a, b, c) := acc
  match s.entryAt slot with
  | none => acc
  | some e =>
    if e.state = .dropping then acc
    else
      match (s.dropItem e).2 with
      | 0 => ((s.dropItem e).1, a + 1, b, c)
      | 1 => ((s.dropItem e).1, a, b + 1, c)
      | _ => ((s.dropItem e).1, a, b, c + 1)

def handleItemPurge (r : Req) (s : State) : State × Answer :=
  let scope := field r.payload 0 1
  if r.payload.length ≠ 1 then refuse s rMALFORMED
  else if (ownerOf r.station).isNone ∨ (scope = 0 ∧ (stationOf r.station).isNone) ∨
      ((scope = 1 ∨ scope = 2) ∧ r.station ≠ deviceField) then refuse s rBAD_STATION
  else if 2 < scope then refuse s rRANGE
  else
    let slots := (s.dir.filter fun e => inScope scope (stationOf r.station) e && e.state != .dropping).map DirEntry.slot
    let res := slots.foldl purgeStep (s, 0, 0, 0)
    answerOk res.1 (toBytes 2 res.2.1 ++ toBytes 2 res.2.2.1 ++ toBytes 2 res.2.2.2)

/-! ## Reading the store -/

/-- The directory record (R216). -/
def DirEntry.record (e : DirEntry) : List Byte :=
  toBytes 2 e.slot ++ toBytes 4 e.cart ++
    [ownerByte e.owner, categoryByte e.category, retentionByte e.retention, itemStateByte e.state,
      presence [e.segue.isSome, e.loop.isSome]] ++
    toBytes 4 e.length ++ toBytes 4 e.trimIn ++ toBytes 4 (e.segue.getD 0) ++ toBytes 4 e.trimOut ++
    toBytes 4 ((e.loop.map Loop.first).getD 0) ++ toBytes 4 ((e.loop.map Loop.stop).getD 0) ++ toBytes 2 e.level ++
    toBytes 2 (runsTotal e.blocks) ++ toBytes 4 e.received ++ toBytes 1 e.bindings

/-- The entry an ITEM_INFO by key names (R19). -/
def State.infoByKey (s : State) (cart : Nat) (owner : Option StationId) : Option DirEntry :=
  match s.keyed cart owner (· != .dropping) with
  | some e => some e
  | none => s.keyed cart owner (· == .dropping)

/-- The answer of an ITEM_INFO (R19). -/
def infoAnswer (s : State) : Option DirEntry → State × Answer
  | none => refuse s rNOT_FOUND
  | some e => answerOk s e.record

def handleItemInfo (r : Req) (s : State) : State × Answer :=
  let form := field r.payload 0 1
  let slot := field r.payload 1 2
  if r.payload.length ≠ 7 then refuse s rMALFORMED
  else
    match ownerOf r.station with
    | none => refuse s rBAD_STATION
    | some owner =>
      if form = 0 then
        if r.station ≠ deviceField then refuse s rBAD_STATION
        else if Config.slotCount ≤ slot then refuse s rRANGE
        else infoAnswer s (s.entryAt slot)
      else if form = 1 then infoAnswer s (s.infoByKey (field r.payload 3 4) owner)
      else refuse s rRANGE

/-- The entries in a state (R20). -/
def State.countIn (s : State) (x : ItemState) : Nat := (s.dir.filter fun e => e.state == x).length

def handleStoreInfo (r : Req) (s : State) : State × Answer :=
  deviceRequest r 0 s <|
    answerOk s
      (toBytes 2 (s.countIn .loading) ++ toBytes 2 (s.countIn .ready) ++ toBytes 2 (s.countIn .dropping) ++
        toBytes 2 (Config.slotCount - s.dir.length) ++ toBytes 4 s.freeCount ++ toBytes 4 s.reclaimBlocks ++
        toBytes 2 s.reclaim)

end Sys2Proof.Machine
end

