-- ==== Sys2Proof/Machine/Handler.lean ====
section
/-!
DEFINITION. The request handler's choice of a request's rule by its kind (11: R203, R206, the request catalogue).
-/

namespace Sys2Proof.Machine

/-- The rule of a kind (the request catalogue); every other kind is unknown (R206). -/
def handlerFor (kind : Byte) : Req → State → State × Answer :=
  match kind.toNat with
  | 0x01 => handleEcho
  | 0x02 => handleDeviceInfo
  | 0x0F => handleRestart
  | 0x10 => handleItemOpen
  | 0x11 => handleItemData
  | 0x12 => handleItemClose
  | 0x13 => handleItemDrop
  | 0x14 => handleItemPurge
  | 0x15 => handleItemInfo
  | 0x16 => handleStoreInfo
  | 0x20 => handleEntryInsert
  | 0x21 => handleEntryRemove
  | 0x22 => handleEntryAmend
  | 0x23 => handleListRead
  | 0x24 => handleListClear
  | 0x30 => handleStationSet
  | 0x31 => handleStationMode
  | 0x32 => handleStationStatus
  | 0x33 => handleTake
  | 0x34 => handleTakeCancel
  | 0x35 => handleStop
  | 0x36 => handleResume
  | 0x37 => handleSetTime
  | 0x40 => handleRefSelect
  | 0x41 => handleRefCancel
  | 0x42 => handleRefStatus
  | 0x48 => handleLinkSet
  | 0x49 => handleLinkAssign
  | 0x4A => handleLinkStatus
  | 0x50 => handleAsrunFetch
  | 0x51 => handleFaultRead
  | 0x52 => handleCondClear
  | 0x53 => handleNoticeMask
  | _ => handleUnknown

/-- The request a queued message carries. -/
def Message.req (m : Message) : Req := ⟨m.tag, m.station, m.payload⟩

/-- Takes the messages at the head of the queue for as long as the handler may take one (R203). -/
def handlerLoop : Nat → State → State
  | 0, s => s
  | n + 1, s =>
    if s.canTake then
      match s.queue with
      | [] => s
      | m :: rest => handlerLoop n (State.serve { s with queue := rest } m.kind m.req (handlerFor m.kind))
    else s

/-- The handler goes on with its queue (R203). -/
def State.runHandler (s : State) : State := handlerLoop s.queue.length s

end Sys2Proof.Machine
end

