-- ==== Sys2Proof/Machine/Period.lean ====
section
/-!
DEFINITION. One sample period: what the stations do in it, what players, mixers and links make of it (02: R34 to R37;
03; 07: R135; 09: R167 to R175), the RESTART (11: R212, R213), and how a period in progress is completed.
-/

namespace Sys2Proof.Machine

/-! ## What a station does in a period -/

/-- Breaks met at or after their end are skipped one after another (R119). -/
def skipLoop : Nat → StationId → State → State
  | 0, _, s => s
  | n + 1, st, s =>
    match s.breakPast st with
    | none => s
    | some _ => skipLoop n st (s.opBreakSkip st)

/-- The station time reaches the due time of its first HARD entry less the arm horizon (R75). -/
def State.horizonReached (s : State) (st : StationId) : Bool :=
  (s.station st).hardEntry.any fun e => e.dueTime == s.stationTime st + (s.station st).cfg.armHorizon

def State.opHorizon (s : State) (st : StationId) : State := if s.horizonReached st then s.markDirty st else s

/-- Everything due in a station in the period in progress, in the model's order (assumption 7). -/
def State.opStation (s : State) (st : StationId) : State :=
  let s1 := skipLoop Config.listLimit st ((s.opBreakClose st).opTooLate st)
  let s2 := ((((s1.opPreFade st).opBreakStart st).opHardDue st).opJudgeFirst st)
  let s3 := ((((s2.opSpotStart st).opSpotPending st).opFillStart st).opFillPending st).opFillClosing st
  ((s3.opBedStart st).opHorizon st).settlePool

/-! ## Players and mixers -/

/-- The terms a sounding player gives (R51, R52); zero on both channels where it stalls (R35). -/
def Player.terms (p : Player) : Int × Int :=
  match p.buffer with
  | [] => (0, 0)
  | x :: _ => (term x.l.toInt (gain p.level p.ramp.value), term x.r.toInt (gain p.level p.ramp.value))

/-- The bus sums of a station (R53). -/
def State.bus (s : State) (st : StationId) : Int × Int :=
  let decks := (s.held st).map fun d => (s.deck d).player
  let terms := ((decks ++ [(s.bed st).player]).filter Player.sounds).map Player.terms
  ((terms.map Prod.fst).sum, (terms.map Prod.snd).sum)

/-- A player's playback position after one pair (R34). -/
def nextPlay (p : Player) (e : Option DirEntry) : Nat :=
  match e.bind DirEntry.loop with
  | some l => if p.looping && p.playPos + 1 == l.stop then l.first else p.playPos + 1
  | none => p.playPos + 1

/-- The end of play a period brings (R37): the position end before the fade's end. -/
def playEnd (p : Player) (trimOut : Option Nat) (pos : Nat) : Option EndCause :=
  if !p.looping ∧ trimOut = some pos then some .trimOut
  else if p.state = .fading ∧ p.ramp.length ≤ p.ramp.progress then some .faded
  else none

/-- One period of a sounding player, at station time `t`: a pair consumed (R34) or a stall (R35), and the ramp's progress
(R49). -/
def Player.tick (p : Player) (e : Option DirEntry) (t : Nat) : Player :=
  match p.buffer with
  | [] =>
    { p with
      stalls := p.stalls + 1, stalling := some (p.stalling.getD t), ramp := p.ramp.advance,
      ended := playEnd p (e.map DirEntry.trimOut) p.playPos }
  | _ :: rest =>
    { p with
      buffer := rest, consumed := p.consumed + 1, playPos := nextPlay p e, stalling := none, ramp := p.ramp.advance,
      ended := playEnd p (e.map DirEntry.trimOut) (p.playPos + 1) }

/-- A stall run begins in this period (R35). -/
def Player.underruns (p : Player) : Bool := p.sounds && p.buffer.isEmpty && p.stalling.isNone

/-- The station time of the period in progress for a deck: its station's (R149). -/
def State.deckTime (s : State) (d : DeckId) : Nat := ((s.deck d).station.map s.stationTime).getD 0

def State.tickDeck (s : State) (d : DeckId) : State :=
  let p := (s.deck d).player
  let s1 := if p.underruns then s.deckFault d .underrun else s
  if p.sounds then s1.modPlayer d fun _ => p.tick (s.playerEntry p) (s.deckTime d) else s1

def State.tickBed (s : State) (st : StationId) : State :=
  let p := (s.bed st).player
  let s1 := if p.underruns then s.bedFault st .underrun else s
  if p.sounds then s1.modBedPlayer st fun _ => p.tick (s.playerEntry p) (s.stationTime st) else s1

/-- A channel of the station saturates in this period (R55). -/
def State.clipsNow (s : State) (st : StationId) : Bool :=
  let m := (s.station st).cfg.outLevel
  (s.station st).mode != .idle && (saturates (scaled (s.bus st).1 m) || saturates (scaled (s.bus st).2 m))

/-- What the mixer hands on (R53, R55, R58, R59, R60). -/
def State.mixed (s : State) (st : StationId) : Output :=
  let x := s.station st
  if x.mode = .idle then Output.zero else mixOutput (s.bus st).1 (s.bus st).2 x.cfg.outLevel x.cfg.threshold

/-- The station's mixer in the period: output, clip count and CLIP (R55, R56, R57). -/
def State.mixStation (s : State) (st : StationId) : State :=
  let s1 := s.modStation st fun x => { x with out := s.mixed st }
  if s.clipsNow st then
    (s1.modStation st fun x => { x with clips := Count32.succHold x.clips }).raiseStation st .clip
  else s1

/-- The silence monitor's judgement (R135, R137). -/
def Station.judged (x : Station) : Station :=
  if x.airs then
    if x.out.quiet then { x with silence := x.silence + 1, silenceDue := decide (x.cfg.window ≤ x.silence + 1) }
    else { x with silence := 0 }
  else { x with silence := 0 }

/-- The audio of a period: every mixer, then every player's step, then the silence judgements (R34, R35, R53, R135). Where
several players of one station report a fault in one period, R187 takes them in either order: the decks' come in rising
number and the bed player's last (assumption 25). -/
def State.audio (s : State) : State :=
  let s1 := forEach allStations (fun st acc => acc.mixStation st) s
  let s2 := forEach allStations (fun st acc => acc.tickBed st) (forEach allDecks (fun d acc => acc.tickDeck d) s1)
  forEach allStations (fun st acc => acc.modStation st Station.judged) s2

/-! ## Link images -/

/-- A sample in the upper 16 bits of a slot (R165). -/
def slotOf (v : Sample) : BitVec 24 := v ++ (0 : BitVec 8)

/-- The bits of a slot in the order of sending, most significant first (R165). -/
def slotBits (v : BitVec 24) : List Bool := (List.range 24).map fun i => v.getMsbD i

/-- The 768 bits of a frame in the order of sending, slot 0 first (R165). -/
def Image.bits (img : Image) : List Bool := img.flatMap slotBits

/-- What a link's pins carry in one bit of a frame: the frame pulse and the two data outputs (R165). -/
structure LineBit where
  pulse : Bool
  data0 : Bool
  data1 : Bool
  deriving DecidableEq, Repr

/-- A frame bit by bit: the pulse marks the first bit of slot 0, and both outputs carry the same bits (R165). The pulse is
the link's own in MASTER mode and the far end's in SLAVE mode (R168, R170). -/
def Image.lines (img : Image) : List LineBit := (Image.bits img).zipIdx.map fun x => ⟨x.2 == 0, x.1, x.1⟩

/-- What a link's outputs carry over the frame in progress, if none cuts it off; low where no frame runs (R165, R169,
R171). -/
def AirLink.lines (k : AirLink) : List LineBit :=
  match k.frame with
  | some img => Image.lines img
  | none => List.replicate Config.frameBits ⟨false, false, false⟩

/-- The slots of an assignment (R167). -/
def SlotFormat.values (f : SlotFormat) (o : Output) : List (BitVec 24) :=
  match f with
  | .stereo => [slotOf o.l, slotOf o.r]
  | .mono => [slotOf o.m]
  | .stereoMono => [slotOf o.l, slotOf o.r, slotOf o.m]

/-- An image with values placed from a slot on. -/
def placeSlots (img : Image) (base : Nat) (vs : List (BitVec 24)) : Image :=
  (vs.zipIdx base).foldl (fun acc p => acc.set p.2 p.1) img

/-- The assignment table a link forms its images from (R167, R176). -/
def State.tableOf (s : State) : LinkId → Vector (Option Assignment) 6
  | .a => s.linkA.assigns
  | .b => if s.linkB.mirror then s.linkA.assigns else s.linkB.assigns

/-- The image of the period in progress (R167). -/
def State.imageOf (s : State) (l : LinkId) : Image :=
  allStations.foldl
    (fun img st =>
      match ((s.tableOf l)[st] : Option Assignment) with
      | none => img
      | some a => placeSlots img a.base (a.format.values (s.station st).out))
    Image.zero

/-- LINK_SLIP with one more drop slip (R173). -/
def State.dropSlip (s : State) (l : LinkId) : State :=
  (s.setLink l { s.link l with drops := Count32.succHold (s.link l).drops }).raiseDevice .linkSlip

/-- LINK_SLIP with one more repeat slip (R173). -/
def State.repeatSlip (s : State) (l : LinkId) : State :=
  (s.setLink l { s.link l with repeats := Count32.succHold (s.link l).repeats }).raiseDevice .linkSlip

def State.modFraming (s : State) (l : LinkId) (f : Framing → Framing) : State :=
  s.setLink l { s.link l with framing := (s.link l).framing.map f }

/-- The boundary's write into the elastic store (R173). -/
def State.storeWrite (s : State) (l : LinkId) : State :=
  match (s.link l).framing with
  | none => s
  | some f =>
    let s1 := if f.sub = .sync ∧ f.newPlace.isSome then s.dropSlip l else s
    s1.modFraming l fun g => { g with newPlace := some (s.link l).image }

/-- What a frame that starts now carries (R171, R172, R173): zero out of SYNC, the image of the period in progress on
the current source, and otherwise what the store gives. -/
def State.frameContent (s : State) (l : LinkId) : State :=
  match (s.link l).framing with
  | none => s
  | some f =>
    if f.sub ≠ .sync then s.setLink l { s.link l with frame := some Image.zero }
    else if !s.usesStore l then s.setLink l { s.link l with frame := some (s.link l).image }
    else
      match f.newPlace with
      | some img =>
        let s1 := s.modFraming l fun g => { g with newPlace := none, sentPlace := some img }
        s1.setLink l { s1.link l with frame := some img }
      | none =>
        (s.setLink l { s.link l with frame := some (f.sentPlace.getD Image.zero) }).repeatSlip l

/-- A link in the period: its image, its MASTER frame or its store (R167, R168, R172, R173). -/
def State.linkPeriod (s : State) (l : LinkId) : State :=
  match (s.link l).active with
  | .off => s
  | .master => s.setLink l { s.link l with image := s.imageOf l, frame := some (s.imageOf l) }
  | .slave =>
    let s1 := s.setLink l { s.link l with image := s.imageOf l }
    let s2 := if s1.usesStore l then s1.storeWrite l else s1
    if (s.link l).frameOpens then
      (s2.setLink l { s2.link l with frameOpens := false }).frameContent l
    else s2

/-! ## Link mode changes -/

/-- The framing of a link that enters SLAVE (R171). -/
def Framing.entered (now : Nat) : Framing :=
  { sub := .hunt, bit := none, run := 0, lossFrom := now, newPlace := none, sentPlace := none }

/-- The stored mode takes effect (R175). -/
def AirLink.enterMode (k : AirLink) (now : Nat) : AirLink :=
  match k.mode with
  | .off => { k with active := .off, framing := none, image := Image.zero, frame := none, frameOpens := false }
  | .master => { k with active := .master, framing := none, frame := none, frameOpens := false }
  | .slave => { k with active := .slave, framing := some (Framing.entered now), frame := none, frameOpens := false }

/-- A changed mode acts at the boundary that began the period in progress (R175), and may complete the conditions of the
auto-return watch (R160). LINK_SETs that end at the mode in force make no change: the model's choice (assumption 40). -/
def State.linkModeAct (s : State) (l : LinkId) : State :=
  if (s.link l).mode = (s.link l).active then s
  else State.watch (s.setLink l ((s.link l).enterMode s.periodStart))

/-! ## RESTART -/

/-- The CUT records of a station's sounding entries, and of an ON_AIR break's spot and fill (R212). -/
def State.restartEntry (s : State) (st : StationId) (e : Entry) : State :=
  let t := s.stationTime st
  if e.notStarted then s
  else
    match e.body, e.served with
    | .item _, .deck d => s.record (s.itemPlayed st e d t .cut)
    | .item _, _ => s
    | .brk b, _ =>
      let s1 :=
        match b.spotOnAir with
        | some (i, p) =>
          match p.served with
          | .deck d => s.breakRecord i (s.spotPlayed st e b i p d t .cut)
          | _ => s
        | none => s
      match b.fillState, b.fillServed with
      | .onAir, .deck d => s1.breakRecord b.spots.length (s1.fillPlayed st e b d t)
      | _, _ => s1

/-- The record of a spot deck trailing a break (R212). -/
def State.restartTrailSpot (s : State) (st : StationId) (d : DeckId) : State :=
  match (s.deck d).target with
  | some (.trailSpot t) => s.breakRecord t.index (s.trailPlayed st t d (s.stationTime st) .cut)
  | _ => s

/-- The record of a fill deck trailing a break (R212). -/
def State.restartTrailFill (s : State) (st : StationId) (d : DeckId) : State :=
  match (s.deck d).target with
  | some (.trailFill t) => s.breakRecord t.index (s.trailPlayed st t d (s.stationTime st) .fill)
  | _ => s

/-- The records RESTART makes for a station (R212). -/
def State.restartRecords (s : State) (st : StationId) : State :=
  let s1 := forEach (s.station st).list (fun e acc => acc.restartEntry st e) s
  let s2 := forEach (s.held st) (fun d acc => acc.restartTrailSpot st d) s1
  let s3 := forEach (s.held st) (fun d acc => acc.restartTrailFill st d) s2
  if (s.bed st).player.sounds then s3.record (s3.bedPlayed st (s.stationTime st)) else s3

/-- A station after RESTART (R83, R110, R81, R147, R196): configuration, offset and clip count are kept. -/
def Station.restarted (x : Station) : Station :=
  { Station.reset with cfg := x.cfg, offset := x.offset, clips := x.clips, lowRel := decide (0 < x.cfg.lowMark) }

/-- The item store at RESTART (R22). -/
def State.storeRestart (s : State) : State :=
  let kept := s.dir.filter fun e => e.state == .ready
  let gone := s.dir.filter fun e => e.state != .ready
  { s with
    dir := kept.map fun e => { e with bindings := 0 }
    freeBlocks := (gone.flatMap DirEntry.blocks) ++ s.freeBlocks }

/-- A fetch on the port is void (R46). -/
def Port.voided : Port → Port
  | .fetch f => .fetch { f with void := true }
  | p => p

/-- A reply of the transmit order; RESTART withdraws the notices among them (R213 step 4). -/
def TxItem.isReply : TxItem → Bool
  | .reply _ => true
  | .notice _ => false

/-- The condition unit at RESTART (R196): cleared, notices withdrawn, ASRUN_PENDING taken anew. -/
def State.condsRestart (s : State) : State :=
  let s1 : State :=
    { s with
      conds := s.conds.map fun c => { c with pending := 0 }
      txOrder := s.txOrder.filter TxItem.isReply
      behind := [] }
  if s1.asrun.isEmpty then s1 else s1.raiseDevice .asrunPending

/-- The restart acts in its period (R212, R213). -/
def State.restart (s : State) : State :=
  let s1 := (forEach allStations (fun st acc => acc.restartRecords st) s).logHeld
  let s2 : State :=
    { s1 with
      stations := s1.stations.map Station.restarted
      decks := Vector.replicate 16 Deck.reset
      beds := Vector.replicate 6 Bed.reset
      port := s1.port.voided
      deferred := [] }
  let s3 := s2.storeRestart
  let s4 := State.watch { s3 with ref := s3.ref.dropTarget }
  let s5 := s4.condsRestart
  let s6 := forEach allStations (fun st acc => acc.bedTryBind st) s5
  { s6 with handler := .ready }

/-- The restart, if the handler holds RESTARTING (R211). -/
def State.restartAct (s : State) : State := if s.handler = .restarting then s.restart else s

/-! ## Completing a period -/

/-- What comes first in a period: link modes, then a restart (R175, R211). -/
def State.beginPeriod (s : State) : State := ((s.linkModeAct .a).linkModeAct .b).restartAct

/-- Everything the period in progress still owes: the stations' events, the audio and the images. After it the part
stands between sample periods (assumption 7). -/
def State.settle (s : State) : State :=
  if s.opening then
    let s1 := forEach allStations (fun st acc => acc.opStation st) s.beginPeriod
    let s2 := (s1.audio.linkPeriod .a).linkPeriod .b
    State.runHandler (State.release { s2 with opening := false })
  else s

end Sys2Proof.Machine
end

