-- ==== Sys2Proof/Machine/Timebase.lean ====
section
/-!
DEFINITION. The boundaries between sample periods and the reference controller (08: R148, R151 to R160), with the times
that other blocks measure by them (09: R171; 11: R200).
-/

namespace Sys2Proof.Machine

/-! ## What the close of a period brings -/

/-- The loss timer reaches 4 nominal frame lengths (R171). -/
def State.loseLink (s : State) (l : LinkId) : State :=
  let k := s.link l
  let lost := k.framing.map fun f =>
    { f with sub := .lost, bit := none, run := 0, newPlace := none, sentPlace := none }
  (s.setLink l { k with framing := lost, frame := none, frameOpens := false }).raiseDevice .linkAlarm

/-- A SLAVE link in HUNT or SYNC whose loss timer has reached its end by the moment given (R171). -/
def AirLink.losing (k : AirLink) (now : Nat) : Bool :=
  k.framing.any fun f => f.sub != .lost && decide (f.lossFrom + Config.lossTime ≤ now)

def State.loseIfDue (s : State) (l : LinkId) (now : Nat) : State :=
  if (s.link l).losing now then s.loseLink l else s

/-- 1.01 nominal periods have passed after the target's previous edge (R156). -/
def RefControl.timedOut (r : RefControl) (now : Nat) : Bool :=
  r.judgedTarget.isSome && r.lastEdge.any fun t => decide (t + Config.windowClose < now)

/-- The lock progress is reset and the measurement closed (R156). -/
def RefControl.missedTarget (r : RefControl) : RefControl := { r with progress := 0, lastEdge := none }

/-- A message in progress is discarded (R201). -/
def State.discardMessage (s : State) : State :=
  State.raiseDevice { s with rx := Receiver.reset, badMessages := Count32.succHold s.badMessages } .badMessage

/-- The message in progress has waited 480 periods for its next byte (R200). -/
def Receiver.gapOver (x : Receiver) : Bool := x.state != .hunt && decide (Config.receiveGap ≤ x.gap)

/-- The receiver at a boundary: the message is discarded, or the gap grows (R200). -/
def State.rxBoundary (s : State) : State :=
  if s.rx.gapOver then s.discardMessage
  else if s.rx.state = .hunt then s
  else { s with rx := { s.rx with gap := s.rx.gap + 1 } }

/-- The close of a period: ends of play, the records of breaks, silence orders, and the times that run out by its end
(R37, R43, R132, R137, R156, R171). Where several decks end at one close they go FREE in rising number, each with the
grants it sets off (R26), and the re-evaluations come behind all the ends: the model's choice (assumption 52). A request
taken behind the audio of the period and ahead of the boundary comes ahead of these ends of play, but for those that
DECK_END_OF_PLAY or BED_PLAYER_END has had made before it: the model's choice too (R43, R142; assumption 64). -/
def State.closePeriod (s : State) (now : Nat) : State :=
  let s1 := forEach allDecks (fun d acc => acc.opDeckEnd d) s
  let s2 := forEach allStations (fun st acc => acc.opBedEnd st) s1
  let s3 := forEach allStations (fun st acc => acc.silenceOrder st) s2.settlePool.logHeld
  let s4 := (s3.loseIfDue .a now).loseIfDue .b now
  let s5 : State := if s4.ref.timedOut now then { s4 with ref := s4.ref.missedTarget } else s4
  s5.rxBoundary

/-- The next period begins: the house counter rises by one (R148) and the period's events stand open. -/
def State.openPeriod (s : State) (now : Nat) : State :=
  { s with
    house := s.house + 1
    periodStart := now
    opening := true
    stations := s.stations.map fun x => { x with acted := false, lateHead := false } }

/-- The boundary `len` after the last one: the close of the period, the next one's beginning, and the actions of the
requests taken since (R85, R148), those of a silence order among them (R137). A move to IDLE or FALLBACK that acts in the
period of a break's end thus closes the break early (R131 and not R129), and actions that fall in a restart period are
made, with their records, before the restart (R211, R212): the model's choice (assumption 46). -/
def State.boundary (s : State) (len : Nat) : State :=
  ((s.settle.closePeriod (s.periodStart + len)).openPeriod (s.periodStart + len)).runDeferred

/-! ## Following the current source -/

/-- An edge falls in the window of the period in progress (R153). -/
def inWindow (p : Phase) : Bool := decide (Config.windowOpen ≤ p) && decide (p ≤ Config.windowClose)

/-- The current source loses a period (R153), the fourth one with it the reference (R154). -/
def State.missPeriod (s : State) : State :=
  let s1 := s.boundary Config.windowClose
  if s1.ref.miss + 1 < Config.lossMisses then { s1 with ref := { s1.ref with miss := s1.ref.miss + 1 } }
  else
    State.watch
      (State.raiseDevice
        { s1 with ref := { s1.ref.noTarget with current := .internal, miss := 0, fallen := true } } .refFail)

/-- The switch to INTERNAL ordered by REF_SELECT is made at the boundary `len` after the last one (R158). -/
def State.switchInternal (s : State) (len : Nat) : State :=
  let s1 := s.boundary len
  State.raiseDevice { s1 with ref := { s1.ref with switchFrom := none, miss := 0 } } .refSwitched

/-! ## Lock and switch -/

/-- A link that becomes the current source empties its store (R174). -/
def State.dropStore (s : State) : Source → State
  | .link l => s.modFraming l fun f => { f with newPlace := none, sentPlace := none }
  | .internal => s
  | .word => s

/-- The controller after the bridging period (R157), or after a switch to INTERNAL ordered within it (R158). -/
def RefControl.bridged (r : RefControl) (b : Bridge) (missed : Bool) : RefControl :=
  let r1 := if r.completed b then r.noTarget else r
  let r2 := { r1 with bridging := none, switchFrom := none, fallen := r1.fallen && b.origin != Origin.autoReturn }
  if r.switchFrom.isSome then { r2 with current := .internal, miss := 0 }
  else { r2 with current := b.source, miss := if missed then 1 else 0 }

/-- The bridging period ends (R157). -/
def State.endBridging (s : State) (b : Bridge) (len : Nat) (missed : Bool) : State :=
  let s1 := s.boundary len
  let s2 : State := { s1 with ref := s1.ref.bridged b missed }
  let s3 := if s1.ref.switchFrom.isSome then s2 else s2.dropStore b.source
  State.watch (s3.raiseDevice .refSwitched)

/-- One edge of the target judged (R156): the progress and the measurement after it. -/
def RefControl.judgeEdge (r : RefControl) (now : Nat) : RefControl :=
  match r.lastEdge with
  | none => { r with lastEdge := some now }
  | some t =>
    if t + Config.windowClose < now then { r with progress := 0, lastEdge := some now }
    else if now < t + Config.windowOpen then { r with progress := 0, lastEdge := some now }
    else { r with progress := r.progress + 1, lastEdge := some now }

/-- An edge of the target, with the completion of the lock (R156, R157). -/
def State.edgeOfTarget (s : State) (src : Source) (p : Phase) : State :=
  let r := s.ref.judgeEdge (s.periodStart + p)
  let s1 : State := { s with ref := r }
  if r.progress < Config.lockPeriods then s1
  else
    let b : Bridge := ⟨src, r.origin, s.periodStart + p⟩
    let s2 : State := { s1 with ref := { r with bridging := some b } }
    if Config.halfPeriod ≤ p then s2.endBridging b p false else s2

/-- The edge ends the bridging period: it falls in the window after the lock edge (R157). -/
def Bridge.endsAt (b : Bridge) (now : Nat) : Bool :=
  decide (b.lockAt + Config.windowOpen ≤ now) && decide (now ≤ b.lockAt + Config.windowClose)

/-- The accepted edge of the current source (R153), or of the old source of a waiting switch to INTERNAL (R158). -/
def State.acceptEdge (s : State) (p : Phase) : State :=
  if s.ref.switchFrom.isSome then s.switchInternal p
  else
    let s1 := s.boundary p
    { s1 with ref := { s1.ref with miss := 0 } }

/-- An edge of the source a completed lock is switching to, which is target again behind a switch to INTERNAL: it is
judged as the target's too (R155, R156). -/
def State.bridgeEdge (s : State) (src : Source) (p : Phase) : State :=
  if s.ref.judgedTarget = some src then { s with ref := s.ref.judgeEdge (s.periodStart + p) } else s

/-- An edge of a source (R151): judged as the current source's (R153), as the target's (R156), or as the edge that ends
a bridging period (R157); disregarded otherwise. -/
def State.refEdge (s : State) (src : Source) (p : Phase) : State :=
  match s.ref.bridging with
  | some b =>
    if b.source = src then
      let s1 := s.bridgeEdge src p
      if b.endsAt (s.periodStart + p) then s1.endBridging b p false else s1
    else if s.ref.judgedTarget = some src then s.edgeOfTarget src p
    else s
  | none =>
    let s1 := if s.ref.target = some src then s.edgeOfTarget src p else s
    if s.ref.pacing = src ∧ src ≠ .internal ∧ inWindow p ∧ s1.ref.bridging = none ∧ s1.house = s.house then
      s1.acceptEdge p
    else s1

/-! ## The timebase's commands -/

/-- The period in progress is paced by the oscillator (R153). -/
def State.onInternal (s : State) : Bool := s.ref.bridging.isNone && s.ref.pacing == .internal

/-- The period in progress is paced by another source, with no switch to INTERNAL waiting (R153). -/
def State.following (s : State) : Bool :=
  s.ref.bridging.isNone && s.ref.switchFrom.isNone && s.ref.current != .internal

/-- A switch to INTERNAL waits for the old source's boundary (R158). -/
def State.switchWaits (s : State) : Bool :=
  s.ref.bridging.isNone && s.ref.switchFrom.any fun x => x != .internal

/-- A period of 1/48,000 s has passed (R153). -/
def State.opInternalEnd (s : State) : State :=
  let s1 := s.settle
  if s1.onInternal then s1.boundary Config.nominal else s1

/-- An edge of the current source (R153). -/
def State.opEdgeAccepted (s : State) (p : Phase) : State :=
  let s1 := s.settle
  if s1.following then s1.refEdge s1.ref.current p else s1

/-- The current source's window closes with no edge (R153, R154). -/
def State.opWindowMiss (s : State) : State :=
  let s1 := s.settle
  if s1.following then s1.missPeriod else s1

/-- An edge of the target (R156), or, where there is none, of the source a completed lock is switching to (R157). -/
def State.opTargetEdge (s : State) (p : Phase) : State :=
  let s1 := s.settle
  match s1.ref.judgedTarget <|> s1.ref.bridging.map Bridge.source with
  | none => s1
  | some src => s1.refEdge src p

/-- The latest moment at which the period in progress can end (R153, R157). -/
def State.latestEnd (s : State) : Nat :=
  match s.ref.bridging with
  | some b => b.lockAt + Config.windowClose
  | none => if s.ref.pacing = .internal then s.periodStart + Config.nominal else s.periodStart + Config.windowClose

/-- The target's 1.01 nominal periods pass within the period in progress (R156). -/
def State.opTargetTimeout (s : State) : State :=
  let s1 := s.settle
  if s1.ref.judgedTarget.isSome ∧ s1.ref.lastEdge.any (fun t => decide (t + Config.windowClose ≤ s1.latestEnd)) then
    { s1 with ref := s1.ref.missedTarget }
  else s1

/-- The bridging period ends at an edge in its window or at the window's close (R157). -/
def State.opBridgingEnd (s : State) (edge : Option Phase) : State :=
  let s1 := s.settle
  match s1.ref.bridging with
  | none => s1
  | some b =>
    match edge with
    | some p => if b.endsAt (s1.periodStart + p) then s1.refEdge b.source p else s1
    | none => s1.endBridging b (b.lockAt + Config.windowClose - s1.periodStart) true

/-- The waiting switch to INTERNAL acts at the old source's edge or at its window's close (R158). -/
def State.opSwitchInternal (s : State) (edge : Option Phase) : State :=
  let s1 := s.settle
  if s1.switchWaits then
    match edge with
    | some p => if inWindow p then s1.refEdge s1.ref.pacing p else s1
    | none => s1.switchInternal Config.windowClose
  else s1

end Sys2Proof.Machine
end

