-- ==== Sys2Proof/Machine/Links.lean ====
section
/-!
DEFINITION. The SLAVE framing of the air links (09: R170, R171) and how frames carry programme.
-/

namespace Sys2Proof.Machine

/-- The framing after a pulse on bit `bit` of the frame in progress, 768 being the boundary bit (R170, R171). -/
def Framing.pulse (f : Framing) (bit now : Nat) : Framing :=
  match f.bit with
  | none => { f with bit := some 0, run := 0, lossFrom := now }
  | some _ =>
    if bit = Config.frameBits then
      let run := min (f.run + 1) Config.syncRun
      { f with bit := some 0, run := run, sub := if run = Config.syncRun then .sync else f.sub, lossFrom := now }
    else { f with bit := some 0, run := 0, sub := if f.sub = .sync then .hunt else f.sub, lossFrom := now }

/-- The pulse is misplaced (R170). -/
def Framing.misplaced (f : Framing) (bit : Nat) : Bool := f.bit.isSome && bit != Config.frameBits

/-- A misplaced pulse is counted and raises LINK_ALARM (R170, R179). -/
def State.alignment (s : State) (l : LinkId) : State :=
  (s.setLink l { s.link l with alignments := Count32.succHold (s.link l).alignments }).raiseDevice .linkAlarm

/-- A frame begins on a SLAVE link: at once, or, where its pulse also began a sample period, with that period's image
once it is formed (R172, R173). -/
def State.beginFrame (s : State) (l : LinkId) : State :=
  if s.opening then s.setLink l { s.link l with frame := some Image.zero, frameOpens := true } else s.frameContent l

/-- A frame pulse of a SLAVE link: framing, then the reference controller, then the frame (R161, R170 to R173). -/
def State.framePulse (s : State) (l : LinkId) (bit : Nat) (p : Phase) : State :=
  match (s.link l).framing with
  | none => s
  | some f =>
    let s1 := if f.misplaced bit then s.alignment l else s
    let s2 := s1.modFraming l fun g => g.pulse bit (s.periodStart + p)
    (s2.refEdge (.link l) p).beginFrame l

/-- A loss timer that ran out before the pulse comes first (R171). A pulse at the very moment of the loss comes ahead of it,
while a boundary at that moment comes behind it: the model's choice (assumption 42). -/
def State.opFramePulse (s : State) (l : LinkId) (bit : Nat) (p : Phase) : State :=
  let s1 := s.settle
  let s2 := if (s1.link l).losing (s1.periodStart + p - 1) then s1.loseLink l else s1
  s2.framePulse l bit p

/-- A flywheel frame: no pulse came on the boundary bit of a running frame (R170). -/
def State.opFlywheel (s : State) (l : LinkId) : State :=
  let s1 := s.settle
  match (s1.link l).framing with
  | none => s1
  | some f => if f.bit.isSome then (s1.modFraming l fun g => { g with bit := some 0, run := 0 }).beginFrame l else s1

/-- The loss timer runs out within the period in progress (R171). -/
def State.opLinkLost (s : State) (l : LinkId) : State :=
  let s1 := s.settle
  s1.loseIfDue l s1.latestEnd

/-- A stored mode change takes effect in the period that has just begun (R175). -/
def State.opLinkMode (s : State) (l : LinkId) : State := if s.opening then s.linkModeAct l else s

end Sys2Proof.Machine
end

