-- ==== Sys2Proof/Machine/Port.lean ====
section
/-!
DEFINITION. The media port: claims, fetches and uploads' writes (01: R14; 02: R29 to R33, R44, R46).
-/

namespace Sys2Proof.Machine

/-! ## Claims -/

/-- The player of a reader (R30). -/
def State.reader (s : State) : Reader → Player
  | .deck d => (s.deck d).player
  | .bed st => (s.bed st).player

def State.modReader (s : State) (r : Reader) (f : Player → Player) : State :=
  match r with
  | .deck d => s.modPlayer d f
  | .bed st => s.modBedPlayer st f

/-- The readers in the order of their numbers, 0 to 21 (R30). -/
def allReaders : List Reader := allDecks.map Reader.deck ++ allStations.map Reader.bed

/-- Item data remains to fetch (R29). -/
def dataRemains (p : Player) (e : DirEntry) : Bool := p.looping || decide (p.fetchPos < e.trimOut)

/-- A reader claims the port (R29). -/
def State.claims (s : State) (r : Reader) : Bool :=
  let p := s.reader r
  match s.playerEntry p with
  | none => false
  | some e => p.state != .free && decide (p.buffer.length ≤ Config.claimLevel) && dataRemains p e

/-- The better of a choice so far and a further claiming reader: only a smaller buffered count displaces it (R30). -/
def State.betterReader (s : State) (acc : Option Reader) (r : Reader) : Option Reader :=
  match acc with
  | none => some r
  | some b => if (s.reader r).buffer.length < (s.reader b).buffer.length then some r else some b

/-- The reader the store arbiter chooses (R30). -/
def State.chosenReader (s : State) : Option Reader := (allReaders.filter s.claims).foldl s.betterReader none

/-! ## Fetches -/

/-- The stop point of a fetch (R31). -/
def stopPoint (p : Player) (e : DirEntry) : Nat :=
  match e.loop with
  | some l => if p.looping then l.stop else e.trimOut
  | none => e.trimOut

/-- The pairs a fetch moves (R31). -/
def fetchCount (p : Player) (e : DirEntry) : Nat :=
  min Config.fetchPairs
    (min (Config.blockPairs - p.fetchPos % Config.blockPairs) (stopPoint p e - p.fetchPos))

/-- The fetch position after a fetch of `n` pairs (R31). -/
def nextFetch (p : Player) (e : DirEntry) (n : Nat) : Nat :=
  match e.loop with
  | some l => if p.looping && p.fetchPos + n == l.stop then l.first else p.fetchPos + n
  | none => p.fetchPos + n

/-- A read granted to a reader begins a fetch (R31). -/
def State.beginFetch (s : State) (r : Reader) (e : DirEntry) (place : Nat) : State :=
  let p := s.reader r
  let n := fetchCount p e
  { s.modReader r fun q => { q with fetchPos := nextFetch p e n } with
    port := .fetch ⟨r, p.generation, place, n, false⟩ }

/-- The store arbiter's choice of a read on an idle port (R30, R31); an entry whose block list gives the pair no place
faults. -/
def State.opFetchBegin (s : State) : Host.Outcome State Fault Refusal :=
  if s.port ≠ .idle then .next s
  else
    match s.chosenReader with
    | none => .next s
    | some r =>
      match s.playerEntry (s.reader r) with
      | none => .next s
      | some e =>
        match e.place (s.reader r).fetchPos with
        | none => .fault .noSuchPlace
        | some a => .next (s.beginFetch r e a)

/-- A fetch's pairs are accepted (R32): not void, the reader still bound, its generation the tag's. -/
def State.accepts (s : State) (f : Fetch) : Bool :=
  !f.void && (s.reader f.reader).state != .free && (s.reader f.reader).generation == f.generation

/-- A BOUND player whose buffer has reached the threshold is PRIMED (R33). -/
def State.primeReader (s : State) (r : Reader) : State :=
  let p := s.reader r
  match s.playerEntry p with
  | none => s
  | some e =>
    if p.state = .bound ∧ primeThreshold p e ≤ p.buffer.length then
      s.modReader r fun q => { q with state := .primed }
    else s

/-- A reader's MEDIA_ERROR fault (R44). -/
def State.readerFault (s : State) : Reader → State
  | .deck d => s.deckFault d .mediaError
  | .bed st => s.bedFault st .mediaError

/-- The pairs of a fetch: zeros where the completion reports a media error (R32). -/
def State.fetched (s : State) (f : Fetch) (err : Bool) : List Pair :=
  if err then List.replicate f.count Pair.zero else readPairs s.media f.place f.count

/-- The pairs enter the buffer (R32). -/
def State.enterPairs (s : State) (f : Fetch) (err : Bool) : State :=
  let s1 := s.modReader f.reader fun p =>
    { p with buffer := p.buffer ++ s.fetched f err, mediaErrors := if err then p.mediaErrors + 1 else p.mediaErrors }
  (if err then s1.readerFault f.reader else s1).primeReader f.reader

/-- A fetch completes (R32). -/
def State.opFetchComplete (s : State) (err : Bool) : State :=
  match s.port with
  | .fetch f =>
    let s1 : State := { s with port := .idle }
    if s1.accepts f then s1.enterPairs f err else s1
  | .write => s
  | .idle => s

/-! ## Writes -/

/-- The write claim wins an idle port that no reader claims (R30). -/
def State.opWriteBegin (s : State) : State :=
  if s.port = .idle ∧ s.claim.isSome ∧ s.chosenReader = none then { s with port := .write } else s

/-- An upload's pairs written from an offset of an entry on; none where a pair has no place (R1, R14). -/
def writePairs (e : DirEntry) : List Pair → Nat → List Host.Cell → Option (List Host.Cell)
  | [], _, m => some m
  | x :: xs, k, m =>
    match e.place k with
    | none => none
    | some a => writePairs e xs (k + 1) (writePair m a x)

/-- The reply of an ITEM_DATA is placed at its write's completion, and the handler is READY (R14, R203). -/
def State.releaseHeld (s : State) (received : Nat) : State :=
  let s1 : State := { s with handler := .ready, inHand := none }
  match s.inHand with
  | none => s1
  | some m => s1.placeReply (replyBody m.kind m.req rOK (toBytes 4 received))

/-- A write completes (R14). -/
def State.opWriteComplete (s : State) : Host.Outcome State Fault Refusal :=
  match s.port, s.claim with
  | .write, some c =>
    match s.entryAt c.slot with
    | none => .next s
    | some e =>
      match writePairs e c.pairs c.offset s.media with
      | none => .fault .noSuchPlace
      | some m =>
        let received := e.received + c.pairs.length
        let s1 := ({ s with media := m, port := .idle, claim := none } : State).modDir c.slot fun x =>
          { x with received := received }
        .next (s1.releaseHeld received).runHandler
  | _, _ => .next s

end Sys2Proof.Machine
end

