-- ==== Sys2Proof/Machine/Control.lean ====
section
/-!
DEFINITION. The control link's line: the receiver (11: R200 to R202), the transmitter (R205), and the RESET pin (R214).
-/

namespace Sys2Proof.Machine

/-! ## The receiver -/

/-- The length a message declares. -/
def Receiver.length (x : Receiver) : Nat := beNat x.lengthBytes

/-- A message completes: it joins the queue or is discarded, and the handler may take it (R202, R203). -/
def State.completeMessage (s : State) (body : List Byte) : State :=
  (State.enqueue { s with rx := Receiver.reset } (messageOf body)).runHandler

/-- The second length byte (R200). -/
def State.lengthRead (s : State) (x : Receiver) : State :=
  if 3 ≤ x.length ∧ x.length ≤ 4200 then { s with rx := { x with state := .body } } else s.discardMessage

/-- The second check byte (R199, R200). -/
def State.checkRead (s : State) (x : Receiver) : State :=
  if x.checkBytes = word2 (check x.body) then s.completeMessage x.body else s.discardMessage

/-- One byte received without a framing error (R200). -/
def State.receiveByte (s : State) (b : Byte) : State :=
  let x := { s.rx with gap := 0 }
  match s.rx.state with
  | .hunt => if b = 0xA5 then { s with rx := ⟨.length, [], [], [], 0⟩ } else s
  | .length =>
    let y := { x with lengthBytes := x.lengthBytes ++ [b] }
    if y.lengthBytes.length < 2 then { s with rx := y } else s.lengthRead y
  | .body =>
    let y := { x with body := x.body ++ [b] }
    { s with rx := if y.body.length < y.length then y else { y with state := .check } }
  | .check =>
    let y := { x with checkBytes := x.checkBytes ++ [b] }
    if y.checkBytes.length < 2 then { s with rx := y } else s.checkRead y

/-- Bytes received one after another. -/
def State.receive (s : State) (bs : List Byte) : State := bs.foldl State.receiveByte s

/-- A byte with a framing error (R200): it discards a message in progress, and in HUNT it is disregarded. -/
def State.framingError (s : State) : State := if s.rx.state = .hunt then s else s.discardMessage

/-- The gap between two bytes of a message runs out (R200). -/
def State.gapTimeout (s : State) : State := if s.rx.gapOver then s.discardMessage else s

/-! ## The transmitter -/

/-- The message being sent has ended (R205); its successor begins, and the handler may go on (R203). -/
def State.messageSent (s : State) : State :=
  if s.sending.isSome then (State.pump { s with sending := none }).runHandler else s

/-! ## The RESET pin -/

/-- RSTN falls (R214, R14, R45): the message being sent is cut off, the request in hand and a transfer abandoned, the
link outputs low. -/
def State.assertReset (s : State) : State :=
  { s with
    inReset := true
    rx := Receiver.reset
    handler := .ready
    inHand := none
    sending := none
    txOrder := []
    behind := []
    port := .idle
    claim := none
    linkA := { s.linkA with frame := none, frameOpens := false }
    linkB := { s.linkB with frame := none, frameOpens := false } }

/-- RSTN rises (R214): every block takes its power-on values; the model's own queue of commands stays. -/
def State.powerOnKeep (s : State) (straps : Fin 4) : State := { State.powerOn straps with pending := s.pending }

end Sys2Proof.Machine
end

