-- ==== Sys2Proof/Machine/Requests.lean ====
section
/-!
DEFINITION. The request commands: a whole, checked request message reaches the part (11: R202, R203). One meaning per
kind of the request catalogue, each by the rule of its kind.
-/

namespace Sys2Proof.Machine

/-- A request of the kind given arrives: what the period in progress still owes comes first (assumption 7); the handler
takes the request if it may and none waits ahead of it, and it joins the queue otherwise (R202, R203). A part held in
reset disregards it (R214). -/
def State.request (s : State) (kind : Byte) (r : Req) (h : Req → State → State × Answer) :
    Host.Outcome State Fault Refusal :=
  if s.inReset then .next s
  else
    let s1 := s.settle
    if s1.canTake ∧ s1.queue = [] then .next (s1.serve kind r h)
    else .next (s1.enqueue ⟨kind, r.tag, r.station, r.payload⟩)

/-- ECHO (R209). -/
def execEcho (r : Req) (s : State) : Host.Outcome State Fault Refusal := s.request 0x01 r handleEcho

/-- DEVICE_INFO (R210). -/
def execDeviceInfo (r : Req) (s : State) : Host.Outcome State Fault Refusal := s.request 0x02 r handleDeviceInfo

/-- RESTART (R211). -/
def execRestart (r : Req) (s : State) : Host.Outcome State Fault Refusal := s.request 0x0F r handleRestart

/-- ITEM_OPEN (R5, R10 to R12). -/
def execItemOpen (r : Req) (s : State) : Host.Outcome State Fault Refusal := s.request 0x10 r handleItemOpen

/-- ITEM_DATA (R13, R14). -/
def execItemData (r : Req) (s : State) : Host.Outcome State Fault Refusal := s.request 0x11 r handleItemData

/-- ITEM_CLOSE (R15). -/
def execItemClose (r : Req) (s : State) : Host.Outcome State Fault Refusal := s.request 0x12 r handleItemClose

/-- ITEM_DROP (R16). -/
def execItemDrop (r : Req) (s : State) : Host.Outcome State Fault Refusal := s.request 0x13 r handleItemDrop

/-- ITEM_PURGE (R18). -/
def execItemPurge (r : Req) (s : State) : Host.Outcome State Fault Refusal := s.request 0x14 r handleItemPurge

/-- ITEM_INFO (R19). -/
def execItemInfo (r : Req) (s : State) : Host.Outcome State Fault Refusal := s.request 0x15 r handleItemInfo

/-- STORE_INFO (R20). -/
def execStoreInfo (r : Req) (s : State) : Host.Outcome State Fault Refusal := s.request 0x16 r handleStoreInfo

/-- ENTRY_INSERT (R67 to R69). -/
def execEntryInsert (r : Req) (s : State) : Host.Outcome State Fault Refusal := s.request 0x20 r handleEntryInsert

/-- ENTRY_REMOVE (R70). -/
def execEntryRemove (r : Req) (s : State) : Host.Outcome State Fault Refusal := s.request 0x21 r handleEntryRemove

/-- ENTRY_AMEND (R71). -/
def execEntryAmend (r : Req) (s : State) : Host.Outcome State Fault Refusal := s.request 0x22 r handleEntryAmend

/-- LIST_READ (R72). -/
def execListRead (r : Req) (s : State) : Host.Outcome State Fault Refusal := s.request 0x23 r handleListRead

/-- LIST_CLEAR (R73). -/
def execListClear (r : Req) (s : State) : Host.Outcome State Fault Refusal := s.request 0x24 r handleListClear

/-- STATION_SET (R86, R87). -/
def execStationSet (r : Req) (s : State) : Host.Outcome State Fault Refusal := s.request 0x30 r handleStationSet

/-- STATION_MODE (R104, R105, R140). -/
def execStationMode (r : Req) (s : State) : Host.Outcome State Fault Refusal := s.request 0x31 r handleStationMode

/-- STATION_STATUS (R107). -/
def execStationStatus (r : Req) (s : State) : Host.Outcome State Fault Refusal := s.request 0x32 r handleStationStatus

/-- TAKE (R99 to R101). -/
def execTake (r : Req) (s : State) : Host.Outcome State Fault Refusal := s.request 0x33 r handleTake

/-- TAKE_CANCEL (R101). -/
def execTakeCancel (r : Req) (s : State) : Host.Outcome State Fault Refusal := s.request 0x34 r handleTakeCancel

/-- STOP (R103). -/
def execStop (r : Req) (s : State) : Host.Outcome State Fault Refusal := s.request 0x35 r handleStop

/-- RESUME (R106). -/
def execResume (r : Req) (s : State) : Host.Outcome State Fault Refusal := s.request 0x36 r handleResume

/-- SET_TIME (R108, R150). -/
def execSetTime (r : Req) (s : State) : Host.Outcome State Fault Refusal := s.request 0x37 r handleSetTime

/-- REF_SELECT (R155, R158). -/
def execRefSelect (r : Req) (s : State) : Host.Outcome State Fault Refusal := s.request 0x40 r handleRefSelect

/-- REF_CANCEL (R159). -/
def execRefCancel (r : Req) (s : State) : Host.Outcome State Fault Refusal := s.request 0x41 r handleRefCancel

/-- REF_STATUS (R162). -/
def execRefStatus (r : Req) (s : State) : Host.Outcome State Fault Refusal := s.request 0x42 r handleRefStatus

/-- LINK_SET (R175). -/
def execLinkSet (r : Req) (s : State) : Host.Outcome State Fault Refusal := s.request 0x48 r handleLinkSet

/-- LINK_ASSIGN (R177). -/
def execLinkAssign (r : Req) (s : State) : Host.Outcome State Fault Refusal := s.request 0x49 r handleLinkAssign

/-- LINK_STATUS (R178). -/
def execLinkStatus (r : Req) (s : State) : Host.Outcome State Fault Refusal := s.request 0x4A r handleLinkStatus

/-- ASRUN_FETCH (R186). -/
def execAsrunFetch (r : Req) (s : State) : Host.Outcome State Fault Refusal := s.request 0x50 r handleAsrunFetch

/-- FAULT_READ (R188). -/
def execFaultRead (r : Req) (s : State) : Host.Outcome State Fault Refusal := s.request 0x51 r handleFaultRead

/-- COND_CLEAR (R191). -/
def execCondClear (r : Req) (s : State) : Host.Outcome State Fault Refusal := s.request 0x52 r handleCondClear

/-- NOTICE_MASK (R192). -/
def execNoticeMask (r : Req) (s : State) : Host.Outcome State Fault Refusal := s.request 0x53 r handleNoticeMask

/-- A request whose kind is not in the catalogue (R206). -/
def execUnknownKindRequest (kind : Byte) (r : Req) (s : State) : Host.Outcome State Fault Refusal :=
  s.request kind r (handlerFor kind)

end Sys2Proof.Machine
end

