-- ==== Sys2Proof/Machine/Events.lean ====
section
/-!
DEFINITION. The event commands: what comes to the part from outside or falls due in it. A command whose event cannot
fall where the part stands leaves the part as it is, but for the period in progress being completed where the event
would follow it (assumption 7).
-/

namespace Sys2Proof.Machine

/-- What happens to a part that is not held in reset (R214). -/
def State.live (s : State) (f : State → State) : Host.Outcome State Fault Refusal :=
  if s.inReset then .next s else .next (f s)

/-- An event of a sample period's beginning, with the re-evaluations it sets off (R75). -/
def State.inPeriod (s : State) (f : State → State) : State :=
  if s.opening then State.settlePool (f s.beginPeriod) else s

/-! ## Resets -/

/-- RSTN falls (R214). -/
def execResetAssert (s : State) : Host.Outcome State Fault Refusal := .next s.assertReset

/-- RSTN rises with the straps given (R197, R214). -/
def execPowerOnReset (straps : Fin 4) (s : State) : Host.Outcome State Fault Refusal := .next (s.powerOnKeep straps)

/-- The restart acts in the restart period (R212, R213). -/
def execRestartPeriod (s : State) : Host.Outcome State Fault Refusal :=
  s.live fun x => if x.opening then x.restartAct else x

/-! ## The control link -/

/-- The bytes of a message arrive (R200, R202). -/
def execMessageComplete (bytes : List Byte) (s : State) : Host.Outcome State Fault Refusal :=
  s.live fun x => x.settle.receive bytes

/-- Bytes arrive, and behind them one with a framing error (R200, R201). -/
def execFramingError (bytes : List Byte) (s : State) : Host.Outcome State Fault Refusal :=
  s.live fun x => (x.settle.receive bytes).framingError

/-- A start byte and a length outside 3 to 4,200 arrive (R200, R201). -/
def execBodyLengthOutOfRange (length : BitVec 16) (s : State) : Host.Outcome State Fault Refusal :=
  s.live fun x => x.settle.receive (0xA5 :: word2 length)

/-- The message in progress has waited too long for its next byte (R200, R201). -/
def execReceiveGapTimeout (s : State) : Host.Outcome State Fault Refusal := s.live fun x => x.settle.gapTimeout

/-- A message ends on CTXD (R205). -/
def execMessageSent (s : State) : Host.Outcome State Fault Refusal := s.live fun x => x.settle.messageSent

/-! ## The timebase -/

/-- A period of the oscillator has passed (R153). -/
def execInternalPeriodEnd (s : State) : Host.Outcome State Fault Refusal := s.live State.opInternalEnd

/-- An edge of the current source (R153). -/
def execRefEdgeAccepted (p : Phase) (s : State) : Host.Outcome State Fault Refusal := s.live fun x => x.opEdgeAccepted p

/-- The current source's window closes with no edge (R153, R154). -/
def execRefWindowMiss (s : State) : Host.Outcome State Fault Refusal := s.live State.opWindowMiss

/-- An edge of the target (R156, R157). -/
def execTargetEdge (p : Phase) (s : State) : Host.Outcome State Fault Refusal := s.live fun x => x.opTargetEdge p

/-- The target's edge is missed (R156). -/
def execTargetWindowTimeout (s : State) : Host.Outcome State Fault Refusal := s.live State.opTargetTimeout

/-- The bridging period ends (R157). -/
def execBridgingEnd (e : Option Phase) (s : State) : Host.Outcome State Fault Refusal :=
  s.live fun x => x.opBridgingEnd e

/-- A switch to INTERNAL acts (R158). -/
def execRefSwitchInternal (e : Option Phase) (s : State) : Host.Outcome State Fault Refusal :=
  s.live fun x => x.opSwitchInternal e

/-! ## Stations -/

/-- The silence counter has reached the window (R137). -/
def execSilenceWindowReached (st : StationId) (s : State) : Host.Outcome State Fault Refusal :=
  s.live fun x => x.settle.silenceOrder st

/-- A due entry starts (R90, R92). -/
def execEntryStart (st : StationId) (s : State) : Host.Outcome State Fault Refusal :=
  s.live fun x => x.inPeriod fun y => y.opEntryStart st

/-- The first HARD entry enters the arm horizon (R75). -/
def execArmHorizonReached (st : StationId) (s : State) : Host.Outcome State Fault Refusal :=
  s.live fun x => x.inPeriod fun y => y.opHorizon st

/-- The hard entry's pre-fade begins (R95, R96). -/
def execPreFade (st : StationId) (s : State) : Host.Outcome State Fault Refusal :=
  s.live fun x => x.inPeriod fun y => y.opPreFade st

/-- A HARD item reaches its due time (R97). -/
def execHardEventDue (st : StationId) (s : State) : Host.Outcome State Fault Refusal :=
  s.live fun x => x.inPeriod fun y => y.opHardDue st

/-- HARD items beyond the late tolerance leave the list (R98). -/
def execHardItemTooLate (st : StationId) (s : State) : Host.Outcome State Fault Refusal :=
  s.live fun x => x.inPeriod fun y => y.opTooLate st

/-! ## Breaks -/

/-- A break starts (R118, R120). -/
def execBreakStart (st : StationId) (s : State) : Host.Outcome State Fault Refusal :=
  s.live fun x => x.inPeriod fun y => y.opBreakStart st

/-- A break met at or after its end is skipped (R119). -/
def execBreakSkip (st : StationId) (s : State) : Host.Outcome State Fault Refusal :=
  s.live fun x => x.inPeriod fun y => y.opBreakSkip st

/-- The next spot starts (R122). -/
def execSpotStart (st : StationId) (s : State) : Host.Outcome State Fault Refusal :=
  s.live fun x => x.inPeriod fun y => y.opSpotStart st

/-- The fill starts (R126). -/
def execFillStart (st : StationId) (s : State) : Host.Outcome State Fault Refusal :=
  s.live fun x => x.inPeriod fun y => y.opFillStart st

/-- The fill's closing fade begins (R126). -/
def execFillClosingFade (st : StationId) (s : State) : Host.Outcome State Fault Refusal :=
  s.live fun x => x.inPeriod fun y => y.opFillClosing st

/-- The break closes at its end time (R129). -/
def execBreakClose (st : StationId) (s : State) : Host.Outcome State Fault Refusal :=
  s.live fun x => x.inPeriod fun y => y.opBreakClose st

/-! ## Players and the media port -/

/-- A deck's play ends at the close of the period (R37, R93). -/
def execDeckEndOfPlay (d : DeckId) (s : State) : Host.Outcome State Fault Refusal :=
  s.live fun x => (x.settle.opDeckEnd d).settlePool

/-- A bed player starts (R42). -/
def execBedPlayerStart (st : StationId) (s : State) : Host.Outcome State Fault Refusal :=
  s.live fun x => x.inPeriod fun y => y.opBedStart st

/-- A bed player's play ends at the close of the period (R43). -/
def execBedPlayerEnd (st : StationId) (s : State) : Host.Outcome State Fault Refusal :=
  s.live fun x => x.settle.opBedEnd st

/-- A read is granted the port and begins a fetch (R30, R31). -/
def execFetchBegin (s : State) : Host.Outcome State Fault Refusal :=
  if s.inReset then .next s else s.settle.opFetchBegin

/-- A fetch completes, with a media error or without (R32, R33). -/
def execFetchComplete (err : Bool) (s : State) : Host.Outcome State Fault Refusal :=
  s.live fun x => x.settle.opFetchComplete err

/-- The write claim is granted the port (R30). -/
def execWriteBegin (s : State) : Host.Outcome State Fault Refusal := s.live fun x => x.settle.opWriteBegin

/-- The write completes, and its ITEM_DATA is answered (R14). -/
def execWriteComplete (s : State) : Host.Outcome State Fault Refusal :=
  if s.inReset then .next s else s.settle.opWriteComplete

/-! ## Air links -/

/-- A SLAVE link receives a frame pulse on a bit of its frame (R170, R171, R173). -/
def execFramePulse (l : LinkId) (bit : Nat) (p : Phase) (s : State) : Host.Outcome State Fault Refusal :=
  s.live fun x => x.opFramePulse l bit p

/-- A SLAVE link begins a frame by itself (R170, R173). -/
def execFlywheelFrame (l : LinkId) (s : State) : Host.Outcome State Fault Refusal := s.live fun x => x.opFlywheel l

/-- A SLAVE link's loss timer runs out (R171). -/
def execLinkLost (l : LinkId) (s : State) : Host.Outcome State Fault Refusal := s.live fun x => x.opLinkLost l

/-- A stored link mode takes effect (R175). -/
def execLinkModeChange (l : LinkId) (s : State) : Host.Outcome State Fault Refusal := s.live fun x => x.opLinkMode l

end Sys2Proof.Machine
end

