-- ==== Sys2Proof/Machine/Dispatch.lean ====
section
/-!
DEFINITION. The meaning of every command.
-/

namespace Sys2Proof.Machine

def exec (i : Instr) (s : State) : Host.Outcome State Fault Refusal :=
  match i with
  | .echo r => Sys2Proof.Machine.execEcho r s
  | .deviceInfo r => Sys2Proof.Machine.execDeviceInfo r s
  | .restart r => Sys2Proof.Machine.execRestart r s
  | .restartPeriod => Sys2Proof.Machine.execRestartPeriod s
  | .itemOpen r => Sys2Proof.Machine.execItemOpen r s
  | .itemData r => Sys2Proof.Machine.execItemData r s
  | .writeBegin => Sys2Proof.Machine.execWriteBegin s
  | .writeComplete => Sys2Proof.Machine.execWriteComplete s
  | .itemClose r => Sys2Proof.Machine.execItemClose r s
  | .itemDrop r => Sys2Proof.Machine.execItemDrop r s
  | .itemPurge r => Sys2Proof.Machine.execItemPurge r s
  | .itemInfo r => Sys2Proof.Machine.execItemInfo r s
  | .storeInfo r => Sys2Proof.Machine.execStoreInfo r s
  | .entryInsert r => Sys2Proof.Machine.execEntryInsert r s
  | .entryRemove r => Sys2Proof.Machine.execEntryRemove r s
  | .entryAmend r => Sys2Proof.Machine.execEntryAmend r s
  | .listRead r => Sys2Proof.Machine.execListRead r s
  | .listClear r => Sys2Proof.Machine.execListClear r s
  | .stationSet r => Sys2Proof.Machine.execStationSet r s
  | .stationMode r => Sys2Proof.Machine.execStationMode r s
  | .stationStatus r => Sys2Proof.Machine.execStationStatus r s
  | .take r => Sys2Proof.Machine.execTake r s
  | .takeCancel r => Sys2Proof.Machine.execTakeCancel r s
  | .stop r => Sys2Proof.Machine.execStop r s
  | .resume r => Sys2Proof.Machine.execResume r s
  | .setTime r => Sys2Proof.Machine.execSetTime r s
  | .refSelect r => Sys2Proof.Machine.execRefSelect r s
  | .refCancel r => Sys2Proof.Machine.execRefCancel r s
  | .refStatus r => Sys2Proof.Machine.execRefStatus r s
  | .linkSet r => Sys2Proof.Machine.execLinkSet r s
  | .linkAssign r => Sys2Proof.Machine.execLinkAssign r s
  | .linkStatus r => Sys2Proof.Machine.execLinkStatus r s
  | .asrunFetch r => Sys2Proof.Machine.execAsrunFetch r s
  | .faultRead r => Sys2Proof.Machine.execFaultRead r s
  | .condClear r => Sys2Proof.Machine.execCondClear r s
  | .noticeMask r => Sys2Proof.Machine.execNoticeMask r s
  | .unknownKindRequest kind r => Sys2Proof.Machine.execUnknownKindRequest kind r s
  | .messageComplete bytes => Sys2Proof.Machine.execMessageComplete bytes s
  | .receiveGapTimeout => Sys2Proof.Machine.execReceiveGapTimeout s
  | .messageSent => Sys2Proof.Machine.execMessageSent s
  | .resetAssert => Sys2Proof.Machine.execResetAssert s
  | .powerOnReset straps => Sys2Proof.Machine.execPowerOnReset straps s
  | .internalPeriodEnd => Sys2Proof.Machine.execInternalPeriodEnd s
  | .refEdgeAccepted phase => Sys2Proof.Machine.execRefEdgeAccepted phase s
  | .refWindowMiss => Sys2Proof.Machine.execRefWindowMiss s
  | .targetEdge phase => Sys2Proof.Machine.execTargetEdge phase s
  | .targetWindowTimeout => Sys2Proof.Machine.execTargetWindowTimeout s
  | .bridgingEnd edge => Sys2Proof.Machine.execBridgingEnd edge s
  | .refSwitchInternal edge => Sys2Proof.Machine.execRefSwitchInternal edge s
  | .silenceWindowReached st => Sys2Proof.Machine.execSilenceWindowReached st s
  | .entryStart st => Sys2Proof.Machine.execEntryStart st s
  | .armHorizonReached st => Sys2Proof.Machine.execArmHorizonReached st s
  | .preFade st => Sys2Proof.Machine.execPreFade st s
  | .hardEventDue st => Sys2Proof.Machine.execHardEventDue st s
  | .hardItemTooLate st => Sys2Proof.Machine.execHardItemTooLate st s
  | .breakStart st => Sys2Proof.Machine.execBreakStart st s
  | .breakSkip st => Sys2Proof.Machine.execBreakSkip st s
  | .spotStart st => Sys2Proof.Machine.execSpotStart st s
  | .fillStart st => Sys2Proof.Machine.execFillStart st s
  | .fillClosingFade st => Sys2Proof.Machine.execFillClosingFade st s
  | .breakClose st => Sys2Proof.Machine.execBreakClose st s
  | .deckEndOfPlay d => Sys2Proof.Machine.execDeckEndOfPlay d s
  | .bedPlayerStart st => Sys2Proof.Machine.execBedPlayerStart st s
  | .bedPlayerEnd st => Sys2Proof.Machine.execBedPlayerEnd st s
  | .fetchBegin => Sys2Proof.Machine.execFetchBegin s
  | .fetchComplete mediaError => Sys2Proof.Machine.execFetchComplete mediaError s
  | .framePulse link bit phase => Sys2Proof.Machine.execFramePulse link bit phase s
  | .flywheelFrame link => Sys2Proof.Machine.execFlywheelFrame link s
  | .linkLost link => Sys2Proof.Machine.execLinkLost link s
  | .linkModeChange link => Sys2Proof.Machine.execLinkModeChange link s
  | .framingError bytes => Sys2Proof.Machine.execFramingError bytes s
  | .bodyLengthOutOfRange length => Sys2Proof.Machine.execBodyLengthOutOfRange length s

end Sys2Proof.Machine
end

