-- ==== Sys2Proof/WellFormed.lean ====
section
/-!
DEFINITION. When a command is one that the outside world can send: a request fits in a message body, an unknown kind
is none of the catalogue's, an edge falls in a period that can still be in progress, a pulse falls on a bit of a frame.
-/

namespace Sys2Proof

/-- The kind codes of the request catalogue (11_control_link_and_message_formats.md, "The request catalogue"). -/
def catalogue : List Byte :=
  [0x01, 0x02, 0x0F, 0x10, 0x11, 0x12, 0x13, 0x14, 0x15, 0x16, 0x20, 0x21, 0x22, 0x23, 0x24, 0x30, 0x31, 0x32, 0x33,
   0x34, 0x35, 0x36, 0x37, 0x40, 0x41, 0x42, 0x48, 0x49, 0x4A, 0x50, 0x51, 0x52, 0x53]

/-- A request's payload leaves its body within 3 to 4,200 bytes (R198). -/
def Req.fits (r : Req) : Bool := r.payload.length ≤ 4197

/-- A moment no later than the latest end of a sample period, 1.51 nominal periods after it began (R157: a lock edge
in the first half and its window). -/
def phaseFits (p : Phase) : Bool := p ≤ 1510000

/-- The check of one command. -/
def Instr.wellFormed : Instr → Bool
  | .echo r => r.fits
  | .deviceInfo r => r.fits
  | .restart r => r.fits
  | .restartPeriod => true
  | .itemOpen r => r.fits
  | .itemData r => r.fits
  | .writeBegin => true
  | .writeComplete => true
  | .itemClose r => r.fits
  | .itemDrop r => r.fits
  | .itemPurge r => r.fits
  | .itemInfo r => r.fits
  | .storeInfo r => r.fits
  | .entryInsert r => r.fits
  | .entryRemove r => r.fits
  | .entryAmend r => r.fits
  | .listRead r => r.fits
  | .listClear r => r.fits
  | .stationSet r => r.fits
  | .stationMode r => r.fits
  | .stationStatus r => r.fits
  | .take r => r.fits
  | .takeCancel r => r.fits
  | .stop r => r.fits
  | .resume r => r.fits
  | .setTime r => r.fits
  | .refSelect r => r.fits
  | .refCancel r => r.fits
  | .refStatus r => r.fits
  | .linkSet r => r.fits
  | .linkAssign r => r.fits
  | .linkStatus r => r.fits
  | .asrunFetch r => r.fits
  | .faultRead r => r.fits
  | .condClear r => r.fits
  | .noticeMask r => r.fits
  | .unknownKindRequest k r => r.fits && !catalogue.contains k
  | .messageComplete _ => true
  | .receiveGapTimeout => true
  | .messageSent => true
  | .resetAssert => true
  | .powerOnReset _ => true
  | .internalPeriodEnd => true
  | .refEdgeAccepted p => phaseFits p
  | .refWindowMiss => true
  | .targetEdge p => phaseFits p
  | .targetWindowTimeout => true
  | .bridgingEnd e => e.all phaseFits
  | .refSwitchInternal e => e.all phaseFits
  | .silenceWindowReached _ => true
  | .entryStart _ => true
  | .armHorizonReached _ => true
  | .preFade _ => true
  | .hardEventDue _ => true
  | .hardItemTooLate _ => true
  | .breakStart _ => true
  | .breakSkip _ => true
  | .spotStart _ => true
  | .fillStart _ => true
  | .fillClosingFade _ => true
  | .breakClose _ => true
  | .deckEndOfPlay _ => true
  | .bedPlayerStart _ => true
  | .bedPlayerEnd _ => true
  | .fetchBegin => true
  | .fetchComplete _ => true
  | .framePulse _ bit p => decide (1 ≤ bit) && decide (bit ≤ Config.frameBits) && phaseFits p
  | .flywheelFrame _ => true
  | .linkLost _ => true
  | .linkModeChange _ => true
  | .framingError _ => true
  | .bodyLengthOutOfRange n => decide (n.toNat < 3) || decide (4200 < n.toNat)

end Sys2Proof
end

