-- ==== Sys2Proof/Safety.lean ====
section
/-!
DEFINITION. What statements about the part are made of: where the part stands when a command meets it, the request a
command carries, the lengths of payloads, and the invariants.
-/

namespace Sys2Proof

/-- The kind and the message of a request command. -/
def Instr.request : Instr → Option (Byte × Req)
  | .echo r => some (0x01, r)
  | .deviceInfo r => some (0x02, r)
  | .restart r => some (0x0F, r)
  | .itemOpen r => some (0x10, r)
  | .itemData r => some (0x11, r)
  | .itemClose r => some (0x12, r)
  | .itemDrop r => some (0x13, r)
  | .itemPurge r => some (0x14, r)
  | .itemInfo r => some (0x15, r)
  | .storeInfo r => some (0x16, r)
  | .entryInsert r => some (0x20, r)
  | .entryRemove r => some (0x21, r)
  | .entryAmend r => some (0x22, r)
  | .listRead r => some (0x23, r)
  | .listClear r => some (0x24, r)
  | .stationSet r => some (0x30, r)
  | .stationMode r => some (0x31, r)
  | .stationStatus r => some (0x32, r)
  | .take r => some (0x33, r)
  | .takeCancel r => some (0x34, r)
  | .stop r => some (0x35, r)
  | .resume r => some (0x36, r)
  | .setTime r => some (0x37, r)
  | .refSelect r => some (0x40, r)
  | .refCancel r => some (0x41, r)
  | .refStatus r => some (0x42, r)
  | .linkSet r => some (0x48, r)
  | .linkAssign r => some (0x49, r)
  | .linkStatus r => some (0x4A, r)
  | .asrunFetch r => some (0x50, r)
  | .faultRead r => some (0x51, r)
  | .condClear r => some (0x52, r)
  | .noticeMask r => some (0x53, r)
  | .unknownKindRequest k r => some (k, r)
  | .restartPeriod => none
  | .writeBegin => none
  | .writeComplete => none
  | .messageComplete _ => none
  | .receiveGapTimeout => none
  | .messageSent => none
  | .resetAssert => none
  | .powerOnReset _ => none
  | .internalPeriodEnd => none
  | .refEdgeAccepted _ => none
  | .refWindowMiss => none
  | .targetEdge _ => none
  | .targetWindowTimeout => none
  | .bridgingEnd _ => none
  | .refSwitchInternal _ => none
  | .silenceWindowReached _ => none
  | .entryStart _ => none
  | .armHorizonReached _ => none
  | .preFade _ => none
  | .hardEventDue _ => none
  | .hardItemTooLate _ => none
  | .breakStart _ => none
  | .breakSkip _ => none
  | .spotStart _ => none
  | .fillStart _ => none
  | .fillClosingFade _ => none
  | .breakClose _ => none
  | .deckEndOfPlay _ => none
  | .bedPlayerStart _ => none
  | .bedPlayerEnd _ => none
  | .fetchBegin => none
  | .fetchComplete _ => none
  | .framePulse _ _ _ => none
  | .flywheelFrame _ => none
  | .linkLost _ => none
  | .linkModeChange _ => none
  | .framingError _ => none
  | .bodyLengthOutOfRange _ => none

/-- The commands that can end a sample period (R153, R154, R156, R157, R158; a frame pulse by R161). -/
def Instr.endsPeriod (c : Instr) : Bool :=
  match c with
  | .internalPeriodEnd => true
  | .refEdgeAccepted _ => true
  | .refWindowMiss => true
  | .targetEdge _ => true
  | .bridgingEnd _ => true
  | .refSwitchInternal _ => true
  | .framePulse _ _ _ => true
  | .echo _ => false
  | .deviceInfo _ => false
  | .restart _ => false
  | .restartPeriod => false
  | .itemOpen _ => false
  | .itemData _ => false
  | .writeBegin => false
  | .writeComplete => false
  | .itemClose _ => false
  | .itemDrop _ => false
  | .itemPurge _ => false
  | .itemInfo _ => false
  | .storeInfo _ => false
  | .entryInsert _ => false
  | .entryRemove _ => false
  | .entryAmend _ => false
  | .listRead _ => false
  | .listClear _ => false
  | .stationSet _ => false
  | .stationMode _ => false
  | .stationStatus _ => false
  | .take _ => false
  | .takeCancel _ => false
  | .stop _ => false
  | .resume _ => false
  | .setTime _ => false
  | .refSelect _ => false
  | .refCancel _ => false
  | .refStatus _ => false
  | .linkSet _ => false
  | .linkAssign _ => false
  | .linkStatus _ => false
  | .asrunFetch _ => false
  | .faultRead _ => false
  | .condClear _ => false
  | .noticeMask _ => false
  | .unknownKindRequest _ _ => false
  | .messageComplete _ => false
  | .receiveGapTimeout => false
  | .messageSent => false
  | .resetAssert => false
  | .powerOnReset _ => false
  | .targetWindowTimeout => false
  | .silenceWindowReached _ => false
  | .entryStart _ => false
  | .armHorizonReached _ => false
  | .preFade _ => false
  | .hardEventDue _ => false
  | .hardItemTooLate _ => false
  | .breakStart _ => false
  | .breakSkip _ => false
  | .spotStart _ => false
  | .fillStart _ => false
  | .fillClosingFade _ => false
  | .breakClose _ => false
  | .deckEndOfPlay _ => false
  | .bedPlayerStart _ => false
  | .bedPlayerEnd _ => false
  | .fetchBegin => false
  | .fetchComplete _ => false
  | .flywheelFrame _ => false
  | .linkLost _ => false
  | .linkModeChange _ => false
  | .framingError _ => false
  | .bodyLengthOutOfRange _ => false

/-- The payload lengths of the kinds whose body length is fixed (R208). -/
def fixedLength : Byte → Option Nat
  | 0x02 => some 1
  | 0x0F => some 0
  | 0x10 => some 35
  | 0x12 => some 4
  | 0x13 => some 4
  | 0x14 => some 1
  | 0x15 => some 7
  | 0x16 => some 0
  | 0x21 => some 2
  | 0x22 => some 22
  | 0x23 => some 1
  | 0x24 => some 0
  | 0x30 => some 48
  | 0x31 => some 1
  | 0x32 => some 1
  | 0x33 => some 3
  | 0x34 => some 0
  | 0x35 => some 0
  | 0x36 => some 0
  | 0x37 => some 6
  | 0x40 => some 2
  | 0x41 => some 0
  | 0x42 => some 0
  | 0x48 => some 3
  | 0x49 => some 3
  | 0x4A => some 2
  | 0x50 => some 1
  | 0x51 => some 1
  | 0x52 => some 1
  | 0x53 => some 1
  | _ => none

namespace Machine

/-- The part stands between sample periods, out of reset. -/
abbrev State.AtRest (s : State) : Prop := s.inReset = false ∧ s.opening = false

/-- The part stands between sample periods, and its handler takes a request that comes now: it is READY, no reply waits
to begin sending and no message is queued (R203); no notice waits behind a reply and no re-evaluation is owed. -/
abbrev State.Ready (s : State) : Prop :=
  s.AtRest ∧ s.handler = .ready ∧ s.replyWaits = false ∧ s.queue = [] ∧ s.behind = [] ∧
    ∀ st : StationId, (s.station st).dirty = false

/-- The part stands at the beginning of a period, out of reset, with no RESTART and no link mode change to act. -/
abbrev State.InOpening (s : State) : Prop :=
  s.inReset = false ∧ s.opening = true ∧ s.handler ≠ .restarting ∧ s.linkA.mode = s.linkA.active ∧
    s.linkB.mode = s.linkB.active

/-- The reply is placed, and nothing else changes. -/
def State.answered (s : State) (kind : Byte) (r : Req) (code : Byte) (payload : List Byte) : State :=
  s.placeReply (replyBody kind r code payload)

/-- The as-run log keeps its rules: the queue holds at most 512 records and their numbers increase strictly from oldest to
newest (R182), and below the next number, unless the wrap hold flag keeps further records out (R185). -/
abbrev LogRules (q : List Record) (next : Count32) (hold : Bool) : Prop :=
  q.length ≤ 512 ∧ q.Pairwise (fun x y => x.seq < y.seq) ∧ (hold = false → ∀ r ∈ q, r.seq < next)

abbrev State.AsrunKept (s : State) : Prop := LogRules s.asrun s.nextSeq s.wrapHold

/-- The request queue holds at most 16 messages (R202). -/
abbrev State.QueueBounded (s : State) : Prop := s.queue.length ≤ 16

/-- The media memory stands in its canonical form. -/
abbrev State.MediaCanonical (s : State) : Prop := Memory.wf s.media = true

/-- Decks held plus requests waiting, which R25 holds to four. -/
def State.deckLoad (s : State) (st : StationId) : Nat := (s.held st).length + (s.station st).requests.length

/-- Every station's decks held plus requests waiting number at most four (R25). -/
abbrev State.Capped (s : State) : Prop := ∀ st : StationId, s.deckLoad st ≤ 4

/-- What the rules of a run list ask of an entry: its id and, of a HARD entry, its due time and its end (R62, R68). -/
def Entry.key (e : Entry) : Nat × Option (Nat × Nat) :=
  (e.id, if e.startKind = .hard then some (e.dueTime, e.endTime) else none)

/-- A run list keeps the rules of R62 and R68: at most 64 entries, no two of one id, due times in order. -/
abbrev ListRules (l : List Entry) : Prop := l.length ≤ 64 ∧ (l.map Entry.id).Nodup ∧ orderOk l = true

/-- Every station's run list keeps its rules. -/
abbrev State.ListsKept (s : State) : Prop := ∀ st : StationId, ListRules (s.station st).list

/-- All media blocks there are: the free ones and those of the directory entries (R2). -/
def State.blockTotal (s : State) : Nat := runsTotal s.freeBlocks + (s.dir.map fun e => runsTotal e.blocks).sum

/-- The directory holds its entries in slot order, no two in one slot and none beyond slot 4,095 (R3), and every block of
the media memory is free or an entry's, none lost and none gained (R1, R2). -/
abbrev State.DirectoryKept (s : State) : Prop :=
  (s.dir.map DirEntry.slot).Pairwise (· < ·) ∧ (∀ e ∈ s.dir, e.slot < 4096) ∧ s.blockTotal = 131072

/-- A condition set has no bit that R219 does not give it. -/
abbrev State.condInSet (s : State) (i : SetId) : Prop :=
  (s.cond i).pending &&& ~~~setBits i = 0 ∧ (s.cond i).enabled &&& ~~~setBits i = 0

/-- The notices of a set that wait: in the transmit order, or behind the reply in hand (R194). -/
def State.noticeCount (s : State) (i : SetId) : Nat := s.txOrder.count (.notice i) + s.behind.count i

/-- The condition unit keeps its rules: no bit that R219 does not give a set, at most one waiting notice per set
(R194). -/
abbrev State.NoticesKept (s : State) : Prop := ∀ i : SetId, s.condInSet i ∧ s.noticeCount i ≤ 1

/-- Settings within the ranges of R86. -/
abbrev Settings.InRange (c : Settings) : Prop :=
  c.outLevel ≤ 32768 ∧ c.hardFade ≤ 480000 ∧ c.stopFade ≤ 480000 ∧ c.breakFade ≤ 480000 ∧ 48000 ≤ c.armHorizon ∧
    c.armHorizon ≤ 2880000 ∧ c.lateTolerance ≤ 480000 ∧ c.threshold ≤ 32767 ∧ 48000 ≤ c.window ∧ c.window ≤ 2880000 ∧
    c.lowMark ≤ 63

/-- Every station's settings are in range. -/
abbrev State.SettingsKept (s : State) : Prop := ∀ st : StationId, (s.station st).cfg.InRange

/-- No two station assignments of a link share a slot (R177). -/
abbrev AirLink.Disjoint (k : AirLink) : Prop :=
  ∀ x y : StationId, x ≠ y → ∀ a b : Assignment, k.assigns[x] = some a → k.assigns[y] = some b → a.overlaps b = false

/-- A link's assignments lie within its 32 slots and share none (R177), and it has framing exactly in SLAVE mode
(R166). -/
abbrev AirLink.Kept (k : AirLink) : Prop :=
  k.Disjoint ∧ (∀ x : StationId, ∀ a : Assignment, k.assigns[x] = some a → a.base + a.format.width ≤ 32) ∧
    (k.framing.isSome = true ↔ k.active = .slave)

/-- Both links keep their rules, and a link that is the current source or the target is set to SLAVE (R155, R175). -/
abbrev State.LinksKept (s : State) : Prop :=
  ∀ l : LinkId, (s.link l).Kept ∧ (s.ref.uses l = true → (s.link l).mode = .slave)

/-- The reference controller's counts stay in their ranges (R152): fewer than four misses, and a lock progress of 64 only
while the bridging period of the completed lock runs (R157). -/
abbrev RefControl.Kept (r : RefControl) : Prop :=
  r.miss ≤ 3 ∧ r.progress ≤ 64 ∧
    (r.progress = 64 → ∃ b : Bridge, r.bridging = some b ∧ r.target = some b.source)

/-! ## What a clause of a statement speaks of -/

/-- The log takes the next `n` records: the queue has room for them, and no number wraps on the way (R185). -/
abbrev State.LogTakes (s : State) (n : Nat) : Prop :=
  s.asrun.length + n ≤ 512 ∧ s.wrapHold = false ∧ s.nextSeq.toNat + n < 4294967296

/-- What a record of something that did not air tells: outcome, station, entry, spot reference, cart, scheduled time,
start and end time, aired pairs, lateness (R183, R184). -/
def Record.gist (r : Record) :
    Outcome × StationId × Nat × Option Nat × Nat × Option Nat × Nat × Nat × Nat × Option Int :=
  (r.outcome, r.station, r.entryId, r.spotRef, r.cart, r.scheduled, r.startTime, r.endTime, r.aired, r.lateness)

/-- What a record of something that aired tells: outcome, station, entry, spot reference, cart, start and end time, aired
pairs (R183, R184). -/
def Record.airing (r : Record) : Outcome × StationId × Nat × Option Nat × Nat × Nat × Nat × Nat :=
  (r.outcome, r.station, r.entryId, r.spotRef, r.cart, r.startTime, r.endTime, r.aired)

/-- The records made so far, in their order: those of the log's queue, and behind them those held back. -/
def State.records (s : State) : List Record := s.asrun ++ s.recordsHeld.map Prod.snd

/-- How many of an entry's decks are on the air: an item's, or those of a break's spot and fill (R212). -/
def Entry.soundingCount (e : Entry) : Nat :=
  if e.notStarted then 0
  else
    match e.body with
    | .item _ => e.served.deckNo.toList.length
    | .brk b =>
      (b.spotOnAir.bind fun x => x.2.served.deckNo).toList.length +
        if b.fillState = .onAir then b.fillServed.deckNo.toList.length else 0

/-- The deck trails a break (R130). -/
def Target.trails : Target → Bool
  | .item _ => false
  | .spot _ _ => false
  | .fill _ => false
  | .trailSpot _ => true
  | .trailFill _ => true

/-- What a RESTART finds sounding in a station, each with a record (R212). -/
def State.soundingCount (s : State) (st : StationId) : Nat :=
  ((s.station st).list.map Entry.soundingCount).sum +
    ((s.held st).filter fun d => (s.deck d).target.any Target.trails).length + (s.bed st).player.sounds.toNat

/-- A ramp after a cut over `n` periods: a fade that already ends no later stays as it is (R94). -/
def Ramp.cutOver (r : Ramp) (n : Nat) : Ramp :=
  if r.target = 0 ∧ r.length - r.progress ≤ n then r else ⟨r.value, 0, n, 0⟩

/-- No station waits for a deck, and no bed player has a binding that a directory change could alter or make (R28, R40,
R41). -/
abbrev State.NoneConcerned (s : State) : Prop :=
  ∀ u : StationId, (s.station u).requests = [] ∧
    ((s.bed u).player.sounds = true ∨ (s.bed u).player.state = .free ∧ (s.station u).cfg.fallbackCart = none)

/-- Oscillator and controller make the next boundary without a switch of reference, and no order of the silence monitor
is due (R137, R148). -/
abbrev State.PlainEnd (s : State) : Prop :=
  s.AtRest ∧ s.ref.bridging = none ∧ s.ref.switchFrom = none ∧ s.ref.current = .internal ∧
    ∀ u : StationId, (s.station u).silenceDue = false

/-! ## Requests by the station field they allow -/

/-- The kinds that allow only the device field 0xFF (the request catalogue, R207). -/
def deviceKinds : List Byte := [0x01, 0x02, 0x0F, 0x16, 0x40, 0x41, 0x42, 0x48, 0x4A, 0x50]

/-- The kinds that allow only a station 0 to 5 (the request catalogue, R207). -/
def stationKinds : List Byte :=
  [0x20, 0x21, 0x22, 0x23, 0x24, 0x30, 0x31, 0x32, 0x33, 0x34, 0x35, 0x36, 0x49, 0x51]

/-- A request's payload has the length its kind asks for (R13, R208, R209, R217). -/
def lengthOk (kind : Byte) (r : Req) : Bool :=
  match fixedLength kind with
  | some n => r.payload.length == n
  | none =>
    if kind = 0x01 then decide (r.payload.length ≤ 256)
    else if kind = 0x11 then r.payload.length == 10 + 4 * field r.payload 0 2
    else r.payload.length == 31 + 8 * field r.payload 6 1

/-- The station field of a request is one its kind never allows (R207). -/
def badStation (kind : Byte) (r : Req) : Bool :=
  (stationOf r.station).isNone && r.station != deviceField ||
    deviceKinds.contains kind && r.station != deviceField || stationKinds.contains kind && (stationOf r.station).isNone

/-- The body of a request message (R198). -/
def requestBody (kind : Byte) (r : Req) : List Byte := kind :: r.tag :: r.station :: r.payload

/-! ## What a re-evaluation leaves -/

/-- The data of a break that no re-evaluation writes: plan, running states and what serves them aside (R111). -/
def BreakData.frame (b : BreakData) : BreakData :=
  { b with
    spots := b.spots.map fun p => Spot.fresh (p.cart, p.ref)
    gap := 0
    fillUsed := none
    fillPlanned := none
    fillServed := .none
    fillState := .none
    fillResolved := false
    fillDue := false }

/-- The data of an entry that no re-evaluation writes: what serves it, and WAITING or ARMED, aside (R63, R75). -/
def Entry.frame (e : Entry) : Entry :=
  { e with
    served := .none
    state := if e.notStarted then (if e.state = .pending then .pending else .waiting) else e.state
    body :=
      match e.body with
      | .item c => .item c
      | .brk b => .brk b.frame }

/-- The data of a station that no re-evaluation writes: its list, its requests and its fault record aside. -/
def Station.frame (x : Station) : Station := { x with list := [], requests := [], dirty := false, fault := none }

/-- A directory entry but for its binding count. -/
def DirEntry.frame (e : DirEntry) : DirEntry := { e with bindings := 0 }

/-- What re-evaluations leave as it is, from one state to another: every deck that is not FREE, the bed players, each
station's modes, settings, take, pre-fade and times, each entry's place, kind, times and whether it has started, and
the directory but for binding counts. -/
structure Reevaluated (s t : State) : Prop where
  decks : ∀ d : DeckId, (s.deck d).player.state ≠ .free → t.deck d = s.deck d
  beds : t.beds = s.beds
  station : ∀ st : StationId, (t.station st).frame = (s.station st).frame
  lists : ∀ st : StationId, (t.station st).list.map Entry.frame = (s.station st).list.map Entry.frame
  dir : t.dir.map DirEntry.frame = s.dir.map DirEntry.frame
  freeBlocks : t.freeBlocks = s.freeBlocks
  media : t.media = s.media
  handler : t.handler = s.handler
  queue : t.queue = s.queue
  port : t.port = s.port
  claim : t.claim = s.claim
  deferred : t.deferred = s.deferred
  house : t.house = s.house
  opening : t.opening = s.opening
  ref : t.ref = s.ref
  linkA : t.linkA = s.linkA
  linkB : t.linkB = s.linkB

/-! ## From one sample period into the next -/

/-- What a frame pulse on bit `bit` at the moment `now` makes of a SLAVE link's framing `f` (R170, R171), its store aside:
the first pulse of no frame, the well-spaced one on the boundary bit, and the misplaced one. -/
structure Framing.Pulsed (f g : Framing) (bit now : Nat) : Prop where
  place : g.bit = some 0
  timer : g.lossFrom = now
  first : f.bit = none → g.run = 0 ∧ g.sub = f.sub
  spaced : f.bit.isSome = true → bit = 768 →
    g.run = min (f.run + 1) 16 ∧ g.sub = if g.run = 16 then SubState.sync else f.sub
  misplaced : f.bit.isSome = true → bit ≠ 768 → g.run = 0 ∧ g.sub = if f.sub = SubState.sync then .hunt else f.sub

/-- The target's measurement as a boundary leaves it: ended where 1.01 nominal periods have passed by then (R156). -/
def RefControl.closed (r : RefControl) (now : Nat) : RefControl := if r.timedOut now then r.missedTarget else r

/-- A sample period `len` long has ended and the next has begun (R148): the house counter has risen by one, the actions
of taken requests have been made, and what only requests and the media port change is as it was. -/
structure NextPeriod (s t : State) (len : Nat) : Prop where
  house : t.house = s.house + 1
  start : t.periodStart = s.periodStart + len
  opening : t.opening = true
  deferred : t.deferred = []
  media : t.media = s.media
  port : t.port = s.port
  claim : t.claim = s.claim
  handler : t.handler = s.handler
  queue : t.queue = s.queue
  settings : ∀ st : StationId, (t.station st).cfg = (s.station st).cfg ∧ (t.station st).offset = (s.station st).offset ∧
    (t.station st).clips = (s.station st).clips
  links : ∀ l : LinkId, (t.link l).mode = (s.link l).mode ∧ (t.link l).active = (s.link l).active ∧
    (t.link l).mirror = (s.link l).mirror ∧ (t.link l).assigns = (s.link l).assigns
  asrun : s.asrun <+: t.asrun
  enabled : ∀ i : SetId, (t.cond i).enabled = (s.cond i).enabled

end Machine

end Sys2Proof
end

