-- ==== Sys2Proof/Certificates/Slice0/Obligations.lean ====
section
/-!
DEFINITION. The statements about the part for the provers. The rules named at the head of a docstring are those the
statement is read from; of each it claims what its own words say.
-/

open Sys2Proof Sys2Proof.Machine

/-! ## The part and its requests -/

/-- A step runs the command at the front of the queue with the queue's rest, and the part idles on an empty queue (the
idling is the model's choice, assumption 5). -/
def Obligations.StepRunsFront : Prop :=
  (∀ (c : Instr) (rest : List Instr) (s : State), s.pending = c :: rest → step s = exec c { s with pending := rest }) ∧
    ∀ s : State, s.pending = [] → step s = .next s

/-- R21, R30: a power-on reset, whatever the part was doing. R21 has every block on the free list; that the list is in
rising order is the model's choice (assumption 4). -/
def Obligations.PowerOnStore : Prop :=
  ∀ (straps : Fin 4) (s : State), ∃ t : State, exec (.powerOnReset straps) s = .next t ∧ t.dir = [] ∧
    (∀ k : Nat, k < 131072 → blockAt t.freeBlocks k = some k) ∧ runsTotal t.freeBlocks = 131072 ∧ t.reclaim = 0 ∧
    t.port = .idle ∧ t.claim = none

/-- R82: a power-on reset leaves no run list, no deck and no request to any station. -/
def Obligations.PowerOnLists : Prop :=
  ∀ (straps : Fin 4) (s : State), ∃ t : State, exec (.powerOnReset straps) s = .next t ∧
    ∀ st : StationId, (t.station st).list = [] ∧ (t.station st).notStarted = 0 ∧ t.held st = [] ∧
      (t.station st).requests = [] ∧ (t.cond (stationSet st)).pending &&& StationCond.listLow.mask = 0 ∧
      (t.station st).cfg.lowMark = 4 ∧ (t.station st).cfg.armHorizon = 480000 ∧
      ∀ id : Nat, (t.station st).find id = none

/-- R45, R61, R110, R147, R163, R180, R195, R214: what else a power-on reset gives, and that reset ends. That the queue
of commands stays is the model's choice (assumption 15). -/
def Obligations.PowerOnRest : Prop :=
  ∀ (straps : Fin 4) (s : State), ∃ t : State, exec (.powerOnReset straps) s = .next t ∧
    t.inReset = false ∧ t.straps = straps ∧ t.pending = s.pending ∧ t.rx.state = .hunt ∧ t.badMessages = 0 ∧
    t.queue = [] ∧ t.handler = .ready ∧ t.sending = none ∧ t.txOrder = [] ∧ t.behind = [] ∧
    (∀ d : DeckId, (t.deck d).player.state = .free ∧ (t.deck d).player.generation = 0 ∧
      (t.deck d).player.consumed = 0 ∧ (t.deck d).player.stalls = 0 ∧ (t.deck d).player.mediaErrors = 0) ∧
    (∀ st : StationId, (t.bed st).player.state = .free ∧ (t.bed st).player.generation = 0 ∧
      (t.bed st).airWanted = false ∧ (t.bed st).spent = false) ∧
    (∀ st : StationId, (t.station st).mode = .idle ∧ (t.station st).leftMode = none ∧ (t.station st).take = none ∧
      (t.station st).preFade = none ∧ (t.station st).due = none ∧ (t.station st).cfg = Settings.powerOn ∧
      (t.station st).silence = 0 ∧ (t.station st).clips = 0 ∧ (t.station st).offset = 0 ∧
      (t.station st).fault = none) ∧
    t.house = 0 ∧ t.ref.current = .internal ∧ t.ref.preferred = .internal ∧ t.ref.autoReturn = false ∧
    t.ref.target = none ∧ t.ref.progress = 0 ∧ t.ref.miss = 0 ∧ t.ref.fallen = false ∧
    (∀ l : LinkId, (t.link l).mode = .off ∧ (t.link l).mirror = false ∧ (t.link l).framing = none ∧
      (t.link l).frame = none ∧ (t.link l).alignments = 0 ∧ (t.link l).repeats = 0 ∧ (t.link l).drops = 0 ∧
      ∀ st : StationId, (t.link l).assigns[st] = none) ∧
    t.asrun = [] ∧ t.nextSeq = 0 ∧ t.wrapHold = false ∧ t.recordsHeld = [] ∧
    ∀ i : SetId, (t.cond i).pending = 0 ∧ (t.cond i).enabled = 0

/-- The invariants of the statements below hold right after reset. -/
def Obligations.ResetInvariants : Prop :=
  State.reset.AsrunKept ∧ State.reset.QueueBounded ∧ State.reset.MediaCanonical ∧ State.reset.Capped ∧
    State.reset.ListsKept ∧ State.reset.DirectoryKept ∧ State.reset.NoticesKept ∧ State.reset.SettingsKept ∧
    State.reset.LinksKept ∧ State.reset.ref.Kept

/-- R214: RSTN low stops whatever is on the lines, and until it rises nothing else has an effect. That memory,
directory, stations, decks and house counter keep their values until RSTN rises (the pin table has RSTN low force the
power-on values), and that every other command leaves a part held in reset as it is, is the model's choice (assumption
15). -/
def Obligations.HeldInReset : Prop :=
  (∀ s : State, ∃ t : State, exec .resetAssert s = .next t ∧ t.inReset = true ∧ t.rx = Receiver.reset ∧
    t.handler = .ready ∧ t.inHand = none ∧ t.sending = none ∧ t.txOrder = [] ∧ t.behind = [] ∧ t.port = .idle ∧
    t.claim = none ∧ t.linkA.frame = none ∧ t.linkB.frame = none ∧ t.media = s.media ∧ t.dir = s.dir ∧
    t.stations = s.stations ∧ t.decks = s.decks ∧ t.house = s.house) ∧
    ∀ (s : State) (c : Instr), s.inReset = true → c ≠ .resetAssert → (∀ straps : Fin 4, c ≠ .powerOnReset straps) →
      exec c s = .next s

/-- R202, R203: a request that the handler cannot take joins the tail of the queue, and a seventeenth is discarded. -/
def Obligations.BusyQueues : Prop :=
  ∀ (s : State) (c : Instr) (k : Byte) (r : Req), s.AtRest → c.request = some (k, r) →
    (s.handler ≠ .ready ∨ s.replyWaits = true ∨ s.queue ≠ []) →
    (s.queue.length < 16 →
      exec c s = .next { s with queue := s.queue ++ [⟨k, r.tag, r.station, r.payload⟩] }) ∧
    (16 ≤ s.queue.length →
      exec c s = .next (State.raiseDevice { s with badMessages := Count32.succHold s.badMessages } .badMessage))

/-- R200, R202, R203: a whole, checked message that comes over the link, of whatever kind, completes: a handler that may
take it takes it, and it is judged by the rule of its kind and answered as the request it carries is; otherwise it joins
the tail of the queue, and a seventeenth is discarded, counted and reported. -/
def Obligations.MessageIsRequest : Prop :=
  ∀ (s : State) (k : Byte) (r : Req), s.AtRest → s.rx = Receiver.reset → r.payload.length ≤ 4197 →
    (s.Ready →
      exec (.messageComplete (frameMessage (requestBody k r))) s =
        .next (Answer.after k r (handlerFor k r s.working)) ∧
      ∀ c : Instr, c.request = some (k, r) →
        exec (.messageComplete (frameMessage (requestBody k r))) s = exec c s) ∧
    ((s.handler ≠ .ready ∨ s.replyWaits = true) → s.queue.length < 16 →
      exec (.messageComplete (frameMessage (requestBody k r))) s =
        .next { s with queue := s.queue ++ [⟨k, r.tag, r.station, r.payload⟩] }) ∧
    ((s.handler ≠ .ready ∨ s.replyWaits = true ∧ s.sending.isSome = true) → 16 ≤ s.queue.length →
      exec (.messageComplete (frameMessage (requestBody k r))) s =
        .next (State.raiseDevice { s with badMessages := Count32.succHold s.badMessages } .badMessage))

/-- R200, R201: what discards the message in progress, and that the discard is counted and reported. -/
def Obligations.DiscardedMessages : Prop :=
  ∀ s : State, s.AtRest →
    let gone : Host.Outcome State Fault Refusal :=
      .next (State.raiseDevice { s with rx := Receiver.reset, badMessages := Count32.succHold s.badMessages } .badMessage)
    (∀ (body : List Byte) (w : BitVec 16), s.rx = Receiver.reset → 3 ≤ body.length → body.length ≤ 4200 →
      w ≠ check body → exec (.messageComplete (0xA5 :: (toBytes 2 body.length ++ body ++ word2 w))) s = gone) ∧
    (∀ n : BitVec 16, s.rx = Receiver.reset → (n.toNat < 3 ∨ 4200 < n.toNat) →
      exec (.bodyLengthOutOfRange n) s = gone) ∧
    (s.rx.state ≠ .hunt → exec (.framingError []) s = gone) ∧
    (s.rx.state = .hunt → exec (.framingError []) s = .next s) ∧
    (s.rx.state ≠ .hunt → 480 ≤ s.rx.gap → exec .receiveGapTimeout s = gone) ∧
    ((s.rx.state = .hunt ∨ s.rx.gap < 480) → exec .receiveGapTimeout s = .next s)

/-- R194, R205: as a message ends on the link the next one in the order begins; a notice is formed at its turn, and
withdrawn if its set has nothing pending and enabled by then. -/
def Obligations.NextMessage : Prop :=
  ∀ s : State, s.AtRest → s.sending.isSome = true → s.queue = [] →
    (s.txOrder = [] → exec .messageSent s = .next { s with sending := none }) ∧
    (∀ (body : List Byte) (rest : List TxItem), s.txOrder = .reply body :: rest →
      exec .messageSent s = .next { s with sending := some (frameMessage body), txOrder := rest }) ∧
    (∀ (i : SetId) (rest : List TxItem), s.txOrder = .notice i :: rest → (s.cond i).notice ≠ 0 →
      exec .messageSent s =
        .next { s with sending := some (frameMessage (noticeBody i (s.cond i).notice)), txOrder := rest }) ∧
    (∀ (i : SetId) (rest : List TxItem), s.txOrder = .notice i :: rest → (s.cond i).notice = 0 →
      exec .messageSent s = exec .messageSent { s with txOrder := rest })

/-- R206 steps 1 to 3: an unknown kind, a body length that disagrees with the kind, and a station field the kind does
not allow, in this order; nothing but the reply comes of them. R204: whatever is refused changes nothing, and its reply,
placed at once, carries no payload unless it answers an ITEM_DATA. -/
def Obligations.RequestChecks : Prop :=
  ∀ (s : State) (c : Instr) (k : Byte) (r : Req), s.Ready → c.request = some (k, r) →
    (catalogue.contains k = false → exec c s = .next (s.answered k r 0x10 [])) ∧
    (catalogue.contains k = true → k ≠ 0x11 → lengthOk k r = false → exec c s = .next (s.answered k r 0x11 [])) ∧
    (catalogue.contains k = true → k ≠ 0x11 → lengthOk k r = true → badStation k r = true →
      exec c s = .next (s.answered k r 0x12 [])) ∧
    ∀ (t : State) (code : Byte) (p : List Byte), handlerFor k r s.working = (t, .reply code p) → code ≠ 0x00 →
      code ≠ 0x01 → exec c s = .next (s.answered k r code p) ∧ (k ≠ 0x11 → p = [])

/-- R199: the check over a body followed by its own check is 0, and two bodies of one length that differ in one byte
have different checks. -/
def Obligations.CheckCatchesByte : Prop :=
  (∀ body : List Byte, check (body ++ word2 (check body)) = 0) ∧
    ∀ (front back : List Byte) (x y : Byte), x ≠ y → check (front ++ x :: back) ≠ check (front ++ y :: back)

/-! ## Requests that read -/

/-- R19, R20, R72, R107, R162, R178, R188, R209, R210: the requests that only read are answered OK with what they
return, and nothing but the reply comes of them. Where R208 leaves the place or width of a field of STATION_STATUS,
LINK_STATUS, FAULT_READ or REF_STATUS, and the code of the auto-return flag, the layout is the model's (assumptions 20
and 6); so is what REF_STATUS and LINK_STATUS report in a bridging period (assumption 19) and between a LINK_SET and its
boundary (assumption 41). The station time that STATION_STATUS reports between two periods is that of the period last
begun (assumption 56). -/
def Obligations.ReadersAnswer : Prop :=
  ∀ (s : State) (r : Req), s.Ready →
    (r.payload.length ≤ 256 → r.station = 0xFF → exec (.echo r) s = .next (s.answered 0x01 r 0x00 r.payload)) ∧
    (r.payload = [0] → r.station = 0xFF →
      exec (.deviceInfo r) s = .next (s.answered 0x02 r 0x00
        ([0x18, 0x38, 1, BitVec.ofNat 8 s.straps.val] ++ toBytes 4 s.badMessages.toNat ++ [0] ++
          toBytes 6 s.house.toNat))) ∧
    (r.payload = [] → r.station = 0xFF →
      exec (.storeInfo r) s = .next (s.answered 0x16 r 0x00
        (toBytes 2 (s.countIn .loading) ++ toBytes 2 (s.countIn .ready) ++ toBytes 2 (s.countIn .dropping) ++
          toBytes 2 (4096 - s.dir.length) ++ toBytes 4 (runsTotal s.freeBlocks) ++
          toBytes 4 ((s.dir.filter DirEntry.isCandidate).map fun e => runsTotal e.blocks).sum ++
          toBytes 2 s.reclaim))) ∧
    (∀ e : DirEntry, r.payload.length = 7 → r.station = 0xFF → field r.payload 0 1 = 0 → field r.payload 1 2 ≤ 4095 →
      s.entryAt (field r.payload 1 2) = some e → exec (.itemInfo r) s = .next (s.answered 0x15 r 0x00 e.record)) ∧
    (∀ (e : DirEntry) (owner : Option StationId), r.payload.length = 7 → ownerOf r.station = some owner →
      field r.payload 0 1 = 1 → s.keyed (field r.payload 3 4) owner (· != .dropping) = some e →
      exec (.itemInfo r) s = .next (s.answered 0x15 r 0x00 e.record)) ∧
    (∀ st : StationId, r.payload.length = 1 → stationOf r.station = some st → field r.payload 0 1 ≤ 63 →
      exec (.listRead r) s = .next (s.answered 0x23 r 0x00
        (toBytes 1 (s.station st).list.length ++ toBytes 1 (s.station st).notStarted ++
          toBytes 1 (((s.station st).list.drop (field r.payload 0 1)).take 8).length ++
          (((s.station st).list.drop (field r.payload 0 1)).take 8).flatMap Entry.record))) ∧
    (∀ st : StationId, r.payload = [0] → stationOf r.station = some st →
      exec (.stationStatus r) s = .next (s.answered 0x32 r 0x00 (s.statusBytes st))) ∧
    (r.payload = [] → r.station = 0xFF → exec (.refStatus r) s = .next (s.answered 0x42 r 0x00 s.refBytes)) ∧
    (∀ l : LinkId, r.payload = [if l = .a then 0 else 1, 0] → r.station = 0xFF →
      exec (.linkStatus r) s = .next (s.answered 0x4A r 0x00 (s.linkBytes l))) ∧
    (∀ st : StationId, r.payload = [0] → stationOf r.station = some st →
      exec (.faultRead r) s = .next (s.answered 0x51 r 0x00 (faultBytes (s.station st).fault)))

/-- R107, R178, R188, R210: with the clear option the requests that read return the old values and then clear the counts
or the fault record they name, and nothing else changes. The layouts of these replies are the model's where R208 leaves
them open (assumption 20). -/
def Obligations.ClearingReads : Prop :=
  ∀ (s : State) (r : Req), s.Ready →
    (r.payload = [1] → r.station = 0xFF →
      exec (.deviceInfo r) s = .next (State.answered { s with badMessages := 0 } 0x02 r 0x00 s.infoBytes)) ∧
    (∀ st : StationId, r.payload = [1] → stationOf r.station = some st →
      exec (.stationStatus r) s = .next
        (State.answered (s.modStation st fun x => { x with clips := 0 }) 0x32 r 0x00 (s.statusBytes st))) ∧
    (∀ l : LinkId, r.payload = [if l = .a then 0 else 1, 1] → r.station = 0xFF →
      exec (.linkStatus r) s = .next
        (State.answered (s.setLink l { s.link l with alignments := 0, repeats := 0, drops := 0 }) 0x4A r 0x00
          (s.linkBytes l))) ∧
    (∀ st : StationId, r.payload = [1] → stationOf r.station = some st →
      exec (.faultRead r) s = .next
        (State.answered (s.modStation st fun x => { x with fault := none }) 0x51 r 0x00
          (faultBytes (s.station st).fault)))

/-! ## The item store -/

/-- R3, R10: where enough blocks are free and a slot is empty, an ITEM_OPEN in range with no rival makes a LOADING entry
in the lowest empty slot, on blocks taken from the free list; nothing else changes but for the reply. That the blocks
come from the front of the list is the model's choice (assumption 4). R11, R12: where blocks or slots lack, it is
refused DIR_FULL or STORE_FULL, or the walk evicts candidates in its order, no more than it needs, until there is room.
-/
def Obligations.ItemOpenCreates : Prop :=
  ∀ (s : State) (r : Req) (owner : Option StationId) (f : OpenForm), s.Ready → r.payload.length = 35 →
    ownerOf r.station = some owner → f = openForm r.payload → f.inRange = true →
    s.keyed f.cart owner (· != .dropping) = none →
    (blocksFor f.length ≤ runsTotal s.freeBlocks → s.dir.length < 4096 →
    ∃ slot : Nat, ∃ c : Category, ∃ k : Retention, f.category = some c ∧ f.retention = some k ∧
      (s.DirectoryKept → slot < 4096 ∧ s.entryAt slot = none ∧ ∀ n : Nat, n < slot → s.entryAt n ≠ none) ∧
      exec (.itemOpen r) s = .next
        (State.answered
          { s with
            dir := insertDir
              { slot := slot, cart := f.cart, owner := owner, category := c, retention := k, state := .loading,
                length := f.length, trimIn := f.trimIn, segue := f.segue, trimOut := f.trimOut, loop := f.loop,
                level := f.level, blocks := (takeBlocks (blocksFor f.length) s.freeBlocks).1, received := 0,
                bindings := 0, serial := s.opens } s.dir
            freeBlocks := (takeBlocks (blocksFor f.length) s.freeBlocks).2
            opens := s.opens + 1 }
          0x10 r 0x00 (toBytes 2 slot ++ toBytes 2 (blocksFor f.length) ++ toBytes 2 f.level))) ∧
    ((runsTotal s.freeBlocks < blocksFor f.length ∨ 4096 ≤ s.dir.length) →
      (4096 ≤ s.dir.length → (∀ e ∈ s.dir, e.isCandidate = false) →
        exec (.itemOpen r) s = .next (s.answered 0x10 r 0x1B [])) ∧
      ((s.dir.length < 4096 ∨ ∃ e ∈ s.dir, e.isCandidate = true) →
        (runsTotal s.freeBlocks + s.reclaimBlocks < blocksFor f.length →
          exec (.itemOpen r) s = .next (s.answered 0x10 r 0x1C [])) ∧
        (blocksFor f.length ≤ runsTotal s.freeBlocks + s.reclaimBlocks →
          ∃ w : State, w = reclaimWalk (blocksFor f.length) s.working.walkOrder s.working ∧
            exec (.itemOpen r) s = .next
              (State.replied
                { w with
                  dir := insertDir (f.entry w owner) w.dir
                  freeBlocks := (takeBlocks (blocksFor f.length) w.freeBlocks).2
                  opens := w.opens + 1 }
                0x10 r 0x00 (toBytes 2 (lowestEmpty w.dir 0) ++ toBytes 2 (blocksFor f.length) ++ toBytes 2 f.level)) ∧
            (s.NoneConcerned → s.DirectoryKept → ∃ (n : Nat) (gone : List Nat), n ≤ s.walkOrder.length ∧
              gone = s.walkOrder.take n ∧ w.dir = s.dir.filter (fun e => !gone.contains e.slot) ∧
              runsTotal w.freeBlocks = runsTotal s.freeBlocks +
                ((s.dir.filter fun e => gone.contains e.slot).map fun e => runsTotal e.blocks).sum ∧
              blocksFor f.length ≤ runsTotal w.freeBlocks ∧ w.dir.length < 4096 ∧
              (∀ k : Nat, gone.getLast? = some k → w.reclaim = (k + 1) % 4096) ∧
              ∀ m : Nat, m < n → runsTotal s.freeBlocks +
                  ((s.dir.filter fun e => (s.walkOrder.take m).contains e.slot).map fun e => runsTotal e.blocks).sum <
                    blocksFor f.length ∨ 4096 ≤ s.dir.length - m))))

/-- R13, R14, R30: an ITEM_DATA in order places its write claim and is held without a reply; the claim wins the idle
port as soon as no reader claims it, and not before. -/
def Obligations.UploadClaims : Prop :=
  (∀ (s : State) (r : Req) (owner : Option StationId) (e : DirEntry), s.Ready → ownerOf r.station = some owner →
    r.payload.length = 10 + 4 * field r.payload 0 2 → 1 ≤ field r.payload 0 2 → field r.payload 0 2 ≤ 1024 →
    s.keyed (field r.payload 6 4) owner (· == .loading) = some e → field r.payload 2 4 = e.received →
    field r.payload 2 4 + field r.payload 0 2 ≤ e.length →
    exec (.itemData r) s = .next
      { s with
        handler := .held
        inHand := some ⟨0x11, r.tag, r.station, r.payload⟩
        claim := some ⟨e.slot, e.received, pairsOf (r.payload.drop 10)⟩ } ∧
      (pairsOf (r.payload.drop 10)).length = field r.payload 0 2) ∧
    (∀ s : State, s.AtRest → s.port = .idle → s.claim.isSome = true → (∀ rd ∈ allReaders, s.claims rd = false) →
      exec .writeBegin s = .next { s with port := .write }) ∧
    ∀ (s : State) (rd : Reader), s.AtRest → rd ∈ allReaders → s.claims rd = true → exec .writeBegin s = .next s

/-- R1, R14: as the write completes, each pair stands at its place of the entry's blocks, every other byte of the media
memory is as before, the received count has risen by the pair count and the reply carries it. -/
def Obligations.UploadWrites : Prop :=
  ∀ (s : State) (c : WriteClaim) (e : DirEntry) (m : Message), s.AtRest → s.MediaCanonical → s.port = .write →
    s.claim = some c → s.entryAt c.slot = some e → s.inHand = some m → s.queue = [] →
    (∀ i : Nat, i < c.pairs.length → (e.place (c.offset + i)).isSome = true) →
    (∀ i j a : Nat, i < c.pairs.length → j < c.pairs.length → e.place (c.offset + i) = some a →
      e.place (c.offset + j) = some a → i = j) →
    ∃ media : List Host.Cell,
      exec .writeComplete s = .next
        (State.answered
          (({ s with media := media, port := .idle, claim := none, handler := .ready, inHand := none } : State).modDir
            c.slot fun x => { x with received := e.received + c.pairs.length })
          m.kind m.req 0x00 (toBytes 4 (e.received + c.pairs.length))) ∧
      (∀ (i a : Nat) (p : Pair), c.pairs[i]? = some p → e.place (c.offset + i) = some a → readPair media a = p) ∧
      ∀ x : Nat, (∀ i a : Nat, i < c.pairs.length → e.place (c.offset + i) = some a → x < 4 * a ∨ 4 * a + 4 ≤ x) →
        readByte media x = readByte s.media x

/-- R8, R15, R16, R18: what ITEM_CLOSE, ITEM_DROP and ITEM_PURGE, in each of its scopes, do to the entries they name.
The directory change is announced before the reply, and what it sets off goes on behind it. R8, R28, R40, R41: what an
announcement does: every station owes a re-evaluation, a request whose entry has left READY is withdrawn and its item
told, and the bed players check their bindings and bind, those that sound aside. -/
def Obligations.ItemsCloseAndDrop : Prop :=
  (∀ (s : State) (r : Req) (owner : Option StationId) (e : DirEntry), s.Ready → ownerOf r.station = some owner →
    (r.payload.length = 4 → s.keyed (field r.payload 0 4) owner (· == .loading) = some e → e.length ≤ e.received →
      exec (.itemClose r) s = .next (State.replied
        (State.announce (s.working.modDir e.slot fun x => { x with state := .ready, bindings := 0 }))
        0x12 r 0x00 [])) ∧
    (r.payload.length = 4 → s.keyed (field r.payload 0 4) owner (· != .dropping) = some e →
      (e.state = .loading → exec (.itemDrop r) s = .next ((s.removeDir e.slot).answered 0x13 r 0x00 [0])) ∧
      (e.state = .ready → e.bindings = 0 →
        exec (.itemDrop r) s = .next (State.replied (s.working.removeDir e.slot).announce 0x13 r 0x00 [1])) ∧
      (e.state = .ready → 0 < e.bindings →
        exec (.itemDrop r) s = .next (State.replied
          (s.working.modDir e.slot fun x => { x with state := .dropping }).announce 0x13 r 0x00 [2])))) ∧
    (∀ (s : State) (r : Req), s.Ready → r.payload = [2] → r.station = 0xFF → (∀ x ∈ s.dir, x.state ≠ .ready) →
      ∃ t : State, exec (.itemPurge r) s = .next (t.answered 0x14 r 0x00
        (toBytes 2 (s.dir.filter fun x => x.state == .loading).length ++ [0, 0, 0, 0])) ∧
        (s.DirectoryKept → t.dir = s.dir.filter fun x => x.state == .dropping) ∧ t.stations = s.stations ∧
        t.decks = s.decks ∧ t.media = s.media) ∧
    (∀ (s : State) (r : Req) (inSet : DirEntry → Bool), s.Ready → s.NoneConcerned → s.DirectoryKept →
      ((∃ st : StationId, r.payload = [0] ∧ stationOf r.station = some st ∧ inSet = fun e => e.owner == some st) ∨
        (r.payload = [1] ∧ r.station = 0xFF ∧ inSet = fun e => e.owner.isSome) ∨
        (r.payload = [2] ∧ r.station = 0xFF ∧ inSet = fun _ => true)) →
      ∃ t : State, exec (.itemPurge r) s = .next (t.replied 0x14 r 0x00
          (toBytes 2 (s.dir.filter fun e => inSet e && e.state == .loading).length ++
            toBytes 2 (s.dir.filter fun e => inSet e && (e.state == .ready && e.bindings == 0)).length ++
            toBytes 2 (s.dir.filter fun e => inSet e && (e.state == .ready && e.bindings != 0)).length)) ∧
        t.dir = (s.dir.filter fun e =>
            !(inSet e && (e.state == .loading || e.state == .ready && e.bindings == 0))).map
          (fun e => if inSet e = true ∧ e.state = .ready then { e with state := .dropping } else e) ∧
        runsTotal t.freeBlocks = runsTotal s.freeBlocks +
          ((s.dir.filter fun e => inSet e && (e.state == .loading || e.state == .ready && e.bindings == 0)).map
            fun e => runsTotal e.blocks).sum ∧
        (∀ u : StationId, { t.station u with dirty := false } = s.station u) ∧ t.decks = s.decks ∧ t.beds = s.beds ∧
        t.media = s.media ∧ t.asrun = s.asrun) ∧
    ∀ s t : State, s.DirectoryKept → t = s.announce →
      (∀ u : StationId, (t.station u).dirty = true ∧
        (t.station u).requests =
          ((s.station u).requests.filter fun q => (s.entryAt q.slot).any fun x => x.state == .ready) ∧
        (∀ q ∈ (s.station u).requests, ∀ (id : Nat) (y : Entry), q.target = .item id →
          ((s.entryAt q.slot).any fun x => x.state == .ready) = false → (t.station u).find id = some y →
          y.served = .none) ∧
        ((s.bed u).player.sounds = true → t.bed u = s.bed u) ∧
        (((s.bed u).player.state = .bound ∨ (s.bed u).player.state = .primed) →
          ((s.fallbackEntry u).map DirEntry.slot = (s.bed u).player.slot → t.bed u = s.bed u) ∧
          ((s.fallbackEntry u).map DirEntry.slot ≠ (s.bed u).player.slot →
            (s.fallbackEntry u = none ∨ (s.bed u).spent = true) →
            t.bed u = { s.bed u with player := { (s.bed u).player.freed with buffer := [] } })) ∧
        ((s.bed u).player.state = .free → (s.fallbackEntry u = none ∨ (s.bed u).spent = true) → t.bed u = s.bed u) ∧
        ∀ x : DirEntry, s.fallbackEntry u = some x → (s.bed u).spent = false →
          ((s.bed u).player.state = .free ∨
            ((s.bed u).player.state = .bound ∨ (s.bed u).player.state = .primed) ∧
              (s.bed u).player.slot ≠ some x.slot) →
          t.bed u =
            { s.bed u with
              player :=
                { state := .bound, slot := some x.slot, generation := (s.bed u).player.generation + 1,
                  looping := x.loop.isSome, fetchPos := x.trimIn, playPos := x.trimIn, buffer := [], level := 0,
                  ramp := ⟨0, 0, 0, 0⟩, consumed := 0, stalls := 0, mediaErrors := 0, stalling := none,
                  ended := none } }) ∧
      t.decks = s.decks ∧ t.media = s.media ∧ t.asrun = s.asrun ∧ t.house = s.house ∧ t.port = s.port

/-! ## RESTART -/

/-- R203, R211, R22, R46, R83, R110, R164, R196, R212, R213: RESTART is answered with the house counter of the restart
period, and the handler holds until then; in its period the restart then makes a CUT record for every item and spot that
is on the air or trails, a FILL record for every fill and a FALLBACK record for every bed player that sounds, and none
besides. It then ends what it ends: lists, requests, decks, bindings, faults, conditions, waiting notices, the target of
the reference, which the auto-return watch may set again, and a fetch in progress. The bed players bind their fallback
carts anew, ASRUN_PENDING is taken anew, and the rest is kept. -/
def Obligations.RestartDone : Prop :=
  (∀ (s : State) (r : Req), s.Ready → r.payload = [] → r.station = 0xFF →
    exec (.restart r) s = .next
      (State.answered { s with handler := .restarting } 0x0F r 0x00 (toBytes 6 (s.house + 1).toNat))) ∧
  ∀ s : State, s.inReset = false → s.opening = true → s.handler = .restarting → s.linkA.mode = s.linkA.active →
    s.linkB.mode = s.linkB.active →
    ∃ t : State, exec .restartPeriod s = .next t ∧ t.handler = .ready ∧ t.opening = true ∧
      (∀ st : StationId, (t.station st).mode = .idle ∧ (t.station st).leftMode = none ∧ (t.station st).list = [] ∧
        (t.station st).requests = [] ∧ (t.station st).take = none ∧ (t.station st).preFade = none ∧
        (t.station st).due = none ∧ (t.station st).silence = 0 ∧ (t.station st).fault = none ∧
        (t.station st).cfg = (s.station st).cfg ∧ (t.station st).offset = (s.station st).offset ∧
        (t.station st).clips = (s.station st).clips ∧ (t.station st).out = ⟨0, 0, 0, true⟩ ∧
        ((t.station st).lowRel = true ↔ 0 < (s.station st).cfg.lowMark) ∧
        (t.bed st).airWanted = false ∧ (t.bed st).spent = false ∧
        (∀ (c : Nat) (x : DirEntry), (s.station st).cfg.fallbackCart = some c → s.lookup st c = some x →
          (t.bed st).player.state = .bound ∧ (t.bed st).player.slot = some x.slot) ∧
        (((s.station st).cfg.fallbackCart.bind (s.lookup st)) = none →
          (t.bed st).player.state = .free ∧ (t.bed st).player.slot = none)) ∧
      (∀ d : DeckId, (t.deck d).player.state = .free ∧ (t.deck d).player.generation = 0 ∧ (t.deck d).station = none ∧
        (t.deck d).player.consumed = 0 ∧ (t.deck d).player.stalls = 0 ∧ (t.deck d).player.mediaErrors = 0) ∧
      t.dir.map DirEntry.frame = (s.dir.filter fun e => e.state == .ready).map DirEntry.frame ∧
      (s.DirectoryKept → ∀ e ∈ t.dir,
        e.bindings = (allStations.filter fun u => (t.bed u).player.slot == some e.slot).length) ∧
      runsTotal t.freeBlocks = runsTotal s.freeBlocks +
        ((s.dir.filter fun e => e.state != .ready).map fun e => runsTotal e.blocks).sum ∧
      (∀ f : Fetch, s.port = .fetch f → t.port = .fetch { f with void := true }) ∧
      ((∀ f : Fetch, s.port ≠ .fetch f) → t.port = s.port) ∧
      (∃ made : List Record, t.asrun = s.asrun ++ made ∧ t.recordsHeld = [] ∧
        (s.recordsHeld = [] → ∀ r ∈ made, r.endTime = s.stationTime r.station ∧
          (r.outcome = .cut ∨ r.outcome = .fill ∨ r.outcome = .fallback)) ∧
        (t.asrun.length < 512 → s.wrapHold = false → s.nextSeq.toNat + 512 < 4294967296 →
          made.length = s.recordsHeld.length + (allStations.map s.soundingCount).sum ∧
          ∀ st : StationId,
            (∀ e ∈ (s.station st).list, e.notStarted = false →
              (∀ (c : Nat) (d : DeckId), e.body = .item c → e.served = .deck d → ∃ r ∈ made, r.airing =
                (.cut, st, e.id, none, c, e.startTime, s.stationTime st, (s.deck d).player.consumed)) ∧
              ∀ b : BreakData, e.body = .brk b →
                (∀ (i : Nat) (p : Spot) (d : DeckId), b.spotOnAir = some (i, p) → p.served = .deck d →
                  ∃ r ∈ made, r.airing = (.cut, st, e.id, some p.ref, p.cart, p.startTime, s.stationTime st,
                    (s.deck d).player.consumed)) ∧
                ∀ d : DeckId, b.fillState = .onAir → b.fillServed = .deck d → ∃ r ∈ made, r.airing =
                  (.fill, st, e.id, none, b.fillUsed.getD 0, b.fillStart, s.stationTime st,
                    (s.deck d).player.consumed)) ∧
            (∀ (d : DeckId) (tr : Trail), (s.deck d).station = some st →
              ((s.deck d).target = some (.trailSpot tr) → ∃ r ∈ made, r.airing =
                (.cut, st, tr.entryId, tr.spotRef, tr.cart, tr.startTime, s.stationTime st,
                  (s.deck d).player.consumed)) ∧
              ((s.deck d).target = some (.trailFill tr) → ∃ r ∈ made, r.airing =
                (.fill, st, tr.entryId, tr.spotRef, tr.cart, tr.startTime, s.stationTime st,
                  (s.deck d).player.consumed))) ∧
            ((s.bed st).player.sounds = true → ∃ r ∈ made, ∃ cart : Nat, r.airing =
              (.fallback, st, 0, none, cart, (s.bed st).startTime, s.stationTime st,
                (s.bed st).player.consumed)))) ∧
      (∀ st : StationId, (t.cond (stationSet st)).pending = 0) ∧
      (t.cond deviceSet).pending = (if t.asrun = [] then 0 else 0x01) ∧
      (∀ i : SetId, (t.cond i).enabled = (s.cond i).enabled) ∧ t.behind = [] ∧
      (s.sending.isSome = true → t.sending = s.sending ∧
        t.txOrder = (s.txOrder.filter fun x => x.isReply) ++
          (if t.asrun ≠ [] ∧ (s.cond deviceSet).enabled &&& 0x01 = 0x01 then [.notice deviceSet] else [])) ∧
      t.media = s.media ∧ t.reclaim = s.reclaim ∧ t.queue = s.queue ∧ t.rx = s.rx ∧
      t.house = s.house ∧ t.ref.current = s.ref.current ∧ t.ref.preferred = s.ref.preferred ∧
      t.ref.autoReturn = s.ref.autoReturn ∧ t.ref.miss = s.ref.miss ∧ t.ref.fallen = s.ref.fallen ∧
      (s.ref.bridging = none → (s.ref.target.isSome = true ∨ s.ref.progress = 0) → t.ref.progress = 0 ∧
        (s.ref.fallen = true → s.ref.autoReturn = true → (s.ref.preferred = .word ∨
            ∃ l : LinkId, s.ref.preferred = .link l ∧ (s.link l).mode = .slave) →
          t.ref.target = some s.ref.preferred ∧ t.ref.origin = .autoReturn) ∧
        ((s.ref.fallen = false ∨ s.ref.autoReturn = false ∨ s.ref.preferred = .internal ∨
            ∃ l : LinkId, s.ref.preferred = .link l ∧ (s.link l).mode ≠ .slave) → t.ref.target = none)) ∧
      t.linkA = s.linkA ∧ t.linkB = s.linkB ∧ t.badMessages = s.badMessages

/-! ## Run lists -/

/-- R67, R69: an ENTRY_INSERT that passes its checks puts a WAITING entry at its position and behind every committed
entry, one whose pre-fade has begun among them (R66), with level and fades clamped; the reply carries its place, the
not-started count and the stored values. That the target of a pending take counts among the committed wherever it stands
is the model's deduction (assumption 12). -/
def Obligations.EntryInserted : Prop :=
  ∀ (s : State) (r : Req) (st : StationId) (f : InsertForm) (x : Station) (p : Nat), s.Ready → x = s.station st →
    f = insertForm r.payload → p = max (min f.position x.notStarted) x.behindCommitted →
    r.payload.length = 31 + 8 * f.count → stationOf r.station = some st → f.inRange = true →
    (f.entry.due.isSome = true → orderOk (x.list.insertIdx (x.startedCount + p) f.entry) = true) →
    x.find f.id = none → x.list.length < 64 →
    exec (.entryInsert r) s = .next (State.replied
      (State.evalLow
        (State.markDirty
          (s.working.modStation st fun y => { y with list := x.list.insertIdx (x.startedCount + p) f.entry }) st) st)
      0x20 r 0x00 (toBytes 1 (x.startedCount + p) ++ toBytes 1 (x.notStarted + 1) ++ f.entry.storedBytes)) ∧
    f.entry.id = f.id ∧ f.entry.state = .waiting ∧ f.entry.served = .none ∧ f.entry.lateness = none ∧
    (∀ (i : Nat) (e : Entry), x.waitingList[i]? = some e →
      (e.state = .pending ∨ x.take.map PendingTake.target = some e.id ∨ e.preFaded = true) → i < p) ∧
    (∀ v : Nat, f.entry.level = some v → v = min f.level 32768) ∧
    (∀ v : Nat, f.entry.fadeIn = some v → v = min f.fadeIn 480000) ∧
    ∀ v : Nat, f.entry.fadeOut = some v → v = min f.fadeOut 480000

/-- R67, R68, R69: the refusals of ENTRY_INSERT in their order. The place that the ORDER check takes lies behind the
committed entries, which is the model's deduction for a pending take's target (assumption 12). -/
def Obligations.InsertRefused : Prop :=
  ∀ (s : State) (r : Req) (st : StationId) (f : InsertForm) (x : Station), s.Ready → x = s.station st →
    f = insertForm r.payload → r.payload.length = 31 + 8 * f.count → stationOf r.station = some st →
    let late := f.entry.due.isSome && !orderOk (x.listWith (x.insertPlace f.position) f.entry)
    (f.inRange = false → exec (.entryInsert r) s = .next (s.answered 0x20 r 0x15 [])) ∧
    (f.inRange = true → late = true → exec (.entryInsert r) s = .next (s.answered 0x20 r 0x16 [])) ∧
    (f.inRange = true → late = false → (x.find f.id).isSome = true →
      exec (.entryInsert r) s = .next (s.answered 0x20 r 0x19 [])) ∧
    (f.inRange = true → late = false → x.find f.id = none → 64 ≤ x.list.length →
      exec (.entryInsert r) s = .next (s.answered 0x20 r 0x1A []))

/-- R70, R73: ENTRY_REMOVE refuses a started, PENDING or committed entry, one whose pre-fade has begun among them (R66);
it takes one entry out of the list, LIST_CLEAR every entry that has not started; the others stay in their order, the
reply carries the count, the requests that waited for what left are withdrawn, the decks that served it no longer do and
are FREE where no other request waits for one, and no other deck in use is touched. LIST_CLEAR withdraws a pending take,
and neither leaves a taken TAKE an entry to skip to (R73, R85; that its cut is still made is the model's choice,
assumption 50). -/
def Obligations.EntriesLeave : Prop :=
  ∀ (s : State) (r : Req) (st : StationId), s.Ready → s.ListsKept → stationOf r.station = some st →
    (∀ e : Entry, r.payload.length = 2 → (s.station st).find (field r.payload 0 2) = some e →
      (e.notStarted = false ∨ e.state = .pending ∨ (s.station st).take.map PendingTake.target = some e.id ∨
        e.preFaded = true) → exec (.entryRemove r) s = .next (s.answered 0x21 r 0x13 [])) ∧
    (∀ (e : Entry) (t : State), t = (s.working.dropEntry st e).takesGone st [e] → r.payload.length = 2 →
      (s.station st).find (field r.payload 0 2) = some e → (e.state = .waiting ∨ e.state = .armed) →
      (s.station st).isCommitted e = false →
      exec (.entryRemove r) s = .next (t.replied 0x21 r 0x00 (toBytes 1 ((s.station st).notStarted - 1))) ∧
        (t.station st).list.map Entry.frame = ((s.station st).list.filter fun y => y.id != e.id).map Entry.frame ∧
        (∀ u : StationId, u ≠ st → (t.station u).list.map Entry.frame = (s.station u).list.map Entry.frame) ∧
        (∀ q ∈ (t.station st).requests, q.target.belongs e.id = false) ∧
        (∀ d : DeckId, .deck d ∈ e.serving → (s.deck d).station = some st →
          ((t.deck d).station = some st → (t.deck d).target.any (Target.belongs e.id) = false) ∧
          ((∀ u : StationId, ∀ q ∈ (s.station u).requests, u = st ∧ q.target.belongs e.id = true) →
            (t.deck d).player.state = .free ∧ (t.deck d).station = none ∧ (t.deck d).target = none)) ∧
        (st, Deferred.take e.id) ∉ t.deferred ∧
        (∀ d : DeckId, (s.deck d).player.state ≠ .free → (∀ v ∈ e.serving, v ≠ .deck d) → t.deck d = s.deck d) ∧
        t.beds = s.beds ∧ t.media = s.media ∧ t.house = s.house ∧ t.queue = s.queue ∧ t.ref = s.ref ∧
        t.linkA = s.linkA ∧ t.linkB = s.linkB) ∧
    ∀ t : State, t = s.working.clearList st → r.payload = [] →
      exec (.listClear r) s = .next (t.replied 0x24 r 0x00 (toBytes 1 (s.station st).notStarted)) ∧
        (t.station st).list.map Entry.frame = ((s.station st).list.filter fun y => !y.notStarted).map Entry.frame ∧
        (t.station st).take = none ∧ (t.station st).preFade = none ∧ (t.station st).due = none ∧
        (t.cond (stationSet st)).pending &&& 0x10 = (s.cond (stationSet st)).pending &&& 0x10 ∧
        (∀ u : StationId, u ≠ st → (t.station u).list.map Entry.frame = (s.station u).list.map Entry.frame) ∧
        (∀ e ∈ (s.station st).waitingList,
          (∀ q ∈ (t.station st).requests, q.target.belongs e.id = false) ∧ (st, Deferred.take e.id) ∉ t.deferred ∧
          ∀ d : DeckId, .deck d ∈ e.serving → (s.deck d).station = some st →
            ((t.deck d).station = some st → (t.deck d).target.any (Target.belongs e.id) = false) ∧
            ((∀ u : StationId, ∀ q ∈ (s.station u).requests, u = st ∧
                ∃ y ∈ (s.station st).waitingList, q.target.belongs y.id = true) →
              (t.deck d).player.state = .free ∧ (t.deck d).station = none ∧ (t.deck d).target = none)) ∧
        (∀ d : DeckId, (s.deck d).player.state ≠ .free →
          (∀ e ∈ (s.station st).waitingList, ∀ v ∈ e.serving, v ≠ .deck d) → t.deck d = s.deck d) ∧
        (s.deferred.map Prod.fst = t.deferred.map Prod.fst) ∧
        t.beds = s.beds ∧ t.media = s.media ∧ t.house = s.house ∧ t.queue = s.queue ∧ t.ref = s.ref ∧
        t.linkA = s.linkA ∧ t.linkB = s.linkB

/-- R71, R75: an ENTRY_AMEND of an entry that is not WAITING or is committed, one whose pre-fade has begun among them
(R66), is refused; any other stores its actions together, and its station re-evaluates; one that leaves the due time
changes nothing else. R114: one that sets it withdraws what its break's arming waits for; that it does so too where the
value set is the one that stands is the model's choice (assumption 36). -/
def Obligations.EntryAmended : Prop :=
  (∀ (s : State) (r : Req) (st : StationId) (e : Entry), s.Ready → r.payload.length = 22 →
    stationOf r.station = some st → (s.station st).find (amendForm r.payload).id = some e →
    (e.state ≠ .waiting ∨ (s.station st).take.map PendingTake.target = some e.id ∨ e.preFaded = true) →
    exec (.entryAmend r) s = .next (s.answered 0x22 r 0x13 [])) ∧
  ∀ (s : State) (r : Req) (st : StationId) (f : AmendForm) (e : Entry), s.Ready → r.payload.length = 22 →
    stationOf r.station = some st → f = amendForm r.payload → (s.station st).find f.id = some e →
    e.state = .waiting → (s.station st).isCommitted e = false → f.badKind e = false → f.codesOk = true →
    (e.startKind = .hard → f.due ≠ some .absent) →
    (∀ v : Nat, f.level = some (.set v) → (f.apply e).level = some (min v 32768)) ∧
    (f.level = some .absent → (f.apply e).level = none) ∧ (f.level = some .leave → (f.apply e).level = e.level) ∧
    ((∀ v : Nat, f.due ≠ some (.set v)) →
      exec (.entryAmend r) s = .next (State.replied
        (State.markDirty
          (s.working.modStation st fun x => { x with list := x.list.map fun y => if y.id = f.id then f.apply y else y })
          st)
        0x22 r 0x00 ((f.apply e).storedBytes ++ optBytes 6 (f.apply e).due))) ∧
    ∀ v : Nat, f.due = some (.set v) → orderOk ((s.station st).amended f) = true →
      (f.apply e).due = some v ∧
      exec (.entryAmend r) s = .next (State.replied
        (State.markDirty
          (State.withdrawArming
            (s.working.modStation st fun x => { x with list := x.list.map fun y => if y.id = f.id then f.apply y else y })
            st f.id) st)
        0x22 r 0x00 ((f.apply e).storedBytes ++ optBytes 6 (f.apply e).due))

/-! ## Station requests -/

/-- R86, R87: STATION_SET stores its settings clamped to their ranges, all together, and answers with every setting; a
setting that no re-evaluation, low mark or fallback cart hangs on changes nothing else. The 48 bytes of the payload and
the widths of its fields are the model's where R208 leaves them open (assumption 20). -/
def Obligations.SettingsStored : Prop :=
  ∀ (s : State) (r : Req) (st : StationId) (f : SetForm) (c : Settings), s.Ready → r.payload.length = 48 →
    stationOf r.station = some st → f = setForm r.payload → f.inRange = true → c = f.apply (s.station st).cfg →
    ((s.station st).cfg.InRange → c.InRange) ∧
    (∀ v : Nat, f.outLevel = some (.set v) → c.outLevel = min v 32768) ∧
    (∀ v : Nat, f.window = some (.set v) → c.window = max 48000 (min v 2880000)) ∧
    (∀ v : Nat, f.armHorizon = some (.set v) → c.armHorizon = max 48000 (min v 2880000)) ∧
    (∀ v : Nat, f.stopFade = some (.set v) → c.stopFade = min v 480000) ∧
    (f.fillCart = some .absent → c.fillCart = none) ∧
    exec (.stationSet r) s = .next (State.replied (s.working.applySettings st c) 0x30 r 0x00 c.bytes) ∧
    (c.armHorizon = (s.station st).cfg.armHorizon → c.lowMark = (s.station st).cfg.lowMark →
      c.fallbackCart = (s.station st).cfg.fallbackCart →
      exec (.stationSet r) s = .next
        (State.answered (s.modStation st fun x => { x with cfg := c }) 0x30 r 0x00 c.bytes))

/-- R85, R102, R104, R105, R140: a STATION_MODE to another mode sets mode and left mode at once, and notes what it does
from the next period on; from FALLBACK to AUTO or MANUAL it is refused, and to the same mode it is REDUNDANT. Between
AUTO and MANUAL a pending take stays; a move to IDLE or FALLBACK withdraws it, its target returned, and notes that it
was dropped; with it goes a due moment of the target's own (R88). What is done at once and what waits is the model's
deduction (assumption 10). -/
def Obligations.ModeChanged : Prop :=
  ∀ (s : State) (r : Req) (st : StationId) (m : Mode), s.Ready → r.payload.length = 1 →
    stationOf r.station = some st → modeOf (field r.payload 0 1) = some m →
    ((s.station st).mode = .fallback → (m = .auto ∨ m = .manual) →
      exec (.stationMode r) s = .next (s.answered 0x31 r 0x13 [])) ∧
    ((s.station st).mode = m → exec (.stationMode r) s = .next (s.answered 0x31 r 0x01 [])) ∧
    ((s.station st).mode ≠ m → ¬((s.station st).mode = .fallback ∧ (m = .auto ∨ m = .manual)) →
      ((s.station st).take = none ∨ m = .auto ∨ m = .manual →
        exec (.stationMode r) s = .next (State.answered
          { (s.modStation st fun x =>
              { x with
                mode := m
                leftMode := if m = .fallback then some (s.station st).mode else none
                silenceDue := false }) with
            deferred := s.deferred ++ [(st, modeAction (s.station st).mode m false)] }
          0x31 r 0x00 [])) ∧
      ∀ (k : PendingTake) (due : Option DueMoment), (s.station st).take = some k → (m = .idle ∨ m = .fallback) →
        due = (if (s.station st).waitingList.head?.map Entry.id = some k.target then none else (s.station st).due) →
        exec (.stationMode r) s = .next (State.replied
          { (((s.working.modStation st fun x => { x with take := none, due := due, dirty := true }).modEntry st k.target
              Entry.returned).modStation st fun x =>
              { x with
                mode := m
                leftMode := if m = .fallback then some (s.station st).mode else none
                silenceDue := false }) with
            deferred := s.deferred ++ [(st, modeAction (s.station st).mode m true)] }
          0x31 r 0x00 []))

/-- R100, R101: a TAKE that may be taken makes its entry the target, at the station time of the next period. What is
done at once and what waits is the model's deduction (assumption 10). -/
def Obligations.TakeTaken : Prop :=
  ∀ (s : State) (r : Req) (st : StationId) (named : Option Nat) (e : Entry), s.Ready → r.payload.length = 3 →
    stationOf r.station = some st → field r.payload 0 1 ≤ 1 →
    named = (if field r.payload 0 1 = 1 then some (field r.payload 1 2) else none) →
    (s.station st).takeBadState named = false → (s.station st).takeEntry named = some e → e.startKind ≠ .hard →
    (s.station st).takeBehindHard e = false → s.takeNotReady st e = false → e.state ≠ .onAir →
    (∀ k : PendingTake, (s.station st).take = some k → k.target ≠ e.id) →
    exec (.take r) s = .next (State.answered
      { (s.modStation st fun x => { x with take := some ⟨e.id, s.nextTime st⟩ }) with
        deferred := s.deferred ++ [(st, .take e.id)] }
      0x33 r 0x00 [])

/-- R101, R102, R103, R106: TAKE_CANCEL, STOP and RESUME as they are taken. TAKE_CANCEL and STOP withdraw a pending
take, its target returned, and raise nothing for it; a due moment is the target's to lose, and that of an entry ahead of
it stays (R88). What is done at once and what waits is the model's deduction (assumption 10). -/
def Obligations.TakeStopResume : Prop :=
  ∀ (s : State) (r : Req) (st : StationId), s.Ready → r.payload = [] → stationOf r.station = some st →
    ((s.station st).take = none → exec (.takeCancel r) s = .next (s.answered 0x34 r 0x01 [])) ∧
    (∀ (k : PendingTake) (due : Option DueMoment), (s.station st).take = some k →
      due = (if (s.station st).waitingList.head?.map Entry.id = some k.target then none else (s.station st).due) →
      exec (.takeCancel r) s = .next (State.replied
        ((s.working.modStation st fun x => { x with take := none, due := due, dirty := true }).modEntry st k.target
          Entry.returned) 0x34 r 0x00 [])) ∧
    (((s.station st).mode = .fallback ∨ (s.station st).onAirBreak.isSome = true) →
      exec (.stop r) s = .next (s.answered 0x35 r 0x13 [])) ∧
    ((s.station st).onAirBreak = none →
      ((s.station st).mode = .idle → exec (.stop r) s = .next (s.answered 0x35 r 0x01 [])) ∧
      ((s.station st).mode = .manual → (s.station st).sounding = false → (s.station st).take = none →
        exec (.stop r) s = .next (s.answered 0x35 r 0x01 [])) ∧
      (((s.station st).mode = .auto ∨ (s.station st).mode = .manual ∧ (s.station st).sounding = true) →
        (s.station st).take = none →
        exec (.stop r) s = .next (State.answered
          { (s.modStation st fun x => { x with mode := .manual }) with
            deferred := s.deferred ++ [(st, .stop ((s.station st).mode == .auto))] } 0x35 r 0x00 [])) ∧
      ∀ (k : PendingTake) (due : Option DueMoment), ((s.station st).mode = .auto ∨ (s.station st).mode = .manual) →
        (s.station st).take = some k →
        due = (if (s.station st).waitingList.head?.map Entry.id = some k.target then none else (s.station st).due) →
        exec (.stop r) s = .next (State.replied
          { (((s.working.modStation st fun x => { x with take := none, due := due, dirty := true }).modEntry st k.target
              Entry.returned).modStation st fun x => { x with mode := .manual }) with
            deferred := s.deferred ++ [(st, .stop ((s.station st).mode == .auto))] } 0x35 r 0x00 [])) ∧
    ((s.station st).mode ≠ .fallback → exec (.resume r) s = .next (s.answered 0x36 r 0x13 [])) ∧
    (∀ left : Mode, (s.station st).mode = .fallback → (s.station st).leftMode = some left →
      exec (.resume r) s = .next (State.answered
        { (s.modStation st fun x => { x with mode := left, leftMode := none }) with
          deferred := s.deferred ++ [(st, .resume left)] } 0x36 r 0x00 []))

/-- R108, R150: SET_TIME gives each station it names an offset with which its station time in the next period is the
time given; no other station's offset changes, and with a break ARMED or ON_AIR in one of them it is refused. That a
break which a taken entry to FALLBACK is still to close or stand down refuses it too is the model's choice (assumption
62). -/
def Obligations.TimeSet : Prop :=
  ∀ (s : State) (r : Req) (sts : List StationId), s.Ready → r.payload.length = 6 →
    namedStations r.station = some sts →
    ((∃ st ∈ sts, (s.station st).breakActive = true) → exec (.setTime r) s = .next (s.answered 0x37 r 0x1E [])) ∧
    ((∀ st ∈ sts, (s.station st).breakActive = false) →
      ∃ t : State, exec (.setTime r) s = .next (t.answered 0x37 r 0x00 (toBytes 6 (field r.payload 0 6))) ∧
        (∀ st ∈ sts, t.nextTime st = field r.payload 0 6) ∧
        (∀ st : StationId, st ∉ sts → t.station st = s.station st) ∧
        (∀ st : StationId, { t.station st with offset := 0 } = { s.station st with offset := 0 }) ∧
        t.deferred = s.deferred ++ sts.map (fun st => (st, Deferred.reevaluate)) ∧ t.house = s.house ∧
        t.decks = s.decks ∧ t.beds = s.beds ∧ t.media = s.media ∧ t.dir = s.dir)

/-- R66, R79, R85, R94, R96, R100, R103, R104, R105, R106, R108, R131, R139: what taken requests do in the period behind
them. What is done at once and what waits for the next boundary, where it is done on what the close of the period has
left, is the model's choice (assumptions 10, 46), and so is the order of the records of one period (assumption 25). The
move to IDLE and the entry to FALLBACK leave no deck request, no pre-fade and no due moment, every entry that has not
started WAITING with nothing serving it, its deck let go, one whose pre-fade had begun still committed, and raise
TAKE_DROPPED for a take they have withdrawn and for nothing else (R102); what sounds is cut over the stop fade, and a
break on the air is closed early, its spot and fill trailing under that cut and its other INCLUDED spots DROPPED, with
no BREAK_GAP; in FALLBACK the bed is wanted and the condition pending. A TAKE skips the entries ahead of its target with
SKIPPED records, cuts what sounds over the stop fade, and has its target served or waiting; a TAKE whose target a
request has removed since is the cut alone (assumption 50); STOP makes the cut and withdraws a take; RESUME clears the
bed's flags and cuts it, and takes the first entry that has not started; AUTO to MANUAL returns an entry PENDING by its
start kind; MANUAL to AUTO and SET_TIME have the station re-evaluate; on leaving IDLE the breaks past their end and the
HARD items beyond the tolerance leave the list. What RESUME, or leaving IDLE, does where a move to IDLE or FALLBACK
stands behind it in its interval is the model's choice (assumption 63). -/
def Obligations.StandsDown : Prop :=
  (∀ (s : State) (st : StationId) (a : Deferred), s.PlainEnd → s.deferred = [(st, a)] →
    ∃ w : State, exec .internalPeriodEnd s = .next (w.act st a).settlePool ∧
      w.house = s.house + 1 ∧ w.opening = true ∧ w.deferred = [] ∧ w.media = s.media ∧ s.asrun <+: w.asrun ∧
      (∀ u : StationId, (w.station u).mode = (s.station u).mode ∧ (w.station u).leftMode = (s.station u).leftMode ∧
        (w.station u).cfg = (s.station u).cfg ∧ (w.station u).offset = (s.station u).offset ∧
        (w.station u).stayStart = (s.station u).stayStart) ∧
      ((∀ d : DeckId, (s.deck d).player.ended = none) →
        (∀ d : DeckId, (s.deck d).player.state ≠ .free → w.deck d = s.deck d) ∧
        ∀ u : StationId, (w.station u).take = (s.station u).take ∧ (w.station u).preFade = (s.station u).preFade ∧
          (w.station u).list.map Entry.frame = (s.station u).list.map Entry.frame)) ∧
  (∀ (s t : State) (st : StationId), t = s.act st .autoToManual → s.ListsKept →
    (t.station st).silence = 0 ∧ (t.station st).dirty = true ∧ (t.station st).take = (s.station st).take ∧
    (∀ e : Entry, (s.station st).waitingList.head? = some e →
      (e.state = .pending → e.startKind ≠ .hard →
        (∀ k : PendingTake, (s.station st).take = some k → k.target ≠ e.id) → (t.station st).due = none ∧
        (t.station st).find e.id =
          some { e with state := if ∃ d : DeckId, e.served = .deck d then .armed else .waiting }) ∧
      ((e.state ≠ .pending ∨ e.startKind = .hard ∨
          ∃ k : PendingTake, (s.station st).take = some k ∧ k.target = e.id) →
        (t.station st).list = (s.station st).list ∧ (t.station st).due = (s.station st).due)) ∧
    (∀ y ∈ (s.station st).list, (∀ e : Entry, (s.station st).waitingList.head? = some e → y.id ≠ e.id) →
      y ∈ (t.station st).list) ∧
    t.decks = s.decks ∧ t.beds = s.beds ∧ t.conds = s.conds ∧ t.asrun = s.asrun ∧ t.recordsHeld = s.recordsHeld ∧
    t.media = s.media ∧ t.house = s.house ∧ ∀ u : StationId, u ≠ st → t.station u = s.station u) ∧
  (∀ (s : State) (st : StationId),
    s.act st .manualToAuto = s.setStation st { s.station st with silence := 0, dirty := true } ∧
    s.act st .reevaluate = s.setStation st { s.station st with dirty := true }) ∧
  (∀ (s t : State) (st : StationId), t = s.act st .cut →
    (t.station st).list.map Entry.id = (s.station st).list.map Entry.id ∧
    (∀ d : DeckId, d ∈ (s.station st).soundingDecks → (s.deck d).player.sounds = true →
      (t.deck d).player.ramp = (s.deck d).player.ramp.cutOver (s.station st).cfg.stopFade) ∧
    (∀ d : DeckId, d ∉ (s.station st).soundingDecks → t.deck d = s.deck d) ∧ t.asrun = s.asrun ∧
    t.recordsHeld = s.recordsHeld ∧ t.conds = s.conds ∧ t.beds = s.beds) ∧
  (∀ (s t : State) (st : StationId) (e : Entry) (k : PendingTake) (ahead : List Entry), t = s.act st (.take e.id) →
    s.ListsKept → s.DirectoryKept → (∀ u : StationId, (s.station u).requests = []) → (s.station st).take = some k →
    k.target = e.id → (s.station st).find e.id = some e → e.notStarted = true →
    ahead = (s.station st).waitingList.takeWhile (fun x => x.id != e.id) →
    (t.station st).take = some k ∧ (t.station st).due = none ∧
    (t.station st).list.map Entry.id =
      ((s.station st).list.filter fun x => !(ahead.map Entry.id).contains x.id).map Entry.id ∧
    (s.LogTakes ahead.length → t.records.take s.records.length = s.records ∧
      (t.records.drop s.records.length).map Record.gist = ahead.map fun x =>
        (.skipped, st, x.id, none, x.cart, none, s.stationTime st, s.stationTime st, 0, none)) ∧
    (s.recordsHeld = [] → t.recordsHeld = []) ∧
    (∀ d : DeckId, d ∈ (s.station st).soundingDecks → (s.deck d).player.sounds = true →
      (∀ x ∈ ahead, ∀ v ∈ x.serving, v ≠ .deck d) →
      (t.deck d).player.ramp = (s.deck d).player.ramp.cutOver (s.station st).cfg.stopFade) ∧
    (∀ d : DeckId, e.served = .deck d → ∃ y : Entry, (t.station st).find e.id = some y ∧ y.served = .deck d ∧
      y.state = (if e.state = .pending then .armed else e.state)) ∧
    (e.served = .none → (s.lookup st e.cart).isSome = true → s.belowCap st = true →
      ∃ y : Entry, (t.station st).find e.id = some y ∧ y.served ≠ .none) ∧
    t.beds = s.beds ∧ t.media = s.media ∧ t.house = s.house) ∧
  (∀ (s t : State) (st : StationId) (auto : Bool), t = s.act st (.stop auto) →
    (t.station st).list.map Entry.id = (s.station st).list.map Entry.id ∧
    (s.takeToCome st = false → (t.station st).take = none) ∧
    (auto = true → (t.station st).silence = 0 ∧ (t.station st).dirty = true) ∧
    (∀ d : DeckId, d ∈ (s.station st).soundingDecks → (s.deck d).player.sounds = true →
      (t.deck d).player.ramp = (s.deck d).player.ramp.cutOver (s.station st).cfg.stopFade) ∧
    (∀ d : DeckId, d ∉ (s.station st).soundingDecks → t.deck d = s.deck d) ∧
    t.conds = s.conds ∧ t.beds = s.beds ∧ t.asrun = s.asrun ∧ t.media = s.media ∧ t.house = s.house) ∧
  (∀ (s t : State) (st : StationId) (left : Mode), t = s.act st (.resume left) →
    (t.bed st).airWanted = false ∧ (t.bed st).spent = false ∧ (t.station st).stayStart = none ∧
    (t.station st).silence = 0 ∧
    ((s.bed st).player.sounds = true →
      (t.bed st).player.ramp = (s.bed st).player.ramp.cutOver (s.station st).cfg.stopFade) ∧
    (left ≠ .idle → (s.station st).airs = true → (s.station st).take = none →
      (∀ x ∈ (s.station st).waitingList, x.startKind ≠ .hard ∧ x.isBreak = false) →
      (∀ e : Entry, (s.station st).waitingList.head? = some e → (s.lookup st e.cart).isSome = true →
        (t.station st).take = some ⟨e.id, s.stationTime st⟩) ∧
      (∀ e : Entry, (s.station st).waitingList.head? = some e → s.lookup st e.cart = none →
        (t.station st).take = none)) ∧
    t.media = s.media ∧ t.house = s.house) ∧
  (∀ (s t : State) (st : StationId), t = s.act st .leaveIdle → s.ListsKept → (s.station st).airs = true →
    (t.station st).silence = 0 ∧ (t.station st).dirty = true ∧
    (t.station st).list.map Entry.id = ((s.station st).list.filter fun x =>
      !(x.notStarted && x.isBreak && decide (x.endTime ≤ s.stationTime st)) && !s.isTooLate st x).map Entry.id ∧
    t.beds = s.beds ∧ t.media = s.media ∧ t.house = s.house) ∧
  ∀ (s t : State) (st : StationId) (b drop : Bool) (act : Deferred), (act = .toIdle b drop ∨ act = .fallback drop) →
    t = s.act st act →
    (t.station st).requests = [] ∧ (t.station st).due = none ∧ (t.station st).preFade = none ∧
    (t.station st).silence = 0 ∧
    (∀ e ∈ (t.station st).list, e.notStarted = true → e.state = .waiting ∧ e.served = .none) ∧
    (s.ListsKept → ∀ e ∈ (s.station st).waitingList, e.preFaded = true →
      ∃ y ∈ (t.station st).waitingList, y.id = e.id ∧ (t.station st).isCommitted y = true) ∧
    (s.takeToCome st = false → (t.station st).take = none) ∧
    (t.cond (stationSet st)).pending &&& 0x10 =
      (if drop = true ∨ (s.station st).take.isSome = true ∧ s.takeToCome st = false then 0x10
      else (s.cond (stationSet st)).pending &&& 0x10) ∧
    (act = .fallback drop → (t.bed st).airWanted = true ∧ (t.station st).stayStart = some s.house ∧
      (t.cond (stationSet st)).pending &&& 0x02 = 0x02) ∧
    (s.ListsKept →
      (∀ e ∈ (s.station st).waitingList, ∀ d : DeckId, .deck d ∈ e.serving → (s.deck d).station = some st →
        (∀ u : StationId, u ≠ st → (s.station u).requests = []) →
        ((s.station st).onAirBreak = none ∨ ∀ r ∈ (s.station st).requests, r.target.belongs e.id = false) →
        (t.deck d).player.state = .free ∧ (t.deck d).station = none) ∧
      (∀ d : DeckId, d ∈ (s.station st).soundingDecks → (s.deck d).player.sounds = true →
        (∀ e ∈ (s.station st).list, (e.notStarted = true ∨ e.isBreak = true) → e.served ≠ .deck d ∧
          ∀ v ∈ e.serving, v ≠ .deck d) →
        (t.deck d).player.ramp = (s.deck d).player.ramp.cutOver (s.station st).cfg.stopFade) ∧
      ∀ (e : Entry) (c : BreakData), (s.station st).onAirBreak = some (e, c) →
        (t.station st).find e.id = none ∧
        ((∀ u : StationId, (s.station u).requests = []) →
          (t.cond (stationSet st)).pending &&& 0x04 = (s.cond (stationSet st)).pending &&& 0x04 ∧
          ((∀ x ∈ s.recordsHeld, x.2.station ≠ st ∨ x.2.entryId ≠ e.id) → t.asrun = s.asrun ∧
            t.recordsHeld = s.recordsHeld ++ ((c.spots.zipIdx.filter fun x => x.1.remains).map fun x => (some x.2,
              { seq := 0, station := st, entryId := e.id, spotRef := some x.1.ref, cart := x.1.cart,
                used := x.1.planned.map fun y => ⟨y.owner, y.category⟩,
                scheduled := some (c.spotSchedule e.dueTime x.2 x.1), startTime := s.stationTime st,
                endTime := s.stationTime st, aired := 0, outcome := .dropped, stalls := 0, mediaErrors := 0,
                lateness := none })))) ∧
        ∀ d : DeckId, (s.deck d).station = some st → (s.deck d).player.sounds = true →
          (∀ y ∈ (s.station st).list, y.id ≠ e.id → ∀ v ∈ y.serving, v ≠ .deck d) →
          (∀ (i : Nat) (p : Spot), c.spotOnAir = some (i, p) → p.served = .deck d →
            (s.deck d).target = some (.spot e.id i) → (∀ (j : Nat) (q : Spot), j ≠ i → c.spots[j]? = some q →
              q.served ≠ .deck d) → c.fillServed ≠ .deck d →
            (t.deck d).player.ramp = (s.deck d).player.ramp.cutOver (s.station st).cfg.stopFade ∧
            ∃ tr : Trail, (t.deck d).target = some (.trailSpot tr) ∧ tr.entryId = e.id ∧ tr.spotRef = some p.ref ∧
              tr.cart = p.cart ∧ tr.startTime = p.startTime ∧
              ((s.deck d).player.ramp.endsWithin (s.station st).cfg.stopFade = false → tr.cut = true)) ∧
          (c.fillState = .onAir → c.fillServed = .deck d → (s.deck d).target = some (.fill e.id) →
            (∀ p ∈ c.spots, p.served ≠ .deck d) →
            (t.deck d).player.ramp = (s.deck d).player.ramp.cutOver (s.station st).cfg.stopFade ∧
            ∃ tr : Trail, (t.deck d).target = some (.trailFill tr) ∧ tr.entryId = e.id ∧
              tr.cart = c.fillUsed.getD 0 ∧ tr.startTime = c.fillStart))

/-! ## Reference controller and links, as requests set them -/

/-- R155, R158, R159, R160: REF_SELECT and REF_CANCEL where no bridging period runs: a link out of SLAVE mode is
refused; the current source is REDUNDANT and withdraws a target; INTERNAL waits for the old source's boundary; another
source becomes the target at progress 0. Nothing else changes. In a bridging period a REF_SELECT of INTERNAL is judged
by the source the lock switches to, so that it is answered OK also where the old source is itself INTERNAL, and
withdraws the completed target; that clause is the model's deduction (assumption 19). The code of the auto-return flag
is the model's deduction (assumption 6), and so is that the old source's miss count stands until the boundary
(assumption 39). -/
def Obligations.ReferenceSelected : Prop :=
  (∀ (s : State) (r : Req) (b : Bridge) (auto : Bool), s.Ready → r.station = 0xFF → s.ref.bridging = some b →
    s.ref.switchFrom = none → b.source ≠ .internal → r.payload.length = 2 →
    sourceOf (field r.payload 0 1) = some .internal → autoReturnOf (field r.payload 1 1) = some auto →
    exec (.refSelect r) s = .next (State.answered
      { s with
        ref :=
          { s.ref with
            current := .internal, preferred := .internal, autoReturn := auto, fallen := false, target := none,
            progress := 0, lastEdge := none, switchFrom := some s.ref.current } }
      0x40 r 0x00 [0, 0, 0, 0, autoReturnByte auto])) ∧
  ∀ (s : State) (r : Req) (c : RefControl), s.Ready → r.station = 0xFF → s.ref.bridging = none → c = s.ref →
    (∀ (src : Source) (auto : Bool), r.payload.length = 2 → sourceOf (field r.payload 0 1) = some src →
      autoReturnOf (field r.payload 1 1) = some auto →
      ((∃ l : LinkId, src = .link l ∧ (s.link l).mode ≠ .slave) →
        exec (.refSelect r) s = .next (s.answered 0x40 r 0x13 [])) ∧
      ((∀ l : LinkId, src = .link l → (s.link l).mode = .slave) →
        (src = c.current → c.target = none → exec (.refSelect r) s = .next (State.answered
          { s with ref := { c with preferred := src, autoReturn := auto, fallen := false } } 0x40 r 0x01
          [sourceByte src, 0, 0, sourceByte src, autoReturnByte auto])) ∧
        (src = c.current → c.target ≠ none → exec (.refSelect r) s = .next (State.answered
          { s with
            ref :=
              { c with
                preferred := src, autoReturn := auto, fallen := false, target := none, progress := 0,
                lastEdge := none } }
          0x40 r 0x01 [sourceByte src, 0, 0, sourceByte src, autoReturnByte auto])) ∧
        (src ≠ c.current → src ≠ .internal → exec (.refSelect r) s = .next (State.answered
          { s with
            ref :=
              { c with
                preferred := src, autoReturn := auto, fallen := false, target := some src, origin := .selected,
                progress := 0, lastEdge := none } }
          0x40 r 0x00 [sourceByte c.current, 1, sourceByte src, sourceByte src, autoReturnByte auto])) ∧
        (src ≠ c.current → src = .internal → ∃ q : RefControl, exec (.refSelect r) s = .next (State.answered
            { s with ref := q } 0x40 r 0x00 [0, 0, 0, 0, autoReturnByte auto]) ∧
          q.current = .internal ∧ q.switchFrom = some c.pacing ∧ q.target = none ∧ q.preferred = .internal ∧
          q.autoReturn = auto ∧ q.fallen = false ∧ q.miss = c.miss))) ∧
    (r.payload = [] →
      (c.target = none → exec (.refCancel r) s = .next (State.answered { s with ref := { c with fallen := false } }
        0x41 r 0x01 [sourceByte c.current, sourceByte c.preferred])) ∧
      (c.target ≠ none → exec (.refCancel r) s = .next (State.answered
        { s with ref := { c with target := none, progress := 0, lastEdge := none, fallen := false } }
        0x41 r 0x00 [sourceByte c.current, sourceByte c.preferred])))

/-- R175, R177: LINK_SET stores mode and mirror, the mode to act at the next boundary; LINK_ASSIGN replaces or removes
one station's assignment, refuses slots beyond 31 or in use, and is REDUNDANT where it asks for what stands. The layout
of its reply, and that NONE disregards the base slot, is the model's (assumption 20); so is which sources count as in
use in a bridging period (assumption 19). -/
def Obligations.LinksSet : Prop :=
  ∀ (s : State) (r : Req) (l : LinkId), s.Ready → r.payload.length = 3 → linkOf (field r.payload 0 1) = some l →
    (∀ (m : LinkMode) (mirror : Bool), r.station = 0xFF → linkModeOf (field r.payload 1 1) = some m →
      mirrorOf (field r.payload 2 1) = some mirror →
      (m ≠ .slave → s.ref.uses l = true → exec (.linkSet r) s = .next (s.answered 0x48 r 0x13 [])) ∧
      ((m = .slave ∨ s.ref.uses l = false) →
        (l = .a → mirror = true → exec (.linkSet r) s = .next (s.answered 0x48 r 0x15 [])) ∧
        ((l = .b ∨ mirror = false) → (s.link l).mode = m → (s.link l).mirror = mirror →
          exec (.linkSet r) s = .next (s.answered 0x48 r 0x01 [linkModeByte m, flagByte mirror])) ∧
        ((l = .b ∨ mirror = false) → ((s.link l).mode ≠ m ∨ (s.link l).mirror ≠ mirror) →
          exec (.linkSet r) s = .next
            (State.answered (s.setLink l { s.link l with mode := m, mirror := mirror }) 0x48 r 0x00
              [linkModeByte m, flagByte mirror])))) ∧
    ∀ st : StationId, stationOf r.station = some st →
      (∀ f : SlotFormat, formatOf (field r.payload 2 1) = some (some f) → 32 < field r.payload 1 1 + f.width →
        exec (.linkAssign r) s = .next (s.answered 0x49 r 0x15 [])) ∧
      (∀ f : SlotFormat, formatOf (field r.payload 2 1) = some (some f) → field r.payload 1 1 + f.width ≤ 32 →
        ((∃ (u : StationId) (a : Assignment), u ≠ st ∧ (s.link l).assigns[u] = some a ∧
            a.overlaps ⟨field r.payload 1 1, f⟩ = true) →
          exec (.linkAssign r) s = .next (s.answered 0x49 r 0x1D [])) ∧
        ((∀ (u : StationId) (a : Assignment), u ≠ st → (s.link l).assigns[u] = some a →
            a.overlaps ⟨field r.payload 1 1, f⟩ = false) →
          (s.link l).assigns[st] ≠ some ⟨field r.payload 1 1, f⟩ →
          ∃ k : AirLink, k = { s.link l with assigns := (s.link l).assigns.set st (some ⟨field r.payload 1 1, f⟩) } ∧
            exec (.linkAssign r) s = .next (State.answered (s.setLink l k) 0x49 r 0x00 k.assignsBytes)) ∧
        ((∀ (u : StationId) (a : Assignment), u ≠ st → (s.link l).assigns[u] = some a →
            a.overlaps ⟨field r.payload 1 1, f⟩ = false) →
          (s.link l).assigns[st] = some ⟨field r.payload 1 1, f⟩ →
          exec (.linkAssign r) s = .next (s.answered 0x49 r 0x01 (s.link l).assignsBytes))) ∧
      (formatOf (field r.payload 2 1) = some none → (s.link l).assigns[st] = none →
        exec (.linkAssign r) s = .next (s.answered 0x49 r 0x01 (s.link l).assignsBytes)) ∧
      (formatOf (field r.payload 2 1) = some none → (s.link l).assigns[st] ≠ none →
        ∃ k : AirLink, k = { s.link l with assigns := (s.link l).assigns.set st none } ∧
          exec (.linkAssign r) s = .next (State.answered (s.setLink l k) 0x49 r 0x00 k.assignsBytes))

/-! ## As-run log, faults, conditions -/

/-- R185, R186: a record takes the next number and joins the queue, or is discarded where the queue is full or the wrap
hold flag set, and the counter runs on; ASRUN_FETCH removes up to 16 of the oldest, and an emptied queue ends
ASRUN_PENDING and the wrap hold. R187: the first fault of a station fills its record and raises FAULT; a further one
only marks it. R109, R132, R185: a record reaches the log as it is made, or behind those held back. A break's is held
back at the beginning of a period, and behind it for as long as the play of an earlier spot of the break ends with the
period; what is held back reaches the log in its order, before any request of the period is taken where nothing waits,
and at the latest with the period's close. That what is made behind a record held back waits with it is the model's
choice (assumption 25). -/
def Obligations.LogAndFaults : Prop :=
  (∀ (s t : State) (k : Nat), (t = s.logHeld ∧ k = s.recordsHeld.length ∨
      t = s.release ∧ s.opening = false ∧ k = (s.recordsHeld.takeWhile fun x => !s.mustWait x).length) →
    t.recordsHeld = s.recordsHeld.drop k ∧ (s.LogTakes k → t.asrun.length = s.asrun.length + k ∧
      t.asrun.take s.asrun.length = s.asrun ∧ ∀ (i : Nat) (x : Option Nat × Record), i < k →
        s.recordsHeld[i]? = some x →
        t.asrun[s.asrun.length + i]? = some { x.2 with seq := s.nextSeq + BitVec.ofNat 32 i })) ∧
  (∀ s : State, s.opening = true → s.release = s) ∧
  (∀ (s : State) (x : Option Nat × Record), s.mustWait x = true ↔
    ∃ (k i : Nat) (d : DeckId) (g : Target), x.1 = some k ∧ (s.deck d).player.ended.isSome = true ∧
      (s.deck d).station = some x.2.station ∧ (s.deck d).target = some g ∧ g.entryId = x.2.entryId ∧
      g.spotIndex = some i ∧ i < k) ∧
  (∀ (s : State) (x : Record), (s.recordsHeld = [] → s.record x = s.addRecord x) ∧
    (s.recordsHeld ≠ [] → s.record x = { s with recordsHeld := s.recordsHeld ++ [(none, x)] })) ∧
  (∀ s : State, s.opening = true → s.queue = [] → (∀ d : DeckId, (s.settle.deck d).player.ended = none) →
    s.settle.recordsHeld = []) ∧
  (∀ s : State, s.PlainEnd → s.deferred = [] → (∀ d : DeckId, (s.deck d).player.ended = none) →
    (∀ u : StationId, (s.bed u).player.ended = none ∧ (s.station u).dirty = false) →
    ∃ t : State, exec .internalPeriodEnd s = .next t ∧ t.asrun = s.logHeld.asrun ∧ t.recordsHeld = [] ∧
      t.nextSeq = s.logHeld.nextSeq) ∧
  (∀ (s : State) (x : Record), (s.addRecord x).nextSeq = s.nextSeq + 1 ∧
    (s.asrun.length < 512 → s.wrapHold = false →
      (s.addRecord x).asrun = s.asrun ++ [{ x with seq := s.nextSeq }] ∧
        (s.asrun = [] → ((s.addRecord x).cond deviceSet).pending &&& 0x01 = 0x01)) ∧
    ((512 ≤ s.asrun.length ∨ s.wrapHold = true) →
      (s.addRecord x).asrun = s.asrun ∧ ((s.addRecord x).cond deviceSet).pending &&& 0x02 = 0x02) ∧
    (s.addRecord x).wrapHold = (s.wrapHold || s.nextSeq == 4294967295 && !(s.addRecord x).asrun.isEmpty)) ∧
  (∀ (s : State) (r : Req) (n k : Nat), s.Ready → r.station = 0xFF → r.payload.length = 1 → n = field r.payload 0 1 →
    1 ≤ n → k = min n 16 →
    (k < s.asrun.length → exec (.asrunFetch r) s = .next (State.answered { s with asrun := s.asrun.drop k } 0x50 r 0x00
      (toBytes 1 k ++ toBytes 2 (s.asrun.length - k) ++ toBytes 4 s.nextSeq.toNat ++ [flagByte s.wrapHold] ++
        (s.asrun.take k).flatMap Record.bytes))) ∧
    (s.asrun.length ≤ k → exec (.asrunFetch r) s = .next (State.answered
      (State.setCond { s with asrun := [], wrapHold := false } deviceSet
        { s.cond deviceSet with pending := (s.cond deviceSet).pending &&& 0xFE }) 0x50 r 0x00
      (toBytes 1 s.asrun.length ++ toBytes 2 0 ++ toBytes 4 s.nextSeq.toNat ++ [0] ++ s.asrun.flatMap Record.bytes)))) ∧
  ∀ (s : State) (st : StationId) (c : FaultCause) (id cart time : Nat),
    ((s.station st).fault = none →
      ((s.reportFault st c id cart time).station st).fault = some ⟨c, id, cart, time, false⟩ ∧
        ((s.reportFault st c id cart time).cond (stationSet st)).pending &&& 0x01 = 0x01) ∧
    (∀ f : FaultRecord, (s.station st).fault = some f →
      s.reportFault st c id cart time = s.modStation st fun x => { x with fault := some { f with further := true } }) ∧
    ∀ u : StationId, u ≠ st → (s.reportFault st c id cart time).station u = s.station u

/-- R190, R191, R192, R193, R194: COND_CLEAR ends the latched conditions it names and no following one; NOTICE_MASK
stores the enable bits, and a pending condition newly enabled triggers one notice, behind the reply. R80, R190: LIST_LOW
turns on as the not-started count falls below the low-water mark, off as it no longer lies below, and stands where it
did not cross it. R193, R194: a raise makes its conditions pending; where an enabled one of them was not, and no notice of
the set waits, one is placed: behind the reply while the handler works on a request or is held, at once otherwise; any
other raise places none. -/
def Obligations.ConditionsSet : Prop :=
  (∀ (s t : State) (i : SetId) (m : Byte), t = s.raiseBits i m →
    (t.cond i).pending = (s.cond i).pending ||| m ∧ (t.cond i).enabled = (s.cond i).enabled ∧
    (∀ j : SetId, j ≠ i → t.cond j = s.cond j) ∧ t.stations = s.stations ∧ t.asrun = s.asrun ∧
    (m &&& (s.cond i).enabled &&& ~~~(s.cond i).pending = 0 ∨ s.noticeWaits i = true →
      t.txOrder = s.txOrder ∧ t.behind = s.behind ∧ t.sending = s.sending) ∧
    (m &&& (s.cond i).enabled &&& ~~~(s.cond i).pending ≠ 0 → s.noticeWaits i = false →
      (s.handler = .working ∨ s.handler = .held →
        t.behind = s.behind ++ [i] ∧ t.txOrder = s.txOrder ∧ t.sending = s.sending) ∧
      (s.handler = .ready ∨ s.handler = .restarting → t.behind = s.behind ∧
        (s.sending.isSome = true → t.txOrder = s.txOrder ++ [.notice i] ∧ t.sending = s.sending) ∧
        (s.sending = none → s.txOrder = [] → t.txOrder = [] ∧ t.sending = some (frameMessage
          [0x7F, 0, setByte i, ((s.cond i).pending ||| m) &&& (s.cond i).enabled]))))) ∧
  (∀ (s t : State) (st : StationId) (x : Station), t = s.evalLow st → x = s.station st →
    (t.station st).lowRel = decide (x.notStarted < x.cfg.lowMark) ∧
    (x.notStarted < x.cfg.lowMark → x.lowRel = false →
      (t.cond (stationSet st)).pending = (s.cond (stationSet st)).pending ||| 0x08) ∧
    (x.cfg.lowMark ≤ x.notStarted → x.lowRel = true →
      (t.cond (stationSet st)).pending = (s.cond (stationSet st)).pending &&& 0xF7) ∧
    ((x.lowRel = true ↔ x.notStarted < x.cfg.lowMark) → t.conds = s.conds ∧ t = s) ∧
    (∀ u : StationId, u ≠ st → t.station u = s.station u ∧ t.cond (stationSet u) = s.cond (stationSet u)) ∧
    (t.station st).list = x.list ∧ t.asrun = s.asrun) ∧
  ∀ (s : State) (r : Req) (i : SetId) (m : Byte), s.Ready → r.payload = [m] → setOf r.station = some i →
    (m &&& ~~~setBits i ≠ 0 → exec (.condClear r) s = .next (s.answered 0x52 r 0x15 []) ∧
      exec (.noticeMask r) s = .next (s.answered 0x53 r 0x15 [])) ∧
    (m &&& ~~~setBits i = 0 →
      exec (.condClear r) s = .next (State.answered
        (s.setCond i { s.cond i with pending := (s.cond i).pending &&& ~~~(m &&& ~~~followBits i) }) 0x52 r 0x00
        [(s.cond i).pending &&& ~~~(m &&& ~~~followBits i)]) ∧
      (m = (s.cond i).enabled → exec (.noticeMask r) s = .next (s.answered 0x53 r 0x01 [m, (s.cond i).pending])) ∧
      (m ≠ (s.cond i).enabled →
        ((s.cond i).pending &&& m &&& ~~~(s.cond i).enabled = 0 ∨ s.noticeWaits i = true →
          exec (.noticeMask r) s = .next (State.answered (s.setCond i { s.cond i with enabled := m }) 0x53 r 0x00
            [m, (s.cond i).pending])) ∧
        ((s.cond i).pending &&& m &&& ~~~(s.cond i).enabled ≠ 0 → s.noticeWaits i = false →
          exec (.noticeMask r) s = .next (State.answered
            { s.setCond i { s.cond i with enabled := m } with behind := [i] } 0x53 r 0x00
            [m, (s.cond i).pending]))))

/-! ## The timebase -/

/-- R148, R153: where a period is paced by the oscillator its end begins the next after a nominal period; where another
source paces it, an edge in the window does, an edge before or behind the window does nothing, and a window that closes
with no edge ends the period and is counted. R154, R160: the fourth such window loses the reference: INTERNAL paces, the
target goes, the fallen flag and REF_FAIL stand, and the auto-return watch acts if it may: it sets WORD, or a link that
is in SLAVE mode. That a period that has begun stands open for its events, with the link modes that were in force, is
the model's choice (assumption 7), and so is that an edge command outside the window does nothing (assumption 29). -/
def Obligations.PeriodsEnd : Prop :=
  ∀ s : State, s.AtRest → s.ref.bridging = none → s.ref.switchFrom = none →
    (s.ref.current = .internal → ∃ t : State, exec .internalPeriodEnd s = .next t ∧ NextPeriod s t 1000000 ∧
      t.ref = s.ref.closed (s.periodStart + 1000000)) ∧
    (s.ref.current ≠ .internal →
      (∀ p : Phase, s.ref.target ≠ some s.ref.current → 990000 ≤ p → p ≤ 1010000 →
        ∃ t : State, exec (.refEdgeAccepted p) s = .next t ∧ NextPeriod s t p ∧
          t.ref = { s.ref.closed (s.periodStart + p) with miss := 0 }) ∧
      (∀ p : Phase, s.ref.target ≠ some s.ref.current → p < 990000 ∨ 1010000 < p →
        exec (.refEdgeAccepted p) s = .next s) ∧
      (s.ref.miss < 3 → ∃ t : State, exec .refWindowMiss s = .next t ∧ NextPeriod s t 1010000 ∧
      t.ref = { s.ref.closed (s.periodStart + 1010000) with miss := s.ref.miss + 1 }) ∧
      (s.ref.miss = 3 → ∃ t : State, exec .refWindowMiss s = .next t ∧ NextPeriod s t 1010000 ∧
      t.ref.current = .internal ∧ t.ref.miss = 0 ∧ t.ref.fallen = true ∧ t.ref.progress = 0 ∧
      t.ref.preferred = s.ref.preferred ∧ t.ref.autoReturn = s.ref.autoReturn ∧
      (t.cond deviceSet).pending &&& 0x08 = 0x08 ∧ (s.ref.autoReturn = false → t.ref.target = none) ∧
      (s.ref.autoReturn = true → s.ref.preferred = .word → t.ref.target = some .word ∧ t.ref.origin = .autoReturn) ∧
      (s.ref.preferred = .internal → t.ref.target = none) ∧
      ∀ l : LinkId, s.ref.autoReturn = true → s.ref.preferred = .link l →
        ((s.link l).mode = .slave → (s.link l).active = .slave →
          t.ref.target = some (.link l) ∧ t.ref.origin = .autoReturn) ∧
        ((s.link l).mode ≠ .slave → t.ref.target = none)))

/-- R156: how an edge of the target, or its absence, moves the measurement and the lock progress; nothing else changes.
-/
def Obligations.TargetMeasured : Prop :=
  ∀ (s : State) (src : Source) (p : Phase), s.AtRest → s.ref.bridging = none → s.ref.target = some src →
    s.ref.pacing ≠ src → s.ref.progress < 64 →
    (s.ref.lastEdge = none →
      exec (.targetEdge p) s = .next { s with ref := { s.ref with lastEdge := some (s.periodStart + p) } }) ∧
    ∀ t : Nat, s.ref.lastEdge = some t →
      ((s.periodStart + p < t + 990000 ∨ t + 1010000 < s.periodStart + p) → exec (.targetEdge p) s = .next
        { s with ref := { s.ref with progress := 0, lastEdge := some (s.periodStart + p) } }) ∧
      (t + 990000 ≤ s.periodStart + p → s.periodStart + p ≤ t + 1010000 → s.ref.progress < 63 →
        exec (.targetEdge p) s = .next
          { s with ref := { s.ref with progress := s.ref.progress + 1, lastEdge := some (s.periodStart + p) } }) ∧
      (t + 1010000 ≤ s.periodStart + 1000000 → exec .targetWindowTimeout s = .next
        { s with ref := { s.ref with progress := 0, lastEdge := none } })

/-- R157: the edge that completes a lock. In the first half of the period in progress it begins the bridging period; in
the second half it ends it at once. What stands as a period begins is as in assumption 7, the model's choice. -/
def Obligations.LockCompleted : Prop :=
  ∀ (s : State) (src : Source) (p : Phase) (t : Nat), s.AtRest → s.ref.bridging = none → s.ref.switchFrom = none →
    s.ref.target = some src → s.ref.current ≠ src → s.ref.progress = 63 → s.ref.lastEdge = some t →
    t + 990000 ≤ s.periodStart + p → s.periodStart + p ≤ t + 1010000 →
    (p < 500000 → exec (.targetEdge p) s = .next
      { s with
        ref :=
          { s.ref with
            progress := 64
            lastEdge := some (s.periodStart + p)
            bridging := some ⟨src, s.ref.origin, s.periodStart + p⟩ } }) ∧
    (500000 ≤ p → (s.ref.fallen = true → s.ref.origin = .autoReturn) →
      ∃ u : State, exec (.targetEdge p) s = .next u ∧ NextPeriod s u p ∧ u.ref.current = src ∧ u.ref.target = none ∧
        u.ref.progress = 0 ∧ u.ref.miss = 0 ∧ u.ref.fallen = false ∧ u.ref.bridging = none ∧
        (u.cond deviceSet).pending &&& 0x04 = 0x04)

/-- R157, R158: a bridging period ends at an edge in the window after the lock edge, or at the window's close with a
first miss; a switch to INTERNAL acts at the boundary that the old source still makes. R155, R156: an edge of an old
source that is target again is judged as the target's edge too. What stands as a period begins is as in assumption 7,
the model's choice. -/
def Obligations.SwitchesMade : Prop :=
  (∀ (s : State) (b : Bridge), s.AtRest → s.ref.bridging = some b → s.ref.switchFrom = none →
    s.ref.target = some b.source → s.ref.progress = 64 → (s.ref.fallen = true → b.origin = .autoReturn) →
    (∀ p : Phase, b.lockAt + 990000 ≤ s.periodStart + p → s.periodStart + p ≤ b.lockAt + 1010000 →
      ∃ t : State, exec (.bridgingEnd (some p)) s = .next t ∧ NextPeriod s t p ∧ t.ref.current = b.source ∧
        t.ref.target = none ∧ t.ref.progress = 0 ∧ t.ref.miss = 0 ∧ t.ref.fallen = false ∧ t.ref.bridging = none ∧
        (t.cond deviceSet).pending &&& 0x04 = 0x04) ∧
    ∃ t : State, exec (.bridgingEnd none) s = .next t ∧
      NextPeriod s t (b.lockAt + 1010000 - s.periodStart) ∧ t.ref.current = b.source ∧ t.ref.target = none ∧
      t.ref.progress = 0 ∧ t.ref.miss = 1 ∧ t.ref.fallen = false ∧ t.ref.bridging = none ∧
      (t.cond deviceSet).pending &&& 0x04 = 0x04) ∧
  ∀ (s : State) (old : Source), s.AtRest → s.ref.bridging = none → s.ref.switchFrom = some old → old ≠ .internal →
    (∀ p : Phase, 990000 ≤ p → p ≤ 1010000 → s.ref.target ≠ some old →
      ∃ t : State, exec (.refSwitchInternal (some p)) s = .next t ∧
      NextPeriod s t p ∧ t.ref = { s.ref.closed (s.periodStart + p) with switchFrom := none, miss := 0 } ∧
      (t.cond deviceSet).pending &&& 0x04 = 0x04 ∧
      (t.cond deviceSet).pending &&& 0x08 = (s.cond deviceSet).pending &&& 0x08) ∧
    (∀ p last : Nat, 990000 ≤ p → p ≤ 1010000 → s.ref.target = some old → s.ref.lastEdge = some last →
      last + 990000 ≤ s.periodStart + p → s.periodStart + p ≤ last + 1010000 → s.ref.progress < 63 →
      ∃ t : State, exec (.refSwitchInternal (some p)) s = .next t ∧
      NextPeriod s t p ∧ t.ref = { s.ref with
        switchFrom := none, miss := 0, progress := s.ref.progress + 1, lastEdge := some (s.periodStart + p) } ∧
      (t.cond deviceSet).pending &&& 0x04 = 0x04) ∧
    ∃ t : State, exec (.refSwitchInternal none) s = .next t ∧
      NextPeriod s t 1010000 ∧ t.ref = { s.ref.closed (s.periodStart + 1010000) with switchFrom := none, miss := 0 } ∧
      (t.cond deviceSet).pending &&& 0x04 = 0x04 ∧
      (t.cond deviceSet).pending &&& 0x08 = (s.cond deviceSet).pending &&& 0x08

/-! ## Air links -/

/-- R153, R156, R157, R161, R170, R171, R172, R173, R174: a frame pulse on a SLAVE link whose loss timer has not run
out. Whatever the link is to the reference controller, the pulse moves the framing, counts and reports where it is
misplaced, and leaves the link's settings. Where the link does not pace the periods, the frame is that of the store,
zero out of SYNC, an empty store is counted and reported, the controller judges the pulse where the link is its target,
and all else stays as it is. Where the link is the current source, a pulse in the window ends the period, and the frame
it begins is to carry the image of the period it begins; another pulse leaves the period as it is, and its frame carries
that period's image; the store is not used. Where the pulse completes the switch to the link, the next period is the
first paced by it, its store empty. That a pulse on bit 768 is the one on the boundary bit, and reaches framer and
controller both, is the model's choice (assumption 17), and so are that a pulse at the moment of the loss comes ahead of
it (assumption 42) and that the frame of a pulse that ends a period waits for that period's image (assumptions 7 and
18). -/
def Obligations.FramePulses : Prop :=
  ∀ (s : State) (l : LinkId) (bit : Nat) (p : Phase) (f : Framing), s.AtRest → (s.link l).framing = some f →
    (f.sub = .lost ∨ s.periodStart + p ≤ f.lossFrom + 4000000) →
    ∃ (t : State) (g : Framing), exec (.framePulse l bit p) s = .next t ∧
    ((t.link l).framing = some g ∧ f.Pulsed g bit (s.periodStart + p) ∧ (t.link l).mode = (s.link l).mode ∧
      (t.link l).active = (s.link l).active ∧ (t.link l).mirror = (s.link l).mirror ∧
      (t.link l).assigns = (s.link l).assigns ∧ (t.link l).drops = (s.link l).drops ∧
      (f.bit.isSome = true → bit ≠ 768 → (t.link l).alignments = Count32.succHold (s.link l).alignments ∧
        (t.cond deviceSet).pending &&& 0x10 = 0x10) ∧
      ((f.bit = none ∨ bit = 768) → (t.link l).alignments = (s.link l).alignments) ∧
      (∀ i : SetId, (t.cond i).enabled = (s.cond i).enabled) ∧ t.media = s.media ∧ t.port = s.port ∧
      t.claim = s.claim ∧ t.queue = s.queue ∧ t.handler = s.handler) ∧
    (s.ref.bridging = none → s.ref.pacing ≠ .link l →
      (s.ref.target = some (.link l) → s.ref.progress < 63 ∨ s.ref.progress = 63 ∧ p < 500000) →
      (g.sub ≠ .sync → (t.link l).frame = some Image.zero ∧ g.newPlace = f.newPlace ∧ g.sentPlace = f.sentPlace) ∧
      (∀ img : Image, g.sub = .sync → f.newPlace = some img →
        (t.link l).frame = some img ∧ g.newPlace = none ∧ g.sentPlace = some img) ∧
      (g.sub = .sync → f.newPlace = none → (t.link l).frame = some (f.sentPlace.getD Image.zero) ∧
        (t.link l).repeats = Count32.succHold (s.link l).repeats ∧ (t.cond deviceSet).pending &&& 0x20 = 0x20) ∧
      ((g.sub ≠ .sync ∨ f.newPlace.isSome = true) → (t.link l).repeats = (s.link l).repeats ∧
        (t.cond deviceSet).pending &&& 0x20 = (s.cond deviceSet).pending &&& 0x20) ∧
      (s.ref.target ≠ some (.link l) → t.ref = s.ref) ∧
      (s.ref.target = some (.link l) →
        (s.ref.lastEdge = none → t.ref = { s.ref with lastEdge := some (s.periodStart + p) }) ∧
        ∀ last : Nat, s.ref.lastEdge = some last →
          (s.periodStart + p < last + 990000 ∨ last + 1010000 < s.periodStart + p →
            t.ref = { s.ref with progress := 0, lastEdge := some (s.periodStart + p) }) ∧
          (last + 990000 ≤ s.periodStart + p → s.periodStart + p ≤ last + 1010000 →
            (s.ref.progress < 63 →
              t.ref = { s.ref with progress := s.ref.progress + 1, lastEdge := some (s.periodStart + p) }) ∧
            (s.ref.progress = 63 →
              t.ref =
                { s.ref with
                  progress := 64
                  lastEdge := some (s.periodStart + p)
                  bridging := some ⟨.link l, s.ref.origin, s.periodStart + p⟩ }))) ∧
      (∀ k : LinkId, k ≠ l → t.link k = s.link k) ∧ (t.link l).image = (s.link l).image ∧ t.house = s.house ∧
      t.periodStart = s.periodStart ∧ t.opening = false ∧ t.stations = s.stations ∧ t.decks = s.decks ∧
      t.dir = s.dir ∧
      ((f.bit = none ∨ bit = 768) →
        (t.cond deviceSet).pending &&& 0x10 = (s.cond deviceSet).pending &&& 0x10) ∧
      (t.cond deviceSet).pending &&& 0xCF = (s.cond deviceSet).pending &&& 0xCF ∧
      (∀ i : SetId, i ≠ deviceSet → t.cond i = s.cond i) ∧ t.beds = s.beds ∧ t.asrun = s.asrun ∧
      t.recordsHeld = s.recordsHeld ∧ t.rx = s.rx ∧ t.deferred = s.deferred) ∧
    (s.ref.bridging = none → s.ref.switchFrom = none → s.ref.current = .link l → s.ref.target ≠ some (.link l) →
      g.newPlace = f.newPlace ∧ g.sentPlace = f.sentPlace ∧ (t.link l).repeats = (s.link l).repeats ∧
      (990000 ≤ p → p ≤ 1010000 → NextPeriod s t p ∧
        t.ref = { s.ref.closed (s.periodStart + p) with miss := 0 } ∧ (t.link l).frameOpens = true) ∧
      (p < 990000 ∨ 1010000 < p →
        (t.link l).frame = some (if g.sub = .sync then (s.link l).image else Image.zero) ∧ t.ref = s.ref ∧
        t.house = s.house ∧ t.periodStart = s.periodStart ∧ t.opening = false ∧ t.stations = s.stations ∧
        t.decks = s.decks ∧ t.beds = s.beds ∧ t.asrun = s.asrun ∧ t.deferred = s.deferred ∧
        ∀ k : LinkId, k ≠ l → t.link k = s.link k)) ∧
    (s.ref.switchFrom = none → s.ref.target = some (.link l) →
      ((∃ b : Bridge, s.ref.bridging = some b ∧ b.source = .link l ∧ s.ref.progress = 64 ∧
          b.lockAt + 990000 ≤ s.periodStart + p ∧ s.periodStart + p ≤ b.lockAt + 1010000 ∧
          (s.ref.fallen = true → b.origin = .autoReturn)) ∨
        (∃ last : Nat, s.ref.bridging = none ∧ s.ref.current ≠ .link l ∧ s.ref.progress = 63 ∧
          s.ref.lastEdge = some last ∧ last + 990000 ≤ s.periodStart + p ∧ s.periodStart + p ≤ last + 1010000 ∧
          500000 ≤ p ∧ (s.ref.fallen = true → s.ref.origin = .autoReturn))) →
      NextPeriod s t p ∧ t.ref.current = .link l ∧ t.ref.target = none ∧ t.ref.progress = 0 ∧ t.ref.miss = 0 ∧
      t.ref.fallen = false ∧ t.ref.bridging = none ∧ (t.cond deviceSet).pending &&& 0x04 = 0x04 ∧
      g.newPlace = none ∧ g.sentPlace = none ∧ (t.link l).frameOpens = true)

/-- R170: a frame that a link begins by itself stands at bit 0 with run 0. R171, R172, R173: it carries zero out of SYNC;
in SYNC it carries the period's image where the link is the current source, else what the store gives: the newest image
not yet sent, or again the one last sent, which is counted and raises LINK_SLIP. R171: a loss timer that runs out within the
period makes the link LOST, its outputs low, and raises LINK_ALARM. R175: a stored mode takes effect at the beginning of
a period, and only on its link; R160: where the reference has fallen, the auto-return watch acts if its conditions now
hold. That the first MASTER frame is formed with the period's image, so that none is under way before it, is the model's
choice (assumptions 7 and 18), and so are that a limit acts by its command within the period (assumption 16) and that
LINK_SETs that end at the mode in force make no change (assumption 40). -/
def Obligations.LinkEvents : Prop :=
  (∀ (s : State) (l : LinkId) (f : Framing), s.AtRest → (s.link l).framing = some f → f.bit.isSome = true →
    ∃ t : State, exec (.flywheelFrame l) s = .next t ∧
      (∃ g : Framing, (t.link l).framing = some g ∧ g.bit = some 0 ∧ g.run = 0 ∧ g.sub = f.sub ∧
        g.lossFrom = f.lossFrom ∧
        (f.sub ≠ .sync → (t.link l).frame = some Image.zero) ∧
        (f.sub = .sync → s.ref.pacing = .link l → (t.link l).frame = some (s.link l).image) ∧
        (f.sub ≠ .sync ∨ s.ref.pacing = .link l →
          g.newPlace = f.newPlace ∧ g.sentPlace = f.sentPlace ∧ (t.link l).repeats = (s.link l).repeats ∧
          t.conds = s.conds) ∧
        (f.sub = .sync → s.ref.pacing ≠ .link l →
          (∀ img : Image, f.newPlace = some img → (t.link l).frame = some img ∧ g.newPlace = none ∧
            g.sentPlace = some img ∧ (t.link l).repeats = (s.link l).repeats ∧ t.conds = s.conds) ∧
          (f.newPlace = none → (t.link l).frame = some (f.sentPlace.getD Image.zero) ∧ g.newPlace = none ∧
            g.sentPlace = f.sentPlace ∧ (t.link l).repeats = Count32.succHold (s.link l).repeats ∧
            (t.cond deviceSet).pending &&& 0x20 = 0x20))) ∧
      (t.link l).drops = (s.link l).drops ∧ (t.link l).alignments = (s.link l).alignments ∧
      (∀ k : LinkId, k ≠ l → t.link k = s.link k) ∧ t.ref = s.ref ∧ t.stations = s.stations ∧ t.house = s.house ∧
      t.decks = s.decks ∧ t.beds = s.beds ∧ t.media = s.media ∧ t.dir = s.dir) ∧
  (∀ (s : State) (l : LinkId) (f : Framing), s.AtRest → (s.link l).framing = some f → f.sub ≠ .lost →
    s.ref.bridging = none → s.ref.pacing = .internal → f.lossFrom + 4000000 ≤ s.periodStart + 1000000 →
    exec (.linkLost l) s = .next
      (State.raiseDevice
        (s.setLink l
          { s.link l with
            framing := some
              { sub := .lost, bit := none, run := 0, lossFrom := f.lossFrom, newPlace := none, sentPlace := none }
            frame := none
            frameOpens := false }) .linkAlarm)) ∧
  ∀ (s : State) (l : LinkId), s.inReset = false → s.opening = true → (s.link l).mode ≠ (s.link l).active →
    ∃ (k : AirLink) (q : RefControl), exec (.linkModeChange l) s = .next { s.setLink l k with ref := q } ∧
      ((s.ref.fallen = false ∨ s.ref.autoReturn = false ∨ s.ref.target ≠ none ∨ s.ref.preferred = .internal) →
        q = s.ref) ∧
      (∀ m : LinkId, s.ref.fallen = true → s.ref.autoReturn = true → s.ref.target = none → s.ref.preferred = .link m →
        ((s.link m).mode = .slave → (m ≠ l → (s.link m).active = .slave) →
          q = { s.ref with target := some (.link m), origin := .autoReturn, progress := 0, lastEdge := none }) ∧
        ((s.link m).mode ≠ .slave → q = s.ref)) ∧
      k.active = (s.link l).mode ∧
      k.mode = (s.link l).mode ∧ k.assigns = (s.link l).assigns ∧ k.mirror = (s.link l).mirror ∧
      k.alignments = (s.link l).alignments ∧ k.repeats = (s.link l).repeats ∧ k.drops = (s.link l).drops ∧
      k.frame = none ∧
      ((s.link l).mode ≠ .slave → k.framing = none) ∧
      ((s.link l).mode = .slave → k.framing = some
        { sub := .hunt, bit := none, run := 0, lossFrom := s.periodStart, newPlace := none, sentPlace := none })

/-- R165, R167, R168, R176: a period's image has 32 slots; an assigned station's values stand in the upper 16 bits of
its slots, and every slot no assignment covers is zero; link B under the mirror has link A's image. A frame's 768 bits
go out slot by slot, each most significant bit first, the pulse with the first, the same on both outputs. R168: a MASTER
frame carries its period's image. R172: a frame that a SLAVE link on the current source begins with the period carries,
in SYNC, that period's image, and its store is not used. R173: the boundary writes the image into the store of another
SLAVE link, and in SYNC the loss of an unsent one is a drop slip. -/
def Obligations.ImagesFormed : Prop :=
  (∀ img : Image, img.length = 32 → (Image.lines img).length = 768 ∧
    ∀ (i j : Nat) (v : BitVec 24), img[i]? = some v → j < 24 →
      (Image.lines img)[24 * i + j]? = some ⟨decide (i = 0 ∧ j = 0), v.getLsbD (23 - j), v.getLsbD (23 - j)⟩) ∧
  (∀ (s t : State) (l : LinkId), t = s.linkPeriod l →
    ((s.link l).active = .master → (t.link l).frame = some (s.imageOf l) ∧ t.conds = s.conds) ∧
    (∀ f : Framing, (s.link l).active = .slave → (s.link l).framing = some f →
      (s.ref.pacing = .link l → (t.link l).framing = some f ∧ t.conds = s.conds ∧
        ((s.link l).frameOpens = true → (t.link l).frame =
          some (if f.sub = .sync then s.imageOf l else Image.zero))) ∧
      (s.ref.pacing ≠ .link l → (s.link l).frameOpens = false →
        (t.link l).framing = some { f with newPlace := some (s.imageOf l) } ∧
        (t.link l).frame = (s.link l).frame ∧ (t.link l).repeats = (s.link l).repeats ∧
        (f.sub = .sync → f.newPlace.isSome = true → (t.link l).drops = Count32.succHold (s.link l).drops ∧
          (t.cond deviceSet).pending &&& 0x20 = 0x20) ∧
        ((f.sub ≠ .sync ∨ f.newPlace = none) → (t.link l).drops = (s.link l).drops ∧ t.conds = s.conds))) ∧
    (t.link l).assigns = (s.link l).assigns ∧ (t.link l).alignments = (s.link l).alignments ∧
    (∀ k : LinkId, k ≠ l → t.link k = s.link k) ∧ t.stations = s.stations ∧ t.decks = s.decks ∧ t.ref = s.ref) ∧
  (∀ (s : State) (l : LinkId), (s.imageOf l).length = 32 ∧
    (∀ i : Nat, i < 32 → (∀ (st : StationId) (a : Assignment), (s.tableOf l)[st] = some a →
      i < a.base ∨ a.base + a.format.width ≤ i) → (s.imageOf l)[i]? = some 0)) ∧
  (∀ (s : State) (l : LinkId) (st : StationId) (a : Assignment), (s.tableOf l)[st] = some a →
    a.base + a.format.width ≤ 32 →
    (∀ (u : StationId) (b : Assignment), u ≠ st → (s.tableOf l)[u] = some b → b.overlaps a = false) →
    (a.format = .stereo → (s.imageOf l)[a.base]? = some ((s.station st).out.l ++ (0 : BitVec 8)) ∧
      (s.imageOf l)[a.base + 1]? = some ((s.station st).out.r ++ (0 : BitVec 8))) ∧
    (a.format = .mono → (s.imageOf l)[a.base]? = some ((s.station st).out.m ++ (0 : BitVec 8))) ∧
    (a.format = .stereoMono → (s.imageOf l)[a.base]? = some ((s.station st).out.l ++ (0 : BitVec 8)) ∧
      (s.imageOf l)[a.base + 1]? = some ((s.station st).out.r ++ (0 : BitVec 8)) ∧
      (s.imageOf l)[a.base + 2]? = some ((s.station st).out.m ++ (0 : BitVec 8)))) ∧
  ∀ s : State, s.linkB.mirror = true → s.imageOf .b = s.imageOf .a

/-! ## Stations in a period -/

/-- R102, R135, R137: the silence counter of a station in AUTO or MANUAL counts quiet periods and a loud one clears it;
where it has reached the window the monitor orders the station into FALLBACK, with a SILENCE fault at the next period's
time; a pending take is withdrawn, its target returned, and the entry to FALLBACK notes that it was dropped.
That mode, left mode and fault are set with the order, and the rest waits for the next period, is the model's deduction
(assumption 11). -/
def Obligations.SilenceOrdered : Prop :=
  (∀ x : Station, (x.airs = true → x.out.quiet = true → x.judged.silence = x.silence + 1 ∧
      (x.judged.silenceDue = true ↔ x.cfg.window ≤ x.silence + 1)) ∧
    ((x.airs = false ∨ x.out.quiet = false) → x.judged.silence = 0 ∧ x.judged.silenceDue = x.silenceDue)) ∧
  ∀ (s : State) (st : StationId), s.AtRest → (s.station st).silenceDue = true → (s.station st).airs = true →
    ∃ id cart : Nat,
    ((s.station st).take = none → exec (.silenceWindowReached st) s = .next
      { ((s.reportFault st .silence id cart (s.nextTime st)).modStation st fun x =>
          { x with mode := .fallback, leftMode := some (s.station st).mode, silenceDue := false }) with
        deferred := s.deferred ++ [(st, .fallback false)] }) ∧
    (∀ (k : PendingTake) (due : Option DueMoment), (s.station st).take = some k →
      due = (if (s.station st).waitingList.head?.map Entry.id = some k.target then none else (s.station st).due) →
      exec (.silenceWindowReached st) s = .next
      { ((((s.reportFault st .silence id cart (s.nextTime st)).modStation st fun x =>
          { x with take := none, due := due, dirty := true }).modEntry st k.target Entry.returned).modStation st fun x =>
          { x with mode := .fallback, leftMode := some (s.station st).mode, silenceDue := false }) with
        deferred := s.deferred ++ [(st, .fallback true)] }) ∧
    (∀ e : Entry, (s.station st).onAir = some e → id = e.id ∧ (∀ c : Nat, e.body = .item c → cart = c)) ∧
    ((s.station st).onAir = none → (∀ e ∈ (s.station st).list, e.state ≠ .pending) → id = 0 ∧ cart = 0)

/-- R88, R89, R97, R100: when an entry is due. R90, R92, R34: a due entry whose deck is PRIMED starts: the deck plays at
the entry's level with its fade-in, the entry is ON_AIR with its lateness, what was on air is ENDING and fades only
under a SEGUE start that no take made, by its fade-out; it keeps its ramp otherwise, and no other deck, no bed and no
other station is touched. What the start sets off of re-evaluations comes behind. That a SEGUE or FOLLOW entry behind a
HARD item that left is held to the same condition is the model's choice (assumption 45). So is that a PENDING HARD item
stays due where a SET_TIME moves its time ahead again (assumption 60). -/
def Obligations.EntryStarts : Prop :=
  (∀ (s : State) (st : StationId) (e : Entry), s.isDue st e = true ↔
    e.state = .pending ∨ (∃ k : PendingTake, (s.station st).take = some k ∧ k.target = e.id) ∨
    e.startKind = .hard ∧ e.dueTime ≤ s.stationTime st ∧ (s.station st).onAirBreak = none ∨
    (s.station st).mode = .auto ∧ (e.startKind = .segue ∨ e.startKind = .follow) ∧ (s.station st).onAir = none ∨
    (s.station st).mode = .auto ∧ e.startKind = .segue ∧
      ∃ (x : Entry) (c : Nat) (q : DeckId) (y : DirEntry), (s.station st).onAir = some x ∧ x.body = .item c ∧
        x.served = .deck q ∧ s.playerEntry (s.deck q).player = some y ∧
        (if y.category = .spot then y.trimOut else y.segue.getD y.trimOut) ≤ (s.deck q).player.playPos) ∧
  ∀ (s : State) (st : StationId) (e : Entry) (d : DeckId), s.InOpening → s.ListsKept → s.preFadeDue st = none →
    s.firstItem st = some e → s.isDue st e = true → e.served = .deck d → (s.deck d).player.state = .primed →
    ∃ t : State, exec (.entryStart st) s = .next t.settlePool ∧
      (e.startKind = .hard → e.state ≠ .pending → exec (.hardEventDue st) s = .next t.settlePool) ∧
      (t.deck d).player.state = .playing ∧ (t.deck d).player.ramp = ⟨0, 32768, e.fadeIn.getD 0, 0⟩ ∧
      (∀ v : Nat, e.level = some v → (t.deck d).player.level = v) ∧
      (∀ y : DirEntry, e.level = none → s.playerEntry (s.deck d).player = some y →
        (t.deck d).player.level = y.level) ∧
      (t.deck d).player.buffer = (s.deck d).player.buffer ∧
      (∃ late : Int, (t.station st).find e.id =
          some { e with state := .onAir, lateness := some late, startTime := s.stationTime st } ∧
        (e.startKind = .hard → late = (s.stationTime st : Int) - (e.dueTime : Int)) ∧
        (e.startKind ≠ .hard → (s.station st).due = none → late = 0) ∧
        ∀ m : DueMoment, e.startKind ≠ .hard → (s.station st).due = some m → late = ((s.house - m.house).toNat : Int)) ∧
      (∀ x : Entry, (s.station st).onAir = some x → (t.station st).find x.id = some { x with state := .ending }) ∧
      (∀ (x : Entry) (f : Nat) (q : DeckId), (s.station st).onAir = some x → x.fadeOut = some f → x.served = .deck q →
        q ≠ d → (s.deck q).player.sounds = true → e.startKind = .segue →
        (∀ k : PendingTake, (s.station st).take = some k → k.target ≠ e.id) →
        (t.deck q).player.ramp = ⟨(s.deck q).player.ramp.value, 0, f, 0⟩ ∧ (t.deck q).player.state = .fading) ∧
      (∀ q : DeckId, q ≠ d →
        ((∀ x : Entry, (s.station st).onAir = some x → x.served ≠ .deck q ∨ x.fadeOut = none) ∨
          e.startKind ≠ .segue ∨ ∃ k : PendingTake, (s.station st).take = some k ∧ k.target = e.id) →
        t.deck q = s.deck q) ∧
      (∀ k : PendingTake, (s.station st).take = some k →
        (t.station st).take = if k.target = e.id then none else some k) ∧
      (t.station st).due = none ∧ (∀ u : StationId, u ≠ st → t.station u = s.station u) ∧ t.beds = s.beds ∧
      t.dir = s.dir ∧ t.media = s.media ∧ t.asrun = s.asrun ∧ t.port = s.port ∧ t.house = s.house

/-- R88, R90, R91, R97, R102: a due entry with no PRIMED deck is PENDING, its due moment kept, what sounds left as it is
and a waiting request of it made anew under the key of now; one whose cart is not found, with no deck and no request,
leaves the list with a MISSING record and fault, and where it was the target of a take TAKE_DROPPED is raised. This
holds of a HARD item in the period that makes it due, and of a SEGUE, FOLLOW or TAKE entry, the target of a take among
them, in each period in which it is due. That the remade request keeps the directory slot of the one withdrawn is the
model's deduction (assumption 23). -/
def Obligations.DueWithoutDeck : Prop :=
  ∀ (s : State) (st : StationId) (e : Entry) (run : State → Prop), s.InOpening → s.ListsKept →
    s.firstItem st = some e → s.isDue st e = true → s.primedDeck e.served = none →
    (s.preFadeDue st = none ∧ e.startKind = .hard ∧ e.state ≠ .pending ∧
        (run = fun t => exec (.hardEventDue st) s = .next t.settlePool) ∨
      e.startKind ≠ .hard ∧ run = fun t => s.opJudgeFirst st = t) →
    ((∀ q ∈ (s.station st).requests, q.target ≠ .item e.id) →
      ((s.lookup st e.cart).isSome = true ∨ e.served ≠ .none) →
      ∃ t : State, run t ∧ (t.station st).find e.id = some { e with state := .pending } ∧
        ((s.station st).due = none → (t.station st).due =
          some ⟨if e.startKind = .hard then e.dueTime else s.stationTime st, s.house⟩) ∧
        (∀ m : DueMoment, (s.station st).due = some m → (t.station st).due = some m) ∧
        (t.station st).requests = (s.station st).requests ∧ (t.station st).take = (s.station st).take ∧
        t.beds = s.beds ∧ t.asrun = s.asrun ∧ t.media = s.media ∧ t.conds = s.conds ∧
        t.decks = s.decks ∧ ∀ u : StationId, u ≠ st → t.station u = s.station u) ∧
    (∀ q : DeckRequest, e.served = .waiting → e.state ≠ .pending →
      (s.station st).requests.find? (fun x => x.target == .item e.id) = some q →
      s.Capped → (∀ d : DeckId, (s.deck d).player.state ≠ .free) → s.stationTime st ≠ 281474976710655 →
      ∃ t : State, run t ∧ (t.station st).find e.id = some { e with state := .pending } ∧
        (t.station st).requests = (s.station st).requests.erase q ++ [{ q with key := s.house.toNat }] ∧
        t.beds = s.beds ∧ t.asrun = s.asrun ∧ t.media = s.media ∧ t.decks = s.decks) ∧
    (e.served = .none → s.lookup st e.cart = none →
      ∃ t : State, run t ∧ (t.station st).find e.id = none ∧
        (t.station st).list.map Entry.frame = ((s.station st).list.filter fun y => y.id != e.id).map Entry.frame ∧
        (∀ r : Record, r =
          { seq := 0, station := st, entryId := e.id, spotRef := none, cart := e.cart, used := none,
            scheduled := (if e.startKind = .hard then some e.dueTime else none), startTime := s.stationTime st,
            endTime := s.stationTime st, aired := 0, outcome := .missing, stalls := 0, mediaErrors := 0,
            lateness := none } →
          (s.recordsHeld = [] → s.logAccepts = true → t.asrun = s.asrun ++ [{ r with seq := s.nextSeq }]) ∧
          (s.recordsHeld ≠ [] → t.asrun = s.asrun ∧ t.recordsHeld = s.recordsHeld ++ [(none, r)])) ∧
        ((s.station st).fault = none → (t.station st).fault =
          some ⟨.missing, e.id, e.cart, s.stationTime st, false⟩) ∧
        (∀ k : PendingTake, (s.station st).take = some k →
          (k.target = e.id → (t.station st).take = none ∧ (t.cond (stationSet st)).pending &&& 0x10 = 0x10) ∧
          (k.target ≠ e.id → (t.station st).take = some k ∧
            (t.cond (stationSet st)).pending &&& 0x10 = (s.cond (stationSet st)).pending &&& 0x10)) ∧
        (t.station st).dirty = true ∧ t.decks = s.decks ∧ t.beds = s.beds ∧ t.media = s.media)

/-- R95, R96: the pre-fade of a hard entry begins at T less the hard fade where the entry is ARMED, and at T otherwise:
its record is made and the entry is committed from then on (R66), a pending take goes with TAKE_DROPPED, what sounds is
cut to end at T, with a hard fade of 0 in the period T itself, or over the stop fade where T was met late, and every
entry ahead of the hard entry is skipped with a SKIPPED record. Which entries a hard fade of 0 finds in time is the
model's choice (assumption 32), and so are the order of the records of one period (assumption 25) and a second pre-fade
of an entry whose record a move to IDLE or FALLBACK cleared (assumption 53). R75: as the station time reaches the due
time of the first HARD entry less the arm horizon, the station owes a re-evaluation, and makes it. -/
def Obligations.PreFadeAndHorizon : Prop :=
  (∀ (s : State) (st : StationId) (e : Entry), s.InOpening → (s.station st).airs = true →
    (s.station st).preFade = none → (s.station st).onAirBreak = none → (s.station st).acted = false →
    (s.station st).hardEntry = some e → (e.isBreak = true → s.stationTime st < e.endTime) →
    (e.dueTime ≤ s.stationTime st ∨
      e.dueTime ≤ s.stationTime st + (s.station st).cfg.hardFade ∧ e.state = .armed) →
    ∀ u : State, u = State.cutSounding
        (State.dropTake
          (s.modStation st fun x =>
            { x with
              preFade := some ⟨e.id, e.dueTime⟩
              list := x.list.map fun y => if y.id = e.id then { y with preFaded := true } else y }) st) st
        (if s.stationTime st < e.dueTime then e.dueTime - s.stationTime st
        else if (s.station st).cfg.hardFade = 0 ∧ s.stationTime st = e.dueTime ∧ (e.isBreak = false ∨ e.state = .armed)
          then 0
        else (s.station st).cfg.stopFade) →
      exec (.preFade st) s = .next (u.skipAhead st e.id).settlePool ∧ (u.station st).take = none ∧
      (u.station st).preFade = some ⟨e.id, e.dueTime⟩ ∧
      ((s.station st).take.isSome = true → (u.cond (stationSet st)).pending &&& 0x10 = 0x10) ∧
      (∀ d : DeckId, d ∉ (s.station st).soundingDecks → u.deck d = s.deck d) ∧
      (∀ d : DeckId, d ∈ (s.station st).soundingDecks → (u.deck d).player.buffer = (s.deck d).player.buffer ∧
        ((s.deck d).player.sounds = true → (u.deck d).player.ramp.target = 0)) ∧
      (∀ ahead : List Entry, ahead = (s.station st).waitingList.takeWhile (fun x => x.id != e.id) →
        s.LogTakes ahead.length → s.asrun <+: (u.skipAhead st e.id).asrun ∧
        (s.recordsHeld = [] → (∀ v : StationId, (s.station v).requests = []) → (u.skipAhead st e.id).recordsHeld = []) ∧
        ((u.skipAhead st e.id).records.filter fun r => r.outcome == .skipped).map Record.gist =
          (s.records.filter fun r => r.outcome == .skipped).map Record.gist ++ ahead.map fun x =>
            (.skipped, st, x.id, none, x.cart, none, s.stationTime st, s.stationTime st, 0, none)) ∧
      (s.ListsKept → ∃ y : Entry, ((u.skipAhead st e.id).station st).waitingList.head? = some y ∧ y.id = e.id ∧
        y.preFaded = true ∧ ((u.skipAhead st e.id).station st).isCommitted y = true)) ∧
  ∀ (s : State) (st : StationId), s.InOpening →
    (∀ e : Entry, (s.station st).hardEntry = some e → e.dueTime = s.stationTime st + (s.station st).cfg.armHorizon →
      exec (.armHorizonReached st) s = .next (s.modStation st fun x => { x with dirty := true }).settlePool) ∧
    ((∀ e : Entry, (s.station st).hardEntry = some e →
        e.dueTime ≠ s.stationTime st + (s.station st).cfg.armHorizon) →
      exec (.armHorizonReached st) s = .next s.settlePool)

/-- R74, R75, R79: the candidates a re-evaluation visits in AUTO or MANUAL. R25, R77: the expected start of an item's
request and its key. R25, R26, R27, R76, R78: a candidate ITEM with nothing serving it, whose cart is found, asks for a
deck: where no other request waits it is given the lowest FREE deck, bound to the entry found, and is ARMED if it was
WAITING; where none is FREE its request waits. R114, R116: a candidate BREAK that waits with nothing serving it is
planned for the later of T and now, and asks at T for a deck for its first INCLUDED spot, or, with none and a gap, for
its fill, which is resolved then; a deck granted makes it ARMED; a break that is served, or not WAITING, keeps its plan.
R117: an arming request whose entry has left READY leaves the break WAITING. The place of the horizon entry ahead of the
others is R75's; that a HARD entry's due time counts also while it is PENDING is the model's choice (assumption 34). So
are the station time of a re-evaluation set off between two periods (assumption 56), and that a break still ON_AIR
between a move to IDLE or FALLBACK and its boundary is not served (assumption 61). -/
def Obligations.ItemArmed : Prop :=
  (∀ (s : State) (st : StationId), s.ListsKept →
    (s.candidates st).length ≤ 3 ∧ (s.candidates st).Nodup ∧
    (∀ e : Entry, (s.station st).hardEntry = some e →
      e.dueTime ≤ s.stationTime st + (s.station st).cfg.armHorizon → (s.candidates st).head? = some e.id) ∧
    (∀ e ∈ (s.station st).list, e.id ∈ s.candidates st ↔ e ∈ (s.station st).waitingList.take 2 ∨
      (s.station st).hardEntry = some e ∧ e.dueTime ≤ s.stationTime st + (s.station st).cfg.armHorizon) ∧
    ((s.station st).airs = false → s.reevaluate st = s.setStation st { s.station st with dirty := false }) ∧
    ((s.station st).airs = true → (s.station st).onAirBreak = none → s.reevaluate st =
      (s.candidates st).foldl (fun acc id => State.armOne st id acc)
        (s.setStation st { s.station st with dirty := false }))) ∧
  (∀ (s : State) (st : StationId) (e : Entry), s.ListsKept → e ∈ (s.station st).list →
    (e.startKind = .hard → s.expectedStart st e = e.dueTime) ∧
    (e.startKind ≠ .hard → e.state = .pending → s.expectedStart st e = s.stationTime st) ∧
    (e.startKind ≠ .hard → e.state ≠ .pending →
      ((s.station st).mode = .auto → (e.startKind = .segue ∨ e.startKind = .follow) →
        (s.station st).waitingList.head? = some e →
        ((s.station st).onAir = none → s.expectedStart st e = s.stationTime st) ∧
        (∀ (x : Entry) (b : BreakData), (s.station st).onAir = some x → x.body = .brk b →
          s.expectedStart st e = x.endTime) ∧
        ∀ (x : Entry) (c : Nat) (q : DeckId) (y : DirEntry), (s.station st).onAir = some x → x.body = .item c →
          x.served = .deck q → s.playerEntry (s.deck q).player = some y →
          s.expectedStart st e = s.stationTime st +
            ((if e.startKind = .segue ∧ y.category ≠ .spot then y.segue.getD y.trimOut else y.trimOut) -
              (s.deck q).player.playPos)) ∧
      (((s.station st).mode ≠ .auto ∨ e.startKind = .take ∨ (s.station st).waitingList.head? ≠ some e) →
        s.expectedStart st e = 281474976710655)) ∧
    s.requestKey st 281474976710655 = 281474976710655 ∧
    ∀ v : Nat, v < 281474976710655 →
      s.requestKey st v = (v + 281474976710656 - (s.station st).offset.toNat) % 281474976710656) ∧
  (∀ (s : State) (st : StationId) (e : Entry) (cart : Nat) (x : DirEntry),
    (s.station st).find e.id = some e → e.body = .item cart → e.served = .none → e.state = .waiting →
    s.lookup st cart = some x → s.entryAt x.slot = some x → s.belowCap st = true →
    (∀ u : StationId, (s.station u).requests = []) →
    (∀ d : DeckId, (s.deck d).player.state = .free → (∀ q : DeckId, q < d → (s.deck q).player.state ≠ .free) →
      ((s.armItem st e cart).deck d).station = some st ∧ ((s.armItem st e cart).deck d).target = some (.item e.id) ∧
      ((s.armItem st e cart).deck d).player.state = .bound ∧
      ((s.armItem st e cart).deck d).player.slot = some x.slot ∧
      ((s.armItem st e cart).deck d).player.generation = (s.deck d).player.generation + 1 ∧
      ((s.armItem st e cart).deck d).player.fetchPos = x.trimIn ∧
      ((s.armItem st e cart).deck d).player.playPos = x.trimIn ∧
      ((s.armItem st e cart).deck d).player.buffer = [] ∧ ((s.armItem st e cart).deck d).player.looping = false ∧
      ((s.armItem st e cart).station st).find e.id = some { e with served := .deck d, state := .armed } ∧
      ((s.armItem st e cart).station st).requests = [] ∧
      (∀ y : DirEntry, (s.armItem st e cart).entryAt x.slot = some y → y.bindings = x.bindings + 1) ∧
      ∀ q : DeckId, q ≠ d → (s.armItem st e cart).deck q = s.deck q) ∧
    ((∀ d : DeckId, (s.deck d).player.state ≠ .free) →
      ((s.armItem st e cart).station st).find e.id = some { e with served := .waiting } ∧
      ((s.armItem st e cart).station st).requests =
        [⟨.item e.id, x.slot, false, s.requestKey st (s.expectedStart st e)⟩] ∧
      (s.armItem st e cart).decks = s.decks)) ∧
  (∀ (s : State) (st : StationId) (e : Entry) (cart : Nat), e.body = .item cart →
    (e.served ≠ .none ∨ s.lookup st cart = none ∨ s.belowCap st = false) → s.armItem st e cart = s) ∧
  (∀ (s : State) (st : StationId) (e : Entry) (b pl : BreakData), s.ListsKept →
    (s.station st).find e.id = some e → e.body = .brk b →
    pl = b.planned e.dueTime (max e.dueTime (s.stationTime st)) (s.lookups st b) →
    ((e.state ≠ .waiting ∨ b.unserved = false) → s.armBreak st e b = s) ∧
    (e.state = .waiting → b.unserved = true →
      (s.belowCap st = false → pl.spots.any Spot.remains = true →
        s.armBreak st e b = s.modBreak st e.id fun _ => pl) ∧
      (s.belowCap st = true → (∀ u : StationId, (s.station u).requests = []) →
        (∀ (i : Nat) (p : Spot) (q : Planned) (x : DirEntry), pl.nextSpot = some (i, p) → p.planned = some q →
          s.entryAt q.slot = some x → x.state = .ready →
          (∀ d : DeckId, (s.deck d).player.state = .free → (∀ o : DeckId, o < d → (s.deck o).player.state ≠ .free) →
            ∃ t : State, s.armBreak st e b = t ∧ (t.deck d).station = some st ∧
              (t.deck d).target = some (.spot e.id i) ∧ (t.deck d).player.state = .bound ∧
              (t.deck d).player.slot = some q.slot ∧ (t.deck d).player.looping = false ∧
              (t.deck d).player.fetchPos = x.trimIn ∧
              (t.station st).find e.id = some { e with
                state := .armed
                body := .brk { pl with
                  spots := pl.spots.modify i fun y => { y with served := .deck d, state := y.state.armedBy } } } ∧
              (t.station st).requests = [] ∧ ∀ o : DeckId, o ≠ d → t.deck o = s.deck o) ∧
          ((∀ d : DeckId, (s.deck d).player.state ≠ .free) →
            ∃ t : State, s.armBreak st e b = t ∧ t.decks = s.decks ∧
              (t.station st).find e.id = some { e with
                body := .brk { pl with spots := pl.spots.modify i fun y => { y with served := .waiting } } } ∧
              (t.station st).requests = [⟨.spot e.id i, q.slot, false, s.requestKey st e.dueTime⟩])) ∧
        (pl.spots.any Spot.remains = false → 0 < pl.gap → b.fillResolved = false →
          (∀ (c : Nat) (x : DirEntry), (b.fillCart <|> (s.station st).cfg.fillCart) = some c →
            s.lookup st c = some x → s.entryAt x.slot = some x →
            (x.category = .bed → (∀ d : DeckId, (s.deck d).player.state ≠ .free) →
              ∃ t : State, s.armBreak st e b = t ∧ t.decks = s.decks ∧ t.conds = s.conds ∧
                (t.station st).find e.id = some { e with
                  body := .brk { pl with
                    fillResolved := true, fillUsed := some c, fillState := .waiting, fillServed := .waiting
                    fillPlanned := some ⟨x.slot, x.serial, x.owner, x.category, x.level, x.trimOut - x.trimIn⟩ } } ∧
                (t.station st).requests = [⟨.fill e.id, x.slot, true, s.requestKey st e.dueTime⟩]) ∧
            (x.category = .bed → ∀ d : DeckId, (s.deck d).player.state = .free →
              (∀ o : DeckId, o < d → (s.deck o).player.state ≠ .free) →
              ∃ t : State, s.armBreak st e b = t ∧ (t.deck d).station = some st ∧
                (t.deck d).target = some (.fill e.id) ∧ (t.deck d).player.slot = some x.slot ∧
                (t.deck d).player.looping = x.loop.isSome ∧ (t.station st).requests = [] ∧
                (t.station st).find e.id = some { e with
                  state := .armed
                  body := .brk { pl with
                    fillResolved := true, fillUsed := some c, fillState := .armed, fillServed := .deck d
                    fillPlanned := some ⟨x.slot, x.serial, x.owner, x.category, x.level, x.trimOut - x.trimIn⟩ } })) ∧
          ((∀ (c : Nat) (x : DirEntry), (b.fillCart <|> (s.station st).cfg.fillCart) = some c →
              s.lookup st c = some x → x.category ≠ .bed) →
            ∃ t : State, s.armBreak st e b = t ∧ (t.station st).requests = [] ∧ t.decks = s.decks ∧
              (t.cond (stationSet st)).pending = (s.cond (stationSet st)).pending ||| 0x04 ∧
              ∃ (y : Entry) (c : BreakData), (t.station st).find e.id = some y ∧ y.state = .waiting ∧
                y.body = .brk c ∧ c.fillState = .absent ∧ c.fillResolved = true))))) ∧
  ∀ (s : State) (st : StationId) (r : DeckRequest) (e : Entry) (b : BreakData) (i : Nat), s.ListsKept →
    r.target = .spot e.id i → (s.station st).find e.id = some e → e.body = .brk b → e.state ≠ .onAir →
    (s.deadRequest st r).station st =
      { s.station st with
        requests := (s.station st).requests.erase r
        dirty := true
        list := (s.station st).list.map fun y => if y.id = e.id then
          { e with body := .brk { b with
              spots := b.spots.modify i fun q => { q with served := .none, state := .waiting } } } else y } ∧
    (s.deadRequest st r).asrun = s.asrun ∧ (s.deadRequest st r).recordsHeld = s.recordsHeld ∧
    (s.deadRequest st r).decks = s.decks

/-- R98: the HARD items beyond the late tolerance leave the list, each with a TOO_LATE record and a TOO_LATE fault, and no
other entry does. That the records are made in list order, so that the first of these items fills an EMPTY fault record,
is the model's choice (assumption 25). -/
def Obligations.LateItemsLeave : Prop :=
  ∀ (s : State) (st : StationId), s.InOpening → s.ListsKept → (s.station st).airs = true →
    ∃ t : State, exec (.hardItemTooLate st) s = .next t.settlePool ∧
      (t.station st).list.map Entry.frame =
        ((s.station st).list.filter fun e => !(e.startKind == .hard && !e.isBreak && e.notStarted &&
          decide (e.dueTime + (s.station st).cfg.lateTolerance < s.stationTime st))).map Entry.frame ∧
      (∀ e : Entry, ((s.station st).list.find? fun e => s.isTooLate st e) = some e → (s.station st).fault = none →
        (t.station st).fault.map (fun f => (f.cause, f.entryId, f.cart, f.time)) =
          some (.tooLate, e.id, e.cart, s.stationTime st)) ∧
      (∀ late : List Entry, late = ((s.station st).list.filter fun e => s.isTooLate st e) → s.LogTakes late.length →
        s.asrun <+: t.asrun ∧
        (s.recordsHeld = [] → (∀ v : StationId, (s.station v).requests = []) → t.recordsHeld = []) ∧
        (t.records.filter fun r => r.outcome == .tooLate).map Record.gist =
          (s.records.filter fun r => r.outcome == .tooLate).map Record.gist ++ late.map fun e =>
            (.tooLate, st, e.id, none, e.cart, some e.dueTime, s.stationTime st, s.stationTime st, 0,
              some ((s.stationTime st : Int) - (e.dueTime : Int)))) ∧
      ((∀ e ∈ (s.station st).list, s.isTooLate st e = false) → t = s) ∧
      (∀ u : StationId, u ≠ st → (t.station u).list.map Entry.frame = (s.station u).list.map Entry.frame) ∧
      t.beds = s.beds ∧ t.media = s.media ∧ t.house = s.house

/-! ## Breaks -/

/-- R113: a fit plan judges every spot: no entry found is MISSING, an entry out of category SPOT is WRONG_KIND, and the
others are INCLUDED in spot order as long as their lengths fit. The INCLUDED lengths never exceed the usable span, and
they and the gap make it up. -/
def Obligations.PlanFits : Prop :=
  ∀ (b : BreakData) (due join : Nat) (found : List (Option Planned)), found.length = b.spots.length →
    (b.planned due join found).spots.length = b.spots.length ∧
    ((b.planned due join found).spots.map Spot.includedLength).sum ≤ due + b.duration - join ∧
    ((b.planned due join found).spots.map Spot.includedLength).sum + (b.planned due join found).gap =
      due + b.duration - join ∧
    ∀ (i : Nat) (p : Spot) (q : Option Planned), (b.planned due join found).spots[i]? = some p → found[i]? = some q →
      (p.plan = .missing ↔ q = none) ∧
      (p.plan = .wrongKind ↔ ∃ x : Planned, q = some x ∧ x.category ≠ .spot) ∧
      (p.plan = .included ↔ ∃ x : Planned, q = some x ∧ x.category = .spot ∧
        (((b.planned due join found).spots.take i).map Spot.includedLength).sum + x.effective ≤
          due + b.duration - join) ∧
      (p.plan = .missing ∨ p.plan = .wrongKind ∨ p.plan = .included ∨ p.plan = .excluded) ∧ p.planned = q

/-- R118, R120: a break with its time reached and its end ahead starts: it is ON_AIR with lateness S less T and join
time S, what was on air is ENDING. R113, R115, R120: plan, planned entries and gap are those of the final plan, from the
entries its decks are bound to or lookups find; each spot not INCLUDED is DONE and makes its NOT_AIRED, MISSING or
WRONG_KIND record, in spot order; the others stand as they were armed, their requests withdrawn. R119: one at or beyond
its end leaves the list instead, with a SKIPPED record for each spot. That a starting break's records are held back
until the period's ends of play are known is the model's choice (assumption 25). -/
def Obligations.BreakStarts : Prop :=
  ∀ (s : State) (st : StationId) (e : Entry) (b : BreakData), s.InOpening → s.ListsKept →
    s.hardBreak st = some (e, b) →
    (s.preFadeDue st = none → e.dueTime ≤ s.stationTime st → s.stationTime st < e.endTime →
      ∃ t : State, exec (.breakStart st) s = .next t.settlePool ∧
        (∃ y : Entry, (t.station st).find e.id = some y ∧ y.state = .onAir ∧
          y.lateness = some ((s.stationTime st : Int) - (e.dueTime : Int)) ∧ y.startTime = s.stationTime st ∧
          ∃ c : BreakData, y.body = .brk c ∧ c.join = some (s.stationTime st) ∧ c.duration = b.duration ∧
            c.spots.map (fun p => (p.cart, p.ref)) = (b.spots.map fun p => (p.cart, p.ref)) ∧
            ∀ q : BreakData, q = b.planned e.dueTime (s.stationTime st) (b.spots.map (s.finalFound st)) →
              c.gap = q.gap ∧ c.spots.map (fun p => (p.plan, p.planned)) = (q.spots.map fun p => (p.plan, p.planned)) ∧
              (∀ (i : Nat) (p x : Spot), q.spots[i]? = some p → c.spots[i]? = some x →
                (p.plan = .included → x.state = p.state ∧ x.served = p.served.withdrawn) ∧
                (p.plan ≠ .included → x.state = .done ∧ x.served = .none)) ∧
              (q.gap = 0 → b.fillState ≠ .absent → c.fillState = .none ∧ c.fillServed = .none)) ∧
        (∀ q : BreakData, q = b.planned e.dueTime (s.stationTime st) (b.spots.map (s.finalFound st)) →
          (∀ u : StationId, (s.station u).requests = []) →
          (∀ x ∈ s.recordsHeld, x.2.station ≠ st ∨ x.2.entryId ≠ e.id) → t.asrun = s.asrun ∧
          t.recordsHeld = s.recordsHeld ++ (q.spots.zipIdx.filterMap fun x =>
            (startOutcome x.1.plan).map fun o => (some x.2,
              { seq := 0, station := st, entryId := e.id, spotRef := some x.1.ref, cart := x.1.cart,
                used := x.1.planned.map fun y => ⟨y.owner, y.category⟩, scheduled := some e.dueTime,
                startTime := s.stationTime st, endTime := s.stationTime st, aired := 0, outcome := o, stalls := 0,
                mediaErrors := 0, lateness := none }))) ∧
        (∀ x : Entry, (s.station st).onAir = some x →
          ((t.station st).find x.id).map Entry.state = some .ending) ∧
        (t.station st).preFade = none ∧ (t.station st).due = none ∧
        (t.station st).list.map Entry.id = (s.station st).list.map Entry.id ∧ t.beds = s.beds ∧ t.media = s.media ∧
        t.house = s.house) ∧
    (e.endTime ≤ s.stationTime st →
      ∃ t : State, exec (.breakSkip st) s = .next t.settlePool ∧
        (t.station st).list.map Entry.frame = ((s.station st).list.filter fun y => y.id != e.id).map Entry.frame ∧
        (s.LogTakes b.spots.length → s.asrun <+: t.asrun ∧
          (s.recordsHeld = [] → (∀ u : StationId, (s.station u).requests = []) → t.recordsHeld = []) ∧
          (t.records.filter fun r => r.outcome == .skipped).map Record.airing =
            (s.records.filter fun r => r.outcome == .skipped).map Record.airing ++ b.spots.map fun p =>
              (.skipped, st, e.id, some p.ref, p.cart, s.stationTime st, s.stationTime st, 0)) ∧
        ((∀ u : StationId, (s.station u).requests = []) → (t.station st).fault = (s.station st).fault) ∧
        t.beds = s.beds ∧ t.media = s.media ∧ t.house = s.house)

/-- R121, R125: an ON_AIR break is served at each re-evaluation: its next spot asks for a deck at the end of the spot on
the air, or now; behind the last spot its fill is resolved, once, and asks in the same way, and without a READY entry of
category BED it is ABSENT with BREAK_GAP (R127). R123: a spot whose planned entry is READY no longer goes missing: DONE,
recorded MISSING, its length added to the gap, a MISSING fault; the same where its waiting request is dead. What the
station time now is between two periods, for a request and for a spot that goes missing, is the model's choice
(assumption 56). R122, R126: the next spot, and behind the spots the fill, start on their PRIMED decks at the planned
entry's level; a fill that starts within the break fade of the end closes at once, and one on air begins its closing
fade there (where a STATION_SET has put that moment in the past, assumption 55). -/
def Obligations.SpotsAndFillStart : Prop :=
  (∀ (s t : State) (st : StationId) (e : Entry) (b : BreakData), s.ListsKept →
    (s.station st).onAirBreak = some (e, b) → t = s.serveBreak st →
    (∀ (i : Nat) (p : Spot) (q : Planned), b.nextSpot = some (i, p) → p.served = .none → p.planned = some q →
      (b.fillState ≠ .waiting ∧ b.fillState ≠ .pending ∨ b.fillServed ≠ .none) →
      (s.plannedReady q = true → s.belowCap st = false → t = s) ∧
      (∀ (x : DirEntry) (v : Nat), s.plannedReady q = true → s.entryAt q.slot = some x → x.state = .ready →
        s.belowCap st = true → (∀ u : StationId, (s.station u).requests = []) →
        (b.spotOnAir = none ∧ v = 0 ∨ ∃ (k : Nat) (y : Spot) (d : DeckId) (z : DirEntry),
          b.spotOnAir = some (k, y) ∧ y.served = .deck d ∧ s.playerEntry (s.deck d).player = some z ∧
          v = z.trimOut - (s.deck d).player.playPos) →
        ((∀ d : DeckId, (s.deck d).player.state ≠ .free) → t.decks = s.decks ∧
          (t.station st).requests = [⟨.spot e.id i, q.slot, false, s.requestKey st (s.stationTime st + v)⟩] ∧
          (t.station st).find e.id = some { e with
            body := .brk { b with spots := b.spots.modify i fun y => { y with served := .waiting } } }) ∧
        ∀ d : DeckId, (s.deck d).player.state = .free → (∀ o : DeckId, o < d → (s.deck o).player.state ≠ .free) →
          (t.deck d).station = some st ∧ (t.deck d).target = some (.spot e.id i) ∧
          (t.deck d).player.state = .bound ∧ (t.deck d).player.slot = some q.slot ∧
          (t.deck d).player.looping = false ∧ (t.station st).requests = [] ∧
          (t.station st).find e.id = some { e with
            body := .brk { b with
              spots := b.spots.modify i fun y => { y with served := .deck d, state := y.state.armedBy } } } ∧
          ∀ o : DeckId, o ≠ d → t.deck o = s.deck o) ∧
      (s.plannedReady q = false → (∃ (y : Entry) (c : BreakData), (t.station st).find e.id = some y ∧
          y.body = .brk c ∧ (c.spots[i]?).map Spot.state = some .done ∧ b.gap + q.effective ≤ c.gap) ∧
        ((s.station st).fault = none → (t.station st).fault.map (fun f => (f.cause, f.entryId, f.cart, f.time)) =
          some (.missing, e.id, p.cart, s.stationTime st)))) ∧
    (b.nextSpot.isSome = false → b.gap = 0 → b.fillState = .none → t = s) ∧
    (b.nextSpot.isSome = false → 0 < b.gap → b.fillResolved = false → b.fillServed = .none →
      ((∀ (c : Nat) (x : DirEntry), (b.fillCart <|> (s.station st).cfg.fillCart) = some c →
          s.lookup st c = some x → x.category ≠ .bed) →
        t.decks = s.decks ∧ (t.station st).requests = (s.station st).requests ∧
        (t.cond (stationSet st)).pending = (s.cond (stationSet st)).pending ||| 0x04 ∧
        ∃ (y : Entry) (c : BreakData), (t.station st).find e.id = some y ∧ y.body = .brk c ∧
          c.fillState = .absent ∧ c.fillResolved = true) ∧
      ∀ (c : Nat) (x : DirEntry) (f : BreakData), (b.fillCart <|> (s.station st).cfg.fillCart) = some c →
        s.lookup st c = some x → x.category = .bed → s.plannedReady x.planned = true →
        f = { b with
          fillResolved := true
          fillUsed := some c
          fillState := .waiting
          fillPlanned := some ⟨x.slot, x.serial, x.owner, x.category, x.level, x.trimOut - x.trimIn⟩ } →
        (s.belowCap st = false → (t.station st).find e.id = some { e with body := .brk f } ∧ t.decks = s.decks ∧
          t.conds = s.conds ∧ (t.station st).requests = (s.station st).requests) ∧
        (s.belowCap st = true → (∀ u : StationId, (s.station u).requests = []) →
          (∀ d : DeckId, (s.deck d).player.state ≠ .free) → t.conds = s.conds ∧ t.decks = s.decks ∧
          (t.station st).find e.id = some { e with body := .brk { f with fillServed := .waiting } } ∧
          (t.station st).requests.map (fun r => (r.target, r.slot, r.looping)) = [(.fill e.id, x.slot, true)] ∧
          (b.spotOnAir = none →
            (t.station st).requests.map DeckRequest.key = [s.requestKey st (s.stationTime st)]) ∧
          ∀ (k : Nat) (y : Spot) (d : DeckId) (z : DirEntry), b.spotOnAir = some (k, y) → y.served = .deck d →
            s.playerEntry (s.deck d).player = some z → (t.station st).requests.map DeckRequest.key =
              [s.requestKey st (s.stationTime st + (z.trimOut - (s.deck d).player.playPos))]))) ∧
  (∀ (s t : State) (st : StationId) (e : Entry) (b : BreakData) (i : Nat) (p : Spot), s.ListsKept →
    (s.station st).find e.id = some e → e.body = .brk b → b.spots[i]? = some p → t = s.spotMissing st e b i p →
    (∃ c : BreakData, (t.station st).find e.id = some { e with body := .brk c } ∧ c.gap = b.gap + p.includedLength ∧
      c.spots = b.spots.modify i fun q => { q with state := .done, served := .none }) ∧
    (s.opening = true → t.asrun = s.asrun ∧ t.recordsHeld = placeRecord i
      { seq := 0, station := st, entryId := e.id, spotRef := some p.ref, cart := p.cart,
        used := p.planned.map fun y => ⟨y.owner, y.category⟩, scheduled := some (b.spotSchedule e.dueTime i p),
        startTime := s.stationTime st, endTime := s.stationTime st, aired := 0, outcome := .missing, stalls := 0,
        mediaErrors := 0, lateness := none } s.recordsHeld) ∧
    (s.opening = false → s.recordsHeld = [] → (∀ d : DeckId, (s.deck d).player.ended = none) → s.logAccepts = true →
      t.recordsHeld = [] ∧ (t.asrun.drop s.asrun.length).map Record.airing =
        [(.missing, st, e.id, some p.ref, p.cart, s.stationTime st, s.stationTime st, 0)]) ∧
    ((s.station st).fault = none → (t.station st).fault = some ⟨.missing, e.id, p.cart, s.stationTime st, false⟩) ∧
    (t.station st).dirty = true ∧ t.decks = s.decks ∧ t.beds = s.beds ∧ t.media = s.media ∧
    ∀ r : DeckRequest, r.target = .spot e.id i → e.state = .onAir → s.deadRequest st r = State.spotMissing
      (s.modStation st fun x => { x with requests := x.requests.erase r, dirty := true }) st e b i p) ∧
  ∀ (s : State) (st : StationId) (e : Entry) (b : BreakData) (d : DeckId), s.InOpening → s.ListsKept →
    (s.station st).onAirBreak = some (e, b) → s.stationTime st < e.endTime → b.spotOnAir = none →
    (∀ (i : Nat) (p : Spot) (q : Planned), b.nextSpot = some (i, p) → p.planned = some q → p.served = .deck d →
      (s.deck d).player.state = .primed →
      ∃ t : State, exec (.spotStart st) s = .next t.settlePool ∧
        t.deck d = { s.deck d with
          player := { (s.deck d).player with state := .playing, level := q.level, ramp := ⟨32768, 32768, 0, 0⟩ } } ∧
        (∃ (y : Entry) (c : BreakData), (t.station st).find e.id = some y ∧ y.body = .brk c ∧
          c.spots[i]? = some { p with state := .onAir, startTime := s.stationTime st } ∧
          ∀ j : Nat, j ≠ i → c.spots[j]? = b.spots[j]?) ∧
        (∀ q : DeckId, q ≠ d → t.deck q = s.deck q) ∧ t.beds = s.beds ∧ t.dir = s.dir ∧ t.asrun = s.asrun ∧
        t.media = s.media ∧ ∀ u : StationId, u ≠ st → t.station u = s.station u) ∧
    (∀ q : Planned, b.nextSpot = none → (b.fillState = .waiting ∨ b.fillState = .armed ∨ b.fillState = .pending) →
      b.fillPlanned = some q → b.fillServed = .deck d → (s.deck d).player.state = .primed →
      ∃ t : State, exec (.fillStart st) s = .next t.settlePool ∧
        (t.deck d).player.level = q.level ∧
        (s.stationTime st + (s.station st).cfg.breakFade < e.endTime →
          (t.deck d).player.state = .playing ∧ (t.deck d).player.ramp = ⟨32768, 32768, 0, 0⟩) ∧
        (e.endTime ≤ s.stationTime st + (s.station st).cfg.breakFade →
          (t.deck d).player.state = .fading ∧
            (t.deck d).player.ramp = ⟨32768, 0, e.endTime - s.stationTime st, 0⟩) ∧
        (∃ y : Entry, (t.station st).find e.id = some y ∧
          y.body = .brk { b with fillState := .onAir, fillStart := s.stationTime st }) ∧
        (∀ q : DeckId, q ≠ d → t.deck q = s.deck q) ∧ t.beds = s.beds ∧ t.dir = s.dir ∧ t.asrun = s.asrun ∧
        t.media = s.media ∧ ∀ u : StationId, u ≠ st → t.station u = s.station u) ∧
    (b.fillState = .onAir → b.fillServed = .deck d → (s.deck d).player.state = .playing →
      e.endTime ≤ s.stationTime st + (s.station st).cfg.breakFade →
      exec (.fillClosingFade st) s = .next (s.modPlayer d fun p =>
        { p with
          state := .fading
          ramp := ⟨p.ramp.value, 0, e.endTime - s.stationTime st, 0⟩ }).settlePool)

/-- R127, R129, R132: a break closes as its end is reached: it leaves the list, a spot on air is cut and its deck
trails, the INCLUDED spots that have not started are DROPPED and recorded in spot order, and BREAK_GAP stands if a fill
that has not started was due, and comes to stand for nothing else. That these records are held back until the period's
ends of play are known is the model's choice (assumption 25). -/
def Obligations.BreakCloses : Prop :=
  ∀ (s : State) (st : StationId) (e : Entry) (b : BreakData), s.InOpening → s.ListsKept →
    (s.station st).onAirBreak = some (e, b) → e.endTime ≤ s.stationTime st →
    ∃ t : State, exec (.breakClose st) s = .next t.settlePool ∧ (t.station st).find e.id = none ∧
      (t.station st).list.map Entry.frame = ((s.station st).list.filter fun y => y.id != e.id).map Entry.frame ∧
      t.asrun = s.asrun ∧
      ((b.fillState = .waiting ∨ b.fillState = .armed ∨ b.fillState = .pending) →
        (b.fillDue = true ∨ b.fillState = .pending) → (t.cond (stationSet st)).pending &&& 0x04 = 0x04) ∧
      (((b.fillState = .waiting ∨ b.fillState = .armed) → b.fillDue = false) → b.fillState ≠ .pending →
        (∀ u : StationId, (s.station u).requests = []) →
        (t.cond (stationSet st)).pending &&& 0x04 = (s.cond (stationSet st)).pending &&& 0x04) ∧
      ((∀ u : StationId, (s.station u).requests = []) →
        (∀ x ∈ s.recordsHeld, x.2.station ≠ st ∨ x.2.entryId ≠ e.id) →
        t.recordsHeld = s.recordsHeld ++ ((b.spots.zipIdx.filter fun x => x.1.remains).map fun x => (some x.2,
          { seq := 0, station := st, entryId := e.id, spotRef := some x.1.ref, cart := x.1.cart,
            used := x.1.planned.map fun y => ⟨y.owner, y.category⟩, scheduled := some (b.spotSchedule e.dueTime x.2 x.1),
            startTime := s.stationTime st, endTime := s.stationTime st, aired := 0, outcome := .dropped, stalls := 0,
            mediaErrors := 0, lateness := none }))) ∧
      (∀ (i : Nat) (p : Spot) (d : DeckId), b.spotOnAir = some (i, p) → p.served = .deck d →
        (s.deck d).player.sounds = true → (s.deck d).target = some (.spot e.id i) → (s.deck d).station = some st →
        (∀ j : Nat, ∀ q : Spot, j ≠ i → b.spots[j]? = some q → q.served ≠ .deck d) → b.fillServed ≠ .deck d →
        (t.deck d).player.ramp.target = 0 ∧ (t.deck d).station = some st ∧
        (t.deck d).target.map Target.entryId = some e.id) ∧
      t.beds = s.beds ∧ t.media = s.media ∧ t.house = s.house

/-! ## Players and the media port -/

/-- R37, R93, R124, R128, R130, R132, R43, R42, R145: at the close of a period in which a deck's play ended, its record
is made, with the period after its last pair as its end time, and the deck is FREE: an item's entry leaves, a break's
spot or fill is DONE, and a deck that trails its break changes no entry; a bed player's airing is recorded, and an
airing that reaches trim-out with the station in FALLBACK spends it, by the mode in force as the end is handled (the
model's choice, assumption 64); a PRIMED bed that is wanted starts at its entry's level with no fade. A record goes
behind those held back, a spot's or fill's to its place among them, and what then waits for no end of play reaches the
log: the model's choice (assumption 25). -/
def Obligations.PlaysEnd : Prop :=
  (∀ (s : State) (d : DeckId) (st : StationId) (c : EndCause) (e : Entry), s.AtRest → s.ListsKept →
    (∀ u : StationId, (s.station u).requests = []) → (s.deck d).player.ended = some c → (s.deck d).station = some st →
    (s.deck d).target = some (.item e.id) → (s.station st).find e.id = some e →
    ∃ t : State, exec (.deckEndOfPlay d) s = .next t.release.settlePool ∧ (t.deck d).player.state = .free ∧
      (t.deck d).station = none ∧ (t.station st).find e.id = none ∧
      (∀ r : Record, r =
        { seq := 0, station := st, entryId := e.id, spotRef := none, cart := e.cart,
          used := usedOf (s.playerEntry (s.deck d).player),
          scheduled := (if e.startKind = .hard then some e.dueTime else none), startTime := e.startTime,
          endTime := (s.deck d).player.stalling.getD (s.nextTime st), aired := (s.deck d).player.consumed,
          outcome := (if c = .faded ∧ e.cut = true then .cut else .complete), stalls := (s.deck d).player.stalls,
          mediaErrors := (s.deck d).player.mediaErrors, lateness := e.lateness } →
        (s.recordsHeld = [] → s.logAccepts = true →
          t.asrun = s.asrun ++ [{ r with seq := s.nextSeq }] ∧ t.recordsHeld = []) ∧
        (s.recordsHeld ≠ [] → t.asrun = s.asrun ∧ t.recordsHeld = s.recordsHeld ++ [(none, r)])) ∧
      (∀ q : DeckId, q ≠ d → t.deck q = s.deck q) ∧ t.beds = s.beds ∧ t.media = s.media ∧ t.house = s.house ∧
      ∀ u : StationId, u ≠ st → t.station u = s.station u) ∧
  (∀ (s : State) (d : DeckId) (st : StationId) (c : EndCause), s.AtRest → s.ListsKept →
    (∀ u : StationId, (s.station u).requests = []) → (s.deck d).player.ended = some c → (s.deck d).station = some st →
    (∀ (e : Entry) (b : BreakData) (i : Nat) (p : Spot), (s.deck d).target = some (.spot e.id i) →
      (s.station st).find e.id = some e → e.body = .brk b → b.spots[i]? = some p →
      ∃ t : State, exec (.deckEndOfPlay d) s = .next t.release.settlePool ∧ (t.deck d).player.state = .free ∧
        (t.deck d).station = none ∧
        (t.station st).find e.id = some { e with
          body := .brk { b with spots := b.spots.modify i fun q => { q with state := .done, served := .none } } } ∧
        t.recordsHeld = placeRecord i
          { seq := 0, station := st, entryId := e.id, spotRef := some p.ref, cart := p.cart,
            used := usedOf (s.playerEntry (s.deck d).player), scheduled := some (b.plannedStart i),
            startTime := p.startTime, endTime := (s.deck d).player.stalling.getD (s.nextTime st),
            aired := (s.deck d).player.consumed, outcome := (if p.cut = true then .cut else .complete),
            stalls := (s.deck d).player.stalls, mediaErrors := (s.deck d).player.mediaErrors,
            lateness := some ((p.startTime : Int) - (b.plannedStart i : Int)) } s.recordsHeld ∧
        t.asrun = s.asrun ∧ (∀ q : DeckId, q ≠ d → t.deck q = s.deck q) ∧ t.beds = s.beds ∧ t.media = s.media ∧
        t.house = s.house ∧ ∀ u : StationId, u ≠ st → t.station u = s.station u) ∧
    (∀ (e : Entry) (b : BreakData), (s.deck d).target = some (.fill e.id) → (s.station st).find e.id = some e →
      e.body = .brk b →
      ∃ t : State, exec (.deckEndOfPlay d) s = .next t.release.settlePool ∧ (t.deck d).player.state = .free ∧
        (t.deck d).station = none ∧
        (t.station st).find e.id = some { e with body := .brk { b with fillState := .done, fillServed := .none } } ∧
        t.recordsHeld = placeRecord b.spots.length
          { seq := 0, station := st, entryId := e.id, spotRef := none, cart := b.fillUsed.getD 0,
            used := usedOf (s.playerEntry (s.deck d).player), scheduled := none, startTime := b.fillStart,
            endTime := (s.deck d).player.stalling.getD (s.nextTime st), aired := (s.deck d).player.consumed,
            outcome := .fill, stalls := (s.deck d).player.stalls, mediaErrors := (s.deck d).player.mediaErrors,
            lateness := none } s.recordsHeld ∧
        t.asrun = s.asrun ∧ (∀ q : DeckId, q ≠ d → t.deck q = s.deck q) ∧ t.beds = s.beds ∧ t.media = s.media ∧
        t.house = s.house ∧ ∀ u : StationId, u ≠ st → t.station u = s.station u) ∧
    ∀ (tr : Trail) (fill : Bool),
      (s.deck d).target = some (if fill = true then .trailFill tr else .trailSpot tr) →
      ∃ t : State, exec (.deckEndOfPlay d) s = .next t.release.settlePool ∧ (t.deck d).player.state = .free ∧
        (t.deck d).station = none ∧ (t.station st).list = (s.station st).list ∧
        t.recordsHeld = placeRecord tr.index
          { seq := 0, station := st, entryId := tr.entryId, spotRef := tr.spotRef, cart := tr.cart,
            used := usedOf (s.playerEntry (s.deck d).player), scheduled := tr.scheduled, startTime := tr.startTime,
            endTime := (s.deck d).player.stalling.getD (s.nextTime st), aired := (s.deck d).player.consumed,
            outcome := (if fill = true then .fill else if tr.cut = true then .cut else .complete),
            stalls := (s.deck d).player.stalls, mediaErrors := (s.deck d).player.mediaErrors, lateness := tr.lateness }
          s.recordsHeld ∧
        t.asrun = s.asrun ∧ (∀ q : DeckId, q ≠ d → t.deck q = s.deck q) ∧ t.beds = s.beds ∧ t.media = s.media ∧
        t.house = s.house ∧ ∀ u : StationId, u ≠ st → t.station u = s.station u) ∧
  (∀ (i : Nat) (r : Record) (l : List (Option Nat × Record)) (places : List (Option Nat × Record) → List Nat),
    places = (fun l => l.filterMap fun x => if x.2.station = r.station ∧ x.2.entryId = r.entryId then x.1 else none) →
    ((placeRecord i r l).Perm ((some i, r) :: l)) ∧
    ((places l).Pairwise (· ≤ ·) → (places (placeRecord i r l)).Pairwise (· ≤ ·)) ∧
    ((∀ k ∈ places l, k ≤ i) → placeRecord i r l = l ++ [(some i, r)])) ∧
  (∀ (s : State) (st : StationId) (c : EndCause), s.AtRest → (s.bed st).player.ended = some c →
    ∃ t : State, exec (.bedPlayerEnd st) s = .next t ∧
      (c = .trimOut → (s.station st).mode = .fallback → (t.bed st).spent = true ∧ (t.bed st).player.state = .free) ∧
      (t.bed st).airWanted = (s.bed st).airWanted ∧
      (s.logAccepts = true → t.records.take s.records.length = s.records ∧
        (t.records.drop s.records.length).map (fun r => (r.station, r.outcome, r.endTime, r.aired)) =
          [(st, .fallback, (s.bed st).player.stalling.getD (s.nextTime st), (s.bed st).player.consumed)] ∧
        (s.recordsHeld = [] → t.recordsHeld = [])) ∧
      t.decks = s.decks ∧ t.stations = s.stations ∧ t.media = s.media ∧ ∀ u : StationId, u ≠ st → t.bed u = s.bed u) ∧
  ∀ (s : State) (st : StationId) (y : DirEntry), s.InOpening → (s.bed st).player.state = .primed →
    (s.bed st).airWanted = true → s.playerEntry (s.bed st).player = some y →
    exec (.bedPlayerStart st) s = .next (s.setBed st
      { s.bed st with
        player := { (s.bed st).player with state := .playing, level := y.level, ramp := ⟨32768, 32768, 0, 0⟩ }
        airWanted := false
        startTime := s.stationTime st
        lateness := (s.house - (s.station st).stayStart.getD s.house).toNat }).settlePool

/-- R29, R30, R31: a fetch begins on an idle port for the claiming reader that has the fewest pairs buffered, the lowest
number first; it moves up to 2,048 pairs that follow one another in one block, and no pair beyond the stop point. -/
def Obligations.FetchBegins : Prop :=
  (∀ (s : State) (rd : Reader), s.chosenReader = some rd ↔ ∃ i : Nat, allReaders[i]? = some rd ∧ s.claims rd = true ∧
    ∀ (j : Nat) (o : Reader), allReaders[j]? = some o → s.claims o = true →
      (s.reader rd).buffer.length < (s.reader o).buffer.length ∨
        (s.reader rd).buffer.length = (s.reader o).buffer.length ∧ i ≤ j) ∧
  (∀ (s : State) (rd : Reader) (e : DirEntry) (a : Nat), s.AtRest → s.port = .idle → s.chosenReader = some rd →
    s.playerEntry (s.reader rd) = some e → e.place (s.reader rd).fetchPos = some a →
    exec .fetchBegin s = .next
      { (s.modReader rd fun p => { p with fetchPos := nextFetch p e (fetchCount p e) }) with
        port := .fetch ⟨rd, (s.reader rd).generation, a, fetchCount (s.reader rd) e, false⟩ }) ∧
  (∀ s : State, s.AtRest → (s.port ≠ .idle ∨ s.chosenReader = none) → exec .fetchBegin s = .next s) ∧
  ∀ (p : Player) (e : DirEntry), fetchCount p e ≤ 2048 ∧
    (∀ a i : Nat, e.place p.fetchPos = some a → i < fetchCount p e → e.place (p.fetchPos + i) = some (a + i)) ∧
    (p.fetchPos ≤ stopPoint p e → p.fetchPos + fetchCount p e ≤ stopPoint p e)

/-- R32, R33, R44: a fetch that completes for a reader still bound under its generation brings its pairs in order, zeros
on a media error, and primes a BOUND player whose buffer has reached the threshold; another brings nothing. That the
fault of a fetch which completes between two periods carries the station time of the period last begun is the model's
choice (assumption 56). -/
def Obligations.FetchCompletes : Prop :=
  ∀ (s : State) (f : Fetch), s.AtRest → s.port = .fetch f →
    (f.void = true ∨ (s.reader f.reader).state = .free ∨ (s.reader f.reader).generation ≠ f.generation →
      ∀ err : Bool, exec (.fetchComplete err) s = .next { s with port := .idle }) ∧
    (∀ e : DirEntry, f.void = false → (s.reader f.reader).state ≠ .free →
      (s.reader f.reader).generation = f.generation → s.playerEntry (s.reader f.reader) = some e →
      exec (.fetchComplete false) s = .next (State.modReader { s with port := .idle } f.reader fun p =>
        { p with
          buffer := p.buffer ++ readPairs s.media f.place f.count
          state :=
            if p.state = .bound ∧
                (if p.looping then 4096 else min 4096 (e.trimOut - p.playPos)) ≤ p.buffer.length + f.count then .primed
            else p.state }) ∧
      ∃ t : State, exec (.fetchComplete true) s = .next t ∧ t.port = .idle ∧
        (t.reader f.reader).buffer = (s.reader f.reader).buffer ++ List.replicate f.count Pair.zero ∧
        (t.reader f.reader).mediaErrors = (s.reader f.reader).mediaErrors + 1 ∧ t.media = s.media ∧
        (∀ rd : Reader, rd ≠ f.reader → t.reader rd = s.reader rd) ∧
        ∀ st : StationId, (f.reader = .bed st ∨ ∃ d : DeckId, f.reader = .deck d ∧ (s.deck d).station = some st) →
          (s.station st).fault = none →
          (t.station st).fault.map (fun x => (x.cause, x.cart, x.time, x.further)) =
            some (.mediaError, e.cart, s.stationTime st, false))

/-- R26: the deck arbiter chooses a request with the smallest key; of those the lowest station's, and of those the
earliest; and it gives the lowest-numbered FREE deck. -/
def Obligations.DeckArbiter : Prop :=
  (∀ (s : State) (st : StationId) (r : DeckRequest), s.bestRequest = some (st, r) →
    ∃ i : Nat, (s.station st).requests[i]? = some r ∧
      ∀ (u : StationId) (j : Nat) (q : DeckRequest), (s.station u).requests[j]? = some q →
        r.key < q.key ∨ r.key = q.key ∧ (st < u ∨ st = u ∧ i ≤ j)) ∧
  (∀ s : State, s.bestRequest = none ↔ ∀ u : StationId, (s.station u).requests = []) ∧
  ∀ (s : State) (d : DeckId), s.freeDeckNo = some d ↔
    (s.deck d).player.state = .free ∧ ∀ q : DeckId, q < d → (s.deck q).player.state ≠ .free

/-! ## The mix -/

/-- R48: the value of a ramp at every progress, its bounds, its direction, and the straight line it follows. -/
def Obligations.RampValue : Prop :=
  ∀ r : Ramp, r.start ≤ 32768 → r.target ≤ 32768 → r.length ≤ 480000 →
    let at' := fun k : Nat => (Ramp.value { r with progress := k } : Int)
    (∀ k : Nat, k ≤ r.length → 0 < r.length →
      at' k = (r.start : Int) + (((r.target : Int) - (r.start : Int)) * (k : Int)).tdiv (r.length : Int)) ∧
    (∀ k : Nat, r.length ≤ k → at' k = (r.target : Int)) ∧ (r.length = 0 → at' 0 = (r.target : Int)) ∧
    (∀ k : Nat, 0 ≤ at' k ∧ at' k ≤ 32768 ∧ min (r.start : Int) r.target ≤ at' k ∧
      at' k ≤ max (r.start : Int) r.target) ∧
    (∀ j k : Nat, j ≤ k → (r.start ≤ r.target → at' j ≤ at' k) ∧ (r.target ≤ r.start → at' k ≤ at' j)) ∧
    (∀ k : Nat, k ≤ r.length →
      (r.start ≤ r.target →
        at' k * (r.length : Int) ≤ (r.start : Int) * r.length + ((r.target : Int) - (r.start : Int)) * (k : Int) ∨
          r.length = 0) ∧
      (r.target ≤ r.start →
        (r.start : Int) * r.length + ((r.target : Int) - (r.start : Int)) * (k : Int) ≤ at' k * (r.length : Int) ∨
          r.length = 0)) ∧
    (r.start = r.target → ∀ k : Nat, at' k = (r.start : Int))

/-- R51, R52, R53, R55, R56, R57, R58, R59: an effective gain is level times ramp value, floored, and never exceeds
either; a term is the scaled sample, rounded, and never leaves 16 bits; a bus is the sum of the terms of the decks that
sound and are the station's, and of its bed player where that sounds; a station's output is its bus scaled, rounded and
saturated, the mono sum its floored mean, and quiet is judged by the threshold; a channel that saturates counts one clip
and raises CLIP; an IDLE station gives zeros. -/
def Obligations.MixedOutput : Prop :=
  (∀ level ramp : Nat, level ≤ 32768 → ramp ≤ 32768 → gain level ramp ≤ min level ramp ∧
    32768 * gain level ramp ≤ level * ramp ∧ level * ramp < 32768 * (gain level ramp + 1) ∧
    (gain level ramp = 32768 ↔ level = 32768 ∧ ramp = 32768)) ∧
  (∀ (s : State) (st : StationId) (terms : Player → Int × Int),
    (∀ p : Player, (p.sounds = false ∨ p.buffer = [] → terms p = (0, 0)) ∧
      ∀ (x : Pair) (rest : List Pair), p.sounds = true → p.buffer = x :: rest → terms p =
        (term x.l.toInt (gain p.level p.ramp.value), term x.r.toInt (gain p.level p.ramp.value))) →
    s.bus st =
      (((allDecks.filter fun d => (s.deck d).station == some st).map fun d => (terms (s.deck d).player).1).sum +
          (terms (s.bed st).player).1,
        ((allDecks.filter fun d => (s.deck d).station == some st).map fun d => (terms (s.deck d).player).2).sum +
          (terms (s.bed st).player).2)) ∧
  (∀ (v : Int) (g : Nat), -32768 ≤ v → v ≤ 32767 → g ≤ 32768 → -32768 ≤ term v g ∧ term v g ≤ 32767 ∧
    term v 32768 = v ∧ 32768 * term v g ≤ v * (g : Int) + 16384 ∧ v * (g : Int) + 16384 < 32768 * (term v g + 1)) ∧
  ∀ (s t : State) (st : StationId), t = s.mixStation st →
    ((s.station st).mode = .idle → (t.station st).out = ⟨0, 0, 0, true⟩ ∧ (t.station st).clips = (s.station st).clips) ∧
    ((s.station st).mode ≠ .idle → ∀ vl vr : Int,
      vl = ((s.bus st).1 * ((s.station st).cfg.outLevel : Int) + 16384) / 32768 →
      vr = ((s.bus st).2 * ((s.station st).cfg.outLevel : Int) + 16384) / 32768 →
      (t.station st).out.l.toInt = max (-32768) (min 32767 vl) ∧
      (t.station st).out.r.toInt = max (-32768) (min 32767 vr) ∧
      2 * (t.station st).out.m.toInt ≤ (t.station st).out.l.toInt + (t.station st).out.r.toInt ∧
      (t.station st).out.l.toInt + (t.station st).out.r.toInt < 2 * (t.station st).out.m.toInt + 2 ∧
      ((t.station st).out.quiet = true ↔
        (t.station st).out.l.toInt.natAbs ≤ (s.station st).cfg.threshold ∧
          (t.station st).out.r.toInt.natAbs ≤ (s.station st).cfg.threshold) ∧
      ((vl < -32768 ∨ 32767 < vl ∨ vr < -32768 ∨ 32767 < vr) →
        (t.station st).clips = Count32.succHold (s.station st).clips ∧
          (t.cond (stationSet st)).pending &&& 0x20 = 0x20) ∧
      ((-32768 ≤ vl ∧ vl ≤ 32767 ∧ -32768 ≤ vr ∧ vr ≤ 32767) → (t.station st).clips = (s.station st).clips)) ∧
    t.decks = s.decks ∧ t.beds = s.beds ∧ ∀ u : StationId, u ≠ st → t.station u = s.station u

/-- R34, R35, R37, R49: one period of a deck that sounds. It consumes its oldest pair, or stalls on an empty buffer with
an UNDERRUN fault at the first of a run; its ramp goes on either way, and its play ends at trim-out or with its fade. A
deck that does not sound is left alone. -/
def Obligations.PlayersStep : Prop :=
  ∀ (s : State) (d : DeckId),
    ((s.deck d).player.sounds = false → s.tickDeck d = s) ∧
    (∀ e : DirEntry, (s.deck d).player.sounds = true → s.playerEntry (s.deck d).player = some e →
      ((s.tickDeck d).deck d).player.ramp =
        { (s.deck d).player.ramp with progress := min ((s.deck d).player.ramp.progress + 1) 480001 } ∧
      (∀ (x : Pair) (rest : List Pair), (s.deck d).player.buffer = x :: rest →
        ((s.tickDeck d).deck d).player.buffer = rest ∧
        ((s.tickDeck d).deck d).player.consumed = (s.deck d).player.consumed + 1 ∧
        ((s.tickDeck d).deck d).player.stalls = (s.deck d).player.stalls ∧
        ((s.tickDeck d).deck d).player.stalling = none ∧
        ((s.deck d).player.looping = false →
          ((s.tickDeck d).deck d).player.playPos = (s.deck d).player.playPos + 1 ∧
          ((s.deck d).player.playPos + 1 = e.trimOut → ((s.tickDeck d).deck d).player.ended = some .trimOut)) ∧
        (∀ l : Loop, (s.deck d).player.looping = true → e.loop = some l → (s.deck d).player.playPos + 1 = l.stop →
          ((s.tickDeck d).deck d).player.playPos = l.first) ∧
        (((s.deck d).player.looping = true ∨ (s.deck d).player.playPos + 1 ≠ e.trimOut) →
          ((s.tickDeck d).deck d).player.ended =
            if (s.deck d).player.state = .fading ∧ (s.deck d).player.ramp.length ≤ (s.deck d).player.ramp.progress then
              some .faded
            else none)) ∧
      ((s.deck d).player.buffer = [] →
        ((s.tickDeck d).deck d).player.stalls = (s.deck d).player.stalls + 1 ∧
        ((s.tickDeck d).deck d).player.consumed = (s.deck d).player.consumed ∧
        ((s.tickDeck d).deck d).player.playPos = (s.deck d).player.playPos ∧
        (∀ st : StationId, (s.deck d).station = some st →
          ((s.tickDeck d).deck d).player.stalling = some ((s.deck d).player.stalling.getD (s.stationTime st))) ∧
        ∀ st : StationId, (s.deck d).station = some st → (s.station st).fault = none →
          ((s.tickDeck d).station st).fault.map (fun f => (f.cause, f.cart, f.time)) =
            if (s.deck d).player.stalling.isSome then none else some (.underrun, e.cart, s.stationTime st))) ∧
    (∀ q : DeckId, q ≠ d → (s.tickDeck d).deck q = s.deck q) ∧ (s.tickDeck d).beds = s.beds ∧
    (s.tickDeck d).dir = s.dir ∧ (s.tickDeck d).media = s.media ∧ (s.tickDeck d).asrun = s.asrun

/-! ## What every step keeps -/

/-- R75, R76, R78: re-evaluations of arming candidates leave every deck that is not FREE, the bed players, the modes,
the settings, the takes and times of every station, each entry's place and times, the directory but for binding counts,
and the reference controller and the links as they are. -/
def Obligations.ReevaluationsLeave : Prop := ∀ s : State, Reevaluated s s.settlePool

/-- R148, R21, R14: over every step the house counter stands, or rises by one with a command that ends a sample period,
or starts again at 0 with a power-on reset; and the media memory changes only as an upload's write completes, or with a
power-on reset (that a power-on reset leaves no byte written is the model's choice, assumption 2). -/
def Obligations.HouseAndMedia : Prop :=
  ∀ (s t : State) (c : Instr) (rest : List Instr), s.pending = c :: rest → step s = .next t →
    (t.house = s.house ∨ c.endsPeriod = true ∧ t.house = s.house + 1 ∨
      (∃ straps : Fin 4, c = .powerOnReset straps) ∧ t.house = 0) ∧
    (t.media = s.media ∨ c = .writeComplete ∨ (∃ straps : Fin 4, c = .powerOnReset straps) ∧ t.media = [])

/-- R1, R2, R3, R25, R62, R68, R86, R152, R155, R175, R177, R182, R194, R202: every step keeps each of the invariants,
from every state that has it. -/
def Obligations.InvariantsKept : Prop :=
  ∀ s t : State, step s = .next t →
    (s.AsrunKept → t.AsrunKept) ∧ (s.QueueBounded → t.QueueBounded) ∧ (s.MediaCanonical → t.MediaCanonical) ∧
    (s.Capped → t.Capped) ∧ (s.ListsKept → t.ListsKept) ∧ (s.DirectoryKept → t.DirectoryKept) ∧
    (s.NoticesKept → t.NoticesKept) ∧ (s.SettingsKept → t.SettingsKept) ∧ (s.ref.Kept → t.ref.Kept) ∧
    (s.ref.Kept → s.LinksKept → t.LinksKept)
end

