-- ==== Sys2Proof/Laws/State.lean ====
section
/-!
SUPPORT. One lemma per field per named update of State, so that no later proof unfolds a record update.
-/

namespace Sys2Proof.Machine

/-! ### setStation -/

@[simp] theorem State.setStation_pending (s : State) (st : StationId) (x : Station) :
    (s.setStation st x).pending = s.pending := rfl
@[simp] theorem State.setStation_inReset (s : State) (st : StationId) (x : Station) :
    (s.setStation st x).inReset = s.inReset := rfl
@[simp] theorem State.setStation_straps (s : State) (st : StationId) (x : Station) :
    (s.setStation st x).straps = s.straps := rfl
@[simp] theorem State.setStation_rx (s : State) (st : StationId) (x : Station) :
    (s.setStation st x).rx = s.rx := rfl
@[simp] theorem State.setStation_badMessages (s : State) (st : StationId) (x : Station) :
    (s.setStation st x).badMessages = s.badMessages := rfl
@[simp] theorem State.setStation_queue (s : State) (st : StationId) (x : Station) :
    (s.setStation st x).queue = s.queue := rfl
@[simp] theorem State.setStation_handler (s : State) (st : StationId) (x : Station) :
    (s.setStation st x).handler = s.handler := rfl
@[simp] theorem State.setStation_inHand (s : State) (st : StationId) (x : Station) :
    (s.setStation st x).inHand = s.inHand := rfl
@[simp] theorem State.setStation_sending (s : State) (st : StationId) (x : Station) :
    (s.setStation st x).sending = s.sending := rfl
@[simp] theorem State.setStation_txOrder (s : State) (st : StationId) (x : Station) :
    (s.setStation st x).txOrder = s.txOrder := rfl
@[simp] theorem State.setStation_behind (s : State) (st : StationId) (x : Station) :
    (s.setStation st x).behind = s.behind := rfl
@[simp] theorem State.setStation_media (s : State) (st : StationId) (x : Station) :
    (s.setStation st x).media = s.media := rfl
@[simp] theorem State.setStation_freeBlocks (s : State) (st : StationId) (x : Station) :
    (s.setStation st x).freeBlocks = s.freeBlocks := rfl
@[simp] theorem State.setStation_dir (s : State) (st : StationId) (x : Station) :
    (s.setStation st x).dir = s.dir := rfl
@[simp] theorem State.setStation_reclaim (s : State) (st : StationId) (x : Station) :
    (s.setStation st x).reclaim = s.reclaim := rfl
@[simp] theorem State.setStation_opens (s : State) (st : StationId) (x : Station) :
    (s.setStation st x).opens = s.opens := rfl
@[simp] theorem State.setStation_decks (s : State) (st : StationId) (x : Station) :
    (s.setStation st x).decks = s.decks := rfl
@[simp] theorem State.setStation_beds (s : State) (st : StationId) (x : Station) :
    (s.setStation st x).beds = s.beds := rfl
@[simp] theorem State.setStation_port (s : State) (st : StationId) (x : Station) :
    (s.setStation st x).port = s.port := rfl
@[simp] theorem State.setStation_claim (s : State) (st : StationId) (x : Station) :
    (s.setStation st x).claim = s.claim := rfl
@[simp] theorem State.setStation_deferred (s : State) (st : StationId) (x : Station) :
    (s.setStation st x).deferred = s.deferred := rfl
@[simp] theorem State.setStation_house (s : State) (st : StationId) (x : Station) :
    (s.setStation st x).house = s.house := rfl
@[simp] theorem State.setStation_periodStart (s : State) (st : StationId) (x : Station) :
    (s.setStation st x).periodStart = s.periodStart := rfl
@[simp] theorem State.setStation_opening (s : State) (st : StationId) (x : Station) :
    (s.setStation st x).opening = s.opening := rfl
@[simp] theorem State.setStation_ref (s : State) (st : StationId) (x : Station) :
    (s.setStation st x).ref = s.ref := rfl
@[simp] theorem State.setStation_linkA (s : State) (st : StationId) (x : Station) :
    (s.setStation st x).linkA = s.linkA := rfl
@[simp] theorem State.setStation_linkB (s : State) (st : StationId) (x : Station) :
    (s.setStation st x).linkB = s.linkB := rfl
@[simp] theorem State.setStation_asrun (s : State) (st : StationId) (x : Station) :
    (s.setStation st x).asrun = s.asrun := rfl
@[simp] theorem State.setStation_nextSeq (s : State) (st : StationId) (x : Station) :
    (s.setStation st x).nextSeq = s.nextSeq := rfl
@[simp] theorem State.setStation_wrapHold (s : State) (st : StationId) (x : Station) :
    (s.setStation st x).wrapHold = s.wrapHold := rfl
@[simp] theorem State.setStation_recordsHeld (s : State) (st : StationId) (x : Station) :
    (s.setStation st x).recordsHeld = s.recordsHeld := rfl
@[simp] theorem State.setStation_conds (s : State) (st : StationId) (x : Station) :
    (s.setStation st x).conds = s.conds := rfl

/-! ### modStation -/

@[simp] theorem State.modStation_pending (s : State) (st : StationId) (f : Station → Station) :
    (s.modStation st f).pending = s.pending := rfl
@[simp] theorem State.modStation_inReset (s : State) (st : StationId) (f : Station → Station) :
    (s.modStation st f).inReset = s.inReset := rfl
@[simp] theorem State.modStation_straps (s : State) (st : StationId) (f : Station → Station) :
    (s.modStation st f).straps = s.straps := rfl
@[simp] theorem State.modStation_rx (s : State) (st : StationId) (f : Station → Station) :
    (s.modStation st f).rx = s.rx := rfl
@[simp] theorem State.modStation_badMessages (s : State) (st : StationId) (f : Station → Station) :
    (s.modStation st f).badMessages = s.badMessages := rfl
@[simp] theorem State.modStation_queue (s : State) (st : StationId) (f : Station → Station) :
    (s.modStation st f).queue = s.queue := rfl
@[simp] theorem State.modStation_handler (s : State) (st : StationId) (f : Station → Station) :
    (s.modStation st f).handler = s.handler := rfl
@[simp] theorem State.modStation_inHand (s : State) (st : StationId) (f : Station → Station) :
    (s.modStation st f).inHand = s.inHand := rfl
@[simp] theorem State.modStation_sending (s : State) (st : StationId) (f : Station → Station) :
    (s.modStation st f).sending = s.sending := rfl
@[simp] theorem State.modStation_txOrder (s : State) (st : StationId) (f : Station → Station) :
    (s.modStation st f).txOrder = s.txOrder := rfl
@[simp] theorem State.modStation_behind (s : State) (st : StationId) (f : Station → Station) :
    (s.modStation st f).behind = s.behind := rfl
@[simp] theorem State.modStation_media (s : State) (st : StationId) (f : Station → Station) :
    (s.modStation st f).media = s.media := rfl
@[simp] theorem State.modStation_freeBlocks (s : State) (st : StationId) (f : Station → Station) :
    (s.modStation st f).freeBlocks = s.freeBlocks := rfl
@[simp] theorem State.modStation_dir (s : State) (st : StationId) (f : Station → Station) :
    (s.modStation st f).dir = s.dir := rfl
@[simp] theorem State.modStation_reclaim (s : State) (st : StationId) (f : Station → Station) :
    (s.modStation st f).reclaim = s.reclaim := rfl
@[simp] theorem State.modStation_opens (s : State) (st : StationId) (f : Station → Station) :
    (s.modStation st f).opens = s.opens := rfl
@[simp] theorem State.modStation_decks (s : State) (st : StationId) (f : Station → Station) :
    (s.modStation st f).decks = s.decks := rfl
@[simp] theorem State.modStation_beds (s : State) (st : StationId) (f : Station → Station) :
    (s.modStation st f).beds = s.beds := rfl
@[simp] theorem State.modStation_port (s : State) (st : StationId) (f : Station → Station) :
    (s.modStation st f).port = s.port := rfl
@[simp] theorem State.modStation_claim (s : State) (st : StationId) (f : Station → Station) :
    (s.modStation st f).claim = s.claim := rfl
@[simp] theorem State.modStation_deferred (s : State) (st : StationId) (f : Station → Station) :
    (s.modStation st f).deferred = s.deferred := rfl
@[simp] theorem State.modStation_house (s : State) (st : StationId) (f : Station → Station) :
    (s.modStation st f).house = s.house := rfl
@[simp] theorem State.modStation_periodStart (s : State) (st : StationId) (f : Station → Station) :
    (s.modStation st f).periodStart = s.periodStart := rfl
@[simp] theorem State.modStation_opening (s : State) (st : StationId) (f : Station → Station) :
    (s.modStation st f).opening = s.opening := rfl
@[simp] theorem State.modStation_ref (s : State) (st : StationId) (f : Station → Station) :
    (s.modStation st f).ref = s.ref := rfl
@[simp] theorem State.modStation_linkA (s : State) (st : StationId) (f : Station → Station) :
    (s.modStation st f).linkA = s.linkA := rfl
@[simp] theorem State.modStation_linkB (s : State) (st : StationId) (f : Station → Station) :
    (s.modStation st f).linkB = s.linkB := rfl
@[simp] theorem State.modStation_asrun (s : State) (st : StationId) (f : Station → Station) :
    (s.modStation st f).asrun = s.asrun := rfl
@[simp] theorem State.modStation_nextSeq (s : State) (st : StationId) (f : Station → Station) :
    (s.modStation st f).nextSeq = s.nextSeq := rfl
@[simp] theorem State.modStation_wrapHold (s : State) (st : StationId) (f : Station → Station) :
    (s.modStation st f).wrapHold = s.wrapHold := rfl
@[simp] theorem State.modStation_recordsHeld (s : State) (st : StationId) (f : Station → Station) :
    (s.modStation st f).recordsHeld = s.recordsHeld := rfl
@[simp] theorem State.modStation_conds (s : State) (st : StationId) (f : Station → Station) :
    (s.modStation st f).conds = s.conds := rfl

/-! ### setDeck -/

@[simp] theorem State.setDeck_pending (s : State) (d : DeckId) (x : Deck) :
    (s.setDeck d x).pending = s.pending := rfl
@[simp] theorem State.setDeck_inReset (s : State) (d : DeckId) (x : Deck) :
    (s.setDeck d x).inReset = s.inReset := rfl
@[simp] theorem State.setDeck_straps (s : State) (d : DeckId) (x : Deck) :
    (s.setDeck d x).straps = s.straps := rfl
@[simp] theorem State.setDeck_rx (s : State) (d : DeckId) (x : Deck) :
    (s.setDeck d x).rx = s.rx := rfl
@[simp] theorem State.setDeck_badMessages (s : State) (d : DeckId) (x : Deck) :
    (s.setDeck d x).badMessages = s.badMessages := rfl
@[simp] theorem State.setDeck_queue (s : State) (d : DeckId) (x : Deck) :
    (s.setDeck d x).queue = s.queue := rfl
@[simp] theorem State.setDeck_handler (s : State) (d : DeckId) (x : Deck) :
    (s.setDeck d x).handler = s.handler := rfl
@[simp] theorem State.setDeck_inHand (s : State) (d : DeckId) (x : Deck) :
    (s.setDeck d x).inHand = s.inHand := rfl
@[simp] theorem State.setDeck_sending (s : State) (d : DeckId) (x : Deck) :
    (s.setDeck d x).sending = s.sending := rfl
@[simp] theorem State.setDeck_txOrder (s : State) (d : DeckId) (x : Deck) :
    (s.setDeck d x).txOrder = s.txOrder := rfl
@[simp] theorem State.setDeck_behind (s : State) (d : DeckId) (x : Deck) :
    (s.setDeck d x).behind = s.behind := rfl
@[simp] theorem State.setDeck_media (s : State) (d : DeckId) (x : Deck) :
    (s.setDeck d x).media = s.media := rfl
@[simp] theorem State.setDeck_freeBlocks (s : State) (d : DeckId) (x : Deck) :
    (s.setDeck d x).freeBlocks = s.freeBlocks := rfl
@[simp] theorem State.setDeck_dir (s : State) (d : DeckId) (x : Deck) :
    (s.setDeck d x).dir = s.dir := rfl
@[simp] theorem State.setDeck_reclaim (s : State) (d : DeckId) (x : Deck) :
    (s.setDeck d x).reclaim = s.reclaim := rfl
@[simp] theorem State.setDeck_opens (s : State) (d : DeckId) (x : Deck) :
    (s.setDeck d x).opens = s.opens := rfl
@[simp] theorem State.setDeck_beds (s : State) (d : DeckId) (x : Deck) :
    (s.setDeck d x).beds = s.beds := rfl
@[simp] theorem State.setDeck_port (s : State) (d : DeckId) (x : Deck) :
    (s.setDeck d x).port = s.port := rfl
@[simp] theorem State.setDeck_claim (s : State) (d : DeckId) (x : Deck) :
    (s.setDeck d x).claim = s.claim := rfl
@[simp] theorem State.setDeck_stations (s : State) (d : DeckId) (x : Deck) :
    (s.setDeck d x).stations = s.stations := rfl
@[simp] theorem State.setDeck_deferred (s : State) (d : DeckId) (x : Deck) :
    (s.setDeck d x).deferred = s.deferred := rfl
@[simp] theorem State.setDeck_house (s : State) (d : DeckId) (x : Deck) :
    (s.setDeck d x).house = s.house := rfl
@[simp] theorem State.setDeck_periodStart (s : State) (d : DeckId) (x : Deck) :
    (s.setDeck d x).periodStart = s.periodStart := rfl
@[simp] theorem State.setDeck_opening (s : State) (d : DeckId) (x : Deck) :
    (s.setDeck d x).opening = s.opening := rfl
@[simp] theorem State.setDeck_ref (s : State) (d : DeckId) (x : Deck) :
    (s.setDeck d x).ref = s.ref := rfl
@[simp] theorem State.setDeck_linkA (s : State) (d : DeckId) (x : Deck) :
    (s.setDeck d x).linkA = s.linkA := rfl
@[simp] theorem State.setDeck_linkB (s : State) (d : DeckId) (x : Deck) :
    (s.setDeck d x).linkB = s.linkB := rfl
@[simp] theorem State.setDeck_asrun (s : State) (d : DeckId) (x : Deck) :
    (s.setDeck d x).asrun = s.asrun := rfl
@[simp] theorem State.setDeck_nextSeq (s : State) (d : DeckId) (x : Deck) :
    (s.setDeck d x).nextSeq = s.nextSeq := rfl
@[simp] theorem State.setDeck_wrapHold (s : State) (d : DeckId) (x : Deck) :
    (s.setDeck d x).wrapHold = s.wrapHold := rfl
@[simp] theorem State.setDeck_recordsHeld (s : State) (d : DeckId) (x : Deck) :
    (s.setDeck d x).recordsHeld = s.recordsHeld := rfl
@[simp] theorem State.setDeck_conds (s : State) (d : DeckId) (x : Deck) :
    (s.setDeck d x).conds = s.conds := rfl

/-! ### modPlayer -/

@[simp] theorem State.modPlayer_pending (s : State) (d : DeckId) (f : Player → Player) :
    (s.modPlayer d f).pending = s.pending := rfl
@[simp] theorem State.modPlayer_inReset (s : State) (d : DeckId) (f : Player → Player) :
    (s.modPlayer d f).inReset = s.inReset := rfl
@[simp] theorem State.modPlayer_straps (s : State) (d : DeckId) (f : Player → Player) :
    (s.modPlayer d f).straps = s.straps := rfl
@[simp] theorem State.modPlayer_rx (s : State) (d : DeckId) (f : Player → Player) :
    (s.modPlayer d f).rx = s.rx := rfl
@[simp] theorem State.modPlayer_badMessages (s : State) (d : DeckId) (f : Player → Player) :
    (s.modPlayer d f).badMessages = s.badMessages := rfl
@[simp] theorem State.modPlayer_queue (s : State) (d : DeckId) (f : Player → Player) :
    (s.modPlayer d f).queue = s.queue := rfl
@[simp] theorem State.modPlayer_handler (s : State) (d : DeckId) (f : Player → Player) :
    (s.modPlayer d f).handler = s.handler := rfl
@[simp] theorem State.modPlayer_inHand (s : State) (d : DeckId) (f : Player → Player) :
    (s.modPlayer d f).inHand = s.inHand := rfl
@[simp] theorem State.modPlayer_sending (s : State) (d : DeckId) (f : Player → Player) :
    (s.modPlayer d f).sending = s.sending := rfl
@[simp] theorem State.modPlayer_txOrder (s : State) (d : DeckId) (f : Player → Player) :
    (s.modPlayer d f).txOrder = s.txOrder := rfl
@[simp] theorem State.modPlayer_behind (s : State) (d : DeckId) (f : Player → Player) :
    (s.modPlayer d f).behind = s.behind := rfl
@[simp] theorem State.modPlayer_media (s : State) (d : DeckId) (f : Player → Player) :
    (s.modPlayer d f).media = s.media := rfl
@[simp] theorem State.modPlayer_freeBlocks (s : State) (d : DeckId) (f : Player → Player) :
    (s.modPlayer d f).freeBlocks = s.freeBlocks := rfl
@[simp] theorem State.modPlayer_dir (s : State) (d : DeckId) (f : Player → Player) :
    (s.modPlayer d f).dir = s.dir := rfl
@[simp] theorem State.modPlayer_reclaim (s : State) (d : DeckId) (f : Player → Player) :
    (s.modPlayer d f).reclaim = s.reclaim := rfl
@[simp] theorem State.modPlayer_opens (s : State) (d : DeckId) (f : Player → Player) :
    (s.modPlayer d f).opens = s.opens := rfl
@[simp] theorem State.modPlayer_beds (s : State) (d : DeckId) (f : Player → Player) :
    (s.modPlayer d f).beds = s.beds := rfl
@[simp] theorem State.modPlayer_port (s : State) (d : DeckId) (f : Player → Player) :
    (s.modPlayer d f).port = s.port := rfl
@[simp] theorem State.modPlayer_claim (s : State) (d : DeckId) (f : Player → Player) :
    (s.modPlayer d f).claim = s.claim := rfl
@[simp] theorem State.modPlayer_stations (s : State) (d : DeckId) (f : Player → Player) :
    (s.modPlayer d f).stations = s.stations := rfl
@[simp] theorem State.modPlayer_deferred (s : State) (d : DeckId) (f : Player → Player) :
    (s.modPlayer d f).deferred = s.deferred := rfl
@[simp] theorem State.modPlayer_house (s : State) (d : DeckId) (f : Player → Player) :
    (s.modPlayer d f).house = s.house := rfl
@[simp] theorem State.modPlayer_periodStart (s : State) (d : DeckId) (f : Player → Player) :
    (s.modPlayer d f).periodStart = s.periodStart := rfl
@[simp] theorem State.modPlayer_opening (s : State) (d : DeckId) (f : Player → Player) :
    (s.modPlayer d f).opening = s.opening := rfl
@[simp] theorem State.modPlayer_ref (s : State) (d : DeckId) (f : Player → Player) :
    (s.modPlayer d f).ref = s.ref := rfl
@[simp] theorem State.modPlayer_linkA (s : State) (d : DeckId) (f : Player → Player) :
    (s.modPlayer d f).linkA = s.linkA := rfl
@[simp] theorem State.modPlayer_linkB (s : State) (d : DeckId) (f : Player → Player) :
    (s.modPlayer d f).linkB = s.linkB := rfl
@[simp] theorem State.modPlayer_asrun (s : State) (d : DeckId) (f : Player → Player) :
    (s.modPlayer d f).asrun = s.asrun := rfl
@[simp] theorem State.modPlayer_nextSeq (s : State) (d : DeckId) (f : Player → Player) :
    (s.modPlayer d f).nextSeq = s.nextSeq := rfl
@[simp] theorem State.modPlayer_wrapHold (s : State) (d : DeckId) (f : Player → Player) :
    (s.modPlayer d f).wrapHold = s.wrapHold := rfl
@[simp] theorem State.modPlayer_recordsHeld (s : State) (d : DeckId) (f : Player → Player) :
    (s.modPlayer d f).recordsHeld = s.recordsHeld := rfl
@[simp] theorem State.modPlayer_conds (s : State) (d : DeckId) (f : Player → Player) :
    (s.modPlayer d f).conds = s.conds := rfl

/-! ### setBed -/

@[simp] theorem State.setBed_pending (s : State) (st : StationId) (x : Bed) :
    (s.setBed st x).pending = s.pending := rfl
@[simp] theorem State.setBed_inReset (s : State) (st : StationId) (x : Bed) :
    (s.setBed st x).inReset = s.inReset := rfl
@[simp] theorem State.setBed_straps (s : State) (st : StationId) (x : Bed) :
    (s.setBed st x).straps = s.straps := rfl
@[simp] theorem State.setBed_rx (s : State) (st : StationId) (x : Bed) :
    (s.setBed st x).rx = s.rx := rfl
@[simp] theorem State.setBed_badMessages (s : State) (st : StationId) (x : Bed) :
    (s.setBed st x).badMessages = s.badMessages := rfl
@[simp] theorem State.setBed_queue (s : State) (st : StationId) (x : Bed) :
    (s.setBed st x).queue = s.queue := rfl
@[simp] theorem State.setBed_handler (s : State) (st : StationId) (x : Bed) :
    (s.setBed st x).handler = s.handler := rfl
@[simp] theorem State.setBed_inHand (s : State) (st : StationId) (x : Bed) :
    (s.setBed st x).inHand = s.inHand := rfl
@[simp] theorem State.setBed_sending (s : State) (st : StationId) (x : Bed) :
    (s.setBed st x).sending = s.sending := rfl
@[simp] theorem State.setBed_txOrder (s : State) (st : StationId) (x : Bed) :
    (s.setBed st x).txOrder = s.txOrder := rfl
@[simp] theorem State.setBed_behind (s : State) (st : StationId) (x : Bed) :
    (s.setBed st x).behind = s.behind := rfl
@[simp] theorem State.setBed_media (s : State) (st : StationId) (x : Bed) :
    (s.setBed st x).media = s.media := rfl
@[simp] theorem State.setBed_freeBlocks (s : State) (st : StationId) (x : Bed) :
    (s.setBed st x).freeBlocks = s.freeBlocks := rfl
@[simp] theorem State.setBed_dir (s : State) (st : StationId) (x : Bed) :
    (s.setBed st x).dir = s.dir := rfl
@[simp] theorem State.setBed_reclaim (s : State) (st : StationId) (x : Bed) :
    (s.setBed st x).reclaim = s.reclaim := rfl
@[simp] theorem State.setBed_opens (s : State) (st : StationId) (x : Bed) :
    (s.setBed st x).opens = s.opens := rfl
@[simp] theorem State.setBed_decks (s : State) (st : StationId) (x : Bed) :
    (s.setBed st x).decks = s.decks := rfl
@[simp] theorem State.setBed_port (s : State) (st : StationId) (x : Bed) :
    (s.setBed st x).port = s.port := rfl
@[simp] theorem State.setBed_claim (s : State) (st : StationId) (x : Bed) :
    (s.setBed st x).claim = s.claim := rfl
@[simp] theorem State.setBed_stations (s : State) (st : StationId) (x : Bed) :
    (s.setBed st x).stations = s.stations := rfl
@[simp] theorem State.setBed_deferred (s : State) (st : StationId) (x : Bed) :
    (s.setBed st x).deferred = s.deferred := rfl
@[simp] theorem State.setBed_house (s : State) (st : StationId) (x : Bed) :
    (s.setBed st x).house = s.house := rfl
@[simp] theorem State.setBed_periodStart (s : State) (st : StationId) (x : Bed) :
    (s.setBed st x).periodStart = s.periodStart := rfl
@[simp] theorem State.setBed_opening (s : State) (st : StationId) (x : Bed) :
    (s.setBed st x).opening = s.opening := rfl
@[simp] theorem State.setBed_ref (s : State) (st : StationId) (x : Bed) :
    (s.setBed st x).ref = s.ref := rfl
@[simp] theorem State.setBed_linkA (s : State) (st : StationId) (x : Bed) :
    (s.setBed st x).linkA = s.linkA := rfl
@[simp] theorem State.setBed_linkB (s : State) (st : StationId) (x : Bed) :
    (s.setBed st x).linkB = s.linkB := rfl
@[simp] theorem State.setBed_asrun (s : State) (st : StationId) (x : Bed) :
    (s.setBed st x).asrun = s.asrun := rfl
@[simp] theorem State.setBed_nextSeq (s : State) (st : StationId) (x : Bed) :
    (s.setBed st x).nextSeq = s.nextSeq := rfl
@[simp] theorem State.setBed_wrapHold (s : State) (st : StationId) (x : Bed) :
    (s.setBed st x).wrapHold = s.wrapHold := rfl
@[simp] theorem State.setBed_recordsHeld (s : State) (st : StationId) (x : Bed) :
    (s.setBed st x).recordsHeld = s.recordsHeld := rfl
@[simp] theorem State.setBed_conds (s : State) (st : StationId) (x : Bed) :
    (s.setBed st x).conds = s.conds := rfl

/-! ### modBedPlayer -/

@[simp] theorem State.modBedPlayer_pending (s : State) (st : StationId) (f : Player → Player) :
    (s.modBedPlayer st f).pending = s.pending := rfl
@[simp] theorem State.modBedPlayer_inReset (s : State) (st : StationId) (f : Player → Player) :
    (s.modBedPlayer st f).inReset = s.inReset := rfl
@[simp] theorem State.modBedPlayer_straps (s : State) (st : StationId) (f : Player → Player) :
    (s.modBedPlayer st f).straps = s.straps := rfl
@[simp] theorem State.modBedPlayer_rx (s : State) (st : StationId) (f : Player → Player) :
    (s.modBedPlayer st f).rx = s.rx := rfl
@[simp] theorem State.modBedPlayer_badMessages (s : State) (st : StationId) (f : Player → Player) :
    (s.modBedPlayer st f).badMessages = s.badMessages := rfl
@[simp] theorem State.modBedPlayer_queue (s : State) (st : StationId) (f : Player → Player) :
    (s.modBedPlayer st f).queue = s.queue := rfl
@[simp] theorem State.modBedPlayer_handler (s : State) (st : StationId) (f : Player → Player) :
    (s.modBedPlayer st f).handler = s.handler := rfl
@[simp] theorem State.modBedPlayer_inHand (s : State) (st : StationId) (f : Player → Player) :
    (s.modBedPlayer st f).inHand = s.inHand := rfl
@[simp] theorem State.modBedPlayer_sending (s : State) (st : StationId) (f : Player → Player) :
    (s.modBedPlayer st f).sending = s.sending := rfl
@[simp] theorem State.modBedPlayer_txOrder (s : State) (st : StationId) (f : Player → Player) :
    (s.modBedPlayer st f).txOrder = s.txOrder := rfl
@[simp] theorem State.modBedPlayer_behind (s : State) (st : StationId) (f : Player → Player) :
    (s.modBedPlayer st f).behind = s.behind := rfl
@[simp] theorem State.modBedPlayer_media (s : State) (st : StationId) (f : Player → Player) :
    (s.modBedPlayer st f).media = s.media := rfl
@[simp] theorem State.modBedPlayer_freeBlocks (s : State) (st : StationId) (f : Player → Player) :
    (s.modBedPlayer st f).freeBlocks = s.freeBlocks := rfl
@[simp] theorem State.modBedPlayer_dir (s : State) (st : StationId) (f : Player → Player) :
    (s.modBedPlayer st f).dir = s.dir := rfl
@[simp] theorem State.modBedPlayer_reclaim (s : State) (st : StationId) (f : Player → Player) :
    (s.modBedPlayer st f).reclaim = s.reclaim := rfl
@[simp] theorem State.modBedPlayer_opens (s : State) (st : StationId) (f : Player → Player) :
    (s.modBedPlayer st f).opens = s.opens := rfl
@[simp] theorem State.modBedPlayer_decks (s : State) (st : StationId) (f : Player → Player) :
    (s.modBedPlayer st f).decks = s.decks := rfl
@[simp] theorem State.modBedPlayer_port (s : State) (st : StationId) (f : Player → Player) :
    (s.modBedPlayer st f).port = s.port := rfl
@[simp] theorem State.modBedPlayer_claim (s : State) (st : StationId) (f : Player → Player) :
    (s.modBedPlayer st f).claim = s.claim := rfl
@[simp] theorem State.modBedPlayer_stations (s : State) (st : StationId) (f : Player → Player) :
    (s.modBedPlayer st f).stations = s.stations := rfl
@[simp] theorem State.modBedPlayer_deferred (s : State) (st : StationId) (f : Player → Player) :
    (s.modBedPlayer st f).deferred = s.deferred := rfl
@[simp] theorem State.modBedPlayer_house (s : State) (st : StationId) (f : Player → Player) :
    (s.modBedPlayer st f).house = s.house := rfl
@[simp] theorem State.modBedPlayer_periodStart (s : State) (st : StationId) (f : Player → Player) :
    (s.modBedPlayer st f).periodStart = s.periodStart := rfl
@[simp] theorem State.modBedPlayer_opening (s : State) (st : StationId) (f : Player → Player) :
    (s.modBedPlayer st f).opening = s.opening := rfl
@[simp] theorem State.modBedPlayer_ref (s : State) (st : StationId) (f : Player → Player) :
    (s.modBedPlayer st f).ref = s.ref := rfl
@[simp] theorem State.modBedPlayer_linkA (s : State) (st : StationId) (f : Player → Player) :
    (s.modBedPlayer st f).linkA = s.linkA := rfl
@[simp] theorem State.modBedPlayer_linkB (s : State) (st : StationId) (f : Player → Player) :
    (s.modBedPlayer st f).linkB = s.linkB := rfl
@[simp] theorem State.modBedPlayer_asrun (s : State) (st : StationId) (f : Player → Player) :
    (s.modBedPlayer st f).asrun = s.asrun := rfl
@[simp] theorem State.modBedPlayer_nextSeq (s : State) (st : StationId) (f : Player → Player) :
    (s.modBedPlayer st f).nextSeq = s.nextSeq := rfl
@[simp] theorem State.modBedPlayer_wrapHold (s : State) (st : StationId) (f : Player → Player) :
    (s.modBedPlayer st f).wrapHold = s.wrapHold := rfl
@[simp] theorem State.modBedPlayer_recordsHeld (s : State) (st : StationId) (f : Player → Player) :
    (s.modBedPlayer st f).recordsHeld = s.recordsHeld := rfl
@[simp] theorem State.modBedPlayer_conds (s : State) (st : StationId) (f : Player → Player) :
    (s.modBedPlayer st f).conds = s.conds := rfl

/-! ### setCond -/

@[simp] theorem State.setCond_pending (s : State) (i : SetId) (c : CondSet) :
    (s.setCond i c).pending = s.pending := rfl
@[simp] theorem State.setCond_inReset (s : State) (i : SetId) (c : CondSet) :
    (s.setCond i c).inReset = s.inReset := rfl
@[simp] theorem State.setCond_straps (s : State) (i : SetId) (c : CondSet) :
    (s.setCond i c).straps = s.straps := rfl
@[simp] theorem State.setCond_rx (s : State) (i : SetId) (c : CondSet) :
    (s.setCond i c).rx = s.rx := rfl
@[simp] theorem State.setCond_badMessages (s : State) (i : SetId) (c : CondSet) :
    (s.setCond i c).badMessages = s.badMessages := rfl
@[simp] theorem State.setCond_queue (s : State) (i : SetId) (c : CondSet) :
    (s.setCond i c).queue = s.queue := rfl
@[simp] theorem State.setCond_handler (s : State) (i : SetId) (c : CondSet) :
    (s.setCond i c).handler = s.handler := rfl
@[simp] theorem State.setCond_inHand (s : State) (i : SetId) (c : CondSet) :
    (s.setCond i c).inHand = s.inHand := rfl
@[simp] theorem State.setCond_sending (s : State) (i : SetId) (c : CondSet) :
    (s.setCond i c).sending = s.sending := rfl
@[simp] theorem State.setCond_txOrder (s : State) (i : SetId) (c : CondSet) :
    (s.setCond i c).txOrder = s.txOrder := rfl
@[simp] theorem State.setCond_behind (s : State) (i : SetId) (c : CondSet) :
    (s.setCond i c).behind = s.behind := rfl
@[simp] theorem State.setCond_media (s : State) (i : SetId) (c : CondSet) :
    (s.setCond i c).media = s.media := rfl
@[simp] theorem State.setCond_freeBlocks (s : State) (i : SetId) (c : CondSet) :
    (s.setCond i c).freeBlocks = s.freeBlocks := rfl
@[simp] theorem State.setCond_dir (s : State) (i : SetId) (c : CondSet) :
    (s.setCond i c).dir = s.dir := rfl
@[simp] theorem State.setCond_reclaim (s : State) (i : SetId) (c : CondSet) :
    (s.setCond i c).reclaim = s.reclaim := rfl
@[simp] theorem State.setCond_opens (s : State) (i : SetId) (c : CondSet) :
    (s.setCond i c).opens = s.opens := rfl
@[simp] theorem State.setCond_decks (s : State) (i : SetId) (c : CondSet) :
    (s.setCond i c).decks = s.decks := rfl
@[simp] theorem State.setCond_beds (s : State) (i : SetId) (c : CondSet) :
    (s.setCond i c).beds = s.beds := rfl
@[simp] theorem State.setCond_port (s : State) (i : SetId) (c : CondSet) :
    (s.setCond i c).port = s.port := rfl
@[simp] theorem State.setCond_claim (s : State) (i : SetId) (c : CondSet) :
    (s.setCond i c).claim = s.claim := rfl
@[simp] theorem State.setCond_stations (s : State) (i : SetId) (c : CondSet) :
    (s.setCond i c).stations = s.stations := rfl
@[simp] theorem State.setCond_deferred (s : State) (i : SetId) (c : CondSet) :
    (s.setCond i c).deferred = s.deferred := rfl
@[simp] theorem State.setCond_house (s : State) (i : SetId) (c : CondSet) :
    (s.setCond i c).house = s.house := rfl
@[simp] theorem State.setCond_periodStart (s : State) (i : SetId) (c : CondSet) :
    (s.setCond i c).periodStart = s.periodStart := rfl
@[simp] theorem State.setCond_opening (s : State) (i : SetId) (c : CondSet) :
    (s.setCond i c).opening = s.opening := rfl
@[simp] theorem State.setCond_ref (s : State) (i : SetId) (c : CondSet) :
    (s.setCond i c).ref = s.ref := rfl
@[simp] theorem State.setCond_linkA (s : State) (i : SetId) (c : CondSet) :
    (s.setCond i c).linkA = s.linkA := rfl
@[simp] theorem State.setCond_linkB (s : State) (i : SetId) (c : CondSet) :
    (s.setCond i c).linkB = s.linkB := rfl
@[simp] theorem State.setCond_asrun (s : State) (i : SetId) (c : CondSet) :
    (s.setCond i c).asrun = s.asrun := rfl
@[simp] theorem State.setCond_nextSeq (s : State) (i : SetId) (c : CondSet) :
    (s.setCond i c).nextSeq = s.nextSeq := rfl
@[simp] theorem State.setCond_wrapHold (s : State) (i : SetId) (c : CondSet) :
    (s.setCond i c).wrapHold = s.wrapHold := rfl
@[simp] theorem State.setCond_recordsHeld (s : State) (i : SetId) (c : CondSet) :
    (s.setCond i c).recordsHeld = s.recordsHeld := rfl

/-! ### dropBits -/

@[simp] theorem State.dropBits_pending (s : State) (i : SetId) (m : Byte) :
    (s.dropBits i m).pending = s.pending := rfl
@[simp] theorem State.dropBits_inReset (s : State) (i : SetId) (m : Byte) :
    (s.dropBits i m).inReset = s.inReset := rfl
@[simp] theorem State.dropBits_straps (s : State) (i : SetId) (m : Byte) :
    (s.dropBits i m).straps = s.straps := rfl
@[simp] theorem State.dropBits_rx (s : State) (i : SetId) (m : Byte) :
    (s.dropBits i m).rx = s.rx := rfl
@[simp] theorem State.dropBits_badMessages (s : State) (i : SetId) (m : Byte) :
    (s.dropBits i m).badMessages = s.badMessages := rfl
@[simp] theorem State.dropBits_queue (s : State) (i : SetId) (m : Byte) :
    (s.dropBits i m).queue = s.queue := rfl
@[simp] theorem State.dropBits_handler (s : State) (i : SetId) (m : Byte) :
    (s.dropBits i m).handler = s.handler := rfl
@[simp] theorem State.dropBits_inHand (s : State) (i : SetId) (m : Byte) :
    (s.dropBits i m).inHand = s.inHand := rfl
@[simp] theorem State.dropBits_sending (s : State) (i : SetId) (m : Byte) :
    (s.dropBits i m).sending = s.sending := rfl
@[simp] theorem State.dropBits_txOrder (s : State) (i : SetId) (m : Byte) :
    (s.dropBits i m).txOrder = s.txOrder := rfl
@[simp] theorem State.dropBits_behind (s : State) (i : SetId) (m : Byte) :
    (s.dropBits i m).behind = s.behind := rfl
@[simp] theorem State.dropBits_media (s : State) (i : SetId) (m : Byte) :
    (s.dropBits i m).media = s.media := rfl
@[simp] theorem State.dropBits_freeBlocks (s : State) (i : SetId) (m : Byte) :
    (s.dropBits i m).freeBlocks = s.freeBlocks := rfl
@[simp] theorem State.dropBits_dir (s : State) (i : SetId) (m : Byte) :
    (s.dropBits i m).dir = s.dir := rfl
@[simp] theorem State.dropBits_reclaim (s : State) (i : SetId) (m : Byte) :
    (s.dropBits i m).reclaim = s.reclaim := rfl
@[simp] theorem State.dropBits_opens (s : State) (i : SetId) (m : Byte) :
    (s.dropBits i m).opens = s.opens := rfl
@[simp] theorem State.dropBits_decks (s : State) (i : SetId) (m : Byte) :
    (s.dropBits i m).decks = s.decks := rfl
@[simp] theorem State.dropBits_beds (s : State) (i : SetId) (m : Byte) :
    (s.dropBits i m).beds = s.beds := rfl
@[simp] theorem State.dropBits_port (s : State) (i : SetId) (m : Byte) :
    (s.dropBits i m).port = s.port := rfl
@[simp] theorem State.dropBits_claim (s : State) (i : SetId) (m : Byte) :
    (s.dropBits i m).claim = s.claim := rfl
@[simp] theorem State.dropBits_stations (s : State) (i : SetId) (m : Byte) :
    (s.dropBits i m).stations = s.stations := rfl
@[simp] theorem State.dropBits_deferred (s : State) (i : SetId) (m : Byte) :
    (s.dropBits i m).deferred = s.deferred := rfl
@[simp] theorem State.dropBits_house (s : State) (i : SetId) (m : Byte) :
    (s.dropBits i m).house = s.house := rfl
@[simp] theorem State.dropBits_periodStart (s : State) (i : SetId) (m : Byte) :
    (s.dropBits i m).periodStart = s.periodStart := rfl
@[simp] theorem State.dropBits_opening (s : State) (i : SetId) (m : Byte) :
    (s.dropBits i m).opening = s.opening := rfl
@[simp] theorem State.dropBits_ref (s : State) (i : SetId) (m : Byte) :
    (s.dropBits i m).ref = s.ref := rfl
@[simp] theorem State.dropBits_linkA (s : State) (i : SetId) (m : Byte) :
    (s.dropBits i m).linkA = s.linkA := rfl
@[simp] theorem State.dropBits_linkB (s : State) (i : SetId) (m : Byte) :
    (s.dropBits i m).linkB = s.linkB := rfl
@[simp] theorem State.dropBits_asrun (s : State) (i : SetId) (m : Byte) :
    (s.dropBits i m).asrun = s.asrun := rfl
@[simp] theorem State.dropBits_nextSeq (s : State) (i : SetId) (m : Byte) :
    (s.dropBits i m).nextSeq = s.nextSeq := rfl
@[simp] theorem State.dropBits_wrapHold (s : State) (i : SetId) (m : Byte) :
    (s.dropBits i m).wrapHold = s.wrapHold := rfl
@[simp] theorem State.dropBits_recordsHeld (s : State) (i : SetId) (m : Byte) :
    (s.dropBits i m).recordsHeld = s.recordsHeld := rfl

/-! ### modEntry -/

@[simp] theorem State.modEntry_pending (s : State) (st : StationId) (id : Nat) (f : Entry → Entry) :
    (s.modEntry st id f).pending = s.pending := rfl
@[simp] theorem State.modEntry_inReset (s : State) (st : StationId) (id : Nat) (f : Entry → Entry) :
    (s.modEntry st id f).inReset = s.inReset := rfl
@[simp] theorem State.modEntry_straps (s : State) (st : StationId) (id : Nat) (f : Entry → Entry) :
    (s.modEntry st id f).straps = s.straps := rfl
@[simp] theorem State.modEntry_rx (s : State) (st : StationId) (id : Nat) (f : Entry → Entry) :
    (s.modEntry st id f).rx = s.rx := rfl
@[simp] theorem State.modEntry_badMessages (s : State) (st : StationId) (id : Nat) (f : Entry → Entry) :
    (s.modEntry st id f).badMessages = s.badMessages := rfl
@[simp] theorem State.modEntry_queue (s : State) (st : StationId) (id : Nat) (f : Entry → Entry) :
    (s.modEntry st id f).queue = s.queue := rfl
@[simp] theorem State.modEntry_handler (s : State) (st : StationId) (id : Nat) (f : Entry → Entry) :
    (s.modEntry st id f).handler = s.handler := rfl
@[simp] theorem State.modEntry_inHand (s : State) (st : StationId) (id : Nat) (f : Entry → Entry) :
    (s.modEntry st id f).inHand = s.inHand := rfl
@[simp] theorem State.modEntry_sending (s : State) (st : StationId) (id : Nat) (f : Entry → Entry) :
    (s.modEntry st id f).sending = s.sending := rfl
@[simp] theorem State.modEntry_txOrder (s : State) (st : StationId) (id : Nat) (f : Entry → Entry) :
    (s.modEntry st id f).txOrder = s.txOrder := rfl
@[simp] theorem State.modEntry_behind (s : State) (st : StationId) (id : Nat) (f : Entry → Entry) :
    (s.modEntry st id f).behind = s.behind := rfl
@[simp] theorem State.modEntry_media (s : State) (st : StationId) (id : Nat) (f : Entry → Entry) :
    (s.modEntry st id f).media = s.media := rfl
@[simp] theorem State.modEntry_freeBlocks (s : State) (st : StationId) (id : Nat) (f : Entry → Entry) :
    (s.modEntry st id f).freeBlocks = s.freeBlocks := rfl
@[simp] theorem State.modEntry_dir (s : State) (st : StationId) (id : Nat) (f : Entry → Entry) :
    (s.modEntry st id f).dir = s.dir := rfl
@[simp] theorem State.modEntry_reclaim (s : State) (st : StationId) (id : Nat) (f : Entry → Entry) :
    (s.modEntry st id f).reclaim = s.reclaim := rfl
@[simp] theorem State.modEntry_opens (s : State) (st : StationId) (id : Nat) (f : Entry → Entry) :
    (s.modEntry st id f).opens = s.opens := rfl
@[simp] theorem State.modEntry_decks (s : State) (st : StationId) (id : Nat) (f : Entry → Entry) :
    (s.modEntry st id f).decks = s.decks := rfl
@[simp] theorem State.modEntry_beds (s : State) (st : StationId) (id : Nat) (f : Entry → Entry) :
    (s.modEntry st id f).beds = s.beds := rfl
@[simp] theorem State.modEntry_port (s : State) (st : StationId) (id : Nat) (f : Entry → Entry) :
    (s.modEntry st id f).port = s.port := rfl
@[simp] theorem State.modEntry_claim (s : State) (st : StationId) (id : Nat) (f : Entry → Entry) :
    (s.modEntry st id f).claim = s.claim := rfl
@[simp] theorem State.modEntry_deferred (s : State) (st : StationId) (id : Nat) (f : Entry → Entry) :
    (s.modEntry st id f).deferred = s.deferred := rfl
@[simp] theorem State.modEntry_house (s : State) (st : StationId) (id : Nat) (f : Entry → Entry) :
    (s.modEntry st id f).house = s.house := rfl
@[simp] theorem State.modEntry_periodStart (s : State) (st : StationId) (id : Nat) (f : Entry → Entry) :
    (s.modEntry st id f).periodStart = s.periodStart := rfl
@[simp] theorem State.modEntry_opening (s : State) (st : StationId) (id : Nat) (f : Entry → Entry) :
    (s.modEntry st id f).opening = s.opening := rfl
@[simp] theorem State.modEntry_ref (s : State) (st : StationId) (id : Nat) (f : Entry → Entry) :
    (s.modEntry st id f).ref = s.ref := rfl
@[simp] theorem State.modEntry_linkA (s : State) (st : StationId) (id : Nat) (f : Entry → Entry) :
    (s.modEntry st id f).linkA = s.linkA := rfl
@[simp] theorem State.modEntry_linkB (s : State) (st : StationId) (id : Nat) (f : Entry → Entry) :
    (s.modEntry st id f).linkB = s.linkB := rfl
@[simp] theorem State.modEntry_asrun (s : State) (st : StationId) (id : Nat) (f : Entry → Entry) :
    (s.modEntry st id f).asrun = s.asrun := rfl
@[simp] theorem State.modEntry_nextSeq (s : State) (st : StationId) (id : Nat) (f : Entry → Entry) :
    (s.modEntry st id f).nextSeq = s.nextSeq := rfl
@[simp] theorem State.modEntry_wrapHold (s : State) (st : StationId) (id : Nat) (f : Entry → Entry) :
    (s.modEntry st id f).wrapHold = s.wrapHold := rfl
@[simp] theorem State.modEntry_recordsHeld (s : State) (st : StationId) (id : Nat) (f : Entry → Entry) :
    (s.modEntry st id f).recordsHeld = s.recordsHeld := rfl
@[simp] theorem State.modEntry_conds (s : State) (st : StationId) (id : Nat) (f : Entry → Entry) :
    (s.modEntry st id f).conds = s.conds := rfl

/-! ### modBreak -/

@[simp] theorem State.modBreak_pending (s : State) (st : StationId) (id : Nat) (f : BreakData → BreakData) :
    (s.modBreak st id f).pending = s.pending := rfl
@[simp] theorem State.modBreak_inReset (s : State) (st : StationId) (id : Nat) (f : BreakData → BreakData) :
    (s.modBreak st id f).inReset = s.inReset := rfl
@[simp] theorem State.modBreak_straps (s : State) (st : StationId) (id : Nat) (f : BreakData → BreakData) :
    (s.modBreak st id f).straps = s.straps := rfl
@[simp] theorem State.modBreak_rx (s : State) (st : StationId) (id : Nat) (f : BreakData → BreakData) :
    (s.modBreak st id f).rx = s.rx := rfl
@[simp] theorem State.modBreak_badMessages (s : State) (st : StationId) (id : Nat) (f : BreakData → BreakData) :
    (s.modBreak st id f).badMessages = s.badMessages := rfl
@[simp] theorem State.modBreak_queue (s : State) (st : StationId) (id : Nat) (f : BreakData → BreakData) :
    (s.modBreak st id f).queue = s.queue := rfl
@[simp] theorem State.modBreak_handler (s : State) (st : StationId) (id : Nat) (f : BreakData → BreakData) :
    (s.modBreak st id f).handler = s.handler := rfl
@[simp] theorem State.modBreak_inHand (s : State) (st : StationId) (id : Nat) (f : BreakData → BreakData) :
    (s.modBreak st id f).inHand = s.inHand := rfl
@[simp] theorem State.modBreak_sending (s : State) (st : StationId) (id : Nat) (f : BreakData → BreakData) :
    (s.modBreak st id f).sending = s.sending := rfl
@[simp] theorem State.modBreak_txOrder (s : State) (st : StationId) (id : Nat) (f : BreakData → BreakData) :
    (s.modBreak st id f).txOrder = s.txOrder := rfl
@[simp] theorem State.modBreak_behind (s : State) (st : StationId) (id : Nat) (f : BreakData → BreakData) :
    (s.modBreak st id f).behind = s.behind := rfl
@[simp] theorem State.modBreak_media (s : State) (st : StationId) (id : Nat) (f : BreakData → BreakData) :
    (s.modBreak st id f).media = s.media := rfl
@[simp] theorem State.modBreak_freeBlocks (s : State) (st : StationId) (id : Nat) (f : BreakData → BreakData) :
    (s.modBreak st id f).freeBlocks = s.freeBlocks := rfl
@[simp] theorem State.modBreak_dir (s : State) (st : StationId) (id : Nat) (f : BreakData → BreakData) :
    (s.modBreak st id f).dir = s.dir := rfl
@[simp] theorem State.modBreak_reclaim (s : State) (st : StationId) (id : Nat) (f : BreakData → BreakData) :
    (s.modBreak st id f).reclaim = s.reclaim := rfl
@[simp] theorem State.modBreak_opens (s : State) (st : StationId) (id : Nat) (f : BreakData → BreakData) :
    (s.modBreak st id f).opens = s.opens := rfl
@[simp] theorem State.modBreak_decks (s : State) (st : StationId) (id : Nat) (f : BreakData → BreakData) :
    (s.modBreak st id f).decks = s.decks := rfl
@[simp] theorem State.modBreak_beds (s : State) (st : StationId) (id : Nat) (f : BreakData → BreakData) :
    (s.modBreak st id f).beds = s.beds := rfl
@[simp] theorem State.modBreak_port (s : State) (st : StationId) (id : Nat) (f : BreakData → BreakData) :
    (s.modBreak st id f).port = s.port := rfl
@[simp] theorem State.modBreak_claim (s : State) (st : StationId) (id : Nat) (f : BreakData → BreakData) :
    (s.modBreak st id f).claim = s.claim := rfl
@[simp] theorem State.modBreak_deferred (s : State) (st : StationId) (id : Nat) (f : BreakData → BreakData) :
    (s.modBreak st id f).deferred = s.deferred := rfl
@[simp] theorem State.modBreak_house (s : State) (st : StationId) (id : Nat) (f : BreakData → BreakData) :
    (s.modBreak st id f).house = s.house := rfl
@[simp] theorem State.modBreak_periodStart (s : State) (st : StationId) (id : Nat) (f : BreakData → BreakData) :
    (s.modBreak st id f).periodStart = s.periodStart := rfl
@[simp] theorem State.modBreak_opening (s : State) (st : StationId) (id : Nat) (f : BreakData → BreakData) :
    (s.modBreak st id f).opening = s.opening := rfl
@[simp] theorem State.modBreak_ref (s : State) (st : StationId) (id : Nat) (f : BreakData → BreakData) :
    (s.modBreak st id f).ref = s.ref := rfl
@[simp] theorem State.modBreak_linkA (s : State) (st : StationId) (id : Nat) (f : BreakData → BreakData) :
    (s.modBreak st id f).linkA = s.linkA := rfl
@[simp] theorem State.modBreak_linkB (s : State) (st : StationId) (id : Nat) (f : BreakData → BreakData) :
    (s.modBreak st id f).linkB = s.linkB := rfl
@[simp] theorem State.modBreak_asrun (s : State) (st : StationId) (id : Nat) (f : BreakData → BreakData) :
    (s.modBreak st id f).asrun = s.asrun := rfl
@[simp] theorem State.modBreak_nextSeq (s : State) (st : StationId) (id : Nat) (f : BreakData → BreakData) :
    (s.modBreak st id f).nextSeq = s.nextSeq := rfl
@[simp] theorem State.modBreak_wrapHold (s : State) (st : StationId) (id : Nat) (f : BreakData → BreakData) :
    (s.modBreak st id f).wrapHold = s.wrapHold := rfl
@[simp] theorem State.modBreak_recordsHeld (s : State) (st : StationId) (id : Nat) (f : BreakData → BreakData) :
    (s.modBreak st id f).recordsHeld = s.recordsHeld := rfl
@[simp] theorem State.modBreak_conds (s : State) (st : StationId) (id : Nat) (f : BreakData → BreakData) :
    (s.modBreak st id f).conds = s.conds := rfl

/-! ### markDirty -/

@[simp] theorem State.markDirty_pending (s : State) (st : StationId) :
    (s.markDirty st).pending = s.pending := rfl
@[simp] theorem State.markDirty_inReset (s : State) (st : StationId) :
    (s.markDirty st).inReset = s.inReset := rfl
@[simp] theorem State.markDirty_straps (s : State) (st : StationId) :
    (s.markDirty st).straps = s.straps := rfl
@[simp] theorem State.markDirty_rx (s : State) (st : StationId) :
    (s.markDirty st).rx = s.rx := rfl
@[simp] theorem State.markDirty_badMessages (s : State) (st : StationId) :
    (s.markDirty st).badMessages = s.badMessages := rfl
@[simp] theorem State.markDirty_queue (s : State) (st : StationId) :
    (s.markDirty st).queue = s.queue := rfl
@[simp] theorem State.markDirty_handler (s : State) (st : StationId) :
    (s.markDirty st).handler = s.handler := rfl
@[simp] theorem State.markDirty_inHand (s : State) (st : StationId) :
    (s.markDirty st).inHand = s.inHand := rfl
@[simp] theorem State.markDirty_sending (s : State) (st : StationId) :
    (s.markDirty st).sending = s.sending := rfl
@[simp] theorem State.markDirty_txOrder (s : State) (st : StationId) :
    (s.markDirty st).txOrder = s.txOrder := rfl
@[simp] theorem State.markDirty_behind (s : State) (st : StationId) :
    (s.markDirty st).behind = s.behind := rfl
@[simp] theorem State.markDirty_media (s : State) (st : StationId) :
    (s.markDirty st).media = s.media := rfl
@[simp] theorem State.markDirty_freeBlocks (s : State) (st : StationId) :
    (s.markDirty st).freeBlocks = s.freeBlocks := rfl
@[simp] theorem State.markDirty_dir (s : State) (st : StationId) :
    (s.markDirty st).dir = s.dir := rfl
@[simp] theorem State.markDirty_reclaim (s : State) (st : StationId) :
    (s.markDirty st).reclaim = s.reclaim := rfl
@[simp] theorem State.markDirty_opens (s : State) (st : StationId) :
    (s.markDirty st).opens = s.opens := rfl
@[simp] theorem State.markDirty_decks (s : State) (st : StationId) :
    (s.markDirty st).decks = s.decks := rfl
@[simp] theorem State.markDirty_beds (s : State) (st : StationId) :
    (s.markDirty st).beds = s.beds := rfl
@[simp] theorem State.markDirty_port (s : State) (st : StationId) :
    (s.markDirty st).port = s.port := rfl
@[simp] theorem State.markDirty_claim (s : State) (st : StationId) :
    (s.markDirty st).claim = s.claim := rfl
@[simp] theorem State.markDirty_deferred (s : State) (st : StationId) :
    (s.markDirty st).deferred = s.deferred := rfl
@[simp] theorem State.markDirty_house (s : State) (st : StationId) :
    (s.markDirty st).house = s.house := rfl
@[simp] theorem State.markDirty_periodStart (s : State) (st : StationId) :
    (s.markDirty st).periodStart = s.periodStart := rfl
@[simp] theorem State.markDirty_opening (s : State) (st : StationId) :
    (s.markDirty st).opening = s.opening := rfl
@[simp] theorem State.markDirty_ref (s : State) (st : StationId) :
    (s.markDirty st).ref = s.ref := rfl
@[simp] theorem State.markDirty_linkA (s : State) (st : StationId) :
    (s.markDirty st).linkA = s.linkA := rfl
@[simp] theorem State.markDirty_linkB (s : State) (st : StationId) :
    (s.markDirty st).linkB = s.linkB := rfl
@[simp] theorem State.markDirty_asrun (s : State) (st : StationId) :
    (s.markDirty st).asrun = s.asrun := rfl
@[simp] theorem State.markDirty_nextSeq (s : State) (st : StationId) :
    (s.markDirty st).nextSeq = s.nextSeq := rfl
@[simp] theorem State.markDirty_wrapHold (s : State) (st : StationId) :
    (s.markDirty st).wrapHold = s.wrapHold := rfl
@[simp] theorem State.markDirty_recordsHeld (s : State) (st : StationId) :
    (s.markDirty st).recordsHeld = s.recordsHeld := rfl
@[simp] theorem State.markDirty_conds (s : State) (st : StationId) :
    (s.markDirty st).conds = s.conds := rfl

/-! ### modDir -/

@[simp] theorem State.modDir_pending (s : State) (slot : Nat) (f : DirEntry → DirEntry) :
    (s.modDir slot f).pending = s.pending := rfl
@[simp] theorem State.modDir_inReset (s : State) (slot : Nat) (f : DirEntry → DirEntry) :
    (s.modDir slot f).inReset = s.inReset := rfl
@[simp] theorem State.modDir_straps (s : State) (slot : Nat) (f : DirEntry → DirEntry) :
    (s.modDir slot f).straps = s.straps := rfl
@[simp] theorem State.modDir_rx (s : State) (slot : Nat) (f : DirEntry → DirEntry) :
    (s.modDir slot f).rx = s.rx := rfl
@[simp] theorem State.modDir_badMessages (s : State) (slot : Nat) (f : DirEntry → DirEntry) :
    (s.modDir slot f).badMessages = s.badMessages := rfl
@[simp] theorem State.modDir_queue (s : State) (slot : Nat) (f : DirEntry → DirEntry) :
    (s.modDir slot f).queue = s.queue := rfl
@[simp] theorem State.modDir_handler (s : State) (slot : Nat) (f : DirEntry → DirEntry) :
    (s.modDir slot f).handler = s.handler := rfl
@[simp] theorem State.modDir_inHand (s : State) (slot : Nat) (f : DirEntry → DirEntry) :
    (s.modDir slot f).inHand = s.inHand := rfl
@[simp] theorem State.modDir_sending (s : State) (slot : Nat) (f : DirEntry → DirEntry) :
    (s.modDir slot f).sending = s.sending := rfl
@[simp] theorem State.modDir_txOrder (s : State) (slot : Nat) (f : DirEntry → DirEntry) :
    (s.modDir slot f).txOrder = s.txOrder := rfl
@[simp] theorem State.modDir_behind (s : State) (slot : Nat) (f : DirEntry → DirEntry) :
    (s.modDir slot f).behind = s.behind := rfl
@[simp] theorem State.modDir_media (s : State) (slot : Nat) (f : DirEntry → DirEntry) :
    (s.modDir slot f).media = s.media := rfl
@[simp] theorem State.modDir_freeBlocks (s : State) (slot : Nat) (f : DirEntry → DirEntry) :
    (s.modDir slot f).freeBlocks = s.freeBlocks := rfl
@[simp] theorem State.modDir_reclaim (s : State) (slot : Nat) (f : DirEntry → DirEntry) :
    (s.modDir slot f).reclaim = s.reclaim := rfl
@[simp] theorem State.modDir_opens (s : State) (slot : Nat) (f : DirEntry → DirEntry) :
    (s.modDir slot f).opens = s.opens := rfl
@[simp] theorem State.modDir_decks (s : State) (slot : Nat) (f : DirEntry → DirEntry) :
    (s.modDir slot f).decks = s.decks := rfl
@[simp] theorem State.modDir_beds (s : State) (slot : Nat) (f : DirEntry → DirEntry) :
    (s.modDir slot f).beds = s.beds := rfl
@[simp] theorem State.modDir_port (s : State) (slot : Nat) (f : DirEntry → DirEntry) :
    (s.modDir slot f).port = s.port := rfl
@[simp] theorem State.modDir_claim (s : State) (slot : Nat) (f : DirEntry → DirEntry) :
    (s.modDir slot f).claim = s.claim := rfl
@[simp] theorem State.modDir_stations (s : State) (slot : Nat) (f : DirEntry → DirEntry) :
    (s.modDir slot f).stations = s.stations := rfl
@[simp] theorem State.modDir_deferred (s : State) (slot : Nat) (f : DirEntry → DirEntry) :
    (s.modDir slot f).deferred = s.deferred := rfl
@[simp] theorem State.modDir_house (s : State) (slot : Nat) (f : DirEntry → DirEntry) :
    (s.modDir slot f).house = s.house := rfl
@[simp] theorem State.modDir_periodStart (s : State) (slot : Nat) (f : DirEntry → DirEntry) :
    (s.modDir slot f).periodStart = s.periodStart := rfl
@[simp] theorem State.modDir_opening (s : State) (slot : Nat) (f : DirEntry → DirEntry) :
    (s.modDir slot f).opening = s.opening := rfl
@[simp] theorem State.modDir_ref (s : State) (slot : Nat) (f : DirEntry → DirEntry) :
    (s.modDir slot f).ref = s.ref := rfl
@[simp] theorem State.modDir_linkA (s : State) (slot : Nat) (f : DirEntry → DirEntry) :
    (s.modDir slot f).linkA = s.linkA := rfl
@[simp] theorem State.modDir_linkB (s : State) (slot : Nat) (f : DirEntry → DirEntry) :
    (s.modDir slot f).linkB = s.linkB := rfl
@[simp] theorem State.modDir_asrun (s : State) (slot : Nat) (f : DirEntry → DirEntry) :
    (s.modDir slot f).asrun = s.asrun := rfl
@[simp] theorem State.modDir_nextSeq (s : State) (slot : Nat) (f : DirEntry → DirEntry) :
    (s.modDir slot f).nextSeq = s.nextSeq := rfl
@[simp] theorem State.modDir_wrapHold (s : State) (slot : Nat) (f : DirEntry → DirEntry) :
    (s.modDir slot f).wrapHold = s.wrapHold := rfl
@[simp] theorem State.modDir_recordsHeld (s : State) (slot : Nat) (f : DirEntry → DirEntry) :
    (s.modDir slot f).recordsHeld = s.recordsHeld := rfl
@[simp] theorem State.modDir_conds (s : State) (slot : Nat) (f : DirEntry → DirEntry) :
    (s.modDir slot f).conds = s.conds := rfl

/-! ### bindSlot -/

@[simp] theorem State.bindSlot_pending (s : State) (slot : Nat) :
    (s.bindSlot slot).pending = s.pending := rfl
@[simp] theorem State.bindSlot_inReset (s : State) (slot : Nat) :
    (s.bindSlot slot).inReset = s.inReset := rfl
@[simp] theorem State.bindSlot_straps (s : State) (slot : Nat) :
    (s.bindSlot slot).straps = s.straps := rfl
@[simp] theorem State.bindSlot_rx (s : State) (slot : Nat) :
    (s.bindSlot slot).rx = s.rx := rfl
@[simp] theorem State.bindSlot_badMessages (s : State) (slot : Nat) :
    (s.bindSlot slot).badMessages = s.badMessages := rfl
@[simp] theorem State.bindSlot_queue (s : State) (slot : Nat) :
    (s.bindSlot slot).queue = s.queue := rfl
@[simp] theorem State.bindSlot_handler (s : State) (slot : Nat) :
    (s.bindSlot slot).handler = s.handler := rfl
@[simp] theorem State.bindSlot_inHand (s : State) (slot : Nat) :
    (s.bindSlot slot).inHand = s.inHand := rfl
@[simp] theorem State.bindSlot_sending (s : State) (slot : Nat) :
    (s.bindSlot slot).sending = s.sending := rfl
@[simp] theorem State.bindSlot_txOrder (s : State) (slot : Nat) :
    (s.bindSlot slot).txOrder = s.txOrder := rfl
@[simp] theorem State.bindSlot_behind (s : State) (slot : Nat) :
    (s.bindSlot slot).behind = s.behind := rfl
@[simp] theorem State.bindSlot_media (s : State) (slot : Nat) :
    (s.bindSlot slot).media = s.media := rfl
@[simp] theorem State.bindSlot_freeBlocks (s : State) (slot : Nat) :
    (s.bindSlot slot).freeBlocks = s.freeBlocks := rfl
@[simp] theorem State.bindSlot_reclaim (s : State) (slot : Nat) :
    (s.bindSlot slot).reclaim = s.reclaim := rfl
@[simp] theorem State.bindSlot_opens (s : State) (slot : Nat) :
    (s.bindSlot slot).opens = s.opens := rfl
@[simp] theorem State.bindSlot_decks (s : State) (slot : Nat) :
    (s.bindSlot slot).decks = s.decks := rfl
@[simp] theorem State.bindSlot_beds (s : State) (slot : Nat) :
    (s.bindSlot slot).beds = s.beds := rfl
@[simp] theorem State.bindSlot_port (s : State) (slot : Nat) :
    (s.bindSlot slot).port = s.port := rfl
@[simp] theorem State.bindSlot_claim (s : State) (slot : Nat) :
    (s.bindSlot slot).claim = s.claim := rfl
@[simp] theorem State.bindSlot_stations (s : State) (slot : Nat) :
    (s.bindSlot slot).stations = s.stations := rfl
@[simp] theorem State.bindSlot_deferred (s : State) (slot : Nat) :
    (s.bindSlot slot).deferred = s.deferred := rfl
@[simp] theorem State.bindSlot_house (s : State) (slot : Nat) :
    (s.bindSlot slot).house = s.house := rfl
@[simp] theorem State.bindSlot_periodStart (s : State) (slot : Nat) :
    (s.bindSlot slot).periodStart = s.periodStart := rfl
@[simp] theorem State.bindSlot_opening (s : State) (slot : Nat) :
    (s.bindSlot slot).opening = s.opening := rfl
@[simp] theorem State.bindSlot_ref (s : State) (slot : Nat) :
    (s.bindSlot slot).ref = s.ref := rfl
@[simp] theorem State.bindSlot_linkA (s : State) (slot : Nat) :
    (s.bindSlot slot).linkA = s.linkA := rfl
@[simp] theorem State.bindSlot_linkB (s : State) (slot : Nat) :
    (s.bindSlot slot).linkB = s.linkB := rfl
@[simp] theorem State.bindSlot_asrun (s : State) (slot : Nat) :
    (s.bindSlot slot).asrun = s.asrun := rfl
@[simp] theorem State.bindSlot_nextSeq (s : State) (slot : Nat) :
    (s.bindSlot slot).nextSeq = s.nextSeq := rfl
@[simp] theorem State.bindSlot_wrapHold (s : State) (slot : Nat) :
    (s.bindSlot slot).wrapHold = s.wrapHold := rfl
@[simp] theorem State.bindSlot_recordsHeld (s : State) (slot : Nat) :
    (s.bindSlot slot).recordsHeld = s.recordsHeld := rfl
@[simp] theorem State.bindSlot_conds (s : State) (slot : Nat) :
    (s.bindSlot slot).conds = s.conds := rfl

/-! ### defer -/

@[simp] theorem State.defer_pending (s : State) (st : StationId) (d : Deferred) :
    (s.defer st d).pending = s.pending := rfl
@[simp] theorem State.defer_inReset (s : State) (st : StationId) (d : Deferred) :
    (s.defer st d).inReset = s.inReset := rfl
@[simp] theorem State.defer_straps (s : State) (st : StationId) (d : Deferred) :
    (s.defer st d).straps = s.straps := rfl
@[simp] theorem State.defer_rx (s : State) (st : StationId) (d : Deferred) :
    (s.defer st d).rx = s.rx := rfl
@[simp] theorem State.defer_badMessages (s : State) (st : StationId) (d : Deferred) :
    (s.defer st d).badMessages = s.badMessages := rfl
@[simp] theorem State.defer_queue (s : State) (st : StationId) (d : Deferred) :
    (s.defer st d).queue = s.queue := rfl
@[simp] theorem State.defer_handler (s : State) (st : StationId) (d : Deferred) :
    (s.defer st d).handler = s.handler := rfl
@[simp] theorem State.defer_inHand (s : State) (st : StationId) (d : Deferred) :
    (s.defer st d).inHand = s.inHand := rfl
@[simp] theorem State.defer_sending (s : State) (st : StationId) (d : Deferred) :
    (s.defer st d).sending = s.sending := rfl
@[simp] theorem State.defer_txOrder (s : State) (st : StationId) (d : Deferred) :
    (s.defer st d).txOrder = s.txOrder := rfl
@[simp] theorem State.defer_behind (s : State) (st : StationId) (d : Deferred) :
    (s.defer st d).behind = s.behind := rfl
@[simp] theorem State.defer_media (s : State) (st : StationId) (d : Deferred) :
    (s.defer st d).media = s.media := rfl
@[simp] theorem State.defer_freeBlocks (s : State) (st : StationId) (d : Deferred) :
    (s.defer st d).freeBlocks = s.freeBlocks := rfl
@[simp] theorem State.defer_dir (s : State) (st : StationId) (d : Deferred) :
    (s.defer st d).dir = s.dir := rfl
@[simp] theorem State.defer_reclaim (s : State) (st : StationId) (d : Deferred) :
    (s.defer st d).reclaim = s.reclaim := rfl
@[simp] theorem State.defer_opens (s : State) (st : StationId) (d : Deferred) :
    (s.defer st d).opens = s.opens := rfl
@[simp] theorem State.defer_decks (s : State) (st : StationId) (d : Deferred) :
    (s.defer st d).decks = s.decks := rfl
@[simp] theorem State.defer_beds (s : State) (st : StationId) (d : Deferred) :
    (s.defer st d).beds = s.beds := rfl
@[simp] theorem State.defer_port (s : State) (st : StationId) (d : Deferred) :
    (s.defer st d).port = s.port := rfl
@[simp] theorem State.defer_claim (s : State) (st : StationId) (d : Deferred) :
    (s.defer st d).claim = s.claim := rfl
@[simp] theorem State.defer_stations (s : State) (st : StationId) (d : Deferred) :
    (s.defer st d).stations = s.stations := rfl
@[simp] theorem State.defer_house (s : State) (st : StationId) (d : Deferred) :
    (s.defer st d).house = s.house := rfl
@[simp] theorem State.defer_periodStart (s : State) (st : StationId) (d : Deferred) :
    (s.defer st d).periodStart = s.periodStart := rfl
@[simp] theorem State.defer_opening (s : State) (st : StationId) (d : Deferred) :
    (s.defer st d).opening = s.opening := rfl
@[simp] theorem State.defer_ref (s : State) (st : StationId) (d : Deferred) :
    (s.defer st d).ref = s.ref := rfl
@[simp] theorem State.defer_linkA (s : State) (st : StationId) (d : Deferred) :
    (s.defer st d).linkA = s.linkA := rfl
@[simp] theorem State.defer_linkB (s : State) (st : StationId) (d : Deferred) :
    (s.defer st d).linkB = s.linkB := rfl
@[simp] theorem State.defer_asrun (s : State) (st : StationId) (d : Deferred) :
    (s.defer st d).asrun = s.asrun := rfl
@[simp] theorem State.defer_nextSeq (s : State) (st : StationId) (d : Deferred) :
    (s.defer st d).nextSeq = s.nextSeq := rfl
@[simp] theorem State.defer_wrapHold (s : State) (st : StationId) (d : Deferred) :
    (s.defer st d).wrapHold = s.wrapHold := rfl
@[simp] theorem State.defer_recordsHeld (s : State) (st : StationId) (d : Deferred) :
    (s.defer st d).recordsHeld = s.recordsHeld := rfl
@[simp] theorem State.defer_conds (s : State) (st : StationId) (d : Deferred) :
    (s.defer st d).conds = s.conds := rfl

/-! ### working -/

@[simp] theorem State.working_pending (s : State) :
    (s.working).pending = s.pending := rfl
@[simp] theorem State.working_inReset (s : State) :
    (s.working).inReset = s.inReset := rfl
@[simp] theorem State.working_straps (s : State) :
    (s.working).straps = s.straps := rfl
@[simp] theorem State.working_rx (s : State) :
    (s.working).rx = s.rx := rfl
@[simp] theorem State.working_badMessages (s : State) :
    (s.working).badMessages = s.badMessages := rfl
@[simp] theorem State.working_queue (s : State) :
    (s.working).queue = s.queue := rfl
@[simp] theorem State.working_inHand (s : State) :
    (s.working).inHand = s.inHand := rfl
@[simp] theorem State.working_sending (s : State) :
    (s.working).sending = s.sending := rfl
@[simp] theorem State.working_txOrder (s : State) :
    (s.working).txOrder = s.txOrder := rfl
@[simp] theorem State.working_behind (s : State) :
    (s.working).behind = s.behind := rfl
@[simp] theorem State.working_media (s : State) :
    (s.working).media = s.media := rfl
@[simp] theorem State.working_freeBlocks (s : State) :
    (s.working).freeBlocks = s.freeBlocks := rfl
@[simp] theorem State.working_dir (s : State) :
    (s.working).dir = s.dir := rfl
@[simp] theorem State.working_reclaim (s : State) :
    (s.working).reclaim = s.reclaim := rfl
@[simp] theorem State.working_opens (s : State) :
    (s.working).opens = s.opens := rfl
@[simp] theorem State.working_decks (s : State) :
    (s.working).decks = s.decks := rfl
@[simp] theorem State.working_beds (s : State) :
    (s.working).beds = s.beds := rfl
@[simp] theorem State.working_port (s : State) :
    (s.working).port = s.port := rfl
@[simp] theorem State.working_claim (s : State) :
    (s.working).claim = s.claim := rfl
@[simp] theorem State.working_stations (s : State) :
    (s.working).stations = s.stations := rfl
@[simp] theorem State.working_deferred (s : State) :
    (s.working).deferred = s.deferred := rfl
@[simp] theorem State.working_house (s : State) :
    (s.working).house = s.house := rfl
@[simp] theorem State.working_periodStart (s : State) :
    (s.working).periodStart = s.periodStart := rfl
@[simp] theorem State.working_opening (s : State) :
    (s.working).opening = s.opening := rfl
@[simp] theorem State.working_ref (s : State) :
    (s.working).ref = s.ref := rfl
@[simp] theorem State.working_linkA (s : State) :
    (s.working).linkA = s.linkA := rfl
@[simp] theorem State.working_linkB (s : State) :
    (s.working).linkB = s.linkB := rfl
@[simp] theorem State.working_asrun (s : State) :
    (s.working).asrun = s.asrun := rfl
@[simp] theorem State.working_nextSeq (s : State) :
    (s.working).nextSeq = s.nextSeq := rfl
@[simp] theorem State.working_wrapHold (s : State) :
    (s.working).wrapHold = s.wrapHold := rfl
@[simp] theorem State.working_recordsHeld (s : State) :
    (s.working).recordsHeld = s.recordsHeld := rfl
@[simp] theorem State.working_conds (s : State) :
    (s.working).conds = s.conds := rfl

/-! ### setLink -/

@[simp] theorem State.setLink_pending (s : State) (l : LinkId) (x : AirLink) :
    (s.setLink l x).pending = s.pending := by cases l <;> rfl
@[simp] theorem State.setLink_inReset (s : State) (l : LinkId) (x : AirLink) :
    (s.setLink l x).inReset = s.inReset := by cases l <;> rfl
@[simp] theorem State.setLink_straps (s : State) (l : LinkId) (x : AirLink) :
    (s.setLink l x).straps = s.straps := by cases l <;> rfl
@[simp] theorem State.setLink_rx (s : State) (l : LinkId) (x : AirLink) :
    (s.setLink l x).rx = s.rx := by cases l <;> rfl
@[simp] theorem State.setLink_badMessages (s : State) (l : LinkId) (x : AirLink) :
    (s.setLink l x).badMessages = s.badMessages := by cases l <;> rfl
@[simp] theorem State.setLink_queue (s : State) (l : LinkId) (x : AirLink) :
    (s.setLink l x).queue = s.queue := by cases l <;> rfl
@[simp] theorem State.setLink_handler (s : State) (l : LinkId) (x : AirLink) :
    (s.setLink l x).handler = s.handler := by cases l <;> rfl
@[simp] theorem State.setLink_inHand (s : State) (l : LinkId) (x : AirLink) :
    (s.setLink l x).inHand = s.inHand := by cases l <;> rfl
@[simp] theorem State.setLink_sending (s : State) (l : LinkId) (x : AirLink) :
    (s.setLink l x).sending = s.sending := by cases l <;> rfl
@[simp] theorem State.setLink_txOrder (s : State) (l : LinkId) (x : AirLink) :
    (s.setLink l x).txOrder = s.txOrder := by cases l <;> rfl
@[simp] theorem State.setLink_behind (s : State) (l : LinkId) (x : AirLink) :
    (s.setLink l x).behind = s.behind := by cases l <;> rfl
@[simp] theorem State.setLink_media (s : State) (l : LinkId) (x : AirLink) :
    (s.setLink l x).media = s.media := by cases l <;> rfl
@[simp] theorem State.setLink_freeBlocks (s : State) (l : LinkId) (x : AirLink) :
    (s.setLink l x).freeBlocks = s.freeBlocks := by cases l <;> rfl
@[simp] theorem State.setLink_dir (s : State) (l : LinkId) (x : AirLink) :
    (s.setLink l x).dir = s.dir := by cases l <;> rfl
@[simp] theorem State.setLink_reclaim (s : State) (l : LinkId) (x : AirLink) :
    (s.setLink l x).reclaim = s.reclaim := by cases l <;> rfl
@[simp] theorem State.setLink_opens (s : State) (l : LinkId) (x : AirLink) :
    (s.setLink l x).opens = s.opens := by cases l <;> rfl
@[simp] theorem State.setLink_decks (s : State) (l : LinkId) (x : AirLink) :
    (s.setLink l x).decks = s.decks := by cases l <;> rfl
@[simp] theorem State.setLink_beds (s : State) (l : LinkId) (x : AirLink) :
    (s.setLink l x).beds = s.beds := by cases l <;> rfl
@[simp] theorem State.setLink_port (s : State) (l : LinkId) (x : AirLink) :
    (s.setLink l x).port = s.port := by cases l <;> rfl
@[simp] theorem State.setLink_claim (s : State) (l : LinkId) (x : AirLink) :
    (s.setLink l x).claim = s.claim := by cases l <;> rfl
@[simp] theorem State.setLink_stations (s : State) (l : LinkId) (x : AirLink) :
    (s.setLink l x).stations = s.stations := by cases l <;> rfl
@[simp] theorem State.setLink_deferred (s : State) (l : LinkId) (x : AirLink) :
    (s.setLink l x).deferred = s.deferred := by cases l <;> rfl
@[simp] theorem State.setLink_house (s : State) (l : LinkId) (x : AirLink) :
    (s.setLink l x).house = s.house := by cases l <;> rfl
@[simp] theorem State.setLink_periodStart (s : State) (l : LinkId) (x : AirLink) :
    (s.setLink l x).periodStart = s.periodStart := by cases l <;> rfl
@[simp] theorem State.setLink_opening (s : State) (l : LinkId) (x : AirLink) :
    (s.setLink l x).opening = s.opening := by cases l <;> rfl
@[simp] theorem State.setLink_ref (s : State) (l : LinkId) (x : AirLink) :
    (s.setLink l x).ref = s.ref := by cases l <;> rfl
@[simp] theorem State.setLink_asrun (s : State) (l : LinkId) (x : AirLink) :
    (s.setLink l x).asrun = s.asrun := by cases l <;> rfl
@[simp] theorem State.setLink_nextSeq (s : State) (l : LinkId) (x : AirLink) :
    (s.setLink l x).nextSeq = s.nextSeq := by cases l <;> rfl
@[simp] theorem State.setLink_wrapHold (s : State) (l : LinkId) (x : AirLink) :
    (s.setLink l x).wrapHold = s.wrapHold := by cases l <;> rfl
@[simp] theorem State.setLink_recordsHeld (s : State) (l : LinkId) (x : AirLink) :
    (s.setLink l x).recordsHeld = s.recordsHeld := by cases l <;> rfl
@[simp] theorem State.setLink_conds (s : State) (l : LinkId) (x : AirLink) :
    (s.setLink l x).conds = s.conds := by cases l <;> rfl

/-! ### breakRecord -/

@[simp] theorem State.breakRecord_pending (s : State) (i : Nat) (r : Record) :
    (s.breakRecord i r).pending = s.pending := rfl
@[simp] theorem State.breakRecord_inReset (s : State) (i : Nat) (r : Record) :
    (s.breakRecord i r).inReset = s.inReset := rfl
@[simp] theorem State.breakRecord_straps (s : State) (i : Nat) (r : Record) :
    (s.breakRecord i r).straps = s.straps := rfl
@[simp] theorem State.breakRecord_rx (s : State) (i : Nat) (r : Record) :
    (s.breakRecord i r).rx = s.rx := rfl
@[simp] theorem State.breakRecord_badMessages (s : State) (i : Nat) (r : Record) :
    (s.breakRecord i r).badMessages = s.badMessages := rfl
@[simp] theorem State.breakRecord_queue (s : State) (i : Nat) (r : Record) :
    (s.breakRecord i r).queue = s.queue := rfl
@[simp] theorem State.breakRecord_handler (s : State) (i : Nat) (r : Record) :
    (s.breakRecord i r).handler = s.handler := rfl
@[simp] theorem State.breakRecord_inHand (s : State) (i : Nat) (r : Record) :
    (s.breakRecord i r).inHand = s.inHand := rfl
@[simp] theorem State.breakRecord_sending (s : State) (i : Nat) (r : Record) :
    (s.breakRecord i r).sending = s.sending := rfl
@[simp] theorem State.breakRecord_txOrder (s : State) (i : Nat) (r : Record) :
    (s.breakRecord i r).txOrder = s.txOrder := rfl
@[simp] theorem State.breakRecord_behind (s : State) (i : Nat) (r : Record) :
    (s.breakRecord i r).behind = s.behind := rfl
@[simp] theorem State.breakRecord_media (s : State) (i : Nat) (r : Record) :
    (s.breakRecord i r).media = s.media := rfl
@[simp] theorem State.breakRecord_freeBlocks (s : State) (i : Nat) (r : Record) :
    (s.breakRecord i r).freeBlocks = s.freeBlocks := rfl
@[simp] theorem State.breakRecord_dir (s : State) (i : Nat) (r : Record) :
    (s.breakRecord i r).dir = s.dir := rfl
@[simp] theorem State.breakRecord_reclaim (s : State) (i : Nat) (r : Record) :
    (s.breakRecord i r).reclaim = s.reclaim := rfl
@[simp] theorem State.breakRecord_opens (s : State) (i : Nat) (r : Record) :
    (s.breakRecord i r).opens = s.opens := rfl
@[simp] theorem State.breakRecord_decks (s : State) (i : Nat) (r : Record) :
    (s.breakRecord i r).decks = s.decks := rfl
@[simp] theorem State.breakRecord_beds (s : State) (i : Nat) (r : Record) :
    (s.breakRecord i r).beds = s.beds := rfl
@[simp] theorem State.breakRecord_port (s : State) (i : Nat) (r : Record) :
    (s.breakRecord i r).port = s.port := rfl
@[simp] theorem State.breakRecord_claim (s : State) (i : Nat) (r : Record) :
    (s.breakRecord i r).claim = s.claim := rfl
@[simp] theorem State.breakRecord_stations (s : State) (i : Nat) (r : Record) :
    (s.breakRecord i r).stations = s.stations := rfl
@[simp] theorem State.breakRecord_deferred (s : State) (i : Nat) (r : Record) :
    (s.breakRecord i r).deferred = s.deferred := rfl
@[simp] theorem State.breakRecord_house (s : State) (i : Nat) (r : Record) :
    (s.breakRecord i r).house = s.house := rfl
@[simp] theorem State.breakRecord_periodStart (s : State) (i : Nat) (r : Record) :
    (s.breakRecord i r).periodStart = s.periodStart := rfl
@[simp] theorem State.breakRecord_opening (s : State) (i : Nat) (r : Record) :
    (s.breakRecord i r).opening = s.opening := rfl
@[simp] theorem State.breakRecord_ref (s : State) (i : Nat) (r : Record) :
    (s.breakRecord i r).ref = s.ref := rfl
@[simp] theorem State.breakRecord_linkA (s : State) (i : Nat) (r : Record) :
    (s.breakRecord i r).linkA = s.linkA := rfl
@[simp] theorem State.breakRecord_linkB (s : State) (i : Nat) (r : Record) :
    (s.breakRecord i r).linkB = s.linkB := rfl
@[simp] theorem State.breakRecord_asrun (s : State) (i : Nat) (r : Record) :
    (s.breakRecord i r).asrun = s.asrun := rfl
@[simp] theorem State.breakRecord_nextSeq (s : State) (i : Nat) (r : Record) :
    (s.breakRecord i r).nextSeq = s.nextSeq := rfl
@[simp] theorem State.breakRecord_wrapHold (s : State) (i : Nat) (r : Record) :
    (s.breakRecord i r).wrapHold = s.wrapHold := rfl
@[simp] theorem State.breakRecord_conds (s : State) (i : Nat) (r : Record) :
    (s.breakRecord i r).conds = s.conds := rfl
@[simp] theorem State.breakRecord_recordsHeld (s : State) (i : Nat) (r : Record) :
    (s.breakRecord i r).recordsHeld = placeRecord i r s.recordsHeld := rfl

/-- A break's record joins those held back, and none of them is lost. -/
theorem placeRecord_perm (i : Nat) (r : Record) (l : List (Option Nat × Record)) :
    (placeRecord i r l).Perm ((some i, r) :: l) := by
  induction l with
  | nil => exact List.Perm.refl _
  | cons x xs ih =>
    unfold placeRecord
    split
    · exact List.Perm.refl _
    · exact (ih.cons x).trans (List.Perm.swap _ _ _)

/-- Behind records of the same break for earlier spots, and of others, a record comes last. -/
theorem placeRecord_last {i : Nat} {r : Record} {l : List (Option Nat × Record)}
    (h : ∀ x ∈ l, x.2.station = r.station → x.2.entryId = r.entryId → ∀ k : Nat, x.1 = some k → k ≤ i) :
    placeRecord i r l = l ++ [(some i, r)] := by
  induction l with
  | nil => rfl
  | cons x xs ih =>
    have h1 : ¬ (x.2.station = r.station ∧ x.2.entryId = r.entryId ∧ (x.1.any fun k => decide (i < k)) = true) :=
      fun ⟨a, b, c⟩ => by
        cases hk : x.1 with
        | none => simp [hk] at c
        | some k =>
          have := h x (List.mem_cons_self ..) a b k hk
          simp [hk] at c
          omega
    rw [placeRecord, if_neg h1, ih fun y hy => h y (List.mem_cons_of_mem _ hy)]
    rfl

/-! ### Reading back -/

@[simp] theorem State.setStation_station (s : State) (st : StationId) (x : Station) :
    (s.setStation st x).station st = x := by simp [State.setStation, State.station]

theorem State.setStation_station_ne (s : State) {st u : StationId} (x : Station) (h : st ≠ u) :
    (s.setStation st x).station u = s.station u := by
  have h' : st.val ≠ u.val := fun e => h (Fin.ext e)
  simp [State.setStation, State.station, h']

@[simp] theorem State.modStation_station (s : State) (st : StationId) (f : Station → Station) :
    (s.modStation st f).station st = f (s.station st) := by simp [State.modStation]

theorem State.modStation_station_ne (s : State) {st u : StationId} (f : Station → Station) (h : st ≠ u) :
    (s.modStation st f).station u = s.station u := State.setStation_station_ne s _ h

@[simp] theorem State.setDeck_deck (s : State) (d : DeckId) (x : Deck) : (s.setDeck d x).deck d = x := by
  simp [State.setDeck, State.deck]

theorem State.setDeck_deck_ne (s : State) {d c : DeckId} (x : Deck) (h : d ≠ c) :
    (s.setDeck d x).deck c = s.deck c := by
  have h' : d.val ≠ c.val := fun e => h (Fin.ext e)
  simp [State.setDeck, State.deck, h']

@[simp] theorem State.setBed_bed (s : State) (st : StationId) (x : Bed) : (s.setBed st x).bed st = x := by
  simp [State.setBed, State.bed]

@[simp] theorem State.setCond_cond (s : State) (i : SetId) (c : CondSet) : (s.setCond i c).cond i = c := by
  simp [State.setCond, State.cond]

@[simp] theorem State.setLink_link (s : State) (l : LinkId) (x : AirLink) : (s.setLink l x).link l = x := by
  cases l <;> rfl

theorem State.setLink_link_ne (s : State) {l m : LinkId} (x : AirLink) (h : l ≠ m) :
    (s.setLink l x).link m = s.link m := by cases l <;> cases m <;> first | rfl | exact absurd rfl h

theorem State.setBed_bed_ne (s : State) {st u : StationId} (x : Bed) (h : st ≠ u) :
    (s.setBed st x).bed u = s.bed u := by
  have h' : st.val ≠ u.val := fun e => h (Fin.ext e)
  simp [State.setBed, State.bed, h']

theorem State.setCond_cond_ne (s : State) {i j : SetId} (c : CondSet) (h : i ≠ j) :
    (s.setCond i c).cond j = s.cond j := by
  have h' : i.val ≠ j.val := fun e => h (Fin.ext e)
  simp [State.setCond, State.cond, h']

/-- The parts of a state as read, from its fields. -/
theorem State.station_congr {s t : State} (h : t.stations = s.stations) (st : StationId) :
    t.station st = s.station st := by simp [State.station, h]

theorem State.deck_congr {s t : State} (h : t.decks = s.decks) (d : DeckId) : t.deck d = s.deck d := by
  simp [State.deck, h]

theorem State.bed_congr {s t : State} (h : t.beds = s.beds) (st : StationId) : t.bed st = s.bed st := by
  simp [State.bed, h]

theorem State.cond_congr {s t : State} (h : t.conds = s.conds) (i : SetId) : t.cond i = s.cond i := by
  simp [State.cond, h]

theorem State.held_congr {s t : State} (h : t.decks = s.decks) (st : StationId) : t.held st = s.held st := by
  simp [State.held, State.deck, h]

/-- The first not-started entry takes its due moment with it. -/
theorem Station.dueBut_head {x : Station} {e : Entry} (h : x.waitingList.head? = some e) : x.dueBut e.id = none := by
  simp [Station.dueBut, h]

/-- An entry that is not first leaves the due moment. -/
theorem Station.dueBut_other {x : Station} {id : Nat} (h : ∀ e : Entry, x.waitingList.head? = some e → e.id ≠ id) :
    x.dueBut id = x.due := by
  unfold Station.dueBut
  cases hh : x.waitingList.head? with
  | none => simp
  | some e => simp [h e hh]

end Sys2Proof.Machine
end

