-- ==== Sys2Proof/Laws/Within.lean ====
section
/-!
SUPPORT. What every operation of the stations, the pool, the players and the log keeps: `Within s t` says that `t` has
come from `s` by such operations. It is closed under composition, so that one short lemma per operation carries every
invariant of the part through a whole period.
-/

namespace Sys2Proof.Machine

/-- The fields that no station, pool, player or log operation writes. -/
structure Fixed where
  pending : List Instr
  inReset : Bool
  straps : Fin 4
  rx : Receiver
  badMessages : Count32
  queue : List Message
  handler : Handler
  inHand : Option Message
  media : List Host.Cell
  reclaim : Nat
  opens : Nat
  port : Port
  claim : Option WriteClaim
  deferred : List (StationId × Deferred)
  house : Count48
  periodStart : Nat
  opening : Bool
  ref : RefControl
  linkA : AirLink
  linkB : AirLink

def State.fixed (s : State) : Fixed :=
  ⟨s.pending, s.inReset, s.straps, s.rx, s.badMessages, s.queue, s.handler, s.inHand, s.media, s.reclaim, s.opens, s.port,
    s.claim, s.deferred, s.house, s.periodStart, s.opening, s.ref, s.linkA, s.linkB⟩

/-- What such operations keep. -/
structure Within (s t : State) : Prop where
  fixed : t.fixed = s.fixed
  cfg : ∀ st, (t.station st).cfg = (s.station st).cfg
  offset : ∀ st, (t.station st).offset = (s.station st).offset
  keys : ∀ st, ((t.station st).list.map Entry.key).Sublist ((s.station st).list.map Entry.key)
  load : ∀ st, t.deckLoad st ≤ max (s.deckLoad st) 4
  asrun : s.AsrunKept → t.AsrunKept
  slots : (t.dir.map DirEntry.slot).Sublist (s.dir.map DirEntry.slot)
  blocks : (s.dir.map DirEntry.slot).Nodup → t.blockTotal = s.blockTotal
  conds : ∀ i, s.condInSet i → t.condInSet i
  notices : ∀ i, t.noticeCount i ≤ max (s.noticeCount i) 1

theorem Within.refl (s : State) : Within s s where
  fixed := rfl
  cfg _ := rfl
  offset _ := rfl
  keys _ := List.Sublist.refl _
  load _ := le_max_left _ _
  asrun := id
  slots := List.Sublist.refl _
  blocks _ := rfl
  conds _ h := h
  notices _ := le_max_left _ _

theorem Within.trans {s t u : State} (h : Within s t) (k : Within t u) : Within s u where
  fixed := k.fixed.trans h.fixed
  cfg st := (k.cfg st).trans (h.cfg st)
  offset st := (k.offset st).trans (h.offset st)
  keys st := (k.keys st).trans (h.keys st)
  load st := by have := h.load st; have := k.load st; omega
  asrun := k.asrun ∘ h.asrun
  slots := k.slots.trans h.slots
  blocks n := (k.blocks (h.slots.nodup n)).trans (h.blocks n)
  conds i c := k.conds i (h.conds i c)
  notices i := by have := h.notices i; have := k.notices i; omega

/-! ## The parts a lemma about one operation needs -/

theorem State.deckLoad_congr {s t : State} (hs : t.stations = s.stations) (hd : t.decks = s.decks) (st : StationId) :
    t.deckLoad st = s.deckLoad st := by
  simp [State.deckLoad, State.held_congr hd, State.station_congr hs]

theorem State.blockTotal_congr {s t : State} (hf : t.freeBlocks = s.freeBlocks) (hd : t.dir = s.dir) :
    t.blockTotal = s.blockTotal := by simp [State.blockTotal, hf, hd]

/-- What the rules of the as-run log speak of. -/
def State.log (s : State) : List Record × Count32 × Bool := (s.asrun, s.nextSeq, s.wrapHold)

theorem State.asrunKept_congr {s t : State} (h : t.log = s.log) (k : s.AsrunKept) : t.AsrunKept := by
  simp only [State.log, Prod.mk.injEq] at h
  simpa only [State.AsrunKept, h] using k

/-- An operation that writes none of the stations, decks, log and directory. -/
theorem Within.of_conds {s t : State} (fixed : t.fixed = s.fixed) (hs : t.stations = s.stations)
    (hd : t.decks = s.decks) (ha : t.log = s.log) (hdir : t.dir = s.dir) (hf : t.freeBlocks = s.freeBlocks)
    (conds : ∀ i, s.condInSet i → t.condInSet i) (notices : ∀ i, t.noticeCount i ≤ max (s.noticeCount i) 1) :
    Within s t where
  fixed := fixed
  cfg st := by rw [State.station_congr hs]
  offset st := by rw [State.station_congr hs]
  keys st := by rw [State.station_congr hs]
  load st := by rw [State.deckLoad_congr hs hd]; exact le_max_left _ _
  asrun := State.asrunKept_congr ha
  slots := by rw [hdir]
  blocks _ := State.blockTotal_congr hf hdir
  conds := conds
  notices := notices

/-- An operation that writes neither the conditions nor the transmit order. -/
theorem Within.of_body {s t : State} (fixed : t.fixed = s.fixed) (hc : t.conds = s.conds) (ht : t.txOrder = s.txOrder)
    (hb : t.behind = s.behind) (cfg : ∀ st, (t.station st).cfg = (s.station st).cfg)
    (offset : ∀ st, (t.station st).offset = (s.station st).offset)
    (keys : ∀ st, ((t.station st).list.map Entry.key).Sublist ((s.station st).list.map Entry.key))
    (load : ∀ st, t.deckLoad st ≤ max (s.deckLoad st) 4) (asrun : s.AsrunKept → t.AsrunKept)
    (slots : (t.dir.map DirEntry.slot).Sublist (s.dir.map DirEntry.slot))
    (blocks : (s.dir.map DirEntry.slot).Nodup → t.blockTotal = s.blockTotal) : Within s t where
  fixed := fixed
  cfg := cfg
  offset := offset
  keys := keys
  load := load
  asrun := asrun
  slots := slots
  blocks := blocks
  conds i h := by simpa [State.condInSet, State.cond_congr hc] using h
  notices i := by simp [State.noticeCount, ht, hb]

/-! ## Stations -/

/-- A station changed in nothing that `Within` asks about, but for entries and requests that left. -/
structure Station.Lesser (x y : Station) : Prop where
  cfg : y.cfg = x.cfg
  offset : y.offset = x.offset
  keys : (y.list.map Entry.key).Sublist (x.list.map Entry.key)
  requests : y.requests.length ≤ x.requests.length

/-- A station changed in neither its configuration nor its list nor its requests. -/
theorem Station.Lesser.of_eq {x y : Station} (cfg : y.cfg = x.cfg) (offset : y.offset = x.offset)
    (list : y.list = x.list) (requests : y.requests = x.requests) : Station.Lesser x y :=
  ⟨cfg, offset, by rw [list], by rw [requests]⟩

theorem State.held_setStation (s : State) (st u : StationId) (x : Station) : (s.setStation st x).held u = s.held u :=
  State.held_congr rfl u

theorem Within.setStation {s : State} {st : StationId} {x : Station} (h : Station.Lesser (s.station st) x) :
    Within s (s.setStation st x) := by
  refine Within.of_body rfl rfl rfl rfl ?_ ?_ ?_ ?_ id (List.Sublist.refl _) (fun _ => rfl) <;>
    intro u <;> by_cases hu : st = u
  · subst hu; simpa using h.cfg
  · rw [State.setStation_station_ne s x hu]
  · subst hu; simpa using h.offset
  · rw [State.setStation_station_ne s x hu]
  · subst hu; simpa using h.keys
  · rw [State.setStation_station_ne s x hu]
  · subst hu
    have := h.requests
    simp only [State.deckLoad, State.held_setStation, State.setStation_station]
    omega
  · simp only [State.deckLoad, State.held_setStation, State.setStation_station_ne s x hu]
    omega

theorem Within.modStation {s : State} {st : StationId} {f : Station → Station} (h : ∀ x, Station.Lesser x (f x)) :
    Within s (s.modStation st f) := Within.setStation (h _)

/-- A change of a list's entries that leaves their keys. -/
theorem Entry.map_key {l : List Entry} {f : Entry → Entry} (h : ∀ e, (f e).key = e.key) :
    (l.map f).map Entry.key = l.map Entry.key := by simp [List.map_map, Function.comp_def, h]

theorem Within.modEntry {s : State} {st : StationId} {id : Nat} {f : Entry → Entry} (h : ∀ e, (f e).key = e.key) :
    Within s (s.modEntry st id f) :=
  Within.modStation fun x =>
    ⟨rfl, rfl, by rw [Entry.map_key]; intro e; split <;> simp [h], le_refl _⟩

/-- A change of a break's data that leaves its duration. -/
theorem Within.modBreak {s : State} {st : StationId} {id : Nat} {f : BreakData → BreakData}
    (h : ∀ b, (f b).duration = b.duration) : Within s (s.modBreak st id f) := by
  refine Within.modEntry fun e => ?_
  split
  · rfl
  · rename_i b hb
    simp [Entry.key, Entry.endTime, hb, h, Entry.dueTime]

theorem Within.modSpot {s : State} {st : StationId} {id i : Nat} {f : Spot → Spot} : Within s (s.modSpot st id i f) :=
  Within.modBreak fun _ => rfl

theorem Within.markDirty {s : State} {st : StationId} : Within s (s.markDirty st) :=
  Within.modStation fun _ => .of_eq rfl rfl rfl rfl

/-! ## Decks and bed players -/

theorem State.held_setDeck {s : State} {d : DeckId} {x : Deck} (h : x.station = (s.deck d).station ∨ x.station = none)
    (st : StationId) : ((s.setDeck d x).held st).length ≤ (s.held st).length := by
  unfold State.held
  rw [← List.countP_eq_length_filter, ← List.countP_eq_length_filter]
  refine List.countP_mono_left fun c _ hc => ?_
  by_cases hd : d = c
  · subst hd
    rw [State.setDeck_deck] at hc
    rcases h with h | h
    · rwa [h] at hc
    · rw [h] at hc; simp at hc
  · rwa [State.setDeck_deck_ne s x hd] at hc

theorem Within.setDeck {s : State} {d : DeckId} {x : Deck}
    (h : x.station = (s.deck d).station ∨ x.station = none) : Within s (s.setDeck d x) := by
  refine Within.of_body rfl rfl rfl rfl (fun _ => rfl) (fun _ => rfl) (fun _ => List.Sublist.refl _) (fun st => ?_)
    id (List.Sublist.refl _) (fun _ => rfl)
  have := State.held_setDeck h st
  have e : (s.setDeck d x).station st = s.station st := rfl
  simp only [State.deckLoad, e]
  omega

theorem Within.modPlayer {s : State} {d : DeckId} {f : Player → Player} : Within s (s.modPlayer d f) :=
  Within.setDeck (.inl rfl)

theorem Within.setBed {s : State} {st : StationId} {x : Bed} : Within s (s.setBed st x) :=
  Within.of_conds rfl rfl rfl rfl rfl rfl (fun _ h => h) (fun _ => le_max_left _ _)

theorem Within.modBedPlayer {s : State} {st : StationId} {f : Player → Player} : Within s (s.modBedPlayer st f) :=
  Within.setBed

/-! ## The directory -/

theorem Within.modDir {s : State} {slot : Nat} {f : DirEntry → DirEntry}
    (h : ∀ e, (f e).slot = e.slot ∧ (f e).blocks = e.blocks) : Within s (s.modDir slot f) := by
  refine Within.of_body rfl rfl rfl rfl (fun _ => rfl) (fun _ => rfl) (fun _ => List.Sublist.refl _)
    (fun _ => le_max_left _ _) id ?_ (fun _ => ?_)
  · have : ((s.modDir slot f).dir.map DirEntry.slot) = s.dir.map DirEntry.slot := by
      simp only [State.modDir, List.map_map]
      refine List.map_congr_left fun e _ => ?_
      by_cases he : e.slot = slot <;> simp [he, h]
    rw [this]
  · have : ((s.modDir slot f).dir.map fun e => runsTotal e.blocks) = s.dir.map fun e => runsTotal e.blocks := by
      simp only [State.modDir, List.map_map]
      refine List.map_congr_left fun e _ => ?_
      by_cases he : e.slot = slot <;> simp [he, h]
    simp only [State.blockTotal, this]
    rfl

theorem Within.bindSlot {s : State} {slot : Nat} : Within s (s.bindSlot slot) := Within.modDir fun _ => ⟨rfl, rfl⟩

@[simp] theorem runsTotal_append (xs ys : List Run) : runsTotal (xs ++ ys) = runsTotal xs + runsTotal ys := by
  simp [runsTotal]

/-- Taking the one entry of a slot out of a directory without repeats. -/
theorem blocks_without_slot {dir : List DirEntry} {slot : Nat} {e : DirEntry} (n : (dir.map DirEntry.slot).Nodup)
    (h : dir.find? (fun x => x.slot == slot) = some e) :
    runsTotal e.blocks + ((dir.filter fun x => x.slot != slot).map fun x => runsTotal x.blocks).sum =
      (dir.map fun x => runsTotal x.blocks).sum := by
  induction dir with
  | nil => simp at h
  | cons x xs ih =>
    simp only [List.map_cons, List.nodup_cons] at n
    rw [List.find?_cons] at h
    by_cases hx : x.slot = slot
    · simp only [hx, beq_self_eq_true, Option.some.injEq] at h
      subst h
      have hf : xs.filter (fun y => y.slot != slot) = xs := by
        refine List.filter_eq_self.2 fun y hy => ?_
        have : y.slot ≠ slot := fun hs => n.1 (hx ▸ hs ▸ List.mem_map_of_mem hy)
        simpa using this
      simp [hx, hf]
    · have hx' : (x.slot == slot) = false := by simpa using hx
      rw [hx'] at h
      have := ih n.2 h
      simp [hx]
      omega

theorem Within.removeDir {s : State} {slot : Nat} : Within s (s.removeDir slot) := by
  unfold State.removeDir
  split
  · exact Within.refl _
  · rename_i e he
    refine Within.of_body rfl rfl rfl rfl (fun _ => rfl) (fun _ => rfl) (fun _ => List.Sublist.refl _)
      (fun _ => le_max_left _ _) id (List.Sublist.map _ (List.filter_sublist)) (fun n => ?_)
    have := blocks_without_slot n he
    simp only [State.blockTotal, runsTotal_append]
    omega

/-! ## Conditions and notices -/

theorem startNext_count (cs : Vector CondSet 7) (tx : List TxItem) (i : SetId) :
    ((startNext cs tx).2.count (.notice i)) ≤ tx.count (.notice i) := by
  induction tx with
  | nil => simp [startNext]
  | cons x xs ih =>
    cases x with
    | reply b => simp [startNext]
    | notice j =>
      simp only [startNext]
      split
      · exact ih.trans (List.count_le_count_cons)
      · exact List.count_le_count_cons

theorem Within.pump {s : State} : Within s s.pump := by
  unfold State.pump
  split
  · exact Within.refl _
  · refine Within.of_conds rfl rfl rfl rfl rfl rfl (fun _ h => h) fun i => ?_
    have := startNext_count s.conds s.txOrder i
    simp only [State.noticeCount]
    omega

theorem State.noticeCount_zero {s : State} {i : SetId} (h : s.noticeWaits i = false) : s.noticeCount i = 0 := by
  simp only [State.noticeWaits, Bool.or_eq_false_iff] at h
  have h1 : i ∉ s.behind := by simpa using h.1
  have h2 : TxItem.notice i ∉ s.txOrder := by simpa using h.2
  simp [State.noticeCount, List.count_eq_zero_of_not_mem h1, List.count_eq_zero_of_not_mem h2]

theorem Within.trigger {s : State} {i : SetId} : Within s (s.trigger i) := by
  unfold State.trigger
  split
  · exact Within.refl _
  · rename_i hw
    have h0 := State.noticeCount_zero (by simpa using hw : s.noticeWaits i = false)
    split
    · refine Within.of_conds rfl rfl rfl rfl rfl rfl (fun _ h => h) fun j => ?_
      by_cases hj : i = j
      · subst hj; simp only [State.noticeCount] at h0 ⊢; simp; omega
      · simp [State.noticeCount, hj]
    · refine Within.trans ?_ Within.pump
      refine Within.of_conds rfl rfl rfl rfl rfl rfl (fun _ h => h) fun j => ?_
      by_cases hj : i = j
      · subst hj; simp only [State.noticeCount] at h0 ⊢; simp; omega
      · have : ¬ TxItem.notice i = TxItem.notice j := by simpa using hj
        simp [State.noticeCount, this]

/-- A condition set written within its set's bits. -/
theorem Within.setCond {s : State} {i : SetId} {c : CondSet}
    (h : s.condInSet i → c.pending &&& ~~~setBits i = 0 ∧ c.enabled &&& ~~~setBits i = 0) : Within s (s.setCond i c) := by
  refine Within.of_conds rfl rfl rfl rfl rfl rfl (fun j hj => ?_) (fun _ => le_max_left _ _)
  by_cases hi : i = j
  · subst hi; simpa [State.condInSet] using h hj
  · simpa [State.condInSet, State.setCond_cond_ne s c hi] using hj

theorem Within.raiseBits {s : State} {i : SetId} {m : Byte} (h : m &&& ~~~setBits i = 0) :
    Within s (s.raiseBits i m) := by
  have h1 : Within s (s.setCond i ((s.cond i).raise m)) := by
    refine Within.setCond fun c => ⟨?_, c.2⟩
    simp only [CondSet.raise]
    have e : ((s.cond i).pending ||| m) &&& ~~~setBits i =
        ((s.cond i).pending &&& ~~~setBits i) ||| (m &&& ~~~setBits i) := by
      ext j hj; simp; cases (s.cond i).pending[j] <;> cases m[j] <;> simp
    rw [e, c.1, h]; rfl
  unfold State.raiseBits
  simp only
  split
  · exact h1
  · exact h1.trans Within.trigger

theorem Within.dropBits {s : State} {i : SetId} {m : Byte} : Within s (s.dropBits i m) := by
  refine Within.setCond fun c => ⟨?_, c.2⟩
  simp only [CondSet.drop]
  have e : ((s.cond i).pending &&& ~~~m) &&& ~~~setBits i = ((s.cond i).pending &&& ~~~setBits i) &&& ~~~m := by
    ext j hj; simp; cases (s.cond i).pending[j] <;> cases m[j] <;> simp
  rw [e, c.1]; simp

theorem StationCond.mask_inSet (c : StationCond) (st : StationId) : c.mask &&& ~~~setBits (stationSet st) = 0 := by
  have : setBits (stationSet st) = 0x3F := by
    have := st.isLt
    simp [setBits, stationSet]
  rw [this]; cases c <;> decide

theorem DeviceCond.mask_inSet (c : DeviceCond) : c.mask &&& ~~~setBits deviceSet = 0 := by cases c <;> decide

theorem Within.raiseStation {s : State} {st : StationId} {c : StationCond} : Within s (s.raiseStation st c) :=
  Within.raiseBits (c.mask_inSet st)

theorem Within.raiseDevice {s : State} {c : DeviceCond} : Within s (s.raiseDevice c) := Within.raiseBits c.mask_inSet

/-! ## The log and the fault records -/

/-- The queue and the counter behind a record keep the log's rules (R185). -/
theorem LogRules.add {s : State} (r : Record) (k : s.AsrunKept) :
    let q := if s.logAccepts then s.asrun ++ [{ r with seq := s.nextSeq }] else s.asrun
    LogRules q (s.nextSeq + 1) (s.wrapHold || (s.nextSeq == 4294967295 && !q.isEmpty)) := by
  obtain ⟨k1, k2, k3⟩ := k
  have step (h : (s.nextSeq == 4294967295) = false) : s.nextSeq < s.nextSeq + 1 := by
    have h1 : s.nextSeq.toNat ≠ 4294967295 := fun e => by
      have : s.nextSeq = 4294967295 := BitVec.eq_of_toNat_eq (by simp [e])
      simp [this] at h
    have h2 := s.nextSeq.isLt
    rw [BitVec.lt_def, BitVec.toNat_add, show (1 : Count32).toNat = 1 from rfl]
    omega
  by_cases ha : s.logAccepts = true
  · have hl := of_decide_eq_true (Bool.and_eq_true_iff.1 ha).1
    have hw : s.wrapHold = false := by simpa [State.logAccepts] using (Bool.and_eq_true_iff.1 ha).2
    simp only [Config.asrunLimit] at hl
    simp only [ha, if_true]
    refine ⟨by simp only [List.length_append, List.length_cons, List.length_nil]; omega, ?_, fun h x hx => ?_⟩
    · refine List.pairwise_append.2 ⟨k2, List.pairwise_singleton _ _, fun x hx y hy => ?_⟩
      rw [List.mem_singleton.1 hy]
      exact k3 hw x hx
    · have hn : (s.nextSeq == 4294967295) = false := by simpa [hw] using h
      rcases List.mem_append.1 hx with hx | hx
      · exact BitVec.lt_trans (k3 hw x hx) (step hn)
      · rw [List.mem_singleton.1 hx]
        exact step hn
  · simp only [ha]
    refine ⟨k1, k2, fun h x hx => ?_⟩
    simp only [Bool.or_eq_false_iff, Bool.and_eq_false_iff] at h
    obtain ⟨hw, hn | hn⟩ := h
    · exact BitVec.lt_trans (k3 hw x hx) (step hn)
    · have : s.asrun = [] := by simpa using hn
      rw [this] at hx
      simp at hx

theorem Within.addRecord {s : State} {r : Record} : Within s (s.addRecord r) := by
  have h1 (q : List Record) (n : Count32) (w : Bool) (hq : s.AsrunKept → LogRules q n w) :
      Within s { s with asrun := q, nextSeq := n, wrapHold := w } :=
    Within.of_body rfl rfl rfl rfl (fun _ => rfl) (fun _ => rfl) (fun _ => List.Sublist.refl _)
      (fun _ => le_max_left _ _) hq (List.Sublist.refl _) (fun _ => rfl)
  unfold State.addRecord
  simp only
  split
  · exact (h1 _ _ _ (LogRules.add r)).trans Within.raiseDevice
  · split
    · exact (h1 _ _ _ (LogRules.add r)).trans Within.raiseDevice
    · exact h1 _ _ _ (LogRules.add r)

/-- Either way of a choice. -/
theorem Within.ite {s t u : State} {b : Prop} [Decidable b] (h : Within s t) (k : Within s u) :
    Within s (if b then t else u) := by
  split
  · exact h
  · exact k

theorem Within.record {s : State} {r : Record} : Within s (s.record r) := by
  unfold State.record
  split
  · exact Within.addRecord
  · exact Within.of_conds rfl rfl rfl rfl rfl rfl (fun _ h => h) (fun _ => le_max_left _ _)

theorem Within.reportFault {s : State} {st : StationId} {c : FaultCause} {id cart t : Nat} :
    Within s (s.reportFault st c id cart t) := by
  unfold State.reportFault
  split
  · refine Within.trans (Within.modStation ?_) Within.raiseStation
    exact fun _ => .of_eq rfl rfl rfl rfl
  · exact Within.modStation fun _ => .of_eq rfl rfl rfl rfl

theorem Within.breakRecord {s : State} {i : Nat} {r : Record} : Within s (s.breakRecord i r) :=
  Within.of_conds rfl rfl rfl rfl rfl rfl (fun _ h => h) (fun _ => le_max_left _ _)

/-! ## Composition -/

theorem Within.forEach {α : Type} {s : State} {xs : List α} {f : α → State → State}
    (h : ∀ x t, Within t (f x t)) : Within s (forEach xs f s) := by
  unfold Machine.forEach
  induction xs generalizing s with
  | nil => exact Within.refl _
  | cons x xs ih => exact (h x s).trans ih

theorem Within.logWhile {s : State} {p : Option Nat × Record → Bool} : Within s (s.logWhile p) := by
  refine Within.trans (t := { s with recordsHeld := s.recordsHeld.dropWhile p }) ?_
    (Within.forEach fun _ _ => Within.addRecord)
  exact Within.of_conds rfl rfl rfl rfl rfl rfl (fun _ h => h) (fun _ => le_max_left _ _)

theorem Within.release {s : State} : Within s s.release := Within.ite (.refl _) Within.logWhile

theorem Within.logHeld {s : State} : Within s s.logHeld := Within.logWhile

end Sys2Proof.Machine
end

