-- ==== Sys2Proof/Laws/Pool.lean ====
section
/-!
SUPPORT. `Within` for the operations of Ops, Pool, Arming, Air, Breaks and Deferred: one lemma per operation.
-/

namespace Sys2Proof.Machine

/-! ## Run lists and players -/

theorem Within.evalLow {s : State} {st : StationId} : Within s (s.evalLow st) := by
  unfold State.evalLow
  simp only
  have h1 (b : Bool) : Within s (s.modStation st fun y => { y with lowRel := b }) :=
    Within.modStation fun _ => .of_eq rfl rfl rfl rfl
  split
  · exact (h1 _).trans Within.raiseStation
  · split
    · exact (h1 _).trans Within.dropBits
    · exact h1 _

theorem Within.removeEntry {s : State} {st : StationId} {id : Nat} : Within s (s.removeEntry st id) := by
  unfold State.removeEntry
  simp only
  refine Within.trans (Within.modStation ?_) Within.evalLow
  exact fun x => ⟨rfl, rfl, (List.filter_sublist).map _, le_refl _⟩

theorem Within.withdraw {s : State} {st : StationId} {p : Target → Bool} : Within s (s.withdraw st p) :=
  Within.modStation fun _ => ⟨rfl, rfl, List.Sublist.refl _, List.length_filter_le _ _⟩

theorem Within.deckFault {s : State} {d : DeckId} {c : FaultCause} : Within s (s.deckFault d c) := by
  unfold State.deckFault
  split
  · exact Within.refl _
  · exact Within.reportFault

theorem Within.bedFault {s : State} {st : StationId} {c : FaultCause} : Within s (s.bedFault st c) :=
  Within.reportFault

theorem Within.setCutMark {s : State} {d : DeckId} : Within s (s.setCutMark d) := by
  unfold State.setCutMark
  split
  · exact Within.modEntry fun _ => rfl
  · exact Within.modSpot
  · exact Within.setDeck (.inl rfl)
  · exact Within.refl _

theorem Within.cutDeck {s : State} {n : Nat} {d : DeckId} : Within s (s.cutDeck n d) := by
  unfold State.cutDeck
  split
  · exact Within.refl _
  · split
    · exact Within.refl _
    · exact Within.modPlayer.trans Within.setCutMark

theorem Within.cutSounding {s : State} {st : StationId} {n : Nat} : Within s (s.cutSounding st n) :=
  Within.forEach fun _ _ => Within.cutDeck

theorem Within.cutBed {s : State} {st : StationId} {n : Nat} : Within s (s.cutBed st n) := by
  unfold State.cutBed
  split
  · exact Within.refl _
  · split
    · exact Within.refl _
    · exact Within.modBedPlayer

/-! ## The deck pool -/

theorem Within.setWaiting {s : State} {st : StationId} {t : Target} : Within s (s.setWaiting st t) := by
  cases t
  · exact Within.modEntry fun _ => rfl
  · exact Within.modSpot
  · exact Within.modBreak fun _ => rfl
  · exact Within.refl _
  · exact Within.refl _

theorem Within.setGranted {s : State} {st : StationId} {d : DeckId} {t : Target} : Within s (s.setGranted st d t) := by
  cases t
  · exact Within.modEntry fun _ => rfl
  · refine Within.trans Within.modSpot (Within.modEntry ?_)
    exact fun _ => rfl
  · refine Within.trans (Within.modBreak ?_) (Within.modEntry ?_)
    · exact fun _ => rfl
    · exact fun _ => rfl
  · exact Within.refl _
  · exact Within.refl _

theorem Within.spotMissing {s : State} {st : StationId} {e : Entry} {b : BreakData} {i : Nat} {p : Spot} :
    Within s (s.spotMissing st e b i p) := by
  unfold State.spotMissing
  simp only
  refine Within.trans (Within.modBreak ?_)
    ((Within.breakRecord.trans Within.release).trans (Within.reportFault.trans Within.markDirty))
  exact fun _ => rfl

theorem Within.fillAbsent {s : State} {st : StationId} {id : Nat} : Within s (s.fillAbsent st id) := by
  unfold State.fillAbsent
  refine Within.trans (Within.modBreak ?_) Within.raiseStation
  exact fun _ => rfl

theorem Within.deadRequest {s : State} {st : StationId} {r : DeckRequest} : Within s (s.deadRequest st r) := by
  unfold State.deadRequest
  simp only
  refine Within.trans (Within.modStation ?_) ?_ (t := s.modStation st fun x =>
    { x with requests := x.requests.erase r, dirty := true })
  · exact fun _ => ⟨rfl, rfl, List.Sublist.refl _, List.length_erase_le⟩
  · split
    · exact Within.modEntry fun _ => rfl
    · split
      · exact Within.refl _
      · split
        · exact Within.refl _
        · split
          · exact Within.refl _
          · split
            · exact Within.spotMissing
            · exact Within.modSpot
    · exact Within.fillAbsent
    · exact Within.refl _
    · exact Within.refl _

/-- The choice of the arbiter is a waiting request (R26). -/
theorem betterRequest_mem {s : State} {acc : Option (StationId × DeckRequest)}
    (h : ∀ q, acc = some q → q.2 ∈ (s.station q.1).requests) {st : StationId} {r : DeckRequest}
    (hr : r ∈ (s.station st).requests) :
    ∀ q, betterRequest acc st r = some q → q.2 ∈ (s.station q.1).requests := by
  intro q hq
  cases acc with
  | none =>
    simp only [betterRequest, Option.some.injEq] at hq
    subst hq; exact hr
  | some a =>
    simp only [betterRequest] at hq
    split at hq
    · simp only [Option.some.injEq] at hq; subst hq; exact hr
    · simp only [Option.some.injEq] at hq; subst hq; exact h _ rfl

theorem bestRequest_mem {s : State} {st : StationId} {r : DeckRequest} (h : s.bestRequest = some (st, r)) :
    r ∈ (s.station st).requests := by
  have inner (u : StationId) (rs : List DeckRequest) (hrs : ∀ x ∈ rs, x ∈ (s.station u).requests)
      (acc : Option (StationId × DeckRequest)) (ha : ∀ q, acc = some q → q.2 ∈ (s.station q.1).requests) :
      ∀ q, rs.foldl (fun a x => betterRequest a u x) acc = some q → q.2 ∈ (s.station q.1).requests := by
    induction rs generalizing acc with
    | nil => exact ha
    | cons x xs ih =>
      exact ih (fun y hy => hrs y (List.mem_cons_of_mem _ hy)) _
        (betterRequest_mem ha (hrs x List.mem_cons_self))
  have outer (us : List StationId) (acc : Option (StationId × DeckRequest))
      (ha : ∀ q, acc = some q → q.2 ∈ (s.station q.1).requests) :
      ∀ q, us.foldl (fun acc u => (s.station u).requests.foldl (fun a x => betterRequest a u x) acc) acc = some q →
        q.2 ∈ (s.station q.1).requests := by
    induction us generalizing acc with
    | nil => exact ha
    | cons u us ih => exact ih _ (inner u _ (fun _ h => h) _ ha)
  exact outer allStations none (fun _ h => by simp at h) (st, r) h

theorem State.deckLoad_setStation (s : State) (st u : StationId) (x : Station) :
    (s.setStation st x).deckLoad u =
      (s.held u).length + (if st = u then x.requests.length else (s.station u).requests.length) := by
  unfold State.deckLoad
  rw [State.held_setStation]
  split
  · rename_i h; subst h; simp
  · rename_i h; rw [State.setStation_station_ne s x h]

theorem mem_allDecks (d : DeckId) : d ∈ allDecks := by revert d; decide

theorem mem_allStations (st : StationId) : st ∈ allStations := by revert st; decide

/-- A deck given to a station adds at most one deck to that station's, and none to another's. -/
theorem State.held_give {s : State} {d : DeckId} {x : Deck} {st : StationId} (h : x.station = some st)
    (u : StationId) : ((s.setDeck d x).held u).length ≤ (s.held u).length + (if u = st then 1 else 0) := by
  unfold State.held
  have key (l : List DeckId) (n : l.Nodup) :
      (l.filter fun c => ((s.setDeck d x).deck c).station == some u).length ≤
        (l.filter fun c => (s.deck c).station == some u).length + (if u = st ∧ d ∈ l then 1 else 0) := by
    induction l with
    | nil => simp
    | cons c cs ih =>
      have n' := List.nodup_cons.1 n
      have ih := ih n'.2
      by_cases hc : d = c
      · subst hc
        have hnot : d ∉ cs := n'.1
        simp only [hnot, and_false, if_false] at ih
        simp only [List.filter_cons, State.setDeck_deck, h, List.mem_cons, true_or, and_true]
        have hsw : (some st == some u) = decide (u = st) := by
          by_cases hu : u = st
          · subst hu; simp
          · have : st ≠ u := fun e => hu e.symm
            simp [hu, this]
        rw [hsw]
        by_cases hu : u = st
        · simp only [hu, decide_true, if_true, List.length_cons]
          simp only [hu] at ih
          by_cases hs : ((s.deck d).station == some st) = true <;> simp [hs] <;> omega
        · simp only [hu, decide_false, if_false]
          by_cases hs : ((s.deck d).station == some u) = true <;> simp [hs] <;> simp at ih <;> omega
      · simp only [List.filter_cons, State.setDeck_deck_ne s x hc, List.mem_cons, hc, false_or]
        split <;> simp <;> omega
  have := key allDecks (by decide)
  have hd : d ∈ allDecks := mem_allDecks d
  simpa [hd] using this

theorem Within.grant {s : State} {st : StationId} {r : DeckRequest} {d : DeckId} {e : DirEntry}
    (hr : r ∈ (s.station st).requests) : Within s (s.grant st r d e) := by
  unfold State.grant
  simp only
  refine Within.trans ?_ (Within.bindSlot.trans Within.setGranted)
  refine Within.of_body rfl rfl rfl rfl (fun u => ?_) (fun u => ?_) (fun u => ?_) (fun u => ?_) id
    (List.Sublist.refl _) (fun _ => rfl)
  · by_cases hu : st = u
    · subst hu; simp [State.station_congr (State.setDeck_stations _ _ _)]
    · rw [State.station_congr (State.setDeck_stations _ _ _), State.modStation_station_ne _ _ hu]
  · by_cases hu : st = u
    · subst hu; simp [State.station_congr (State.setDeck_stations _ _ _)]
    · rw [State.station_congr (State.setDeck_stations _ _ _), State.modStation_station_ne _ _ hu]
  · by_cases hu : st = u
    · subst hu; simp [State.station_congr (State.setDeck_stations _ _ _)]
    · rw [State.station_congr (State.setDeck_stations _ _ _), State.modStation_station_ne _ _ hu]
  · have hh := State.held_give (s := s.modStation st fun x => { x with requests := x.requests.erase r, dirty := true })
      (d := d) (x := ⟨(s.deck d).player.bound e r.looping, some st, some r.target⟩) (st := st) rfl u
    have hm : (s.modStation st fun x => { x with requests := x.requests.erase r, dirty := true }).held u = s.held u :=
      State.held_congr rfl u
    rw [hm] at hh
    have hl := List.length_erase_of_mem hr
    have hp := List.length_pos_of_mem hr
    simp only [State.deckLoad]
    rw [State.station_congr (State.setDeck_stations _ _ _)]
    by_cases hu : st = u
    · subst hu
      simp only [if_true] at hh
      simp only [State.modStation_station]
      omega
    · rw [State.modStation_station_ne _ _ hu]
      have hu' : ¬ u = st := fun e => hu e.symm
      simp only [hu', if_false] at hh
      omega

theorem Within.arbitrateOnce {s t : State} (h : s.arbitrateOnce = some t) : Within s t := by
  unfold State.arbitrateOnce at h
  split at h
  · rename_i d st r _ hb
    split at h
    · simp only [Option.some.injEq] at h
      subst h
      split
      · exact Within.grant (bestRequest_mem hb)
      · exact Within.deadRequest
    · simp only [Option.some.injEq] at h
      subst h; exact Within.deadRequest
  · simp at h

theorem Within.arbitrateLoop {n : Nat} {s : State} : Within s (arbitrateLoop n s) := by
  induction n generalizing s with
  | zero => exact Within.refl _
  | succ n ih =>
    unfold Machine.arbitrateLoop
    split
    · exact Within.refl _
    · rename_i h; exact (Within.arbitrateOnce h).trans ih

theorem Within.arbitrate {s : State} : Within s s.arbitrate := Within.arbitrateLoop

theorem Within.requestDeck {s : State} {st : StationId} {t : Target} {slot : Nat} {lp : Bool} {n : Nat} :
    Within s (s.requestDeck st t slot lp n) := by
  unfold State.requestDeck
  split
  · exact Within.refl _
  · rename_i hc
    refine Within.trans ?_ (Within.setWaiting.trans Within.arbitrate)
    have hcap : (s.held st).length + (s.station st).requests.length < 4 := by
      have hb : s.belowCap st = true := by simpa using hc
      exact of_decide_eq_true hb
    refine Within.of_body rfl rfl rfl rfl (fun u => ?_) (fun u => ?_) (fun u => ?_) (fun u => ?_) id
      (List.Sublist.refl _) (fun _ => rfl)
    · by_cases hu : st = u
      · subst hu; simp
      · rw [State.modStation_station_ne _ _ hu]
    · by_cases hu : st = u
      · subst hu; simp
      · rw [State.modStation_station_ne _ _ hu]
    · by_cases hu : st = u
      · subst hu; simp
      · rw [State.modStation_station_ne _ _ hu]
    · rw [State.modStation, State.deckLoad_setStation]
      split
      · rename_i hu; subst hu; simp; omega
      · simp only [State.deckLoad]; omega

theorem Within.remakeRequest {s : State} {st : StationId} {t : Target} : Within s (s.remakeRequest st t) := by
  unfold State.remakeRequest
  split
  · exact Within.refl _
  · refine Within.trans (Within.modStation ?_) Within.requestDeck
    exact fun _ => ⟨rfl, rfl, List.Sublist.refl _, List.length_erase_le⟩

theorem Within.unbindSlot {s : State} {slot : Nat} : Within s (s.unbindSlot slot) := by
  unfold State.unbindSlot
  split
  · exact Within.refl _
  · split
    · exact Within.removeDir
    · exact Within.modDir fun _ => ⟨rfl, rfl⟩

theorem Within.freeDeck {s : State} {d : DeckId} : Within s (s.freeDeck d) := by
  unfold State.freeDeck
  split
  · exact Within.refl _
  · simp only
    refine Within.trans (t := s.setDeck d ⟨(s.deck d).player.freed, none, none⟩) (Within.setDeck (.inr rfl))
      (Within.trans ?_ (Within.markDirty.trans Within.arbitrate))
    split
    · exact Within.refl _
    · exact Within.unbindSlot

theorem Within.freeServed {s : State} {v : Served} : Within s (s.freeServed v) := by
  cases v
  · exact Within.refl _
  · exact Within.refl _
  · exact Within.freeDeck

/-! ## Bed players and announcements -/

theorem Within.bedUnbind {s : State} {st : StationId} : Within s (s.bedUnbind st) := by
  unfold State.bedUnbind
  simp only
  refine Within.trans Within.modBedPlayer ?_ (t := s.modBedPlayer st fun p => { p.freed with buffer := [] })
  split
  · exact Within.refl _
  · exact Within.unbindSlot

theorem Within.bedBind {s : State} {st : StationId} {e : DirEntry} : Within s (s.bedBind st e) :=
  Within.modBedPlayer.trans Within.bindSlot

theorem Within.bedTryBind {s : State} {st : StationId} : Within s (s.bedTryBind st) := by
  unfold State.bedTryBind
  split
  · split
    · exact Within.refl _
    · exact Within.bedBind
  · exact Within.refl _

theorem Within.bedCheck {s : State} {st : StationId} : Within s (s.bedCheck st) := by
  unfold State.bedCheck
  simp only
  refine Within.trans ?_ Within.bedTryBind
  split
  · exact Within.bedUnbind
  · exact Within.refl _

theorem Within.announce {s : State} : Within s s.announce := by
  unfold State.announce
  simp only
  refine Within.trans (Within.trans (Within.forEach ?_) (Within.forEach ?_)) (Within.forEach ?_)
  · exact fun _ _ => Within.forEach fun _ _ => Within.deadRequest
  · exact fun _ _ => Within.markDirty
  · exact fun _ _ => Within.bedCheck

/-! ## Arming -/

theorem Within.resolveFill {s : State} {st : StationId} {id : Nat} {b : BreakData} :
    Within s (s.resolveFill st id b) := by
  unfold State.resolveFill
  split
  · refine Within.trans (Within.modBreak ?_) Within.fillAbsent
    exact fun _ => rfl
  · split
    · refine Within.trans (Within.modBreak ?_) Within.fillAbsent
      exact fun _ => rfl
    · split
      · exact Within.modBreak fun _ => rfl
      · refine Within.trans (Within.modBreak ?_) Within.fillAbsent
        exact fun _ => rfl

theorem Within.requestFill {s : State} {st : StationId} {id : Nat} {b : BreakData} {n : Nat} :
    Within s (s.requestFill st id b n) := by
  unfold State.requestFill
  split
  · split
    · exact Within.refl _
    · split
      · exact Within.requestDeck
      · exact Within.fillAbsent
  · exact Within.refl _

theorem Within.serveSpot {n : Nat} {st : StationId} {id : Nat} {s : State} : Within s (serveSpot n st id s) := by
  induction n generalizing s with
  | zero => exact Within.refl _
  | succ n ih =>
    unfold Machine.serveSpot
    split
    · exact Within.refl _
    · split
      · exact Within.refl _
      · split
        · exact Within.refl _
        · split
          · exact Within.refl _
          · split
            · exact Within.requestDeck
            · exact Within.spotMissing.trans ih

theorem Within.resolveIfDue {s : State} {st : StationId} {id : Nat} : Within s (s.resolveIfDue st id) := by
  unfold State.resolveIfDue
  split
  · exact Within.refl _
  · split
    · exact Within.resolveFill
    · exact Within.refl _

theorem Within.serveBreak {s : State} {st : StationId} : Within s (s.serveBreak st) := by
  unfold State.serveBreak
  split
  · exact Within.refl _
  · rename_i e b _
    refine Within.trans (t := (Machine.serveSpot b.spots.length st e.id s).resolveIfDue st e.id)
      (Within.serveSpot.trans Within.resolveIfDue) ?_
    simp only
    split
    · exact Within.refl _
    · exact Within.requestFill

theorem Within.armItem {s : State} {st : StationId} {e : Entry} {c : Nat} : Within s (s.armItem st e c) := by
  unfold State.armItem
  split
  · exact Within.refl _
  · split
    · exact Within.refl _
    · exact Within.requestDeck

theorem Within.armBreak {s : State} {st : StationId} {e : Entry} {b : BreakData} : Within s (s.armBreak st e b) := by
  unfold State.armBreak
  split
  · exact Within.refl _
  · simp only
    refine Within.trans (Within.modBreak ?_) ?_ (t := s.modBreak st e.id fun x => s.planProvisional st e x)
    · exact fun _ => rfl
    · split
      · split
        · exact Within.refl _
        · exact Within.requestDeck
      · refine Within.trans (t := State.resolveIfDue _ st e.id) Within.resolveIfDue ?_
        split
        · exact Within.refl _
        · split
          · exact Within.requestFill
          · exact Within.refl _

theorem Within.armOne {s : State} {st : StationId} {id : Nat} : Within s (State.armOne st id s) := by
  unfold State.armOne
  split
  · exact Within.refl _
  · split
    · exact Within.armItem
    · exact Within.armBreak

theorem Within.reevaluate {s : State} {st : StationId} : Within s (s.reevaluate st) := by
  unfold State.reevaluate
  simp only
  refine Within.trans (t := s.modStation st fun x => { x with dirty := false }) (Within.modStation ?_) ?_
  · exact fun _ => .of_eq rfl rfl rfl rfl
  · split
    · exact Within.refl _
    · exact Within.serveBreak.trans (Within.forEach fun _ _ => Within.armOne)

theorem Within.settleLoop {n : Nat} {s : State} : Within s (settleLoop n s) := by
  induction n generalizing s with
  | zero => exact Within.refl _
  | succ n ih =>
    unfold Machine.settleLoop
    split
    · exact Within.refl _
    · exact Within.reevaluate.trans ih

theorem Within.settlePool {s : State} : Within s s.settlePool := Within.settleLoop

end Sys2Proof.Machine
end

