-- ==== Sys2Proof/Laws/Air.lean ====
section
/-!
SUPPORT. `Within` for the operations of Air, Breaks, Deferred and a period's audio: one lemma per operation.
-/

namespace Sys2Proof.Machine

/-! ## Air -/

theorem Within.dropEntry {s : State} {st : StationId} {e : Entry} : Within s (s.dropEntry st e) := by
  unfold State.dropEntry
  simp only
  exact (Within.withdraw.trans Within.removeEntry).trans (Within.forEach fun _ _ => Within.freeServed)

theorem Entry.returned_key (e : Entry) : e.returned.key = e.key := by
  unfold Entry.returned
  split <;> rfl

theorem Within.withdrawTake {s : State} {st : StationId} : Within s (s.withdrawTake st) := by
  unfold State.withdrawTake
  split
  · exact Within.refl _
  · refine Within.trans (Within.modStation ?_) (Within.modEntry Entry.returned_key)
    exact fun _ => .of_eq rfl rfl rfl rfl

theorem Within.dropTake {s : State} {st : StationId} : Within s (s.dropTake st) := by
  unfold State.dropTake
  split
  · exact Within.refl _
  · exact Within.withdrawTake.trans Within.raiseStation

theorem Within.skipEntry {s : State} {st : StationId} {e : Entry} : Within s (s.skipEntry st e) :=
  Within.record.trans Within.dropEntry

theorem Within.skipAhead {s : State} {st : StationId} {id : Nat} : Within s (s.skipAhead st id) := by
  unfold State.skipAhead
  simp only
  split
  · exact Within.forEach fun _ _ => Within.skipEntry
  · exact Within.refl _

theorem State.beginPreFade_station (s : State) (st : StationId) (e : Entry) :
    (s.beginPreFade st e).station st =
      { s.station st with
        preFade := some ⟨e.id, e.dueTime⟩
        list := (s.station st).list.map fun y => if y.id = e.id then { y with preFaded := true } else y } := by
  simp [State.beginPreFade, State.modEntry]

/-- A not-started entry whose pre-fade has begun is committed, whatever has become of the station's record (R66). -/
theorem Station.isCommitted_preFaded {x : Station} {e : Entry} (hn : e.notStarted = true) (hp : e.preFaded = true) :
    x.isCommitted e = true := by simp [Station.isCommitted, hn, hp]

@[simp] theorem Entry.returned_preFaded (e : Entry) : e.returned.preFaded = e.preFaded := by
  unfold Entry.returned
  split <;> rfl

@[simp] theorem Entry.stoodDown_preFaded (e : Entry) : e.stoodDown.preFaded = e.preFaded := by
  unfold Entry.stoodDown
  split <;> rfl

@[simp] theorem Entry.frame_preFaded (e : Entry) : e.frame.preFaded = e.preFaded := rfl

theorem Within.beginPreFade {s : State} {st : StationId} {e : Entry} : Within s (s.beginPreFade st e) := by
  refine Within.trans (Within.modStation ?_) (Within.modEntry ?_)
  · exact fun _ => .of_eq rfl rfl rfl rfl
  · exact fun _ => rfl

theorem Within.opPreFade {s : State} {st : StationId} : Within s (s.opPreFade st) := by
  unfold State.opPreFade
  split
  · exact Within.refl _
  · exact Within.beginPreFade.trans (Within.dropTake.trans (Within.cutSounding.trans Within.skipAhead))

theorem Within.displace {s : State} {st : StationId} {e : Entry} : Within s (s.displace st e) := by
  unfold State.displace
  split
  · exact Within.refl _
  · rename_i x _
    simp only
    refine Within.trans (t := s.modEntry st x.id fun y => { y with state := .ending }) (Within.modEntry ?_) ?_
    · exact fun _ => rfl
    · split
      · split
        · split
          · exact Within.modPlayer
          · exact Within.refl _
        · exact Within.refl _
      · exact Within.refl _

theorem Within.startItem {s : State} {st : StationId} {e : Entry} {d : DeckId} : Within s (s.startItem st e d) := by
  unfold State.startItem
  simp only
  refine Within.trans (Within.trans (Within.trans (Within.displace.trans Within.modPlayer) (Within.modEntry ?_))
    (Within.modStation ?_)) Within.evalLow
  · exact fun _ => rfl
  · exact fun _ => .of_eq rfl rfl rfl rfl

theorem Within.opEntryStart {s : State} {st : StationId} : Within s (s.opEntryStart st) := by
  unfold State.opEntryStart
  simp only
  refine Within.trans (t := s.opPreFade st) Within.opPreFade ?_
  split
  · exact Within.refl _
  · exact Within.startItem

theorem Within.setActed {s : State} {st : StationId} :
    Within s (s.modStation st fun x => { x with acted := true }) :=
  Within.modStation fun _ => .of_eq rfl rfl rfl rfl

theorem Within.entryMissing {s : State} {st : StationId} {e : Entry} : Within s (s.entryMissing st e) := by
  unfold State.entryMissing
  simp only
  refine Within.trans ?_ (Within.dropEntry.trans Within.setActed)
  have h : Within s ((s.record (entryDisposed st e none e.scheduled (s.stationTime st) .missing none)).reportFault st
      .missing e.id e.cart (s.stationTime st)) := Within.record.trans Within.reportFault
  split
  · exact h.trans Within.dropTake
  · exact h

theorem Within.entryPending {s : State} {st : StationId} {e : Entry} : Within s (s.entryPending st e) := by
  unfold State.entryPending
  simp only
  refine Within.trans (t := (s.modEntry st e.id fun y => { y with state := .pending }).modStation st fun x =>
    { x with due := x.due <|> some (s.dueFor st e), dirty := true }) (Within.trans (Within.modEntry ?_) (Within.modStation ?_)) ?_
  · exact fun _ => rfl
  · exact fun _ => .of_eq rfl rfl rfl rfl
  · split
    · exact Within.refl _
    · exact Within.remakeRequest

theorem Within.judgeDue {s : State} {st : StationId} {e : Entry} : Within s (s.judgeDue st e) := by
  unfold State.judgeDue
  split
  · exact Within.entryMissing
  · exact Within.entryPending

theorem Within.opJudgeFirst {s : State} {st : StationId} : Within s (s.opJudgeFirst st) := by
  unfold State.opJudgeFirst
  split
  · exact Within.refl _
  · split
    · split
      · exact Within.startItem
      · exact Within.judgeDue
    · exact Within.refl _

theorem Within.opHardDue {s : State} {st : StationId} : Within s (s.opHardDue st) := by
  unfold State.opHardDue
  simp only
  refine Within.trans (t := s.opPreFade st) Within.opPreFade ?_
  split
  · exact Within.refl _
  · split
    · exact Within.opJudgeFirst
    · exact Within.refl _

theorem Within.entryTooLate {s : State} {st : StationId} {e : Entry} : Within s (s.entryTooLate st e) := by
  unfold State.entryTooLate
  simp only
  exact (Within.record.trans Within.reportFault).trans Within.dropEntry

theorem Within.judgeTooLate {s : State} {st : StationId} : Within s (s.judgeTooLate st) := by
  unfold State.judgeTooLate
  split
  · exact Within.refl _
  · exact Within.forEach fun _ _ => Within.entryTooLate

theorem Within.opTooLate {s : State} {st : StationId} : Within s (s.opTooLate st) := by
  unfold State.opTooLate
  split
  · refine Within.judgeTooLate.trans (Within.modStation ?_)
    exact fun _ => .of_eq rfl rfl rfl rfl
  · exact Within.judgeTooLate

theorem Within.endTarget {s : State} {st : StationId} {d : DeckId} {c : EndCause} :
    Within s (s.endTarget st d c) := by
  unfold State.endTarget
  simp only
  split
  · exact Within.refl _
  · split
    · exact Within.refl _
    · exact Within.record.trans Within.removeEntry
  · split
    · exact Within.refl _
    · split
      · exact Within.refl _
      · exact Within.breakRecord.trans Within.modSpot
  · split
    · exact Within.refl _
    · refine Within.trans Within.breakRecord (Within.modBreak ?_)
      exact fun _ => rfl
  · exact Within.breakRecord
  · exact Within.breakRecord

theorem Within.opDeckEnd {s : State} {d : DeckId} : Within s (s.opDeckEnd d) := by
  unfold State.opDeckEnd
  split
  · exact (Within.endTarget.trans Within.freeDeck).trans Within.release
  · exact Within.refl _

theorem Within.opBedEnd {s : State} {st : StationId} : Within s (s.opBedEnd st) := by
  unfold State.opBedEnd
  split
  · exact Within.refl _
  · simp only
    refine Within.trans (Within.record.trans Within.bedUnbind) ?_
      (t := (s.record (s.bedPlayed st (s.endTimeOf st (s.bed st).player))).bedUnbind st)
    refine Within.trans ?_ Within.bedTryBind
    split
    · exact Within.setBed
    · exact Within.refl _

theorem Within.opBedStart {s : State} {st : StationId} : Within s (s.opBedStart st) := by
  unfold State.opBedStart
  simp only
  split
  · exact Within.setBed
  · exact Within.refl _

/-! ## Breaks -/

theorem Within.disposeAtStart {s : State} {st : StationId} {id i : Nat} :
    Within s (State.disposeAtStart st id i s) := by
  unfold State.disposeAtStart
  split
  · exact Within.refl _
  · split
    · exact Within.refl _
    · split
      · exact Within.refl _
      · simp only
        refine Within.trans ?_ Within.freeServed
        split
        · exact Within.modSpot.trans (Within.breakRecord.trans Within.reportFault)
        · exact Within.modSpot.trans Within.breakRecord

theorem Within.breakOnAir {s : State} {st : StationId} {e : Entry} : Within s (s.breakOnAir st e) := by
  unfold State.breakOnAir
  simp only
  refine Within.trans ?_ (Within.trans (Within.modEntry ?_) (Within.modStation ?_))
  · split
    · exact Within.refl _
    · exact Within.modEntry fun _ => rfl
  · exact fun _ => rfl
  · exact fun _ => .of_eq rfl rfl rfl rfl

theorem Within.releaseArmedFill {s : State} {st : StationId} {id : Nat} :
    Within s (s.releaseArmedFill st id) := by
  unfold State.releaseArmedFill
  split
  · exact Within.refl _
  · split
    · refine Within.trans (Within.modBreak ?_) Within.freeServed
      exact fun _ => rfl
    · exact Within.refl _

theorem Within.startBreak {s : State} {st : StationId} {e : Entry} {b : BreakData} :
    Within s (s.startBreak st e b) := by
  unfold State.startBreak
  simp only
  refine Within.trans ?_ (Within.releaseArmedFill.trans (Within.resolveIfDue.trans Within.evalLow))
  refine Within.trans (Within.trans (Within.withdraw.trans (Within.modBreak ?_)) Within.breakOnAir) (Within.forEach ?_)
  · exact fun _ => rfl
  · exact fun _ _ => Within.disposeAtStart

theorem Within.opBreakStart {s : State} {st : StationId} : Within s (s.opBreakStart st) := by
  unfold State.opBreakStart
  simp only
  refine Within.trans (t := s.opPreFade st) Within.opPreFade ?_
  split
  · exact Within.refl _
  · split
    · exact Within.startBreak
    · exact Within.refl _

theorem Within.spotSkipped {s : State} {st : StationId} {e : Entry} {b : BreakData} {i : Nat} :
    Within s (s.spotSkipped st e b i) := by
  unfold State.spotSkipped
  split
  · exact Within.refl _
  · exact Within.record

theorem Within.skipBreak {s : State} {st : StationId} {e : Entry} {b : BreakData} : Within s (s.skipBreak st e b) :=
  (Within.forEach fun _ _ => Within.spotSkipped).trans Within.dropEntry

theorem Within.opBreakSkip {s : State} {st : StationId} : Within s (s.opBreakSkip st) := by
  unfold State.opBreakSkip
  split
  · exact Within.refl _
  · exact Within.skipBreak

theorem Within.skipPastBreaks {s : State} {st : StationId} : Within s (s.skipPastBreaks st) := by
  refine Within.forEach fun e t => ?_
  split
  · exact Within.refl _
  · exact Within.skipBreak

theorem Within.startSpot {s : State} {st : StationId} {e : Entry} {i : Nat} {p : Spot} {d : DeckId} :
    Within s (s.startSpot st e i p d) := by
  unfold State.startSpot
  simp only
  exact (Within.modPlayer.trans Within.modSpot).trans (Within.resolveIfDue.trans Within.markDirty)

theorem Within.opSpotStart {s : State} {st : StationId} : Within s (s.opSpotStart st) := by
  unfold State.opSpotStart
  split
  · exact Within.refl _
  · split
    · exact Within.refl _
    · exact Within.startSpot

theorem Within.opSpotPending {s : State} {st : StationId} : Within s (s.opSpotPending st) := by
  unfold State.opSpotPending
  split
  · exact Within.refl _
  · split
    · exact Within.refl _
    · exact Within.modSpot.trans (Within.remakeRequest.trans Within.markDirty)

theorem Within.opFillStart {s : State} {st : StationId} : Within s (s.opFillStart st) := by
  unfold State.opFillStart
  split
  · exact Within.refl _
  · split
    · exact Within.refl _
    · simp only
      refine Within.trans Within.modPlayer (Within.modBreak ?_)
      exact fun _ => rfl

theorem Within.opFillPending {s : State} {st : StationId} : Within s (s.opFillPending st) := by
  unfold State.opFillPending
  split
  · exact Within.refl _
  · refine Within.trans (Within.modBreak ?_) Within.markDirty
    exact fun _ => rfl

theorem Within.opFillClosing {s : State} {st : StationId} : Within s (s.opFillClosing st) := by
  unfold State.opFillClosing
  split
  · exact Within.refl _
  · exact Within.modPlayer

theorem Within.trailDeck {s : State} {st : StationId} {d : DeckId} : Within s (s.trailDeck st d) := by
  unfold State.trailDeck
  split
  · split
    · exact Within.refl _
    · split
      · exact Within.refl _
      · exact Within.setDeck (.inl rfl)
  · split
    · exact Within.refl _
    · exact Within.setDeck (.inl rfl)
  · exact Within.refl _

theorem Within.dropSpot {s : State} {st : StationId} {id i : Nat} : Within s (State.dropSpot st id i s) := by
  unfold State.dropSpot
  split
  · exact Within.refl _
  · split
    · exact Within.refl _
    · split
      · simp only
        exact (Within.modSpot.trans Within.withdraw).trans (Within.breakRecord.trans Within.freeServed)
      · exact Within.refl _

theorem Within.dropFill {s : State} {st : StationId} {e : Entry} {b : BreakData} {early : Bool} :
    Within s (s.dropFill st e b early) := by
  unfold State.dropFill
  split
  · simp only
    have h : Within s (((s.modBreak st e.id fun b' => { b' with fillState := .done, fillServed := .none }).withdraw st
        fun t => t == .fill e.id).freeServed b.fillServed) := by
      refine Within.trans (Within.modBreak ?_) (Within.withdraw.trans Within.freeServed)
      exact fun _ => rfl
    split
    · exact h.trans Within.raiseStation
    · exact h
  · exact Within.refl _

theorem Within.closeBreak {s : State} {st : StationId} {e : Entry} {b : BreakData} {early : Bool} :
    Within s (s.closeBreak st e b early) := by
  unfold State.closeBreak
  simp only
  refine Within.withdraw.trans (Within.trans (Within.trans (Within.trans (Within.forEach ?_) (Within.forEach ?_))
    (Within.forEach ?_)) (Within.dropFill.trans Within.removeEntry))
  · exact fun _ _ => Within.cutDeck.trans Within.trailDeck
  · exact fun _ _ => Within.dropSpot
  · intro d t
    refine Within.trans (Within.ite ?_ ?_) Within.trailDeck
    · exact Within.cutDeck
    · exact Within.refl _

theorem Within.opBreakClose {s : State} {st : StationId} : Within s (s.opBreakClose st) := by
  unfold State.opBreakClose
  split
  · exact Within.refl _
  · split
    · exact Within.opFillClosing.trans Within.closeBreak
    · exact Within.refl _

/-! ## Deferred actions -/

theorem Entry.stoodDown_key (e : Entry) : e.stoodDown.key = e.key := by
  unfold Entry.stoodDown
  split
  · cases hb : e.body <;> simp [Entry.key, Entry.endTime, Entry.dueTime, hb, BreakData.stoodDown]
  · rfl

theorem Within.standDown {s : State} {st : StationId} : Within s (s.standDown st) := by
  unfold State.standDown
  simp only
  refine Within.trans (Within.withdraw.trans (Within.modStation ?_)) (Within.forEach fun _ _ => Within.freeServed)
  exact fun x => ⟨rfl, rfl, by rw [Entry.map_key Entry.stoodDown_key], le_refl _⟩

theorem Within.closeEarly {s : State} {st : StationId} : Within s (s.closeEarly st) := by
  unfold State.closeEarly
  split
  · exact Within.refl _
  · exact Within.closeBreak

theorem Within.bedLeave {s : State} {st : StationId} : Within s (s.bedLeave st) := by
  unfold State.bedLeave
  simp only
  refine Within.trans (Within.setBed.trans (Within.modStation ?_)) (Within.cutBed.trans Within.bedTryBind)
  exact fun _ => .of_eq rfl rfl rfl rfl

theorem Within.resetSilence {s : State} {st : StationId} : Within s (s.resetSilence st) :=
  Within.modStation fun _ => .of_eq rfl rfl rfl rfl

theorem Within.raiseDropped {s : State} {st : StationId} {b : Bool} : Within s (s.raiseDropped st b) := by
  cases b
  · exact Within.refl _
  · exact Within.raiseStation

theorem Within.actIdle {s : State} {st : StationId} {f d : Bool} : Within s (s.actIdle st f d) := by
  unfold State.actIdle
  simp only
  refine Within.trans ?_ (Within.standDown.trans Within.markDirty)
  refine Within.trans ?_ (Within.closeEarly.trans Within.cutSounding)
  have h (t : State) : Within t (if f then t.bedLeave st else t) := Within.ite Within.bedLeave (Within.refl _)
  refine Within.trans ?_ (h _)
  refine Within.trans (Within.ite ?_ ?_) (Within.modStation ?_)
  · exact Within.resetSilence.trans Within.raiseDropped
  · exact (Within.resetSilence.trans Within.raiseDropped).trans Within.dropTake
  · exact fun _ => .of_eq rfl rfl rfl rfl

theorem Within.actFallback {s : State} {st : StationId} {d : Bool} : Within s (s.actFallback st d) := by
  unfold State.actFallback
  simp only
  refine Within.trans ?_ (Within.setBed.trans (Within.raiseStation.trans Within.markDirty))
  refine Within.trans ?_ (Within.closeEarly.trans (Within.cutSounding.trans Within.standDown))
  refine Within.trans (Within.ite ?_ ?_) (Within.modStation ?_)
  · exact Within.resetSilence.trans Within.raiseDropped
  · exact (Within.resetSilence.trans Within.raiseDropped).trans Within.dropTake
  · exact fun _ => .of_eq rfl rfl rfl rfl

theorem Within.actManual {s : State} {st : StationId} : Within s (s.actManual st) := by
  unfold State.actManual
  simp only
  have h : Within s ((s.resetSilence st).markDirty st) := Within.resetSilence.trans Within.markDirty
  split
  · exact h
  · split
    · refine h.trans (Within.trans (Within.modEntry Entry.returned_key) (Within.modStation ?_))
      exact fun _ => .of_eq rfl rfl rfl rfl
    · exact h

theorem Within.actLeaveIdle {s : State} {st : StationId} : Within s (s.actLeaveIdle st) :=
  ((Within.resetSilence.trans Within.skipPastBreaks).trans Within.judgeTooLate).trans Within.markDirty

theorem Within.requestTaken {s : State} {st : StationId} {id : Nat} : Within s (s.requestTaken st id) := by
  unfold State.requestTaken
  split
  · exact Within.refl _
  · split
    · exact Within.refl _
    · split
      · exact Within.refl _
      · exact Within.requestDeck

theorem Within.resumeTake {s : State} {st : StationId} : Within s (s.resumeTake st) := by
  unfold State.resumeTake
  split
  · exact Within.refl _
  · split
    · exact Within.refl _
    · rename_i e _
      simp only
      have h : Within s ((s.modStation st fun x => { x with take := x.take <|> some ⟨e.id, s.stationTime st⟩ }).cutSounding
          st (s.station st).cfg.stopFade) := by
        refine Within.trans (Within.modStation ?_) Within.cutSounding
        exact fun _ => .of_eq rfl rfl rfl rfl
      exact Within.ite (h.trans Within.requestTaken) h

theorem Within.actResume {s : State} {st : StationId} {m : Mode} : Within s (s.actResume st m) := by
  unfold State.actResume
  simp only
  have h : Within s (((s.resetSilence st).bedLeave st).markDirty st) :=
    (Within.resetSilence.trans Within.bedLeave).trans Within.markDirty
  refine Within.ite h (h.trans ?_)
  exact ((Within.skipPastBreaks.trans Within.judgeTooLate).trans Within.markDirty).trans
    (Within.settlePool.trans Within.resumeTake)

theorem Within.actStop {s : State} {st : StationId} {a : Bool} : Within s (s.actStop st a) := by
  unfold State.actStop
  simp only
  have h (t : State) : Within t (if a then t.actManual st else t) := Within.ite Within.actManual (Within.refl _)
  refine Within.trans (Within.trans ?_ Within.cutSounding) (h _)
  exact Within.ite (Within.refl _) Within.withdrawTake

theorem Within.actTake {s : State} {st : StationId} {id : Nat} : Within s (s.actTake st id) := by
  unfold State.actTake
  simp only
  have h : Within s ((s.skipAhead st ((s.station st).skipsTo id)).cutSounding st (s.station st).cfg.stopFade) :=
    Within.skipAhead.trans Within.cutSounding
  refine Within.ite (h.trans (Within.trans (Within.trans (Within.modEntry Entry.returned_key) (Within.modStation ?_))
    Within.requestTaken)) h
  exact fun _ => .of_eq rfl rfl rfl rfl

theorem Within.act {s : State} {st : StationId} {d : Deferred} : Within s (s.act st d) := by
  cases d
  · exact Within.actIdle
  · exact Within.actFallback
  · exact Within.actManual
  · exact Within.resetSilence.trans Within.markDirty
  · exact Within.actLeaveIdle
  · exact Within.actResume
  · exact Within.actStop
  · exact Within.actTake
  · exact Within.cutSounding
  · exact Within.markDirty

/-! ## A station's period and the audio -/

theorem Within.skipLoop {n : Nat} {st : StationId} {s : State} : Within s (skipLoop n st s) := by
  induction n generalizing s with
  | zero => exact Within.refl _
  | succ n ih =>
    unfold Machine.skipLoop
    split
    · exact Within.refl _
    · exact Within.opBreakSkip.trans ih

theorem Within.opHorizon {s : State} {st : StationId} : Within s (s.opHorizon st) :=
  Within.ite Within.markDirty (Within.refl _)

theorem Within.opStation {s : State} {st : StationId} : Within s (s.opStation st) := by
  unfold State.opStation
  simp only
  refine Within.trans ?_ (Within.opBedStart.trans (Within.opHorizon.trans Within.settlePool))
  refine Within.trans ?_ (Within.opSpotStart.trans (Within.opSpotPending.trans (Within.opFillStart.trans
    (Within.opFillPending.trans Within.opFillClosing))))
  refine Within.trans ?_ (Within.opPreFade.trans (Within.opBreakStart.trans (Within.opHardDue.trans Within.opJudgeFirst)))
  exact Within.opBreakClose.trans (Within.opTooLate.trans Within.skipLoop)

theorem Within.tickDeck {s : State} {d : DeckId} : Within s (s.tickDeck d) := by
  unfold State.tickDeck
  simp only
  have h : Within s (if (s.deck d).player.underruns then s.deckFault d .underrun else s) :=
    Within.ite Within.deckFault (Within.refl _)
  exact Within.ite (h.trans Within.modPlayer) h

theorem Within.tickBed {s : State} {st : StationId} : Within s (s.tickBed st) := by
  unfold State.tickBed
  simp only
  have h : Within s (if (s.bed st).player.underruns then s.bedFault st .underrun else s) :=
    Within.ite Within.bedFault (Within.refl _)
  exact Within.ite (h.trans Within.modBedPlayer) h

theorem Within.mixStation {s : State} {st : StationId} : Within s (s.mixStation st) := by
  unfold State.mixStation
  simp only
  have h : Within s (s.modStation st fun x => { x with out := s.mixed st }) :=
    Within.modStation fun _ => .of_eq rfl rfl rfl rfl
  refine Within.ite (h.trans (Within.trans (Within.modStation ?_) Within.raiseStation)) h
  exact fun _ => .of_eq rfl rfl rfl rfl

theorem Station.judged_lesser (x : Station) : Station.Lesser x x.judged := by
  unfold Station.judged
  split
  · split <;> exact .of_eq rfl rfl rfl rfl
  · exact .of_eq rfl rfl rfl rfl

theorem Within.audio {s : State} : Within s s.audio := by
  unfold State.audio
  simp only
  refine Within.trans (Within.trans (Within.trans (Within.forEach ?_) (Within.forEach ?_)) (Within.forEach ?_))
    (Within.forEach ?_)
  · exact fun _ _ => Within.mixStation
  · exact fun _ _ => Within.tickDeck
  · exact fun _ _ => Within.tickBed
  · exact fun _ _ => Within.modStation Station.judged_lesser

end Sys2Proof.Machine
end

