-- ==== Sys2Proof/Laws/Kept.lean ====
section
/-!
SUPPORT. `Kept s t`: from `s` to `t` the media memory and the house counter stand, and every invariant of Safety.lean
that holds of `s` holds of `t`; a bridging period in progress stays the one it is. It follows from `Within`, it composes, and
every request's rule has it.
-/

namespace Sys2Proof.Machine

structure Kept (s t : State) : Prop where
  house : t.house = s.house
  media : t.media = s.media
  settings : s.SettingsKept → t.SettingsKept
  lists : s.ListsKept → t.ListsKept
  capped : s.Capped → t.Capped
  asrun : s.AsrunKept → t.AsrunKept
  queue : s.QueueBounded → t.QueueBounded
  directory : s.DirectoryKept → t.DirectoryKept
  notices : s.NoticesKept → t.NoticesKept
  links : s.LinksKept → t.LinksKept
  ref : s.ref.Kept → t.ref.Kept
  bridging : t.ref.bridging = s.ref.bridging

theorem Kept.refl (s : State) : Kept s s :=
  ⟨rfl, rfl, id, id, id, id, id, id, id, id, id, rfl⟩

theorem Kept.trans {s t u : State} (h : Kept s t) (k : Kept t u) : Kept s u where
  house := k.house.trans h.house
  media := k.media.trans h.media
  settings := k.settings ∘ h.settings
  lists := k.lists ∘ h.lists
  capped := k.capped ∘ h.capped
  asrun := k.asrun ∘ h.asrun
  queue := k.queue ∘ h.queue
  directory := k.directory ∘ h.directory
  notices := k.notices ∘ h.notices
  links := k.links ∘ h.links
  ref := k.ref ∘ h.ref
  bridging := k.bridging.trans h.bridging

theorem Kept.ite {s t u : State} {b : Prop} [Decidable b] (h : Kept s t) (k : Kept s u) :
    Kept s (if b then t else u) := by
  split
  · exact h
  · exact k

theorem Kept.forEach {α : Type} {s : State} {xs : List α} {f : α → State → State} (h : ∀ x t, Kept t (f x t)) :
    Kept s (forEach xs f s) := by
  unfold Machine.forEach
  induction xs generalizing s with
  | nil => exact Kept.refl _
  | cons x xs ih => exact (h x s).trans ih

/-! ## The rules of a run list, read off its keys -/

/-- The order of due times, judged on keys (R68). -/
def orderKeys : Nat → List (Nat × Option (Nat × Nat)) → Bool
  | _, [] => true
  | fl, (_, none) :: ks => orderKeys fl ks
  | fl, (_, some (d, e)) :: ks => decide (fl ≤ d) && orderKeys (max fl e) ks

theorem orderFrom_eq_keys (l : List Entry) (fl : Nat) : orderFrom fl l = orderKeys fl (l.map Entry.key) := by
  induction l generalizing fl with
  | nil => rfl
  | cons e es ih =>
    simp only [orderFrom, List.map_cons, Entry.key]
    split
    · simp only [orderKeys, ih]
    · simp only [orderKeys, ih]

theorem orderKeys_le {ks : List (Nat × Option (Nat × Nat))} {a b : Nat} (h : a ≤ b) (k : orderKeys b ks = true) :
    orderKeys a ks = true := by
  induction ks generalizing a b with
  | nil => rfl
  | cons x xs ih =>
    obtain ⟨i, _ | ⟨d, e⟩⟩ := x
    · exact ih h k
    · simp only [orderKeys, Bool.and_eq_true, decide_eq_true_eq] at k ⊢
      exact ⟨by omega, ih (by omega) k.2⟩

theorem orderKeys_sublist {ks ls : List (Nat × Option (Nat × Nat))} (h : ks.Sublist ls) {a : Nat}
    (k : orderKeys a ls = true) : orderKeys a ks = true := by
  induction h generalizing a with
  | slnil => exact k
  | @cons _ _ x _ ih =>
    obtain ⟨i, _ | ⟨d, e⟩⟩ := x
    · exact ih k
    · simp only [orderKeys, Bool.and_eq_true] at k
      exact orderKeys_le (le_max_left a e) (ih k.2)
  | @cons_cons _ _ x _ ih =>
    obtain ⟨i, _ | ⟨d, e⟩⟩ := x
    · exact ih k
    · simp only [orderKeys, Bool.and_eq_true] at k ⊢
      exact ⟨k.1, ih k.2⟩

theorem map_id_eq_keys (l : List Entry) : l.map Entry.id = (l.map Entry.key).map Prod.fst := by
  simp [List.map_map, Function.comp_def, Entry.key]

/-- Entries that leave, and changes that leave the keys, keep the rules of a list. -/
theorem ListRules.of_keys {l m : List Entry} (h : (m.map Entry.key).Sublist (l.map Entry.key)) (k : ListRules l) :
    ListRules m := by
  refine ⟨?_, ?_, ?_⟩
  · have := h.length_le; simp at this; exact this.trans k.1
  · rw [map_id_eq_keys]; exact (h.map _).nodup (map_id_eq_keys l ▸ k.2.1)
  · have h2 : orderKeys 0 (l.map Entry.key) = true := by rw [← orderFrom_eq_keys]; exact k.2.2
    have := orderKeys_sublist h h2
    rw [← orderFrom_eq_keys] at this
    exact this

/-! ## From Within -/

theorem Fixed.fields {s t : State} (h : t.fixed = s.fixed) :
    t.house = s.house ∧ t.media = s.media ∧ t.queue = s.queue ∧ t.ref = s.ref ∧ t.linkA = s.linkA ∧ t.linkB = s.linkB := by
  simp only [State.fixed, Fixed.mk.injEq] at h
  tauto

theorem State.link_congr {s t : State} (ha : t.linkA = s.linkA) (hb : t.linkB = s.linkB) (l : LinkId) :
    t.link l = s.link l := by cases l <;> simp [State.link, ha, hb]

theorem Within.kept {s t : State} (h : Within s t) : Kept s t := by
  obtain ⟨hh, hm, hq, hr, ha, hb⟩ := Fixed.fields h.fixed
  refine ⟨hh, hm, fun k st => ?_, fun k st => ?_, fun k st => ?_, fun k => ?_, fun k => ?_, fun k => ?_, fun k i => ?_,
    fun k l => ?_, fun k => ?_, by rw [hr]⟩
  · rw [h.cfg st]; exact k st
  · exact ListRules.of_keys (h.keys st) (k st)
  · have := h.load st; have := k st; omega
  · exact h.asrun k
  · simp only [State.QueueBounded, hq]; exact k
  · have n : (s.dir.map DirEntry.slot).Nodup := k.1.imp (fun h => Nat.ne_of_lt h)
    refine ⟨k.1.sublist h.slots, fun e he => ?_, (h.blocks n).trans k.2.2⟩
    have := h.slots.subset (List.mem_map_of_mem he)
    obtain ⟨x, hx, hs⟩ := List.mem_map.1 this
    rw [← hs]; exact k.2.1 x hx
  · have := h.notices i; have := (k i).2
    exact ⟨h.conds i (k i).1, by omega⟩
  · rw [State.link_congr ha hb, hr]; exact k l
  · rw [hr]; exact k

/-! ## Changes beside -/

/-- A change of fields that no clause of `Kept` reads. -/
theorem Kept.of_eq {s t : State} (hh : t.house = s.house) (hm : t.media = s.media) (hs : t.stations = s.stations)
    (hd : t.decks = s.decks) (ha : t.log = s.log) (hq : t.queue = s.queue) (hdir : t.dir = s.dir)
    (hf : t.freeBlocks = s.freeBlocks) (hc : t.conds = s.conds) (ht : t.txOrder = s.txOrder) (hb : t.behind = s.behind)
    (hr : t.ref = s.ref) (hla : t.linkA = s.linkA) (hlb : t.linkB = s.linkB) : Kept s t where
  house := hh
  media := hm
  settings k st := by rw [State.station_congr hs]; exact k st
  lists k st := by rw [State.station_congr hs]; exact k st
  capped k st := by rw [State.deckLoad_congr hs hd]; exact k st
  asrun := State.asrunKept_congr ha
  queue k := by simpa only [State.QueueBounded, hq] using k
  directory k := by
    simp only [State.DirectoryKept, State.blockTotal, hdir, hf] at k ⊢; exact k
  notices k i := by
    have := k i
    simpa only [State.condInSet, State.cond_congr hc, State.noticeCount, ht, hb] using this
  links k l := by rw [State.link_congr hla hlb, hr]; exact k l
  ref k := by rw [hr]; exact k
  bridging := by rw [hr]

theorem Kept.takeDeferred {s : State} {ds : List (StationId × Deferred)} : Kept s { s with deferred := ds } :=
  Kept.of_eq rfl rfl rfl rfl rfl rfl rfl rfl rfl rfl rfl rfl rfl rfl

theorem Kept.takesGone {s : State} {st : StationId} {gone : List Entry} : Kept s (s.takesGone st gone) :=
  Kept.takeDeferred

theorem Kept.working {s : State} : Kept s s.working :=
  Kept.of_eq rfl rfl rfl rfl rfl rfl rfl rfl rfl rfl rfl rfl rfl rfl

theorem count_map_notice (xs : List SetId) (i : SetId) : (xs.map TxItem.notice).count (.notice i) = xs.count i := by
  induction xs with
  | nil => rfl
  | cons x xs ih =>
    by_cases h : x = i
    · subst h; simp [ih]
    · have : ¬ TxItem.notice x = TxItem.notice i := by simpa using h
      simp [ih, h]

theorem Within.placeReply {s : State} {body : List Byte} : Within s (s.placeReply body) := by
  unfold State.placeReply
  refine Within.trans ?_ Within.pump
  refine Within.of_conds rfl rfl rfl rfl rfl rfl (fun _ h => h) fun i => ?_
  simp only [State.noticeCount, List.count_append, List.count_cons, List.count_nil, count_map_notice]
  simp

theorem Kept.replied {s : State} {k : Byte} {r : Req} {c : Byte} {p : List Byte} : Kept s (s.replied k r c p) := by
  unfold State.replied
  refine Kept.trans ?_ (Within.placeReply.trans Within.settlePool).kept
  exact Kept.of_eq rfl rfl rfl rfl rfl rfl rfl rfl rfl rfl rfl rfl rfl rfl

theorem Kept.heldBy {s : State} {k : Byte} {r : Req} : Kept s (s.heldBy k r) := by
  unfold State.heldBy
  refine Kept.trans ?_ Within.settlePool.kept
  exact Kept.of_eq rfl rfl rfl rfl rfl rfl rfl rfl rfl rfl rfl rfl rfl rfl

theorem Kept.enqueue {s : State} {m : Message} : Kept s (s.enqueue m) := by
  unfold State.enqueue
  split
  · rename_i hl
    refine ⟨rfl, rfl, id, id, id, id, fun _ => ?_, id, id, id, id, rfl⟩
    simp only [State.QueueBounded, List.length_append, List.length_cons, List.length_nil]
    simp only [Config.queueLimit] at hl
    omega
  · refine Kept.trans ?_ Within.raiseDevice.kept
    exact Kept.of_eq rfl rfl rfl rfl rfl rfl rfl rfl rfl rfl rfl rfl rfl rfl

/-- What follows a request's judgement keeps what the judgement kept. -/
theorem Kept.after {s : State} {k : Byte} {r : Req} {a : State × Answer} (h : Kept s a.1) :
    Kept s (Answer.after k r a) := by
  obtain ⟨t, c | _⟩ := a
  · exact h.trans Kept.replied
  · exact h.trans Kept.heldBy

theorem Kept.serve {s : State} {k : Byte} {r : Req} {h : Req → State → State × Answer}
    (hk : ∀ r s, Kept s (h r s).1) : Kept s (s.serve k r h) :=
  Kept.after (Kept.working.trans (hk _ _))

theorem Kept.deviceRequest {s : State} {r : Req} {n : Nat} {f : State × Answer} (h : Kept s f.1) :
    Kept s (deviceRequest r n s f).1 := by
  unfold Machine.deviceRequest
  split
  · exact Kept.refl _
  · split
    · exact Kept.refl _
    · exact h

theorem Kept.stationRequest {s : State} {r : Req} {n : Nat} {f : StationId → State × Answer}
    (h : ∀ st, Kept s (f st).1) : Kept s (stationRequest r n s f).1 := by
  unfold Machine.stationRequest
  split
  · exact Kept.refl _
  · split
    · exact Kept.refl _
    · exact h _

theorem Kept.modStation {s : State} {st : StationId} {f : Station → Station} (h : ∀ x, Station.Lesser x (f x)) :
    Kept s (s.modStation st f) := (Within.modStation h).kept

theorem Kept.defer {s : State} {st : StationId} {d : Deferred} : Kept s (s.defer st d) :=
  Kept.of_eq rfl rfl rfl rfl rfl rfl rfl rfl rfl rfl rfl rfl rfl rfl

/-! ## The rules of requests that change none of the invariants' grounds -/

theorem Kept.handleEcho (r : Req) (s : State) : Kept s (handleEcho r s).1 := by
  unfold Machine.handleEcho
  split
  · exact Kept.refl _
  · split <;> exact Kept.refl _

theorem Kept.handleDeviceInfo (r : Req) (s : State) : Kept s (handleDeviceInfo r s).1 := by
  refine Kept.deviceRequest ?_
  split
  · exact Kept.refl _
  · refine Kept.ite ?_ (Kept.refl _)
    exact Kept.of_eq rfl rfl rfl rfl rfl rfl rfl rfl rfl rfl rfl rfl rfl rfl

theorem Kept.handleRestart (r : Req) (s : State) : Kept s (handleRestart r s).1 := by
  refine Kept.deviceRequest ?_
  exact Kept.of_eq rfl rfl rfl rfl rfl rfl rfl rfl rfl rfl rfl rfl rfl rfl

theorem Kept.handleUnknown (r : Req) (s : State) : Kept s (handleUnknown r s).1 := Kept.refl _

theorem Kept.handleItemData (r : Req) (s : State) : Kept s (handleItemData r s).1 := by
  unfold Machine.handleItemData
  simp only
  split
  · exact Kept.refl _
  · split
    · exact Kept.refl _
    · split
      · exact Kept.refl _
      · split
        · exact Kept.refl _
        · split
          · exact Kept.refl _
          · exact Kept.of_eq rfl rfl rfl rfl rfl rfl rfl rfl rfl rfl rfl rfl rfl rfl

theorem Kept.handleItemClose (r : Req) (s : State) : Kept s (handleItemClose r s).1 := by
  unfold Machine.handleItemClose
  split
  · exact Kept.refl _
  · split
    · exact Kept.refl _
    · simp only
      split
      · split
        · exact Kept.refl _
        · simp only [answerOk]
          refine (Within.trans (Within.modDir ?_) Within.announce).kept
          exact fun _ => ⟨rfl, rfl⟩
      · split <;> exact Kept.refl _

theorem Within.dropItem {s : State} {e : DirEntry} : Within s (s.dropItem e).1 := by
  unfold State.dropItem
  split
  · exact Within.removeDir
  · split
    · simp only
      exact Within.removeDir.trans Within.announce
    · simp only
      refine Within.trans (Within.modDir ?_) Within.announce
      exact fun _ => ⟨rfl, rfl⟩
  · exact Within.refl _

theorem Kept.handleItemDrop (r : Req) (s : State) : Kept s (handleItemDrop r s).1 := by
  unfold Machine.handleItemDrop
  split
  · exact Kept.refl _
  · split
    · exact Kept.refl _
    · simp only
      split
      · exact Within.dropItem.kept
      · split <;> exact Kept.refl _

theorem Within.purgeStep {acc : State × Nat × Nat × Nat} {slot : Nat} : Within acc.1 (purgeStep acc slot).1 := by
  obtain ⟨s, a, b, c⟩ := acc
  unfold Machine.purgeStep
  simp only
  split
  · exact Within.refl _
  · split
    · exact Within.refl _
    · split <;> exact Within.dropItem

theorem Within.purge {slots : List Nat} {acc : State × Nat × Nat × Nat} :
    Within acc.1 (slots.foldl Machine.purgeStep acc).1 := by
  induction slots generalizing acc with
  | nil => exact Within.refl _
  | cons k ks ih => exact Within.purgeStep.trans ih

theorem Kept.handleItemPurge (r : Req) (s : State) : Kept s (handleItemPurge r s).1 := by
  unfold Machine.handleItemPurge
  simp only
  split
  · exact Kept.refl _
  · split
    · exact Kept.refl _
    · split
      · exact Kept.refl _
      · exact (Within.purge (acc := (s, 0, 0, 0))).kept

theorem Kept.infoAnswer (s : State) (e : Option DirEntry) : Kept s (infoAnswer s e).1 := by
  cases e <;> exact Kept.refl _

theorem Kept.handleItemInfo (r : Req) (s : State) : Kept s (handleItemInfo r s).1 := by
  unfold Machine.handleItemInfo
  simp only
  split
  · exact Kept.refl _
  · split
    · exact Kept.refl _
    · split
      · split
        · exact Kept.refl _
        · split
          · exact Kept.refl _
          · exact Kept.infoAnswer _ _
      · split
        · exact Kept.infoAnswer _ _
        · exact Kept.refl _

theorem Kept.handleStoreInfo (r : Req) (s : State) : Kept s (handleStoreInfo r s).1 :=
  Kept.deviceRequest (Kept.refl _)

theorem Kept.handleEntryRemove (r : Req) (s : State) : Kept s (handleEntryRemove r s).1 := by
  refine Kept.stationRequest fun st => ?_
  split
  · exact Kept.refl _
  · split
    · exact Kept.refl _
    · exact Within.dropEntry.kept.trans Kept.takesGone

theorem Kept.handleListRead (r : Req) (s : State) : Kept s (handleListRead r s).1 := by
  refine Kept.stationRequest fun st => ?_
  simp only
  split <;> exact Kept.refl _

theorem Kept.clearList {s : State} {st : StationId} : Kept s (s.clearList st) := by
  unfold State.clearList
  simp only
  refine Kept.trans (Within.trans (Within.trans (Within.modStation ?_) Within.withdraw) (Within.forEach ?_)).kept
    Kept.takesGone
  · exact fun _ => .of_eq rfl rfl rfl rfl
  · exact fun _ _ => Within.dropEntry

theorem Kept.handleListClear (r : Req) (s : State) : Kept s (handleListClear r s).1 :=
  Kept.stationRequest fun _ => Kept.clearList

theorem Kept.handleStationMode (r : Req) (s : State) : Kept s (handleStationMode r s).1 := by
  refine Kept.stationRequest fun st => ?_
  simp only
  split
  · exact Kept.refl _
  · rename_i m _
    split
    · exact Kept.refl _
    · split
      · exact Kept.refl _
      · simp only [answerOk, State.changeMode]
        refine Kept.trans (Kept.trans (Kept.ite Within.withdrawTake.kept (Kept.refl _)) (Kept.modStation ?_)) Kept.defer
        exact fun _ => .of_eq rfl rfl rfl rfl

theorem Kept.handleStationStatus (r : Req) (s : State) : Kept s (handleStationStatus r s).1 := by
  refine Kept.stationRequest fun st => ?_
  split
  · exact Kept.refl _
  · exact Kept.ite (Kept.modStation fun _ => .of_eq rfl rfl rfl rfl) (Kept.refl _)

theorem Kept.handleTake (r : Req) (s : State) : Kept s (handleTake r s).1 := by
  refine Kept.stationRequest fun st => ?_
  simp only
  generalize (if field r.payload 0 1 = 1 then some (field r.payload 1 2) else none : Option Nat) = named
  split
  · exact Kept.refl _
  · split
    · exact Kept.refl _
    · split
      · exact Kept.refl _
      · split
        · exact Kept.refl _
        · split
          · exact Kept.refl _
          · split
            · exact Kept.refl _
            · split
              · exact Kept.refl _
              · simp only [answerOk, State.takeEntry]
                refine Kept.trans (Kept.modStation ?_) Kept.defer
                exact fun _ => .of_eq rfl rfl rfl rfl

theorem Kept.handleTakeCancel (r : Req) (s : State) : Kept s (handleTakeCancel r s).1 := by
  refine Kept.stationRequest fun st => ?_
  split
  · exact Within.withdrawTake.kept
  · exact Kept.refl _

theorem Kept.handleStop (r : Req) (s : State) : Kept s (handleStop r s).1 := by
  refine Kept.stationRequest fun st => ?_
  simp only
  split
  · exact Kept.refl _
  · split
    · exact Kept.refl _
    · simp only [answerOk, State.stopStation]
      refine Kept.trans (Kept.trans Within.withdrawTake.kept (Kept.modStation ?_)) Kept.defer
      exact fun _ => .of_eq rfl rfl rfl rfl

theorem Kept.handleResume (r : Req) (s : State) : Kept s (handleResume r s).1 := by
  refine Kept.stationRequest fun st => ?_
  split
  · simp only [answerOk, State.resumeStation]
    refine Kept.trans (Kept.modStation ?_) Kept.defer
    exact fun _ => .of_eq rfl rfl rfl rfl
  · exact Kept.refl _

theorem Kept.setTime {s : State} {st : StationId} {v : Nat} : Kept s (s.setTime st v) := by
  unfold State.setTime
  refine Kept.trans ?_ Kept.defer
  have h (u : StationId) : ((s.modStation st fun x => { x with offset := BitVec.ofNat 48 v - (s.house + 1) }).station u).cfg =
      (s.station u).cfg ∧ ((s.modStation st fun x => { x with offset := BitVec.ofNat 48 v - (s.house + 1) }).station u).list =
      (s.station u).list ∧ ((s.modStation st fun x => { x with offset := BitVec.ofNat 48 v - (s.house + 1) }).station
        u).requests = (s.station u).requests := by
    by_cases hu : st = u
    · subst hu; simp
    · rw [State.modStation_station_ne _ _ hu]; exact ⟨rfl, rfl, rfl⟩
  refine ⟨rfl, rfl, fun k u => ?_, fun k u => ?_, fun k u => ?_, id, id, id, id, id, id, rfl⟩
  · rw [(h u).1]; exact k u
  · rw [(h u).2.1]; exact k u
  · have := k u
    simp only [State.deckLoad, (h u).2.2] at this ⊢
    exact this

theorem Kept.handleSetTime (r : Req) (s : State) : Kept s (handleSetTime r s).1 := by
  unfold Machine.handleSetTime
  split
  · exact Kept.refl _
  · split
    · exact Kept.refl _
    · simp only
      split
      · exact Kept.refl _
      · exact Kept.forEach fun _ _ => Kept.setTime

theorem Kept.handleRefStatus (r : Req) (s : State) : Kept s (handleRefStatus r s).1 :=
  Kept.deviceRequest (Kept.refl _)

theorem Within.fetchRecords {s : State} {n : Nat} : Within s (s.fetchRecords n) := by
  unfold State.fetchRecords
  simp only
  have h : Within s { s with asrun := s.asrun.drop n, wrapHold := s.wrapHold && !(s.asrun.drop n).isEmpty } := by
    refine Within.of_body rfl rfl rfl rfl (fun _ => rfl) (fun _ => rfl) (fun _ => List.Sublist.refl _)
      (fun _ => le_max_left _ _) (fun k => ⟨?_, k.2.1.sublist (List.drop_sublist _ _), fun hw x hx => ?_⟩)
      (List.Sublist.refl _) (fun _ => rfl)
    · have := k.1
      simp only [List.length_drop]
      omega
    · have hne : (s.asrun.drop n).isEmpty = false := by
        cases hd : s.asrun.drop n with
        | nil => rw [hd] at hx; simp at hx
        | cons _ _ => rfl
      exact k.2.2 (by simpa [hne] using hw) x (List.mem_of_mem_drop hx)
  exact Within.ite (h.trans Within.dropBits) h

theorem Kept.handleAsrunFetch (r : Req) (s : State) : Kept s (handleAsrunFetch r s).1 := by
  refine Kept.deviceRequest ?_
  simp only
  split
  · exact Kept.refl _
  · exact Within.fetchRecords.kept

theorem Kept.handleFaultRead (r : Req) (s : State) : Kept s (handleFaultRead r s).1 := by
  refine Kept.stationRequest fun st => ?_
  split
  · exact Kept.refl _
  · exact Kept.ite (Kept.modStation fun _ => .of_eq rfl rfl rfl rfl) (Kept.refl _)

theorem Kept.setRequest {s : State} {r : Req} {f : SetId → Byte → State × Answer}
    (h : ∀ i m, m &&& ~~~setBits i = 0 → Kept s (f i m).1) : Kept s (setRequest r s f).1 := by
  unfold Machine.setRequest
  split
  · exact Kept.refl _
  · split
    · exact Kept.refl _
    · split
      · rename_i hm; exact h _ _ hm
      · exact Kept.refl _

theorem Kept.handleCondClear (r : Req) (s : State) : Kept s (handleCondClear r s).1 :=
  Kept.setRequest fun _ _ _ => Within.dropBits.kept

theorem Within.storeMask {s : State} {i : SetId} {m : Byte} (h : m &&& ~~~setBits i = 0) :
    Within s (s.storeMask i m) := by
  unfold State.storeMask
  simp only
  have h1 : Within s (s.setCond i { s.cond i with enabled := m }) := Within.setCond fun c => ⟨c.1, h⟩
  exact Within.ite h1 (h1.trans Within.trigger)

theorem Kept.handleNoticeMask (r : Req) (s : State) : Kept s (handleNoticeMask r s).1 := by
  refine Kept.setRequest fun i m hm => ?_
  split
  · exact Kept.refl _
  · exact (Within.storeMask hm).kept

end Sys2Proof.Machine
end

