-- ==== Sys2Proof/Laws/Requests.lean ====
section
/-!
SUPPORT. `Kept` for the requests that write what the invariants speak of: ITEM_OPEN, ENTRY_INSERT, ENTRY_AMEND,
STATION_SET and the requests of the reference controller and the links; then for the handler as a whole.
-/

namespace Sys2Proof.Machine

/-! ## ITEM_OPEN -/

theorem takeBlocks_total (n : Nat) (rs : List Run) :
    runsTotal (takeBlocks n rs).1 + runsTotal (takeBlocks n rs).2 = runsTotal rs := by
  induction rs generalizing n with
  | nil => rfl
  | cons r rs ih =>
    simp only [takeBlocks]
    split
    · simp [runsTotal]
    · split
      · have := ih (n - r.count)
        simp only [runsTotal, List.map_cons, List.sum_cons] at this ⊢
        omega
      · simp only [runsTotal, List.map_cons, List.sum_cons, List.map_nil, List.sum_nil]
        omega

theorem insertDir_blocks (e : DirEntry) (dir : List DirEntry) :
    ((insertDir e dir).map fun x => runsTotal x.blocks).sum =
      runsTotal e.blocks + (dir.map fun x => runsTotal x.blocks).sum := by
  induction dir with
  | nil => rfl
  | cons x xs ih =>
    simp only [insertDir]
    split
    · rfl
    · simp only [List.map_cons, List.sum_cons, ih]; omega

theorem mem_insertDir {e x : DirEntry} {dir : List DirEntry} : x ∈ insertDir e dir ↔ x = e ∨ x ∈ dir := by
  induction dir with
  | nil => simp [insertDir]
  | cons y ys ih =>
    simp only [insertDir]
    split
    · simp
    · simp only [List.mem_cons, ih]; tauto

/-- An entry put in at a slot of its own keeps the slot order. -/
theorem insertDir_sorted {e : DirEntry} {dir : List DirEntry} (h : (dir.map DirEntry.slot).Pairwise (· < ·))
    (hn : e.slot ∉ dir.map DirEntry.slot) : ((insertDir e dir).map DirEntry.slot).Pairwise (· < ·) := by
  induction dir with
  | nil => simp [insertDir]
  | cons x xs ih =>
    simp only [List.map_cons, List.pairwise_cons, List.mem_cons, not_or] at h hn
    simp only [insertDir]
    split
    · rename_i hl
      simp only [List.map_cons, List.pairwise_cons, List.mem_cons]
      refine ⟨fun y hy => ?_, h.1, h.2⟩
      rcases hy with rfl | hy
      · exact hl
      · exact hl.trans (h.1 y hy)
    · rename_i hl
      simp only [List.map_cons, List.pairwise_cons]
      refine ⟨fun y hy => ?_, ih h.2 hn.2⟩
      obtain ⟨z, hz, rfl⟩ := List.mem_map.1 hy
      rcases mem_insertDir.1 hz with rfl | hz
      · omega
      · exact h.1 _ (List.mem_map_of_mem hz)

/-- The lowest empty slot is empty and no further than the entries are many (R3). -/
theorem lowestEmpty_spec {dir : List DirEntry} {k : Nat} (h : (dir.map DirEntry.slot).Pairwise (· < ·))
    (hk : ∀ e ∈ dir, k ≤ e.slot) :
    lowestEmpty dir k ∉ dir.map DirEntry.slot ∧ k ≤ lowestEmpty dir k ∧ lowestEmpty dir k ≤ k + dir.length := by
  induction dir generalizing k with
  | nil => simp [lowestEmpty]
  | cons x xs ih =>
    simp only [List.map_cons, List.pairwise_cons] at h
    have hx := hk x List.mem_cons_self
    simp only [lowestEmpty]
    split
    · rename_i he
      have := ih (k := k + 1) h.2 fun e hm => by
        have := h.1 _ (List.mem_map_of_mem hm); omega
      simp only [List.map_cons, List.mem_cons, not_or, List.length_cons]
      exact ⟨⟨by omega, this.1⟩, by omega, by omega⟩
    · rename_i he
      simp only [List.map_cons, List.mem_cons, not_or, List.length_cons]
      refine ⟨⟨fun e => he e.symm, fun hm => ?_⟩, le_refl _, by omega⟩
      have := h.1 k hm; omega

theorem State.DirectoryKept.length_le {s : State} (h : s.DirectoryKept) : s.dir.length ≤ 4096 := by
  have n : (s.dir.map DirEntry.slot).Nodup := h.1.imp (fun h => Nat.ne_of_lt h)
  have hsub : (s.dir.map DirEntry.slot) ⊆ List.range 4096 := fun x hx => by
    obtain ⟨e, he, rfl⟩ := List.mem_map.1 hx
    exact List.mem_range.2 (h.2.1 e he)
  have := (n.subperm hsub).length_le
  simpa using this

theorem State.evict_eq_kept {s : State} {k : Nat} : Kept s (s.evict k) := by
  unfold State.evict
  refine Kept.trans (Within.removeDir (slot := k)).kept (Kept.trans ?_ Within.announce.kept)
  exact Kept.of_eq rfl rfl rfl rfl rfl rfl rfl rfl rfl rfl rfl rfl rfl rfl

theorem State.evict_length {s : State} {k : Nat} : (s.evict k).dir.length ≤ (s.removeDir k).dir.length := by
  have := (Within.announce (s := { s.removeDir k with reclaim := (k + 1) % Config.slotCount })).slots.length_le
  simpa [State.evict] using this

theorem removeDir_length_le {s : State} {k : Nat} : (s.removeDir k).dir.length ≤ s.dir.length := by
  have := (Within.removeDir (s := s) (slot := k)).slots.length_le
  simpa using this

theorem reclaimWalk_length {need : Nat} {ks : List Nat} {s : State} :
    (reclaimWalk need ks s).dir.length ≤ s.dir.length := by
  induction ks generalizing s with
  | nil => exact le_refl _
  | cons k ks ih =>
    simp only [reclaimWalk]
    split
    · exact le_refl _
    · exact ih.trans (State.evict_length.trans removeDir_length_le)

theorem Kept.reclaimWalk {need : Nat} {ks : List Nat} {s : State} : Kept s (reclaimWalk need ks s) := by
  induction ks generalizing s with
  | nil => exact Kept.refl _
  | cons k ks ih =>
    simp only [Machine.reclaimWalk]
    split
    · exact Kept.refl _
    · exact State.evict_eq_kept.trans ih

/-- The slot of a candidate, removed, is one entry less. -/
theorem removeDir_length_lt {s : State} {e : DirEntry} (h : e ∈ s.dir) :
    (s.removeDir e.slot).dir.length < s.dir.length := by
  have hs : s.entryAt e.slot ≠ none := by
    simp only [State.entryAt, ne_eq, List.find?_eq_none, not_forall]
    exact ⟨e, h, by simp⟩
  unfold State.removeDir
  split
  · contradiction
  · simp only
    exact List.length_filter_lt_length_iff_exists.2 ⟨e, h, by simp⟩

theorem walkOrder_mem {s : State} {k : Nat} (h : k ∈ s.walkOrder) : ∃ e ∈ s.dir, e.slot = k := by
  simp only [State.walkOrder, List.mem_append, List.mem_filter, List.mem_map] at h
  rcases h with ⟨⟨e, he, rfl⟩, _⟩ | ⟨⟨e, he, rfl⟩, _⟩ <;>
    exact ⟨e, (List.mem_filter.1 he).1, rfl⟩

theorem walkOrder_ne_nil {s : State} (h : s.reclaimable ≠ []) : s.walkOrder ≠ [] := by
  obtain ⟨e, he⟩ := List.exists_mem_of_ne_nil _ h
  intro hn
  have : e.slot ∈ s.walkOrder := by
    simp only [State.walkOrder, List.mem_append, List.mem_filter, List.mem_map, decide_eq_true_eq]
    rcases Nat.lt_or_ge e.slot s.reclaim with hl | hl
    · exact .inr ⟨⟨e, he, rfl⟩, hl⟩
    · exact .inl ⟨⟨e, he, rfl⟩, hl⟩
  rw [hn] at this
  exact absurd this List.not_mem_nil

/-- The reclaim walk of an accepted ITEM_OPEN leaves a slot empty (R12). -/
theorem reclaimWalk_slotFree {s : State} {need : Nat} (hd : s.DirectoryKept)
    (h : ¬(s.slotFree = false ∧ s.reclaimable = [])) : (reclaimWalk need s.walkOrder s).slotFree = true := by
  have hle := hd.length_le
  refine decide_eq_true ?_
  show _ < 4096
  rcases Nat.lt_or_ge s.dir.length 4096 with hl | hl
  · exact reclaimWalk_length.trans_lt hl
  · have hf : s.slotFree = false := decide_eq_false (Nat.not_lt.2 hl)
    have hr : s.reclaimable ≠ [] := fun hr => h ⟨hf, hr⟩
    cases hw : s.walkOrder with
    | nil => exact absurd hw (walkOrder_ne_nil hr)
    | cons k ks =>
      simp only [reclaimWalk, hf, Bool.false_eq_true, and_false, if_false]
      obtain ⟨e, he, rfl⟩ := walkOrder_mem (hw ▸ List.mem_cons_self : k ∈ s.walkOrder)
      have h1 := removeDir_length_lt he
      have h2 := reclaimWalk_length (need := need) (ks := ks) (s := s.evict e.slot)
      have h3 := State.evict_length (s := s) (k := e.slot)
      omega

theorem Kept.create {s : State} {f : OpenForm} {owner : Option StationId}
    (h : s.DirectoryKept → s.slotFree = true) : Kept s (f.create s owner).1 := by
  refine ⟨rfl, rfl, id, id, id, id, id, fun k => ?_, id, id, id, rfl⟩
  have hl : s.dir.length < 4096 := of_decide_eq_true (h k)
  have hs := lowestEmpty_spec (k := 0) k.1 fun _ _ => Nat.zero_le _
  refine ⟨insertDir_sorted k.1 hs.1, fun x hx => ?_, ?_⟩
  · rcases mem_insertDir.1 hx with rfl | hx
    · simp only [OpenForm.entry]; omega
    · exact k.2.1 x hx
  · have h1 := k.2.2
    have h2 := takeBlocks_total (blocksFor f.length) s.freeBlocks
    simp only [State.blockTotal, OpenForm.create, answerOk, insertDir_blocks, OpenForm.entry] at h1 ⊢
    omega

theorem Kept.handleItemOpen (r : Req) (s : State) : Kept s (handleItemOpen r s).1 := by
  unfold Machine.handleItemOpen
  split
  · exact Kept.refl _
  · split
    · exact Kept.refl _
    · simp only
      split
      · exact Kept.refl _
      · split
        · exact Kept.refl _
        · split
          · rename_i hc
            exact Kept.create fun _ => hc.2
          · split
            · exact Kept.refl _
            · rename_i hn
              split
              · exact Kept.refl _
              · refine ⟨?_, ?_, ?_, ?_, ?_, ?_, ?_, fun k => ?_, ?_, ?_, ?_, ?_⟩
                all_goals
                  have hw := Kept.reclaimWalk (need := blocksFor (openForm r.payload).length) (ks := s.walkOrder) (s := s)
                case refine_8 =>
                  exact (Kept.create fun _ => reclaimWalk_slotFree k hn).directory (hw.directory k)
                all_goals first
                  | exact hw.house
                  | exact hw.media
                  | exact hw.settings
                  | exact hw.lists
                  | exact hw.capped
                  | exact hw.asrun
                  | exact hw.queue
                  | exact hw.notices
                  | exact hw.links
                  | exact hw.ref
                  | exact hw.bridging

/-! ## ENTRY_INSERT and ENTRY_AMEND -/

theorem InsertForm.entry_id (f : InsertForm) : f.entry.id = f.id := rfl

/-- A list's rules with a new entry of a new id at a place that keeps the order of due times (R62, R68, R69). -/
theorem ListRules.insert {x : Station} {p : Nat} {e : Entry} (h : ListRules x.list) (hid : (x.find e.id).isSome = false)
    (hl : x.list.length < 64) (ho : orderOk (x.listWith p e) = true) : ListRules (x.listWith p e) := by
  have hle : (x.listWith p e).length ≤ x.list.length + 1 := by
    unfold Station.listWith
    exact List.length_insertIdx_le_succ
  refine ⟨by omega, ?_, ho⟩
  unfold Station.listWith
  rcases Nat.lt_or_ge x.list.length (x.startedCount + p) with hp | hp
  · rw [List.insertIdx_of_length_lt hp]; exact h.2.1
  · have hperm := List.perm_insertIdx e x.list hp
    refine ((hperm.map Entry.id).nodup_iff).2 ?_
    simp only [List.map_cons, List.nodup_cons]
    refine ⟨fun hm => ?_, h.2.1⟩
    obtain ⟨y, hy, hid'⟩ := List.mem_map.1 hm
    have : x.find e.id = none := by simpa using hid
    have := List.find?_eq_none.1 this y hy
    simp [hid'] at this

theorem orderOk_insert_soft {x : Station} {p : Nat} {e : Entry} (h : orderOk x.list = true) (he : e.startKind ≠ .hard) :
    orderOk (x.listWith p e) = true := by
  unfold Station.listWith orderOk at *
  have key (l : List Entry) (n fl : Nat) (h : orderFrom fl l = true) : orderFrom fl (l.insertIdx n e) = true := by
    induction l generalizing n fl with
    | nil =>
      cases n
      · simp [orderFrom, he]
      · simpa using h
    | cons y ys ih =>
      cases n with
      | zero => simp only [List.insertIdx_zero]; rw [orderFrom, if_neg he]; exact h
      | succ n =>
        simp only [List.insertIdx_succ_cons, orderFrom] at h ⊢
        split
        · rename_i hy
          rw [if_pos hy, Bool.and_eq_true] at h
          rw [Bool.and_eq_true]
          exact ⟨h.1, ih n _ h.2⟩
        · rename_i hy
          rw [if_neg hy] at h
          exact ih n _ h
  exact key _ _ _ h

/-- A station changed in its list alone, to one that keeps the rules if the old one did. -/
theorem Kept.setList {s : State} {st : StationId} {x : Station} (hc : x.cfg = (s.station st).cfg)
    (hr : x.requests = (s.station st).requests) (hl : ListRules (s.station st).list → ListRules x.list) :
    Kept s (s.setStation st x) := by
  refine ⟨rfl, rfl, fun k u => ?_, fun k u => ?_, fun k u => ?_, id, id, id, id, id, id, rfl⟩ <;> by_cases hu : st = u
  · subst hu; rw [State.setStation_station, hc]; exact k st
  · rw [State.setStation_station_ne _ _ hu]; exact k u
  · subst hu; rw [State.setStation_station]; exact hl (k st)
  · rw [State.setStation_station_ne _ _ hu]; exact k u
  · subst hu
    have := k st
    simp only [State.deckLoad, State.held_setStation, State.setStation_station, hr] at this ⊢
    exact this
  · have := k u
    simp only [State.deckLoad, State.held_setStation, State.setStation_station_ne _ _ hu] at this ⊢
    exact this

/-- A taken ENTRY_INSERT's list keeps the rules (R67 to R69). -/
theorem InsertForm.hard_due {f : InsertForm} (h : f.inRange = true) :
    f.entry.startKind = .hard ↔ f.entry.due.isSome = true := by
  simp only [InsertForm.inRange, Bool.and_eq_true] at h
  obtain ⟨⟨⟨⟨-, hsome⟩, -⟩, heq⟩, -⟩ := h
  obtain ⟨k, hk⟩ := Option.isSome_iff_exists.1 hsome
  simp only [InsertForm.entry, presentIf, hk, Option.getD_some] at heq ⊢
  rw [beq_iff_eq] at heq
  rw [← heq]
  by_cases hh : k = .hard <;> simp [hh]

theorem Kept.insertEntry {s : State} {st : StationId} {f : InsertForm}
    (hl : ListRules (s.station st).list → ListRules ((s.station st).listWith ((s.station st).insertPlace f.position) f.entry)) :
    Kept s (s.insertEntry st f) := by
  unfold State.insertEntry
  simp only
  refine Kept.trans ?_ (Within.markDirty.trans Within.evalLow).kept
  exact Kept.setList rfl rfl hl

theorem Kept.handleEntryInsert (r : Req) (s : State) : Kept s (handleEntryInsert r s).1 := by
  unfold Machine.handleEntryInsert
  simp only
  refine Kept.stationRequest fun st => ?_
  split
  · exact Kept.refl _
  · rename_i hin
    split
    · exact Kept.refl _
    · rename_i ho
      split
      · exact Kept.refl _
      · rename_i hid
        split
        · exact Kept.refl _
        · rename_i hlen
          refine Kept.insertEntry fun k => ?_
          have hin : (insertForm r.payload).inRange = true := by simpa using hin
          refine ListRules.insert k (by rw [InsertForm.entry_id]; simpa using hid) (by simpa [Config.listLimit] using hlen) ?_
          by_cases hh : (insertForm r.payload).entry.startKind = .hard
          · have hs := (InsertForm.hard_due hin).1 hh
            simpa [hs] using ho
          · exact orderOk_insert_soft k.2.2 hh

theorem Within.withdrawArming {s : State} {st : StationId} {id : Nat} : Within s (s.withdrawArming st id) := by
  unfold State.withdrawArming
  refine Within.trans Within.withdraw (Within.modBreak ?_)
  exact fun _ => rfl

theorem AmendForm.apply_id (f : AmendForm) (e : Entry) : (f.apply e).id = e.id := rfl

theorem AmendForm.apply_startKind (f : AmendForm) (e : Entry) : (f.apply e).startKind = e.startKind := rfl

theorem amended_ids (x : Station) (f : AmendForm) : (x.amended f).map Entry.id = x.list.map Entry.id := by
  simp only [Station.amended, List.map_map]
  refine List.map_congr_left fun e _ => ?_
  by_cases h : e.id = f.id <;> simp [h, AmendForm.apply_id]

/-- An amendment that sets no due time leaves the order of due times (R68, R71). -/
theorem amended_order {x : Station} {f : AmendForm} {e : Entry} (hf : x.find f.id = some e)
    (hn : (x.list.map Entry.id).Nodup) (hs : Action.sets f.due = false)
    (hc : ¬(e.startKind = .hard ∧ f.due = some .absent)) (h : orderOk x.list = true) :
    orderOk (x.amended f) = true := by
  have hid : e.id = f.id := by have := List.find?_some hf; simpa using this
  have key : (x.amended f).map Entry.key = x.list.map Entry.key := by
    simp only [Station.amended, List.map_map]
    refine List.map_congr_left fun y hy => ?_
    by_cases hyid : y.id = f.id
    · have : y = e := List.inj_on_of_nodup_map hn hy (List.mem_of_find?_eq_some hf) (by rw [hyid, hid])
      subst this
      simp only [Function.comp_apply, hid, if_true, Entry.key, AmendForm.apply_startKind, AmendForm.apply_id]
      by_cases hh : y.startKind = .hard
      · simp only [hh, if_true]
        have hdue : (f.apply y).due = y.due := by
          simp only [AmendForm.apply]
          cases hd : f.due with
          | none => rfl
          | some a =>
            cases a with
            | leave => rfl
            | set v => simp [Action.sets, hd] at hs
            | absent => exact absurd ⟨hh, hd⟩ hc
        simp [Entry.endTime, Entry.dueTime, hdue]
        rfl
      · simp [hh]
    · simp [hyid]
  unfold orderOk at *
  rw [orderFrom_eq_keys, key, ← orderFrom_eq_keys]
  exact h

theorem Kept.handleEntryAmend (r : Req) (s : State) : Kept s (handleEntryAmend r s).1 := by
  unfold Machine.handleEntryAmend
  refine Kept.stationRequest fun st => ?_
  simp only
  split
  · split <;> exact Kept.refl _
  · rename_i e hf
    split
    · exact Kept.refl _
    · split
      · exact Kept.refl _
      · split
        · exact Kept.refl _
        · rename_i hc
          split
          · exact Kept.refl _
          · rename_i ho
            simp only [answerOk, State.amendEntry]
            have h1 : Kept s (s.modStation st fun x => { x with list := x.amended (amendForm r.payload) }) := by
              refine Kept.setList rfl rfl fun k => ⟨?_, ?_, ?_⟩
              · have hlen : ((s.station st).amended (amendForm r.payload)).length = (s.station st).list.length := by
                  simp [Station.amended]
                simp only [hlen]; exact k.1
              · simp only [amended_ids]; exact k.2.1
              · cases hs : Action.sets (amendForm r.payload).due with
                | true => simpa [hs] using ho
                | false =>
                  exact amended_order hf k.2.1 hs (fun hh => hc (.inr hh)) k.2.2
            exact (Kept.ite (h1.trans Within.withdrawArming.kept) h1).trans Within.markDirty.kept

/-! ## STATION_SET -/

theorem Action.apply_range {lo hi old : Nat} {a : Option Action} (h : lo ≤ hi) (ho : lo ≤ old ∧ old ≤ hi) :
    lo ≤ Action.apply lo hi old a ∧ Action.apply lo hi old a ≤ hi := by
  unfold Action.apply
  split <;> omega

/-- Clamped settings are in range (R86). -/
theorem SetForm.apply_inRange {f : SetForm} {c : Settings} (h : c.InRange) : (f.apply c).InRange := by
  obtain ⟨h1, h2, h3, h4, h5, h6, h7, h8, h9, h10, h11⟩ := h
  have a (lo hi old : Nat) (x : Option Action) (h : lo ≤ hi) (ho : lo ≤ old ∧ old ≤ hi) :=
    Action.apply_range (a := x) h ho
  refine ⟨(a 0 32768 _ _ (by omega) ⟨by omega, h1⟩).2, (a 0 480000 _ _ (by omega) ⟨by omega, h2⟩).2,
    (a 0 480000 _ _ (by omega) ⟨by omega, h3⟩).2, (a 0 480000 _ _ (by omega) ⟨by omega, h4⟩).2,
    (a 48000 2880000 _ _ (by omega) ⟨h5, h6⟩).1, (a 48000 2880000 _ _ (by omega) ⟨h5, h6⟩).2,
    (a 0 480000 _ _ (by omega) ⟨by omega, h7⟩).2, (a 0 32767 _ _ (by omega) ⟨by omega, h8⟩).2,
    (a 48000 2880000 _ _ (by omega) ⟨h9, h10⟩).1, (a 48000 2880000 _ _ (by omega) ⟨h9, h10⟩).2,
    (a 0 63 _ _ (by omega) ⟨by omega, h11⟩).2⟩

theorem Kept.applySettings {s : State} {st : StationId} {c : Settings}
    (hc : (s.station st).cfg.InRange → c.InRange) : Kept s (s.applySettings st c) := by
  unfold State.applySettings
  simp only
  have h1 : Kept s (s.modStation st fun x => { x with cfg := c }) := by
    refine ⟨rfl, rfl, fun k u => ?_, fun k u => ?_, fun k u => ?_, id, id, id, id, id, id, rfl⟩ <;> by_cases hu : st = u
    · subst hu; rw [State.modStation_station]; exact hc (k st)
    · rw [State.modStation_station_ne _ _ hu]; exact k u
    · subst hu; rw [State.modStation_station]; exact k st
    · rw [State.modStation_station_ne _ _ hu]; exact k u
    · subst hu
      have := k st
      have hh : (s.modStation st fun x => { x with cfg := c }).held st = s.held st := State.held_congr rfl st
      simp only [State.deckLoad, hh, State.modStation_station] at this ⊢
      exact this
    · have := k u
      have hh : (s.modStation st fun x => { x with cfg := c }).held u = s.held u := State.held_congr rfl u
      simp only [State.deckLoad, hh, State.modStation_station_ne _ _ hu] at this ⊢
      exact this
  have h2 := h1.trans (Kept.ite (b := c.armHorizon = (s.station st).cfg.armHorizon) (Kept.refl _)
    (Within.markDirty (st := st)).kept)
  have h3 := h2.trans (Kept.ite (b := c.lowMark = (s.station st).cfg.lowMark) (Kept.refl _)
    (Within.evalLow (st := st)).kept)
  exact h3.trans (Kept.ite (b := c.fallbackCart = (s.station st).cfg.fallbackCart) (Kept.refl _)
    (Within.bedCheck (st := st)).kept)

theorem Kept.handleStationSet (r : Req) (s : State) : Kept s (handleStationSet r s).1 := by
  unfold Machine.handleStationSet
  refine Kept.stationRequest fun st => ?_
  simp only
  split
  · exact Kept.applySettings SetForm.apply_inRange
  · exact Kept.refl _

end Sys2Proof.Machine
end

