-- ==== Sys2Proof/Laws/Reference.lean ====
section
/-!
SUPPORT. `Kept` for the requests of the reference controller and of the links, and for the handler as a whole.
-/

namespace Sys2Proof.Machine

/-! ## Replacing the controller or a link -/

theorem Kept.setRef {s : State} {r : RefControl} (hb : r.bridging = s.ref.bridging) (hr : s.ref.Kept → r.Kept)
    (hl : s.LinksKept → ∀ l, r.uses l = true → (s.link l).mode = .slave) : Kept s { s with ref := r } :=
  ⟨rfl, rfl, id, id, id, id, id, id, id, fun k l => ⟨(k l).1, hl k l⟩, hr, hb⟩

theorem Kept.setLink {s : State} {l : LinkId} {x : AirLink} (hx : (s.link l).Kept → x.Kept)
    (hm : s.LinksKept → s.ref.uses l = true → x.mode = .slave) : Kept s (s.setLink l x) := by
  have hr : (s.setLink l x).ref = s.ref := by cases l <;> rfl
  refine ⟨by cases l <;> rfl, by cases l <;> rfl, ?_, ?_, ?_, by cases l <;> exact id, by cases l <;> exact id,
    by cases l <;> exact id, by cases l <;> exact id, fun k m => ?_, fun k => by rw [hr]; exact k, by rw [hr]⟩
  · cases l <;> exact id
  · cases l <;> exact id
  · cases l <;> exact id
  · by_cases hlm : l = m
    · subst hlm
      rw [State.setLink_link, hr]
      exact ⟨hx (k l).1, hm k⟩
    · rw [State.setLink_link_ne _ _ hlm, hr]; exact k m

/-- A link changed in neither its assignments nor its modes nor whether it has framing. -/
theorem AirLink.Kept.of_eq {k x : AirLink} (ha : x.assigns = k.assigns) (hf : x.framing.isSome = k.framing.isSome)
    (hm : x.active = k.active) (h : k.Kept) : x.Kept := by
  obtain ⟨h1, h2, h3⟩ := h
  refine ⟨?_, ?_, ?_⟩
  · intro p q hpq c d hc hd; rw [ha] at hc hd; exact h1 p q hpq c d hc hd
  · intro p c hc; rw [ha] at hc; exact h2 p c hc
  · rw [hf, hm]; exact h3

/-- A link changed in what no invariant reads. -/
theorem Kept.setLink_of_eq {s : State} {l : LinkId} {x : AirLink} (ha : x.assigns = (s.link l).assigns)
    (hf : x.framing.isSome = (s.link l).framing.isSome) (hc : x.active = (s.link l).active)
    (hm : x.mode = (s.link l).mode) : Kept s (s.setLink l x) :=
  Kept.setLink (AirLink.Kept.of_eq ha hf hc) fun k hu => hm.trans ((k l).2 hu)

/-! ## The reference controller -/

theorem RefControl.noTarget_kept {r : RefControl} (h : r.miss ≤ 3) : r.noTarget.Kept :=
  ⟨h, Nat.zero_le _, fun h => absurd h (by simp [RefControl.noTarget])⟩

theorem RefControl.dropTarget_kept {r : RefControl} (h : r.Kept) : r.dropTarget.Kept := by
  unfold RefControl.dropTarget
  split
  · exact RefControl.noTarget_kept h.1
  · exact h

theorem RefControl.judgedTarget_cases (r : RefControl) : r.judgedTarget = none ∨ r.judgedTarget = r.target := by
  unfold RefControl.judgedTarget
  split
  · split
    · exact .inl rfl
    · exact .inr rfl
  · exact .inr rfl

theorem RefControl.noTarget_judged (r : RefControl) : r.noTarget.judgedTarget = none := by
  rcases r.noTarget.judgedTarget_cases with h | h <;> exact h

theorem RefControl.dropTarget_judged (r : RefControl) : r.dropTarget.judgedTarget = none := by
  unfold RefControl.dropTarget
  split
  · exact r.noTarget_judged
  · rename_i h; simpa using h

theorem RefControl.dropTarget_uses {r : RefControl} {l : LinkId} (h : r.dropTarget.uses l = true) :
    r.uses l = true := by
  have hc : r.dropTarget.current = r.current := by
    unfold RefControl.dropTarget; split <;> rfl
  have hj : r.dropTarget.judged = r.judged := by
    unfold RefControl.dropTarget; split <;> rfl
  simp only [RefControl.uses, RefControl.dropTarget_judged, hc, hj, Bool.or_eq_true] at h ⊢
  exact .inl (h.resolve_right (by simp))

theorem RefControl.dropTarget_bridging {r : RefControl} : r.dropTarget.bridging = r.bridging := by
  unfold RefControl.dropTarget
  split <;> rfl

theorem RefControl.select_bridging {r : RefControl} {src : Source} {auto : Bool} :
    (r.select src auto).bridging = r.bridging := by
  unfold RefControl.select
  simp only
  split
  · exact RefControl.dropTarget_bridging
  · split <;> rfl

theorem RefControl.select_kept {r : RefControl} {src : Source} {auto : Bool} (h : r.Kept) :
    (r.select src auto).Kept := by
  unfold RefControl.select
  simp only
  have h1 : ({ r with preferred := src, autoReturn := auto, fallen := false } : RefControl).Kept := h
  split
  · exact RefControl.dropTarget_kept h1
  · split
    · exact RefControl.noTarget_kept (r := { r with preferred := src, autoReturn := auto, fallen := false }) h.1
    · exact ⟨h.1, Nat.zero_le _, fun h => absurd h (by simp [RefControl.withTarget])⟩

theorem RefControl.toInternal_uses {r : RefControl} {l : LinkId} : r.toInternal.uses l = false := by
  have h1 : r.toInternal.judgedTarget = none := (rfl : _ = r.noTarget.judgedTarget).trans r.noTarget_judged
  have h2 : r.toInternal.judged = .internal := by
    unfold RefControl.judged
    split <;> rfl
  have h3 : r.toInternal.current = .internal := rfl
  simp [RefControl.uses, h1, h2, h3]

theorem RefControl.withTarget_uses {r : RefControl} {src : Source} {o : Origin} {l : LinkId}
    (h : (r.withTarget src o).uses l = true) : r.uses l = true ∨ src = .link l := by
  have hj : (r.withTarget src o).judged = r.judged := rfl
  have hc : (r.withTarget src o).current = r.current := rfl
  simp only [RefControl.uses, Bool.or_eq_true, beq_iff_eq, hj, hc] at h ⊢
  rcases h with h | h
  · exact .inl (.inl h)
  · refine .inr ?_
    rcases (r.withTarget src o).judgedTarget_cases with hc | hc
    · rw [hc] at h; simp at h
    · rw [hc] at h
      simpa [RefControl.withTarget] using h

theorem Kept.handleRefSelect (r : Req) (s : State) : Kept s (handleRefSelect r s).1 := by
  refine Kept.deviceRequest ?_
  split
  · rename_i src auto _ _
    simp only
    split
    · exact Kept.refl _
    · rename_i ha
      refine Kept.setRef RefControl.select_bridging RefControl.select_kept fun k l hu => ?_
      unfold RefControl.select at hu
      simp only at hu
      split at hu
      · have := RefControl.dropTarget_uses hu
        exact (k l).2 this
      · split at hu
        · rw [RefControl.toInternal_uses] at hu; exact absurd hu (by simp)
        · have := RefControl.withTarget_uses hu
          rcases this with hu | hu
          · exact (k l).2 hu
          · subst hu; simpa [State.sourceAbsent] using ha
  · split <;> exact Kept.refl _
  · exact Kept.refl _

theorem Kept.handleRefCancel (r : Req) (s : State) : Kept s (handleRefCancel r s).1 := by
  refine Kept.deviceRequest ?_
  exact Kept.setRef RefControl.dropTarget_bridging RefControl.dropTarget_kept fun k l hu => (k l).2 (RefControl.dropTarget_uses hu)

/-! ## The links -/

theorem Kept.handleLinkSet (r : Req) (s : State) : Kept s (handleLinkSet r s).1 := by
  refine Kept.deviceRequest ?_
  split
  · rename_i l m _ _
    split
    · exact Kept.refl _
    · rename_i hu
      split
      · exact Kept.refl _
      · rename_i mirror _
        unfold linkSetTaken
        split
        · exact Kept.refl _
        · split
          · exact Kept.refl _
          · simp only [answerOk, State.setLinkMode]
            refine Kept.setLink (AirLink.Kept.of_eq rfl rfl rfl) fun k h => ?_
            simp only [State.linkInUse, h, Bool.and_true] at hu
            simpa using hu
  · exact Kept.refl _

theorem setAssign_get (v : Vector (Option Assignment) 6) (st u : StationId) (a : Option Assignment) :
    (v.set st a)[u] = if st = u then a else v[u] := by
  simp only [Fin.getElem_fin, Vector.getElem_set]
  congr 1
  exact propext Fin.ext_iff.symm

theorem Assignment.overlaps_comm (x y : Assignment) : x.overlaps y = y.overlaps x := by
  simp only [Assignment.overlaps]; exact Bool.and_comm _ _

theorem Kept.setAssign {s : State} {l : LinkId} {st : StationId} {a : Option Assignment}
    (hc : a.any (fun x => (s.link l).conflicts st x) = false)
    (hw : ∀ x, a = some x → x.base + x.format.width ≤ 32) : Kept s (s.setAssign l st a) := by
  refine Kept.setLink (fun k => ⟨?_, ?_, k.2.2⟩) fun k hu => (k l).2 hu
  · intro p q hpq c d hp hq
    have noc : ∀ c, a = some c → ∀ q, st ≠ q → ∀ d, (s.link l).assigns[q] = some d → c.overlaps d = false := by
      intro c hac q hsq d hd
      subst hac
      simp only [Option.any_some, AirLink.conflicts, List.any_eq_false] at hc
      have := hc q (mem_allStations q)
      have hq' : (q != st) = true := by simp; exact fun h => hsq h.symm
      rw [hq', Bool.true_and, hd] at this
      simpa using this
    simp only [setAssign_get] at hp hq
    by_cases h1 : st = p
    · rw [if_pos h1] at hp
      have h2 : ¬ st = q := fun h => hpq (h1.symm.trans h)
      rw [if_neg h2] at hq
      exact noc c hp q h2 d hq
    · rw [if_neg h1] at hp
      by_cases h2 : st = q
      · rw [if_pos h2] at hq
        rw [Assignment.overlaps_comm]
        exact noc d hq p h1 c hp
      · rw [if_neg h2] at hq
        exact k.1 p q hpq c d hp hq
  · intro p c hp
    simp only [setAssign_get] at hp
    split at hp
    · exact hw c hp
    · exact k.2.1 p c hp

theorem assignOf_width {b f : Nat} {a : Option Assignment} (h : assignOf b f = some a) :
    ∀ x, a = some x → x.base + x.format.width ≤ 32 := by
  intro x hx
  unfold assignOf at h
  split at h
  · simp at h
  · simp only [Option.some.injEq] at h; rw [← h] at hx; simp at hx
  · split at h
    · rename_i hw
      simp only [Option.some.injEq] at h
      rw [← h] at hx
      simp only [Option.some.injEq] at hx
      rw [← hx]; exact hw
    · simp at h

theorem Kept.handleLinkAssign (r : Req) (s : State) : Kept s (handleLinkAssign r s).1 := by
  refine Kept.stationRequest fun st => ?_
  split
  · rename_i l a _ ha
    split
    · exact Kept.refl _
    · rename_i hc
      split
      · exact Kept.refl _
      · simp only [answerOk]
        exact Kept.setAssign (by simpa using hc) (assignOf_width ha)
  · exact Kept.refl _

theorem Kept.handleLinkStatus (r : Req) (s : State) : Kept s (handleLinkStatus r s).1 := by
  refine Kept.deviceRequest ?_
  split
  · refine Kept.ite ?_ (Kept.refl _)
    exact Kept.setLink_of_eq rfl rfl rfl rfl
  · exact Kept.refl _

/-! ## The handler -/

/-- Whatever the kind, the judgement and effect of a request keep the invariants. -/
theorem Kept.handlerFor (k : Byte) (r : Req) (s : State) : Kept s (handlerFor k r s).1 := by
  have key : ∀ f, Machine.handlerFor k = f → Kept s (f r s).1 := by
    intro f hf
    unfold Machine.handlerFor at hf
    split at hf <;> subst hf
    · exact Kept.handleEcho r s
    · exact Kept.handleDeviceInfo r s
    · exact Kept.handleRestart r s
    · exact Kept.handleItemOpen r s
    · exact Kept.handleItemData r s
    · exact Kept.handleItemClose r s
    · exact Kept.handleItemDrop r s
    · exact Kept.handleItemPurge r s
    · exact Kept.handleItemInfo r s
    · exact Kept.handleStoreInfo r s
    · exact Kept.handleEntryInsert r s
    · exact Kept.handleEntryRemove r s
    · exact Kept.handleEntryAmend r s
    · exact Kept.handleListRead r s
    · exact Kept.handleListClear r s
    · exact Kept.handleStationSet r s
    · exact Kept.handleStationMode r s
    · exact Kept.handleStationStatus r s
    · exact Kept.handleTake r s
    · exact Kept.handleTakeCancel r s
    · exact Kept.handleStop r s
    · exact Kept.handleResume r s
    · exact Kept.handleSetTime r s
    · exact Kept.handleRefSelect r s
    · exact Kept.handleRefCancel r s
    · exact Kept.handleRefStatus r s
    · exact Kept.handleLinkSet r s
    · exact Kept.handleLinkAssign r s
    · exact Kept.handleLinkStatus r s
    · exact Kept.handleAsrunFetch r s
    · exact Kept.handleFaultRead r s
    · exact Kept.handleCondClear r s
    · exact Kept.handleNoticeMask r s
    · exact Kept.handleUnknown r s
  exact key _ rfl

theorem Kept.takeQueue {s : State} {m : Message} {rest : List Message} (h : s.queue = m :: rest) :
    Kept s { s with queue := rest } := by
  refine ⟨rfl, rfl, id, id, id, id, fun k => ?_, id, id, id, id, rfl⟩
  simp only [State.QueueBounded, h, List.length_cons] at k ⊢
  omega

theorem Kept.handlerLoop {n : Nat} {s : State} : Kept s (handlerLoop n s) := by
  induction n generalizing s with
  | zero => exact Kept.refl _
  | succ n ih =>
    unfold Machine.handlerLoop
    split
    · split
      · exact Kept.refl _
      · rename_i h
        exact (Kept.takeQueue h).trans ((Kept.serve (Kept.handlerFor _)).trans ih)
    · exact Kept.refl _

theorem Kept.runHandler {s : State} : Kept s s.runHandler := Kept.handlerLoop

end Sys2Proof.Machine
end

