-- ==== Sys2Proof/Laws/Boundary.lean ====
section
/-!
SUPPORT. `Kept` for what completes a period, for its close and for the actions of taken requests; and, for the boundary
as a whole, that the house counter rises by one and the invariants stand.
-/

namespace Sys2Proof.Machine

/-! ## Link modes and the restart -/

theorem Kept.watch {s : State} : Kept s s.watch := by
  unfold State.watch
  split
  · rename_i h
    refine Kept.setRef rfl (fun k => ⟨k.1, Nat.zero_le _, fun h => absurd h (by simp [RefControl.withTarget])⟩) ?_
    intro k l hu
    rcases RefControl.withTarget_uses hu with hu | hu
    · exact (k l).2 hu
    · simp only [Bool.and_eq_true] at h
      have := h.1.2
      rw [hu] at this
      simp only [State.watchable, Bool.and_eq_true, beq_iff_eq] at this
      exact this.2
  · exact Kept.refl _

theorem AirLink.enterMode_kept {k : AirLink} {now : Nat} (h : k.Kept) : (k.enterMode now).Kept := by
  unfold AirLink.enterMode
  cases k.mode
  · exact ⟨h.1, h.2.1, by simp⟩
  · exact ⟨h.1, h.2.1, by simp⟩
  · exact ⟨h.1, h.2.1, by simp⟩

theorem AirLink.enterMode_mode {k : AirLink} {now : Nat} : (k.enterMode now).mode = k.mode := by
  unfold AirLink.enterMode
  split <;> rfl

theorem Kept.linkModeAct {s : State} {l : LinkId} : Kept s (s.linkModeAct l) := by
  unfold State.linkModeAct
  split
  · exact Kept.refl _
  · exact (Kept.setLink AirLink.enterMode_kept fun k hu => AirLink.enterMode_mode.trans ((k l).2 hu)).trans Kept.watch

theorem Within.restartEntry {s : State} {st : StationId} {e : Entry} : Within s (s.restartEntry st e) := by
  unfold State.restartEntry
  simp only
  split
  · exact Within.refl _
  · split
    · exact Within.record
    · exact Within.refl _
    · rename_i b _
      have h : Within s (match b.spotOnAir with
          | some (i, p) =>
            match p.served with
            | .deck d => s.breakRecord i (s.spotPlayed st e b i p d (s.stationTime st) .cut)
            | _ => s
          | none => s) := by
        split
        · split
          · exact Within.breakRecord
          · exact Within.refl _
        · exact Within.refl _
      split
      · exact h.trans Within.breakRecord
      · exact h

theorem Within.restartRecords {s : State} {st : StationId} : Within s (s.restartRecords st) := by
  unfold State.restartRecords
  simp only
  have h1 : Within s (Machine.forEach (s.station st).list (fun e acc => acc.restartEntry st e) s) :=
    Within.forEach fun _ _ => Within.restartEntry
  have spot (t : State) (d : DeckId) : Within t (t.restartTrailSpot st d) := by
    unfold State.restartTrailSpot
    split
    · exact Within.breakRecord
    · exact Within.refl _
  have fill (t : State) (d : DeckId) : Within t (t.restartTrailFill st d) := by
    unfold State.restartTrailFill
    split
    · exact Within.breakRecord
    · exact Within.refl _
  have h3 := (h1.trans (Within.forEach (xs := s.held st) fun d t => spot t d)).trans
    (Within.forEach (xs := s.held st) fun d t => fill t d)
  exact Within.ite (h3.trans Within.record) h3

theorem State.restarted_station (s : State) (st : StationId) :
    (s.stations.map Station.restarted)[st] = (s.station st).restarted := by
  simp [State.station]

/-- The part with its stations, players, port and actions as a RESTART leaves them (R212). -/
theorem Kept.restartBlocks {s : State} :
    Kept s { s with
      stations := s.stations.map Station.restarted, decks := Vector.replicate 16 Deck.reset,
      beds := Vector.replicate 6 Bed.reset, port := s.port.voided, deferred := [] } := by
  refine ⟨rfl, rfl, fun k st => ?_, fun _ st => ?_, fun _ st => ?_, id, id, id, id, id, id, rfl⟩
  · simp only [State.station, State.restarted_station]; exact k st
  · simp only [State.station, State.restarted_station]
    exact ⟨by simp [Station.restarted, Station.reset], by simp [Station.restarted, Station.reset], rfl⟩
  · have hheld : ∀ d : DeckId, (Vector.replicate 16 Deck.reset)[d].station = none := fun d => by
      simp [Deck.reset]
    simp only [State.deckLoad, State.held, State.deck, hheld, State.station, State.restarted_station]
    simp [Station.restarted, Station.reset]

theorem runsTotal_flatMap (dir : List DirEntry) :
    runsTotal (dir.flatMap DirEntry.blocks) = (dir.map fun e => runsTotal e.blocks).sum := by
  induction dir with
  | nil => rfl
  | cons x xs ih => simp [runsTotal_append, ih]

theorem blocks_partition (dir : List DirEntry) (p : DirEntry → Bool) :
    ((dir.filter p).map fun e => runsTotal e.blocks).sum +
      ((dir.filter fun e => !p e).map fun e => runsTotal e.blocks).sum = (dir.map fun e => runsTotal e.blocks).sum := by
  induction dir with
  | nil => rfl
  | cons x xs ih =>
    by_cases h : p x = true
    · simp [h]; omega
    · simp [h]; omega

theorem Kept.storeRestart {s : State} : Kept s s.storeRestart := by
  refine ⟨rfl, rfl, id, id, id, id, id, fun k => ?_, id, id, id, rfl⟩
  have hmap : (s.storeRestart.dir.map DirEntry.slot) = ((s.dir.filter fun e => e.state == .ready).map DirEntry.slot) := by
    simp [State.storeRestart, List.map_map, Function.comp_def]
  refine ⟨?_, fun e he => ?_, ?_⟩
  · rw [hmap]; exact k.1.sublist (List.filter_sublist.map _)
  · have : e.slot ∈ s.storeRestart.dir.map DirEntry.slot := List.mem_map_of_mem he
    rw [hmap] at this
    obtain ⟨x, hx, hs⟩ := List.mem_map.1 this
    rw [← hs]; exact k.2.1 x (List.mem_filter.1 hx).1
  · have h1 := k.2.2
    have h2 := blocks_partition s.dir fun e => e.state == .ready
    have h3 := runsTotal_flatMap (s.dir.filter fun e => e.state != .ready)
    have h4 : (s.dir.filter fun e => !(e.state == .ready)) = s.dir.filter fun e => e.state != .ready := rfl
    rw [h4] at h2
    simp only [State.blockTotal, State.storeRestart, runsTotal_append, List.map_map, Function.comp_def] at h1 ⊢
    omega

theorem Kept.condsRestart {s : State} : Kept s s.condsRestart := by
  unfold State.condsRestart
  simp only
  have h : Kept s { s with
      conds := s.conds.map fun c => { c with pending := 0 }
      txOrder := s.txOrder.filter TxItem.isReply
      behind := [] } := by
    refine ⟨rfl, rfl, id, id, id, id, id, id, fun k i => ⟨⟨?_, ?_⟩, ?_⟩, id, id, rfl⟩
    · simp [State.cond]
    · have := (k i).1.2
      simpa [State.cond] using this
    · have : (s.txOrder.filter TxItem.isReply).count (.notice i) = 0 := by
        rw [List.count_eq_zero]
        intro hm
        have := (List.mem_filter.1 hm).2
        simp [TxItem.isReply] at this
      simp [State.noticeCount, this]
  exact Kept.ite h (h.trans Within.raiseDevice.kept)

theorem Kept.dropTarget {s : State} : Kept s { s with ref := s.ref.dropTarget } :=
  Kept.setRef RefControl.dropTarget_bridging RefControl.dropTarget_kept fun k l hu =>
    (k l).2 (RefControl.dropTarget_uses hu)

theorem Kept.setHandler {s : State} {h : Handler} : Kept s { s with handler := h } :=
  Kept.of_eq rfl rfl rfl rfl rfl rfl rfl rfl rfl rfl rfl rfl rfl rfl

theorem Kept.restart {s : State} : Kept s s.restart := by
  unfold State.restart
  simp only
  refine Kept.trans ?_ Kept.setHandler
  refine Kept.trans ?_ (Kept.forEach fun _ _ => Within.bedTryBind.kept)
  refine Kept.trans ?_ Kept.condsRestart
  refine Kept.trans ?_ Kept.watch
  refine Kept.trans ?_ Kept.dropTarget
  refine Kept.trans ?_ Kept.storeRestart
  refine Kept.trans ?_ Kept.restartBlocks
  exact (Kept.forEach fun _ _ => Within.restartRecords.kept).trans Within.logHeld.kept

theorem Kept.restartAct {s : State} : Kept s s.restartAct := Kept.ite Kept.restart (Kept.refl _)

theorem Kept.beginPeriod {s : State} : Kept s s.beginPeriod :=
  (Kept.linkModeAct.trans Kept.linkModeAct).trans Kept.restartAct

/-! ## Links in a period -/

theorem Kept.dropSlip {s : State} {l : LinkId} : Kept s (s.dropSlip l) := by
  unfold State.dropSlip
  refine Kept.trans ?_ Within.raiseDevice.kept
  exact Kept.setLink_of_eq rfl rfl rfl rfl

theorem Kept.repeatSlip {s : State} {l : LinkId} : Kept s (s.repeatSlip l) := by
  unfold State.repeatSlip
  refine Kept.trans ?_ Within.raiseDevice.kept
  exact Kept.setLink_of_eq rfl rfl rfl rfl

theorem Kept.modFraming {s : State} {l : LinkId} {f : Framing → Framing} : Kept s (s.modFraming l f) :=
  Kept.setLink_of_eq rfl (by simp) rfl rfl

theorem Kept.storeWrite {s : State} {l : LinkId} : Kept s (s.storeWrite l) := by
  unfold State.storeWrite
  split
  · exact Kept.refl _
  · simp only
    exact (Kept.ite Kept.dropSlip (Kept.refl _)).trans Kept.modFraming

theorem Kept.frameContent {s : State} {l : LinkId} : Kept s (s.frameContent l) := by
  unfold State.frameContent
  split
  · exact Kept.refl _
  · split
    · exact Kept.setLink_of_eq rfl rfl rfl rfl
    · split
      · exact Kept.setLink_of_eq rfl rfl rfl rfl
      · split
        · simp only
          refine Kept.trans ?_ (Kept.setLink_of_eq rfl rfl rfl rfl)
          exact Kept.modFraming
        · refine Kept.trans ?_ Kept.repeatSlip
          exact Kept.setLink_of_eq rfl rfl rfl rfl

theorem Kept.linkPeriod {s : State} {l : LinkId} : Kept s (s.linkPeriod l) := by
  unfold State.linkPeriod
  split
  · exact Kept.refl _
  · exact Kept.setLink_of_eq rfl rfl rfl rfl
  · simp only
    have h : Kept s (s.setLink l { s.link l with image := s.imageOf l }) := Kept.setLink_of_eq rfl rfl rfl rfl
    have h2 := h.trans (Kept.ite (b := (s.setLink l { s.link l with image := s.imageOf l }).usesStore l = true)
      (Kept.storeWrite (l := l)) (Kept.refl _))
    refine Kept.ite (h2.trans ?_) h2
    refine Kept.trans ?_ Kept.frameContent
    exact Kept.setLink_of_eq rfl rfl rfl rfl

theorem Kept.setOpening {s : State} {b : Bool} : Kept s { s with opening := b } :=
  Kept.of_eq rfl rfl rfl rfl rfl rfl rfl rfl rfl rfl rfl rfl rfl rfl

theorem Kept.settle {s : State} : Kept s s.settle := by
  unfold State.settle
  split
  · simp only
    refine Kept.trans ?_ Kept.runHandler
    refine Kept.trans ?_ Within.release.kept
    refine Kept.trans ?_ Kept.setOpening
    refine Kept.trans ?_ (Kept.linkPeriod.trans Kept.linkPeriod)
    refine Kept.trans ?_ Within.audio.kept
    exact Kept.beginPeriod.trans (Kept.forEach fun _ _ => Within.opStation.kept)
  · exact Kept.refl _

/-! ## The close of a period -/

theorem Kept.loseLink {s : State} {l : LinkId} : Kept s (s.loseLink l) := by
  unfold State.loseLink
  simp only
  refine Kept.trans ?_ Within.raiseDevice.kept
  exact Kept.setLink_of_eq rfl (by simp) rfl rfl

theorem Kept.loseIfDue {s : State} {l : LinkId} {now : Nat} : Kept s (s.loseIfDue l now) :=
  Kept.ite Kept.loseLink (Kept.refl _)

theorem RefControl.missedTarget_uses {r : RefControl} {l : LinkId} (ht : r.judgedTarget.isSome = true)
    (h : r.missedTarget.uses l = true) : r.uses l = true := by
  have hj : r.missedTarget.judged = r.judged := rfl
  simp only [RefControl.uses, Bool.or_eq_true, beq_iff_eq, hj] at h ⊢
  rcases h with h | h
  · exact .inl h
  · refine .inr ?_
    have h1 : r.judgedTarget = r.target := by
      rcases r.judgedTarget_cases with hc | hc
      · rw [hc] at ht; simp at ht
      · exact hc
    rcases r.missedTarget.judgedTarget_cases with hc | hc
    · rw [hc] at h; simp at h
    · rw [hc] at h
      rw [h1]; exact h

theorem Kept.missedTarget {s : State} (h : s.ref.judgedTarget.isSome = true) :
    Kept s { s with ref := s.ref.missedTarget } :=
  Kept.setRef rfl (fun k => ⟨k.1, Nat.zero_le _, fun h => absurd h (by simp [RefControl.missedTarget])⟩) fun k l hu =>
    (k l).2 (RefControl.missedTarget_uses h hu)

theorem Kept.discardMessage {s : State} : Kept s s.discardMessage := by
  unfold State.discardMessage
  refine Kept.trans ?_ Within.raiseDevice.kept
  exact Kept.of_eq rfl rfl rfl rfl rfl rfl rfl rfl rfl rfl rfl rfl rfl rfl

theorem Kept.setRx {s : State} {x : Receiver} : Kept s { s with rx := x } :=
  Kept.of_eq rfl rfl rfl rfl rfl rfl rfl rfl rfl rfl rfl rfl rfl rfl

theorem Kept.rxBoundary {s : State} : Kept s s.rxBoundary :=
  Kept.ite Kept.discardMessage (Kept.ite (Kept.refl _) Kept.setRx)

theorem Kept.silenceOrder {s : State} {st : StationId} : Kept s (s.silenceOrder st) := by
  unfold State.silenceOrder
  simp only
  split
  · exact Kept.modStation fun _ => .of_eq rfl rfl rfl rfl
  · refine Kept.trans (Kept.trans (Within.reportFault.trans Within.withdrawTake).kept (Kept.modStation ?_)) Kept.defer
    exact fun _ => .of_eq rfl rfl rfl rfl

theorem Kept.closePeriod {s : State} {now : Nat} : Kept s (s.closePeriod now) := by
  unfold State.closePeriod
  simp only
  refine Kept.trans ?_ Kept.rxBoundary
  have h : Kept s (((Machine.forEach allStations (fun st acc => acc.silenceOrder st)
      (Machine.forEach allStations (fun st acc => acc.opBedEnd st)
        (Machine.forEach allDecks (fun d acc => acc.opDeckEnd d) s)).settlePool.logHeld).loseIfDue .a now).loseIfDue .b now) := by
    refine Kept.trans ?_ (Kept.loseIfDue.trans Kept.loseIfDue)
    refine Kept.trans ?_ (Kept.forEach fun _ _ => Kept.silenceOrder)
    refine Kept.trans ?_ (Within.settlePool.trans Within.logHeld).kept
    refine Kept.trans ?_ (Kept.forEach fun _ _ => Within.opBedEnd.kept)
    exact Kept.forEach fun _ _ => Within.opDeckEnd.kept
  split
  · rename_i ht
    simp only [RefControl.timedOut, Bool.and_eq_true] at ht
    exact h.trans (Kept.missedTarget ht.1)
  · exact h

/-! ## The actions of taken requests -/

theorem Kept.deferredLoop {n : Nat} {s : State} : Kept s (deferredLoop n s) := by
  induction n generalizing s with
  | zero => exact Kept.refl _
  | succ n ih =>
    unfold Machine.deferredLoop
    split
    · exact Kept.refl _
    · exact Kept.takeDeferred.trans ((Within.act.trans Within.settlePool).kept.trans ih)

theorem Kept.runDeferred {s : State} : Kept s s.runDeferred := Kept.deferredLoop

/-! ## The boundary -/

/-- No clause but the first reads the house counter. -/
theorem Kept.at_house {s t : State} (h : Kept s t) (n : Count48) : Kept { s with house := n } { t with house := n } :=
  ⟨rfl, h.media, h.settings, h.lists, h.capped, h.asrun, h.queue, h.directory, h.notices, h.links, h.ref, h.bridging⟩

theorem State.openPeriod_kept {s : State} {now : Nat} :
    Kept { s with house := s.house + 1 } (s.openPeriod now) := by
  have hst (st : StationId) : (s.openPeriod now).station st = { s.station st with acted := false, lateHead := false } := by
    simp [State.openPeriod, State.station]
  refine ⟨rfl, rfl, fun k st => ?_, fun k st => ?_, fun k st => ?_, id, id, id, id, id, id, rfl⟩
  · rw [hst]; exact k st
  · rw [hst]; exact k st
  · have := k st
    simp only [State.deckLoad, hst] at this ⊢
    exact this

/-- A boundary raises the house counter by one and keeps the invariants (R148). -/
theorem State.boundary_kept {s : State} {len : Nat} : Kept { s with house := s.house + 1 } (s.boundary len) := by
  unfold State.boundary
  refine Kept.trans ?_ Kept.runDeferred
  have h := (Kept.settle (s := s)).trans (Kept.closePeriod (now := s.periodStart + len))
  have hh := h.house
  refine Kept.trans ?_ (State.openPeriod_kept (now := s.periodStart + len))
  rw [hh]
  exact h.at_house _

end Sys2Proof.Machine
end

