-- ==== Sys2Proof/Laws/Log.lean ====
section
/-!
SUPPORT. What raising a condition, making a record, letting held records into the log and the end of a waiting TAKE can
do: one lemma each, and the fields that follow from it.
-/

namespace Sys2Proof.Machine

/-- A state but for its conditions and what it is to send: all that raising a condition leaves. -/
def State.unsent (s : State) : State :=
  { s with sending := none, txOrder := [], behind := [], conds := Vector.replicate 7 ⟨0, 0⟩ }

@[simp] theorem State.unsent_recordsHeld (s : State) : s.unsent.recordsHeld = s.recordsHeld := rfl
@[simp] theorem State.unsent_asrun (s : State) : s.unsent.asrun = s.asrun := rfl
@[simp] theorem State.unsent_nextSeq (s : State) : s.unsent.nextSeq = s.nextSeq := rfl
@[simp] theorem State.unsent_wrapHold (s : State) : s.unsent.wrapHold = s.wrapHold := rfl
@[simp] theorem State.unsent_stations (s : State) : s.unsent.stations = s.stations := rfl
@[simp] theorem State.unsent_decks (s : State) : s.unsent.decks = s.decks := rfl
@[simp] theorem State.unsent_beds (s : State) : s.unsent.beds = s.beds := rfl
@[simp] theorem State.unsent_dir (s : State) : s.unsent.dir = s.dir := rfl

theorem State.pump_unsent (s : State) : s.pump.unsent = s.unsent := by
  unfold State.pump
  split <;> rfl

theorem State.trigger_unsent (s : State) (i : SetId) : (s.trigger i).unsent = s.unsent := by
  unfold State.trigger
  split
  · rfl
  · split
    · rfl
    · rw [State.pump_unsent]; rfl

theorem State.raiseBits_unsent (s : State) (i : SetId) (m : Byte) : (s.raiseBits i m).unsent = s.unsent := by
  simp only [State.raiseBits]
  split
  · rfl
  · rw [State.trigger_unsent]; rfl

/-! ## Records -/

/-- A record made: its number is used up, and it joins the queue where the log accepts it (R185). -/
theorem State.addRecord_unsent (s : State) (r : Record) :
    (s.addRecord r).unsent =
      { s.unsent with
        asrun := if s.logAccepts then s.asrun ++ [{ r with seq := s.nextSeq }] else s.asrun
        nextSeq := s.nextSeq + 1
        wrapHold := s.wrapHold || (s.nextSeq == 4294967295 &&
          !(if s.logAccepts then s.asrun ++ [{ r with seq := s.nextSeq }] else s.asrun).isEmpty) } := by
  simp only [State.addRecord, State.raiseDevice]
  split
  · rw [State.raiseBits_unsent]; rfl
  · split
    · rw [State.raiseBits_unsent]; rfl
    · rfl

@[simp] theorem State.addRecord_recordsHeld (s : State) (r : Record) :
    (s.addRecord r).recordsHeld = s.recordsHeld := by simpa using congrArg State.recordsHeld (s.addRecord_unsent r)
@[simp] theorem State.addRecord_stations (s : State) (r : Record) :
    (s.addRecord r).stations = s.stations := by simpa using congrArg State.stations (s.addRecord_unsent r)
@[simp] theorem State.addRecord_decks (s : State) (r : Record) :
    (s.addRecord r).decks = s.decks := by simpa using congrArg State.decks (s.addRecord_unsent r)
@[simp] theorem State.addRecord_beds (s : State) (r : Record) :
    (s.addRecord r).beds = s.beds := by simpa using congrArg State.beds (s.addRecord_unsent r)
@[simp] theorem State.addRecord_dir (s : State) (r : Record) :
    (s.addRecord r).dir = s.dir := by simpa using congrArg State.dir (s.addRecord_unsent r)

theorem State.record_of_none (s : State) (r : Record) (h : s.recordsHeld = []) : s.record r = s.addRecord r := by
  simp [State.record, h]

theorem State.record_of_held (s : State) (r : Record) (h : s.recordsHeld ≠ []) :
    s.record r = { s with recordsHeld := s.recordsHeld ++ [(none, r)] } := by
  simp [State.record, h]

@[simp] theorem State.record_stations (s : State) (r : Record) : (s.record r).stations = s.stations := by
  unfold State.record; split <;> simp
@[simp] theorem State.record_decks (s : State) (r : Record) : (s.record r).decks = s.decks := by
  unfold State.record; split <;> simp
@[simp] theorem State.record_beds (s : State) (r : Record) : (s.record r).beds = s.beds := by
  unfold State.record; split <;> simp
@[simp] theorem State.record_dir (s : State) (r : Record) : (s.record r).dir = s.dir := by
  unfold State.record; split <;> simp

/-- What the records of a list leave as they reach the log. -/
theorem State.forEach_addRecord (s : State) (l : List (Option Nat × Record)) :
    (forEach l (fun x acc => acc.addRecord x.2) s).recordsHeld = s.recordsHeld ∧
      (forEach l (fun x acc => acc.addRecord x.2) s).stations = s.stations ∧
      (forEach l (fun x acc => acc.addRecord x.2) s).decks = s.decks ∧
      (forEach l (fun x acc => acc.addRecord x.2) s).beds = s.beds ∧
      (forEach l (fun x acc => acc.addRecord x.2) s).dir = s.dir := by
  unfold forEach
  induction l generalizing s with
  | nil => exact ⟨rfl, rfl, rfl, rfl, rfl⟩
  | cons x xs ih => simpa using ih (s.addRecord x.2)

theorem State.logWhile_recordsHeld (s : State) (p : Option Nat × Record → Bool) :
    (s.logWhile p).recordsHeld = s.recordsHeld.dropWhile p := (State.forEach_addRecord _ _).1
@[simp] theorem State.logWhile_stations (s : State) (p : Option Nat × Record → Bool) :
    (s.logWhile p).stations = s.stations := (State.forEach_addRecord _ _).2.1
@[simp] theorem State.logWhile_decks (s : State) (p : Option Nat × Record → Bool) :
    (s.logWhile p).decks = s.decks := (State.forEach_addRecord _ _).2.2.1
@[simp] theorem State.logWhile_beds (s : State) (p : Option Nat × Record → Bool) :
    (s.logWhile p).beds = s.beds := (State.forEach_addRecord _ _).2.2.2.1
@[simp] theorem State.logWhile_dir (s : State) (p : Option Nat × Record → Bool) :
    (s.logWhile p).dir = s.dir := (State.forEach_addRecord _ _).2.2.2.2

@[simp] theorem State.release_stations (s : State) : s.release.stations = s.stations := by
  unfold State.release; split <;> simp
@[simp] theorem State.release_decks (s : State) : s.release.decks = s.decks := by
  unfold State.release; split <;> simp
@[simp] theorem State.release_beds (s : State) : s.release.beds = s.beds := by
  unfold State.release; split <;> simp

/-! ## A waiting TAKE whose target has left -/

theorem State.takesGone_deferred (s : State) (st : StationId) (gone : List Entry) :
    (s.takesGone st gone).deferred.map Prod.fst = s.deferred.map Prod.fst := by
  simp only [State.takesGone, List.map_map]
  refine List.map_congr_left fun p _ => ?_
  obtain ⟨u, a⟩ := p
  cases a <;> simp only [Function.comp_apply]
  split <;> simp_all

/-- No TAKE of an entry that is gone waits. -/
theorem State.takesGone_none (s : State) (st : StationId) (gone : List Entry) (e : Entry) (h : e ∈ gone) :
    (st, Deferred.take e.id) ∉ (s.takesGone st gone).deferred := by
  simp only [State.takesGone, List.mem_map, not_exists, not_and]
  rintro ⟨u, a⟩ _ he
  cases a <;> simp only [Prod.mk.injEq, reduceCtorEq, and_false] at he
  case take id =>
    split at he
    · simp at he
    · rename_i hn
      obtain ⟨rfl, hid⟩ := Prod.mk.inj he
      cases hid
      exact hn ⟨rfl, List.any_eq_true.mpr ⟨e, h, by simp⟩⟩

end Sys2Proof.Machine
end

