-- ==== Sys2Proof/Laws/Memory.lean ====
section
/-!
SUPPORT. The media memory: a read after a write, and that every write keeps the canonical form.
-/

namespace Sys2Proof.Machine

theorem Memory.wf_tail {c : Host.Cell} {m : List Host.Cell} (h : Memory.wf (c :: m) = true) : Memory.wf m = true := by
  cases m with
  | nil => rfl
  | cons d ds => simp only [Memory.wf, Bool.and_eq_true] at h; exact h.2

/-- The first cell of a canonical memory lies below every other. -/
theorem Memory.wf_head {c : Host.Cell} {m : List Host.Cell} (h : Memory.wf (c :: m) = true) :
    c.2 ≠ Config.unwrittenByte ∧ ∀ d ∈ m, c.1 < d.1 := by
  induction m generalizing c with
  | nil => simp only [Memory.wf, bne_iff_ne, ne_eq] at h; exact ⟨h, by simp⟩
  | cons d ds ih =>
    simp only [Memory.wf, Bool.and_eq_true, bne_iff_ne, ne_eq, decide_eq_true_eq] at h
    refine ⟨h.1.1, fun e he => ?_⟩
    rcases List.mem_cons.1 he with rfl | he
    · exact h.1.2
    · exact h.1.2.trans ((ih h.2).2 e he)

theorem Memory.wf_cons {c : Host.Cell} {m : List Host.Cell} (hb : c.2 ≠ Config.unwrittenByte)
    (hl : ∀ d ∈ m, c.1 < d.1) (h : Memory.wf m = true) : Memory.wf (c :: m) = true := by
  cases m with
  | nil => simpa [Memory.wf] using hb
  | cons d ds =>
    simp only [Memory.wf, Bool.and_eq_true, bne_iff_ne, ne_eq, decide_eq_true_eq]
    exact ⟨⟨hb, hl d List.mem_cons_self⟩, h⟩

theorem mem_writeByte {m : List Host.Cell} {a : Nat} {b : Byte} {d : Host.Cell} (h : d ∈ writeByte m a b) :
    d.1 = a ∨ d ∈ m := by
  induction m with
  | nil => simp only [writeByte] at h; split at h <;> simp_all
  | cons c cs ih =>
    simp only [writeByte] at h
    split at h
    · split at h
      · exact .inr h
      · rcases List.mem_cons.1 h with rfl | h
        · exact .inl rfl
        · exact .inr h
    · split at h
      · split at h
        · exact .inr (List.mem_cons_of_mem _ h)
        · rcases List.mem_cons.1 h with rfl | h
          · exact .inl rfl
          · exact .inr (List.mem_cons_of_mem _ h)
      · rcases List.mem_cons.1 h with rfl | h
        · exact .inr List.mem_cons_self
        · exact (ih h).imp id (List.mem_cons_of_mem _)

/-- A write keeps the canonical form. -/
theorem writeByte_wf {m : List Host.Cell} {a : Nat} {b : Byte} (h : Memory.wf m = true) :
    Memory.wf (writeByte m a b) = true := by
  induction m with
  | nil =>
    simp only [writeByte]
    split
    · rfl
    · rename_i hb; simpa [Memory.wf] using hb
  | cons c cs ih =>
    have hh := Memory.wf_head h
    have ht := Memory.wf_tail h
    simp only [writeByte]
    split
    · rename_i ha
      split
      · exact h
      · rename_i hb
        refine Memory.wf_cons hb (fun d hd => ?_) h
        rcases List.mem_cons.1 hd with rfl | hd
        · exact ha
        · exact lt_trans ha (hh.2 d hd)
    · split
      · rename_i ha
        split
        · exact ht
        · rename_i hb
          exact Memory.wf_cons hb (fun d hd => by have := hh.2 d hd; simp only [ha]; exact this) ht
      · refine Memory.wf_cons hh.1 (fun d hd => ?_) (ih ht)
        rcases mem_writeByte hd with hd | hd
        · omega
        · exact hh.2 d hd

theorem readByte_of_lt {m : List Host.Cell} {a : Nat} (h : ∀ d ∈ m, a < d.1) : readByte m a = Config.unwrittenByte := by
  induction m with
  | nil => rfl
  | cons c cs ih =>
    have hc := h c List.mem_cons_self
    simp only [readByte]
    rw [if_neg (by omega)]
    exact ih fun d hd => h d (List.mem_cons_of_mem _ hd)

/-- A read after a write: the byte written at its address, and every other byte as before. -/
theorem readByte_writeByte {m : List Host.Cell} {a x : Nat} {b : Byte} (h : Memory.wf m = true) :
    readByte (writeByte m a b) x = if x = a then b else readByte m x := by
  induction m with
  | nil =>
    simp only [writeByte]
    split
    · rename_i hb; split <;> simp [readByte, hb]
    · by_cases hx : x = a
      · simp [readByte, hx]
      · have : ¬ a = x := fun e => hx e.symm
        simp [readByte, hx, this]
  | cons c cs ih =>
    have hh := Memory.wf_head h
    have ht := Memory.wf_tail h
    simp only [writeByte]
    split
    · rename_i ha
      split
      · rename_i hb
        split
        · rename_i hx
          subst hx
          rw [hb]
          refine readByte_of_lt fun d hd => ?_
          rcases List.mem_cons.1 hd with rfl | hd
          · exact ha
          · exact ha.trans (hh.2 d hd)
        · rfl
      · by_cases hx : x = a
        · simp [readByte, hx]
        · have : ¬ a = x := fun e => hx e.symm
          simp [readByte, hx, this]
    · split
      · rename_i ha
        split
        · rename_i hb
          split
          · rename_i hx
            rw [hx, hb]
            exact readByte_of_lt fun d hd => ha ▸ hh.2 d hd
          · rename_i hx
            simp only [readByte]
            rw [if_neg (by omega)]
        · by_cases hx : x = a
          · simp [readByte, hx]
          · have h1 : ¬ a = x := fun e => hx e.symm
            have h2 : ¬ c.1 = x := by omega
            simp [readByte, hx, h1, h2]
      · rename_i h1 h2
        simp only [readByte, ih ht]
        by_cases hx : c.1 = x
        · rw [if_pos hx, if_neg (by omega), if_pos hx]
        · rw [if_neg hx, if_neg hx]

/-! ## Pairs -/

theorem writePair_wf {m : List Host.Cell} {a : Nat} {p : Pair} (h : Memory.wf m = true) :
    Memory.wf (writePair m a p) = true :=
  writeByte_wf (writeByte_wf (writeByte_wf (writeByte_wf h)))

/-- A byte outside the four of a pair reads as before the pair's write. -/
theorem readByte_writePair_other {m : List Host.Cell} {a x : Nat} {p : Pair} (h : Memory.wf m = true)
    (hx : x < 4 * a ∨ 4 * a + 4 ≤ x) : readByte (writePair m a p) x = readByte m x := by
  unfold writePair
  rw [readByte_writeByte (writeByte_wf (writeByte_wf (writeByte_wf h))), if_neg (by omega),
    readByte_writeByte (writeByte_wf (writeByte_wf h)), if_neg (by omega), readByte_writeByte (writeByte_wf h),
    if_neg (by omega), readByte_writeByte h, if_neg (by omega)]

theorem readPair_writePair {m : List Host.Cell} {a : Nat} {p : Pair} (h : Memory.wf m = true) :
    readPair (writePair m a p) a = p := by
  have e (w : Sample) : w.extractLsb' 8 8 ++ w.extractLsb' 0 8 = w := by
    ext i hi
    simp only [BitVec.getElem_append]
    split
    · simp [BitVec.getLsbD_eq_getElem (x := w) (i := i) hi]
    · simp only [BitVec.getElem_extractLsb']
      rw [← BitVec.getLsbD_eq_getElem]
      congr 1; omega
  unfold readPair writePair
  simp only [readByte_writeByte (writeByte_wf (writeByte_wf (writeByte_wf h))),
    readByte_writeByte (writeByte_wf (writeByte_wf h)), readByte_writeByte (writeByte_wf h), readByte_writeByte h]
  have n1 : ¬ 4 * a = 4 * a + 3 := by omega
  have n2 : ¬ 4 * a = 4 * a + 2 := by omega
  have n3 : ¬ 4 * a = 4 * a + 1 := by omega
  have n4 : ¬ 4 * a + 1 = 4 * a + 3 := by omega
  have n5 : ¬ 4 * a + 1 = 4 * a + 2 := by omega
  have n6 : ¬ 4 * a + 2 = 4 * a + 3 := by omega
  simp only [n1, n2, n3, n4, n5, n6, if_true, if_false, e]

/-- Every write of an upload keeps the canonical form. -/
theorem writePairs_wf {e : DirEntry} {ps : List Pair} {k : Nat} {m n : List Host.Cell} (h : Memory.wf m = true)
    (hw : writePairs e ps k m = some n) : Memory.wf n = true := by
  induction ps generalizing k m with
  | nil => simp only [writePairs, Option.some.injEq] at hw; rw [← hw]; exact h
  | cons p ps ih =>
    simp only [writePairs] at hw
    split at hw
    · simp at hw
    · exact ih (writePair_wf h) hw

/-- A byte outside the places of an upload's pairs reads as before. -/
theorem writePairs_other {e : DirEntry} {ps : List Pair} {k x : Nat} {m n : List Host.Cell} (h : Memory.wf m = true)
    (hw : writePairs e ps k m = some n)
    (hx : ∀ i, i < ps.length → ∀ a, e.place (k + i) = some a → x < 4 * a ∨ 4 * a + 4 ≤ x) :
    readByte n x = readByte m x := by
  induction ps generalizing k m with
  | nil => simp only [writePairs, Option.some.injEq] at hw; rw [← hw]
  | cons p ps ih =>
    simp only [writePairs] at hw
    split at hw
    · simp at hw
    · rename_i a ha
      rw [ih (writePair_wf h) hw fun i hi b hb => hx (i + 1) (by simp; omega) b (by rw [← hb]; congr 1; omega)]
      exact readByte_writePair_other h (hx 0 (by simp) a (by simpa using ha))

end Sys2Proof.Machine
end

