-- ==== Sys2Proof/Laws/Reevaluate.lean ====
section
/-!
SUPPORT. `Reevaluated` for the operations of the deck pool and of arming: what a re-evaluation leaves as it is.
-/

namespace Sys2Proof.Machine

theorem Reevaluated.refl (s : State) : Reevaluated s s :=
  ⟨fun _ _ => rfl, rfl, fun _ => rfl, fun _ => rfl, rfl, rfl, rfl, rfl, rfl, rfl, rfl, rfl, rfl, rfl, rfl, rfl, rfl⟩

theorem Reevaluated.trans {s t u : State} (h : Reevaluated s t) (k : Reevaluated t u) : Reevaluated s u where
  decks d hd := by
    have h1 := h.decks d hd
    rw [k.decks d (by rw [h1]; exact hd), h1]
  beds := k.beds.trans h.beds
  station st := (k.station st).trans (h.station st)
  lists st := (k.lists st).trans (h.lists st)
  dir := k.dir.trans h.dir
  freeBlocks := k.freeBlocks.trans h.freeBlocks
  media := k.media.trans h.media
  handler := k.handler.trans h.handler
  queue := k.queue.trans h.queue
  port := k.port.trans h.port
  claim := k.claim.trans h.claim
  deferred := k.deferred.trans h.deferred
  house := k.house.trans h.house
  opening := k.opening.trans h.opening
  ref := k.ref.trans h.ref
  linkA := k.linkA.trans h.linkA
  linkB := k.linkB.trans h.linkB

/-! ## Parts -/

theorem Reevaluated.of_log {s t : State} (hf : t.fixed = s.fixed) (hd : t.decks = s.decks) (hb : t.beds = s.beds)
    (hs : t.stations = s.stations) (hdir : t.dir = s.dir) (hfree : t.freeBlocks = s.freeBlocks) : Reevaluated s t := by
  simp only [State.fixed, Fixed.mk.injEq] at hf
  obtain ⟨-, -, -, -, -, h1, h2, -, h3, -, -, h4, h5, h6, h7, -, h8, h9, h10, h11⟩ := hf
  exact ⟨fun d _ => State.deck_congr hd d, hb, fun st => by rw [State.station_congr hs],
    fun st => by rw [State.station_congr hs], by rw [hdir], hfree, h3, h2, h1, h4, h5, h6, h7, h8, h9, h10, h11⟩

theorem Reevaluated.setStation {s : State} {st : StationId} {x : Station} (hf : x.frame = (s.station st).frame)
    (hl : x.list.map Entry.frame = (s.station st).list.map Entry.frame) : Reevaluated s (s.setStation st x) := by
  refine ⟨fun _ _ => rfl, rfl, fun u => ?_, fun u => ?_, rfl, rfl, rfl, rfl, rfl, rfl, rfl, rfl, rfl, rfl, rfl, rfl,
    rfl⟩ <;> by_cases hu : st = u
  · subst hu; rw [State.setStation_station]; exact hf
  · rw [State.setStation_station_ne _ _ hu]
  · subst hu; rw [State.setStation_station]; exact hl
  · rw [State.setStation_station_ne _ _ hu]

theorem Reevaluated.modStation {s : State} {st : StationId} {f : Station → Station} (hf : ∀ x, (f x).frame = x.frame)
    (hl : ∀ x, (f x).list = x.list) : Reevaluated s (s.modStation st f) :=
  Reevaluated.setStation (hf _) (by rw [hl])

theorem Reevaluated.modEntry {s : State} {st : StationId} {id : Nat} {f : Entry → Entry}
    (h : ∀ e, (f e).frame = e.frame) : Reevaluated s (s.modEntry st id f) := by
  refine Reevaluated.setStation rfl ?_
  simp only [List.map_map]
  refine List.map_congr_left fun e _ => ?_
  by_cases he : e.id = id <;> simp [he, h]

theorem Reevaluated.modBreak {s : State} {st : StationId} {id : Nat} {f : BreakData → BreakData}
    (h : ∀ b, (f b).frame = b.frame) : Reevaluated s (s.modBreak st id f) := by
  refine Reevaluated.modEntry fun e => ?_
  split
  · rfl
  · rename_i b hb
    simp only [Entry.frame, hb, h, Entry.notStarted]
    rfl

theorem BreakData.frame_spots {b : BreakData} {l : List Spot}
    (h : l.map (fun p => (p.cart, p.ref)) = b.spots.map fun p => (p.cart, p.ref)) :
    ({ b with spots := l } : BreakData).frame = b.frame := by
  have := congrArg (List.map Spot.fresh) h
  simp only [List.map_map] at this
  simp only [BreakData.frame]
  congr 1

theorem spots_modify {l : List Spot} {i : Nat} {f : Spot → Spot} (h : ∀ p, (f p).cart = p.cart ∧ (f p).ref = p.ref) :
    (l.modify i f).map (fun p => (p.cart, p.ref)) = l.map fun p => (p.cart, p.ref) := by
  induction l generalizing i with
  | nil => cases i <;> rfl
  | cons p ps ih =>
    cases i with
    | zero => simp [h]
    | succ i => simp [ih]

theorem Reevaluated.modSpot {s : State} {st : StationId} {id i : Nat} {f : Spot → Spot}
    (h : ∀ p, (f p).cart = p.cart ∧ (f p).ref = p.ref) : Reevaluated s (s.modSpot st id i f) :=
  Reevaluated.modBreak fun _ => BreakData.frame_spots (spots_modify h)

theorem Reevaluated.markDirty {s : State} {st : StationId} : Reevaluated s (s.markDirty st) :=
  Reevaluated.modStation (fun _ => rfl) fun _ => rfl

theorem Reevaluated.setDeck {s : State} {d : DeckId} {x : Deck} (h : (s.deck d).player.state = .free) :
    Reevaluated s (s.setDeck d x) := by
  refine ⟨fun c hc => ?_, rfl, fun _ => rfl, fun _ => rfl, rfl, rfl, rfl, rfl, rfl, rfl, rfl, rfl, rfl, rfl, rfl, rfl,
    rfl⟩
  by_cases hd : d = c
  · subst hd; exact absurd h hc
  · rw [State.setDeck_deck_ne _ _ hd]

theorem Reevaluated.bindSlot {s : State} {slot : Nat} : Reevaluated s (s.bindSlot slot) := by
  refine ⟨fun _ _ => rfl, rfl, fun _ => rfl, fun _ => rfl, ?_, rfl, rfl, rfl, rfl, rfl, rfl, rfl, rfl, rfl, rfl, rfl,
    rfl⟩
  simp only [State.bindSlot, State.modDir, List.map_map]
  refine List.map_congr_left fun e _ => ?_
  by_cases he : e.slot = slot <;> simp [he, DirEntry.frame]

theorem State.pump_log (s : State) : s.pump.fixed = s.fixed ∧ s.pump.decks = s.decks ∧ s.pump.beds = s.beds ∧
    s.pump.stations = s.stations ∧ s.pump.dir = s.dir ∧ s.pump.freeBlocks = s.freeBlocks := by
  unfold State.pump
  split <;> exact ⟨rfl, rfl, rfl, rfl, rfl, rfl⟩

theorem Reevaluated.pump {s : State} : Reevaluated s s.pump := by
  obtain ⟨h1, h2, h3, h4, h5, h6⟩ := s.pump_log
  exact Reevaluated.of_log h1 h2 h3 h4 h5 h6

theorem Reevaluated.trigger {s : State} {i : SetId} : Reevaluated s (s.trigger i) := by
  unfold State.trigger
  split
  · exact Reevaluated.refl _
  · split
    · exact Reevaluated.of_log rfl rfl rfl rfl rfl rfl
    · refine Reevaluated.trans ?_ Reevaluated.pump
      exact Reevaluated.of_log rfl rfl rfl rfl rfl rfl

theorem Reevaluated.raiseBits {s : State} {i : SetId} {m : Byte} : Reevaluated s (s.raiseBits i m) := by
  unfold State.raiseBits
  simp only
  have h : Reevaluated s (s.setCond i ((s.cond i).raise m)) := Reevaluated.of_log rfl rfl rfl rfl rfl rfl
  split
  · exact h
  · exact h.trans Reevaluated.trigger

theorem Reevaluated.addRecord {s : State} {r : Record} : Reevaluated s (s.addRecord r) := by
  unfold State.addRecord
  simp only
  have h (q : List Record) (n : Count32) (w : Bool) :
      Reevaluated s { s with asrun := q, nextSeq := n, wrapHold := w } := Reevaluated.of_log rfl rfl rfl rfl rfl rfl
  split
  · exact (h _ _ _).trans Reevaluated.raiseBits
  · split
    · exact (h _ _ _).trans Reevaluated.raiseBits
    · exact h _ _ _

theorem Reevaluated.reportFault {s : State} {st : StationId} {c : FaultCause} {id cart t : Nat} :
    Reevaluated s (s.reportFault st c id cart t) := by
  unfold State.reportFault
  split
  · refine Reevaluated.trans (Reevaluated.modStation ?_ ?_) Reevaluated.raiseBits
    · exact fun _ => rfl
    · exact fun _ => rfl
  · exact Reevaluated.modStation (fun _ => rfl) fun _ => rfl

theorem Reevaluated.forEach {α : Type} {s : State} {xs : List α} {f : α → State → State}
    (h : ∀ x t, Reevaluated t (f x t)) : Reevaluated s (forEach xs f s) := by
  unfold Machine.forEach
  induction xs generalizing s with
  | nil => exact Reevaluated.refl _
  | cons x xs ih => exact (h x s).trans ih

/-! ## The pool -/

theorem Entry.frame_served (e : Entry) (v : Served) : ({ e with served := v } : Entry).frame = e.frame := rfl

theorem Entry.frame_armed (e : Entry) (v : Served) :
    ({ e with served := v, state := e.state.armedBy } : Entry).frame = e.frame := by
  cases hs : e.state <;> simp [Entry.frame, Entry.notStarted, EntryState.notStarted, EntryState.armedBy, hs]

theorem Entry.frame_armed' (e : Entry) : ({ e with state := e.state.armedBy } : Entry).frame = e.frame :=
  Entry.frame_armed e e.served

theorem Reevaluated.setWaiting {s : State} {st : StationId} {t : Target} : Reevaluated s (s.setWaiting st t) := by
  cases t
  · exact Reevaluated.modEntry fun _ => rfl
  · exact Reevaluated.modSpot fun _ => ⟨rfl, rfl⟩
  · exact Reevaluated.modBreak fun _ => rfl
  · exact Reevaluated.refl _
  · exact Reevaluated.refl _

theorem Reevaluated.setGranted {s : State} {st : StationId} {d : DeckId} {t : Target} :
    Reevaluated s (s.setGranted st d t) := by
  cases t
  · exact Reevaluated.modEntry fun e => Entry.frame_armed e _
  · refine Reevaluated.trans (Reevaluated.modSpot ?_) (Reevaluated.modEntry Entry.frame_armed')
    exact fun _ => ⟨rfl, rfl⟩
  · refine Reevaluated.trans (Reevaluated.modBreak ?_) (Reevaluated.modEntry Entry.frame_armed')
    exact fun _ => rfl
  · exact Reevaluated.refl _
  · exact Reevaluated.refl _

theorem Reevaluated.breakRecord {s : State} {i : Nat} {r : Record} : Reevaluated s (s.breakRecord i r) :=
  Reevaluated.of_log rfl rfl rfl rfl rfl rfl

theorem Reevaluated.logWhile {s : State} {p : Option Nat × Record → Bool} : Reevaluated s (s.logWhile p) := by
  refine Reevaluated.trans (t := { s with recordsHeld := s.recordsHeld.dropWhile p }) ?_
    (Reevaluated.forEach fun _ _ => Reevaluated.addRecord)
  exact Reevaluated.of_log rfl rfl rfl rfl rfl rfl

theorem Reevaluated.release {s : State} : Reevaluated s s.release := by
  unfold State.release
  split
  · exact Reevaluated.refl _
  · exact Reevaluated.logWhile

theorem Reevaluated.spotMissing {s : State} {st : StationId} {e : Entry} {b : BreakData} {i : Nat} {p : Spot} :
    Reevaluated s (s.spotMissing st e b i p) := by
  unfold State.spotMissing
  simp only
  refine Reevaluated.trans (Reevaluated.modBreak ?_)
    ((Reevaluated.breakRecord.trans Reevaluated.release).trans (Reevaluated.reportFault.trans Reevaluated.markDirty))
  intro b'
  have h := BreakData.frame_spots (b := b') (l := b'.spots.modify i fun q => { q with state := .done, served := .none })
    (spots_modify fun _ => ⟨rfl, rfl⟩)
  exact (rfl : _ = ({ b' with spots := b'.spots.modify i fun q => { q with state := .done, served := .none } } :
    BreakData).frame).trans h

theorem Reevaluated.fillAbsent {s : State} {st : StationId} {id : Nat} : Reevaluated s (s.fillAbsent st id) := by
  unfold State.fillAbsent
  refine Reevaluated.trans (Reevaluated.modBreak ?_) Reevaluated.raiseBits
  exact fun _ => rfl

theorem Reevaluated.deadRequest {s : State} {st : StationId} {r : DeckRequest} : Reevaluated s (s.deadRequest st r) := by
  unfold State.deadRequest
  simp only
  refine Reevaluated.trans (Reevaluated.modStation ?_ ?_) ?_ (t := s.modStation st fun x =>
    { x with requests := x.requests.erase r, dirty := true })
  · exact fun _ => rfl
  · exact fun _ => rfl
  · split
    · exact Reevaluated.modEntry fun _ => rfl
    · split
      · exact Reevaluated.refl _
      · split
        · exact Reevaluated.refl _
        · split
          · exact Reevaluated.refl _
          · split
            · exact Reevaluated.spotMissing
            · exact Reevaluated.modSpot fun _ => ⟨rfl, rfl⟩
    · exact Reevaluated.fillAbsent
    · exact Reevaluated.refl _
    · exact Reevaluated.refl _

theorem Reevaluated.arbitrateOnce {s t : State} (h : s.arbitrateOnce = some t) : Reevaluated s t := by
  unfold State.arbitrateOnce at h
  split at h
  · rename_i d st r hd hb
    have hfree : (s.deck d).player.state = .free := by simpa using List.find?_some hd
    split at h
    · simp only [Option.some.injEq] at h
      subst h
      split
      · unfold State.grant
        simp only
        refine Reevaluated.trans ?_ (Reevaluated.bindSlot.trans Reevaluated.setGranted)
        refine Reevaluated.trans (Reevaluated.modStation ?_ ?_) (Reevaluated.setDeck ?_)
        · exact fun _ => rfl
        · exact fun _ => rfl
        · exact hfree
      · exact Reevaluated.deadRequest
    · simp only [Option.some.injEq] at h
      subst h; exact Reevaluated.deadRequest
  · simp at h

theorem Reevaluated.arbitrateLoop {n : Nat} {s : State} : Reevaluated s (arbitrateLoop n s) := by
  induction n generalizing s with
  | zero => exact Reevaluated.refl _
  | succ n ih =>
    unfold Machine.arbitrateLoop
    split
    · exact Reevaluated.refl _
    · rename_i h; exact (Reevaluated.arbitrateOnce h).trans ih

theorem Reevaluated.requestDeck {s : State} {st : StationId} {t : Target} {slot : Nat} {lp : Bool} {n : Nat} :
    Reevaluated s (s.requestDeck st t slot lp n) := by
  unfold State.requestDeck
  split
  · exact Reevaluated.refl _
  · refine Reevaluated.trans (Reevaluated.modStation ?_ ?_) (Reevaluated.setWaiting.trans Reevaluated.arbitrateLoop)
    · exact fun _ => rfl
    · exact fun _ => rfl

/-! ## Arming -/

theorem Reevaluated.resolveFill {s : State} {st : StationId} {id : Nat} {b : BreakData} :
    Reevaluated s (s.resolveFill st id b) := by
  unfold State.resolveFill
  split
  · refine Reevaluated.trans (Reevaluated.modBreak ?_) Reevaluated.fillAbsent
    exact fun _ => rfl
  · split
    · refine Reevaluated.trans (Reevaluated.modBreak ?_) Reevaluated.fillAbsent
      exact fun _ => rfl
    · split
      · exact Reevaluated.modBreak fun _ => rfl
      · refine Reevaluated.trans (Reevaluated.modBreak ?_) Reevaluated.fillAbsent
        exact fun _ => rfl

theorem Reevaluated.requestFill {s : State} {st : StationId} {id : Nat} {b : BreakData} {n : Nat} :
    Reevaluated s (s.requestFill st id b n) := by
  unfold State.requestFill
  split
  · split
    · exact Reevaluated.refl _
    · split
      · exact Reevaluated.requestDeck
      · exact Reevaluated.fillAbsent
  · exact Reevaluated.refl _

theorem Reevaluated.serveSpot {n : Nat} {st : StationId} {id : Nat} {s : State} :
    Reevaluated s (serveSpot n st id s) := by
  induction n generalizing s with
  | zero => exact Reevaluated.refl _
  | succ n ih =>
    unfold Machine.serveSpot
    split
    · exact Reevaluated.refl _
    · split
      · exact Reevaluated.refl _
      · split
        · exact Reevaluated.refl _
        · split
          · exact Reevaluated.refl _
          · split
            · exact Reevaluated.requestDeck
            · exact Reevaluated.spotMissing.trans ih

theorem Reevaluated.resolveIfDue {s : State} {st : StationId} {id : Nat} : Reevaluated s (s.resolveIfDue st id) := by
  unfold State.resolveIfDue
  split
  · exact Reevaluated.refl _
  · split
    · exact Reevaluated.resolveFill
    · exact Reevaluated.refl _

theorem Reevaluated.serveBreak {s : State} {st : StationId} : Reevaluated s (s.serveBreak st) := by
  unfold State.serveBreak
  split
  · exact Reevaluated.refl _
  · rename_i e b _
    refine Reevaluated.trans (t := (Machine.serveSpot b.spots.length st e.id s).resolveIfDue st e.id)
      (Reevaluated.serveSpot.trans Reevaluated.resolveIfDue) ?_
    simp only
    split
    · exact Reevaluated.refl _
    · exact Reevaluated.requestFill

theorem Reevaluated.armItem {s : State} {st : StationId} {e : Entry} {c : Nat} : Reevaluated s (s.armItem st e c) := by
  unfold State.armItem
  split
  · exact Reevaluated.refl _
  · split
    · exact Reevaluated.refl _
    · exact Reevaluated.requestDeck

theorem planSpot_names (d n : Nat) (p : Spot) (q : Option Planned) :
    (planSpot d n p q).1.cart = p.cart ∧ (planSpot d n p q).1.ref = p.ref := by
  unfold planSpot
  split
  · exact ⟨rfl, rfl⟩
  · split
    · exact ⟨rfl, rfl⟩
    · split <;> exact ⟨rfl, rfl⟩

/-- A plan leaves every spot's cart and reference (R113). -/
theorem planWalk_names (d : Nat) (f : Spot → Option Planned) (l : List Spot) (n : Nat) :
    (planWalk d n (l.zip (l.map f))).1.map (fun p => (p.cart, p.ref)) = l.map fun p => (p.cart, p.ref) := by
  induction l generalizing n with
  | nil => rfl
  | cons p ps ih =>
    have h := planSpot_names d n p (f p)
    simp only [List.map_cons, List.zip_cons_cons, planWalk]
    rw [ih, h.1, h.2]

theorem planProvisional_frame (s : State) (st : StationId) (e : Entry) (b : BreakData) :
    (s.planProvisional st e b).frame = b.frame := by
  have h := BreakData.frame_spots (b := b) (planWalk_names (usableSpan e.dueTime b.duration
    (max e.dueTime (s.stationTime st))) (fun p => (s.lookup st p.cart).map DirEntry.planned) b.spots 0)
  exact (rfl : _ = _).trans h

theorem Reevaluated.armBreak {s : State} {st : StationId} {e : Entry} {b : BreakData} :
    Reevaluated s (s.armBreak st e b) := by
  unfold State.armBreak
  split
  · exact Reevaluated.refl _
  · simp only
    refine Reevaluated.trans (Reevaluated.modBreak ?_) ?_
      (t := s.modBreak st e.id fun x => s.planProvisional st e x)
    · exact planProvisional_frame s st e
    · split
      · split
        · exact Reevaluated.refl _
        · exact Reevaluated.requestDeck
      · refine Reevaluated.trans (t := State.resolveIfDue _ st e.id) Reevaluated.resolveIfDue ?_
        split
        · exact Reevaluated.refl _
        · split
          · exact Reevaluated.requestFill
          · exact Reevaluated.refl _

theorem Reevaluated.armOne {s : State} {st : StationId} {id : Nat} : Reevaluated s (State.armOne st id s) := by
  unfold State.armOne
  split
  · exact Reevaluated.refl _
  · split
    · exact Reevaluated.armItem
    · exact Reevaluated.armBreak

theorem Reevaluated.reevaluate {s : State} {st : StationId} : Reevaluated s (s.reevaluate st) := by
  unfold State.reevaluate
  simp only
  refine Reevaluated.trans (t := s.modStation st fun x => { x with dirty := false }) (Reevaluated.modStation ?_ ?_) ?_
  · exact fun _ => rfl
  · exact fun _ => rfl
  · split
    · exact Reevaluated.refl _
    · exact Reevaluated.serveBreak.trans (Reevaluated.forEach fun _ _ => Reevaluated.armOne)

end Sys2Proof.Machine
end

