-- ==== Sys2Proof/Laws/Ready.lean ====
section
/-!
SUPPORT. What a part that stands between periods does with a request, and with an event of a period's beginning.
-/

namespace Sys2Proof.Machine

/-- Where no re-evaluation is owed, none is made. -/
theorem State.settlePool_clean {s : State} (h : ∀ st : StationId, (s.station st).dirty = false) : s.settlePool = s := by
  have hf : (allStations.find? fun st => (s.station st).dirty) = none := by
    rw [List.find?_eq_none]; intro st _; simp [h st]
  simp [State.settlePool, Config.poolFuel, settleLoop, hf]

theorem State.settle_atRest {s : State} (h : s.opening = false) : s.settle = s := by simp [State.settle, h]

theorem State.canTake_of {s : State} (h : s.handler = .ready) (hr : s.replyWaits = false) : s.canTake = true := by
  simp [State.canTake, h, hr]

/-- An empty queue gives the handler nothing to take. -/
theorem State.runHandler_nil {s : State} (h : s.queue = []) : s.runHandler = s := by
  simp only [State.runHandler, h, List.length_nil, handlerLoop]

/-- A part that is ready judges a request at once (R203). -/
theorem State.request_ready {s : State} (h : s.Ready) (k : Byte) (r : Req) (f : Req → State → State × Answer) :
    s.request k r f = .next (Answer.after k r (f r s.working)) := by
  obtain ⟨⟨hr, ho⟩, hh, hw, hq, -, -⟩ := h
  simp only [State.request, hr, Bool.false_eq_true, if_false, State.settle_atRest ho, State.canTake_of hh hw, hq,
    and_self, if_true]
  rfl

/-- A reply that sets nothing further off (R203, R204). -/
theorem State.replied_clean {t : State} (hc : ∀ st : StationId, (t.station st).dirty = false)
    (hh : t.handler = .working) (k : Byte) (r : Req) (c : Byte) (p : List Byte) :
    t.replied k r c p = ({ t with handler := .ready } : State).answered k r c p := by
  unfold State.replied State.answered
  rw [hh]
  refine State.settlePool_clean fun st => ?_
  have e : ∀ (u : State) (body : List Byte), (u.placeReply body).stations = u.stations := fun u body => by
    unfold State.placeReply State.pump
    split <;> rfl
  rw [State.station_congr (e _ _)]
  exact hc st

theorem State.Ready.handler {s : State} (h : s.Ready) : s.handler = .ready := h.2.1

theorem State.Ready.clean {s : State} (h : s.Ready) : ∀ st : StationId, (s.station st).dirty = false := h.2.2.2.2.2

/-- The handler back in READY after a request that changed nothing. -/
theorem State.Ready.restored {s : State} (h : s.Ready) : ({ s.working with handler := .ready } : State) = s := by
  have := h.handler
  cases s
  simp only [State.working] at this ⊢
  rw [this]

/-- A request that changes nothing is answered, and that is all (R203). -/
theorem State.Ready.replied {s : State} (h : s.Ready) (k : Byte) (r : Req) (c : Byte) (p : List Byte) :
    s.working.replied k r c p = s.answered k r c p := by
  rw [State.replied_clean (t := s.working) h.clean rfl, h.restored]

/-- Where nothing is to act first, the beginning of a period is already made. -/
theorem State.InOpening.begun {s : State} (h : s.InOpening) : s.beginPeriod = s := by
  obtain ⟨-, -, hh, ha, hb⟩ := h
  simp [State.beginPeriod, State.linkModeAct, State.link, ha, hb, State.restartAct, hh]

/-- An event of a period's beginning, where nothing is to act first. -/
theorem State.InOpening.event {s : State} (h : s.InOpening) (f : State → State) :
    s.live (fun x => x.inPeriod f) = .next (f s).settlePool := by
  have hb := h.begun
  obtain ⟨hr, ho, -, -, -⟩ := h
  simp [State.live, hr, State.inPeriod, ho, hb]

/-- An event that falls outside a period's beginning, out of reset. -/
theorem State.AtRest.event {s : State} (h : s.AtRest) (f : State → State) : s.live (fun x => f x.settle) = .next (f s) := by
  simp [State.live, h.1, State.settle_atRest h.2]

/-! ## Requests as one -/

/-- Every request command is a request of its kind, judged by the rule of that kind (R203, R206). -/
theorem exec_request {s : State} {c : Instr} {k : Byte} {r : Req} (h : c.request = some (k, r)) :
    exec c s = s.request k r (handlerFor k) := by
  cases c <;> simp only [Instr.request, Option.some.injEq, Prod.mk.injEq, reduceCtorEq] at h <;>
    obtain ⟨rfl, rfl⟩ := h <;> rfl

/-- A request from a ready part. -/
theorem exec_request_ready {s : State} (h : s.Ready) {c : Instr} {k : Byte} {r : Req} (hc : c.request = some (k, r)) :
    exec c s = .next (Answer.after k r (handlerFor k r s.working)) := by
  rw [exec_request hc, State.request_ready h]

/-- The answer of a request that a ready part refuses, or takes without any effect. -/
theorem exec_request_same {s : State} (h : s.Ready) {c : Instr} {k : Byte} {r : Req} (hc : c.request = some (k, r))
    {code : Byte} {p : List Byte} (ha : handlerFor k r s.working = (s.working, .reply code p)) :
    exec c s = .next (s.answered k r code p) := by
  rw [exec_request_ready h hc, ha]
  exact congrArg Host.Outcome.next (h.replied k r code p)

end Sys2Proof.Machine
end

