-- ==== Sys2Proof/Tests/Slice0.lean ====
section
/-!
SUPPORT. Tests of the model against figures of the spec, the checks of WellFormed shown on ill-formed commands, and
states that meet the hypotheses of the statements.
-/

-- Kernel evaluations one after another: run at once, each would hold a thread of its own.
set_option Elab.async false

namespace Sys2Proof.Tests

open Sys2Proof.Machine

/-! ## Helpers -/

def nextOf : Host.Outcome State Fault Refusal → Option State
  | .next s => some s
  | .fault _ => none
  | .refused _ => none

/-- The state after a command, the state itself where there is none. -/
def after (c : Instr) (s : State) : State := (nextOf (exec c s)).getD s

/-- A request with tag 0x2A. -/
def rq (station : Byte) (payload : List Byte) : Req := ⟨0x2A, station, payload⟩

/-- The state part of a message being sent: its bytes behind start byte and length, less the check. -/
def sentBody (s : State) : List Byte := ((s.sending.getD []).drop 3).dropLast.dropLast

/-- The reset state at the beginning of a period. -/
def opened : State := { State.reset with opening := true }

/-- A state with station 0 changed. -/
def at0 (s : State) (f : Station → Station) : State := s.modStation 0 f

/-- A READY music item of 100 pairs, cart 7, SHARED, played from pair 10 to 90. -/
def music : DirEntry :=
  { slot := 0, cart := 7, owner := none, category := .music, retention := .keep, state := .ready, length := 100,
    trimIn := 10, segue := some 80, trimOut := 90, loop := none, level := 30000, blocks := [⟨0, 1⟩], received := 100,
    bindings := 0, serial := 0 }

/-- A state whose store holds one entry. -/
def stored (s : State) (e : DirEntry) : State := { s with dir := [e], freeBlocks := [⟨1, 131071⟩] }

/-- A run-list entry that plays cart 7. -/
def plays (id : Nat) (k : StartKind) (due : Option Nat) : Entry :=
  { id := id, startKind := k, due := due, level := none, fadeIn := none, fadeOut := none, state := .waiting,
    served := .none, lateness := none, startTime := 0, cut := false, preFaded := false, body := .item 7 }

/-- Break data of one spot. -/
def oneSpot : BreakData :=
  { duration := 48000, spots := [Spot.fresh (8, 1)], fillCart := none, join := none, gap := 0, fillUsed := none,
    fillPlanned := none, fillServed := .none, fillState := .none, fillStart := 0, fillResolved := false,
    fillDue := false }

/-- A break entry due at time 1000. -/
def hour (id : Nat) (b : BreakData) : Entry := { plays id .hard (some 1000) with body := .brk b }

/-- Deck 3 with a player in the state given, bound for station 0 to slot 0. -/
def deck3 (s : State) (p : PlayerState) (t : Target) : State :=
  s.setDeck 3 ⟨{ Player.reset with state := p, slot := some 0, playPos := 10, buffer := [⟨1, 2⟩] }, some 0, some t⟩

/-- What a plan finds for a spot of a length. -/
def spotFound (n : Nat) (c : Category) : Option Planned := some ⟨0, 0, none, c, 32768, n⟩

/-- A spot planned and served by deck 3. -/
def readySpot : Spot :=
  { Spot.fresh (8, 1) with plan := .included, state := .armed, served := .deck 3, planned := spotFound 80 .spot }

/-- House counter at a value. -/
def atHouse (s : State) (n : Nat) : State := { s with house := BitVec.ofNat 48 n }

/-- Station 0 in AUTO with a list, cart 7 in the store. -/
def autoList (s : State) (l : List Entry) : State :=
  at0 (stored s music) fun x => { x with mode := .auto, list := l }

/-! ## Ill-formed commands -/

theorem test_wf_payload_too_long : (Instr.echo (rq 0xFF (List.replicate 4198 0))).wellFormed = false := by
  decide +kernel

theorem test_wf_payload_longest : (Instr.echo (rq 0xFF (List.replicate 4197 0))).wellFormed = true := by
  decide +kernel

theorem test_wf_known_kind : (Instr.unknownKindRequest 0x20 (rq 0xFF [])).wellFormed = false := by decide +kernel

theorem test_wf_edge_too_late :
    (Instr.refEdgeAccepted 1510001).wellFormed = false ∧ (Instr.targetEdge 1510001).wellFormed = false ∧
      (Instr.bridgingEnd (some 1510001)).wellFormed = false ∧
      (Instr.refSwitchInternal (some 1510001)).wellFormed = false := by decide +kernel

theorem test_wf_pulse_bit :
    (Instr.framePulse .a 0 0).wellFormed = false ∧ (Instr.framePulse .a 769 0).wellFormed = false ∧
      (Instr.framePulse .a 768 1510001).wellFormed = false ∧ (Instr.framePulse .a 768 0).wellFormed = true := by
  decide +kernel

theorem test_wf_length_in_range :
    (Instr.bodyLengthOutOfRange 3).wellFormed = false ∧ (Instr.bodyLengthOutOfRange 4200).wellFormed = false ∧
      (Instr.bodyLengthOutOfRange 2).wellFormed = true ∧ (Instr.bodyLengthOutOfRange 4201).wellFormed = true := by
  decide +kernel

/-! ## Figures of the spec -/

/-- R199: the bytes 0x31 to 0x39 give the check 0x29B1. -/
theorem test_check : check [0x31, 0x32, 0x33, 0x34, 0x35, 0x36, 0x37, 0x38, 0x39] = 0x29B1 := by decide +kernel

theorem witness_CheckCatchesByte :
    (0x31 : Byte) ≠ 0x32 ∧ check ([1] ++ 0x31 :: [2]) ≠ check ([1] ++ 0x32 :: [2]) := by decide +kernel

/-- The falling ramp of 24,000 periods (03, R48's first table). -/
theorem test_ramp_falling :
    [0, 1, 2, 12000, 23999, 24000].map (fun k => Ramp.value ⟨32768, 0, 24000, k⟩) =
      [32768, 32767, 32766, 16384, 2, 0] := by decide +kernel

/-- The rising ramp of 4,800 periods (03, R48's second table). -/
theorem test_ramp_rising :
    [0, 1, 2400, 4799, 4800, 4801].map (fun k => Ramp.value ⟨0, 32768, 4800, k⟩) =
      [0, 6, 16384, 32761, 32768, 32768] := by decide +kernel

/-- A stop fade that replaces a running fade-in (03, R50's table). -/
theorem test_ramp_replaced :
    (Ramp.value ⟨0, 32768, 4800, 2399⟩ = 16377) ∧
      [0, 1, 4800, 9600].map (fun k => Ramp.value { Ramp.replaced ⟨0, 32768, 4800, 2400⟩ 0 9600 with progress := k }) =
        [16384, 16383, 8192, 0] := by decide +kernel

/-- The gains of R51's table. -/
theorem test_gain :
    [(32768, 32768), (23170, 16384), (32767, 32767), (32768, 1), (1, 32768), (16384, 1), (0, 5)].map
      (fun p => gain p.1 p.2) = [32768, 11585, 32766, 1, 1, 0, 0] := by decide +kernel

/-- The terms of R52's table. -/
theorem test_term :
    [((20000 : Int), 11585), (-12000, 32768), (32767, 32768), (-32768, 32768), (32767, 32767), (1, 16384), (-1, 16384),
      (3, 16384), (-3, 16384), (77, 0)].map (fun p => term p.1 p.2) =
      [7071, -12000, 32767, -32768, 32766, 1, 0, 2, -1, 0] := by decide +kernel

/-- The outputs of R55's table. -/
theorem test_output :
    [((-4929 : Int), 32768), (7071, 16384), (-7071, 16384), (32768, 32768), (-32768, 32768), (90000, 32768),
      (-40000, 32768), (-40000, 16384), (-163840, 32768), (-163840, 6553), (-163840, 6554), (5, 0)].map
      (fun p => (saturate (scaled p.1 p.2), saturates (scaled p.1 p.2))) =
      [(-4929, false), (3536, false), (-3535, false), (32767, true), (-32768, false), (32767, true), (-32768, true),
        (-20000, false), (-32768, true), (-32765, false), (-32768, true), (0, false)] := by decide +kernel

/-- The mono sums of R58's table. -/
theorem test_mono :
    [((-4929 : Int), (3000 : Int)), (32767, 32767), (-32768, -32768), (32767, -32768), (-1, 0), (1, 0)].map
      (fun p => monoSum p.1 p.2) = [-965, 32767, -32768, -1, -1, 0] := by decide +kernel

/-- A magnitude of 32,768 exceeds every silence threshold (R59). -/
theorem test_quiet :
    isQuiet 32767 (-32768) 0 = false ∧ isQuiet 32767 32767 (-32767) = true ∧ isQuiet 0 0 1 = false ∧
      isQuiet 16 (-16) 16 = true := by decide +kernel

/-- An entry of 01's table of the reclaim walk: slot, retention, bindings, blocks. -/
def held (slot : Nat) (kept : Retention) (bindings blocks first : Nat) : DirEntry :=
  { music with slot := slot, cart := slot + 1, retention := kept, bindings := bindings, blocks := [⟨first, blocks⟩] }

/-- The reclaim walk of R12's table: need 12, pointer 7, 5 blocks free. -/
def reclaimBefore : State :=
  { State.reset with
    dir := [held 3 .transient 0 4 10, held 9 .transient 0 2 20, held 12 .transient 1 3 30, held 15 .transient 0 3 40,
      held 40 .keep 0 10 50]
    freeBlocks := [⟨100, 5⟩], reclaim := 7 }

theorem test_reclaim :
    ((reclaimWalk 12 reclaimBefore.walkOrder reclaimBefore).dir.map DirEntry.slot = [12, 40]) ∧
      (reclaimWalk 12 reclaimBefore.walkOrder reclaimBefore).freeCount = 14 ∧
      (reclaimWalk 12 reclaimBefore.walkOrder reclaimBefore).reclaim = 4 := by decide +kernel

/-- A pair index maps to its block and offset (R1). -/
theorem test_place :
    ({ music with blocks := [⟨9, 1⟩, ⟨2, 1⟩] } : DirEntry).place 16383 = some 163839 ∧
      ({ music with blocks := [⟨9, 1⟩, ⟨2, 1⟩] } : DirEntry).place 16384 = some 32768 := by decide +kernel

/-- Numbers go most significant byte first (R198), and a negative lateness in two's complement. -/
theorem test_bytes :
    toBytes 4 0x01020304 = [1, 2, 3, 4] ∧ beNat [1, 2, 3, 4] = 0x01020304 ∧
      intBytes 6 (-2) = [0xFF, 0xFF, 0xFF, 0xFF, 0xFF, 0xFE] ∧ presence [true, false, true] = 5 := by decide +kernel

/-! ## States that meet the hypotheses: the part and its requests -/

theorem witness_StepRunsFront :
    ({ State.reset with pending := [.messageSent] } : State).pending = .messageSent :: [] ∧ State.reset.pending = [] ∧
      (nextOf (step { State.reset with pending := [.echo (rq 0xFF [5])] })).map sentBody =
        some [0x81, 0x2A, 0xFF, 0, 5] := by decide +kernel

theorem witness_HeldInReset :
    ({ State.reset with inReset := true } : State).inReset = true ∧ Instr.messageSent ≠ .resetAssert ∧
      (∀ straps : Fin 4, Instr.messageSent ≠ .powerOnReset straps) ∧
      (after .resetAssert { State.reset with sending := some [1] }).sending = none := by decide +kernel

/-- A part whose handler works on a request, with `n` messages queued. -/
def busy (n : Nat) : State :=
  { State.reset with handler := .working, queue := List.replicate n ⟨0x01, 0, 0xFF, []⟩ }

theorem witness_BusyQueues :
    (busy 15).AtRest ∧ (busy 15).handler ≠ .ready ∧ (busy 15).queue.length = 15 ∧ (busy 16).AtRest ∧
      (busy 16).queue.length = 16 ∧ (Instr.refStatus (rq 0xFF [])).request = some (0x42, rq 0xFF []) ∧
      (after (.refStatus (rq 0xFF [])) (busy 15)).queue.length = 16 ∧
      (after (.refStatus (rq 0xFF [])) (busy 16)).badMessages = 1 := by decide +kernel

theorem witness_MessageIsRequest :
    State.reset.Ready ∧ State.reset.rx = Receiver.reset ∧ (rq 0xFF (List.replicate 4197 0)).payload.length ≤ 4197 ∧
      sentBody (after (.messageComplete (frameMessage [0x01, 7, 0xFF, 9])) State.reset) = [0x81, 7, 0xFF, 0, 9] ∧
      sentBody (after (.messageComplete (frameMessage [0x00, 7, 0xFF])) State.reset) = [0x80, 7, 0xFF, 0x10] ∧
      (busy 15).AtRest ∧ (busy 15).rx = Receiver.reset ∧ (busy 15).handler ≠ .ready ∧ (busy 15).queue.length < 16 ∧
      16 ≤ (busy 16).queue.length ∧
      (after (.messageComplete (frameMessage [0x42, 7, 0xFF])) (busy 15)).queue.getLast? = some ⟨0x42, 7, 0xFF, []⟩ ∧
      (after (.messageComplete (frameMessage [0x42, 7, 0xFF])) (busy 16)).badMessages = 1 ∧
      ({ State.reset with sending := some [], txOrder := [.reply []] } : State).replyWaits = true := by decide +kernel

/-- A receiver in the middle of a body, its last byte `gap` periods ago. -/
def receiving (gap : Nat) : State := { State.reset with rx := ⟨.body, [0, 5], [1], [], gap⟩ }

theorem witness_DiscardedMessages :
    State.reset.AtRest ∧ State.reset.rx = Receiver.reset ∧ 3 ≤ [(1 : Byte), 2, 3].length ∧
      (0 : BitVec 16) ≠ check [1, 2, 3] ∧ ((2 : BitVec 16).toNat < 3 ∨ 4200 < (2 : BitVec 16).toNat) ∧
      4200 < (4201 : BitVec 16).toNat ∧ (receiving 0).AtRest ∧ (receiving 0).rx.state ≠ .hunt ∧
      State.reset.rx.state = .hunt ∧ 480 ≤ (receiving 480).rx.gap ∧ (receiving 479).rx.gap < 480 ∧
      (after (.bodyLengthOutOfRange 4201) State.reset).badMessages = 1 ∧
      (after .receiveGapTimeout (receiving 480)).badMessages = 1 := by decide +kernel

/-- A part that is sending, with an order of messages behind, FAULT of station 0 pending and enabled. -/
def sending (o : List TxItem) : State :=
  { (State.reset.setCond 0 ⟨1, 1⟩) with sending := some [0xA5], txOrder := o }

theorem witness_NextMessage :
    (∀ o ∈ [[], [TxItem.reply [1, 2, 3]], [TxItem.notice 0], [TxItem.notice 1]],
      (sending o).AtRest ∧ (sending o).sending.isSome = true ∧ (sending o).queue = []) ∧
      ((sending [.notice 0]).cond 0).notice ≠ 0 ∧ ((sending [.notice 1]).cond 1).notice = 0 ∧
      sentBody (after .messageSent (sending [.notice 1, .notice 0])) = [0x7F, 0, 0, 1] := by decide +kernel

theorem witness_RequestChecks :
    State.reset.Ready ∧ catalogue.contains 0x00 = false ∧ catalogue.contains 0x40 = true ∧
      (Instr.unknownKindRequest 0 (rq 0xFF [])).request = some (0, rq 0xFF []) ∧
      lengthOk 0x40 (rq 0xFF [1]) = false ∧ lengthOk 0x40 (rq 0 [1, 0]) = true ∧ badStation 0x40 (rq 0 [1, 0]) = true ∧
      (handlerFor 0x40 (rq 0xFF [4, 0]) State.reset.working).2 = .reply 0x15 [] ∧
      sentBody (after (.unknownKindRequest 0 (rq 0xFF [])) State.reset) = [0x80, 0x2A, 0xFF, 0x10] := by decide +kernel

theorem witness_ReadersAnswer :
    State.reset.Ready ∧ (stored State.reset music).Ready ∧ stationOf 5 = some 5 ∧ ownerOf 0xFF = some none ∧
      (rq 0xFF (List.replicate 256 0)).payload.length ≤ 256 ∧
      (stored State.reset music).entryAt (field (toBytes 1 0 ++ toBytes 2 0 ++ toBytes 4 0) 1 2) = some music ∧
      field (toBytes 1 0 ++ toBytes 2 4095 ++ toBytes 4 0) 1 2 ≤ 4095 ∧
      (stored State.reset music).keyed (field (toBytes 1 1 ++ toBytes 2 0 ++ toBytes 4 7) 3 4) none (· != .dropping) =
        some music ∧
      field (toBytes 1 63) 0 1 ≤ 63 ∧
      sentBody (after (.deviceInfo (rq 0xFF [0])) State.reset) =
        [0x82, 0x2A, 0xFF, 0, 0x18, 0x38, 1, 0, 0, 0, 0, 0, 0, 0, 0, 0, 0, 0, 0] := by decide +kernel

theorem test_reads :
    (sentBody (after (.itemInfo (rq 0xFF (toBytes 1 1 ++ toBytes 2 0 ++ toBytes 4 7))) (stored State.reset music))).length =
        48 ∧
      (sentBody (after (.storeInfo (rq 0xFF [])) State.reset)).drop 10 = [0x10, 0, 0, 2, 0, 0, 0, 0, 0, 0, 0, 0] ∧
      sentBody (after (.listRead (rq 2 [0])) State.reset) = [0xA3, 0x2A, 2, 0, 0, 0, 0] ∧
      sentBody (after (.listRead (rq 2 [64])) State.reset) = [0xA3, 0x2A, 2, 0x15] ∧
      sentBody (after (.faultRead (rq 0 [2])) State.reset) = [0xD1, 0x2A, 0, 0x15] ∧
      (sentBody (after (.refStatus (rq 0xFF [])) State.reset)).take 12 = [0xC2, 0x2A, 0xFF, 0, 0, 0, 0, 0, 0, 0, 0, 1] := by
  decide +kernel

theorem witness_ClearingReads :
    State.reset.Ready ∧ stationOf 0 = some 0 ∧
      (after (.deviceInfo (rq 0xFF [1])) { State.reset with badMessages := 9 }).badMessages = 0 ∧
      ((after (.stationStatus (rq 0 [1])) (at0 State.reset fun x => { x with clips := 3 })).station 0).clips = 0 ∧
      (after (.linkStatus (rq 0xFF [1, 1])) (State.reset.setLink .b { AirLink.reset with drops := 3 })).linkB.drops =
        0 := by decide +kernel

/-! ## The item store -/

/-- An ITEM_OPEN of cart 7: MUSIC, KEEP, the length given, played whole, level 65,535. -/
def openPayload (length : Nat) : List Byte :=
  toBytes 4 7 ++ [0, 0, 0, 0, 0] ++ toBytes 4 length ++ toBytes 4 0 ++ toBytes 4 0 ++ toBytes 4 length ++ toBytes 4 0 ++
    toBytes 4 0 ++ toBytes 2 65535

theorem witness_ItemOpenCreates :
    State.reset.Ready ∧ State.reset.DirectoryKept ∧ (openPayload 40000).length = 35 ∧ ownerOf 0xFF = some none ∧
      (openForm (openPayload 40000)).inRange = true ∧ (openForm (openPayload 134217728)).inRange = true ∧
      State.reset.keyed (openForm (openPayload 40000)).cart none (· != .dropping) = none ∧
      blocksFor 134217728 ≤ runsTotal State.reset.freeBlocks ∧ State.reset.dir.length < 4096 ∧
      sentBody (after (.itemOpen (rq 0xFF (openPayload 40000))) State.reset) =
        [0x90, 0x2A, 0xFF, 0, 0, 0, 0, 3, 0x80, 0] ∧
      (after (.itemOpen (rq 0xFF (openPayload 40000))) State.reset).freeBlocks = [⟨3, 131069⟩] := by decide +kernel

/-- A full store whose candidates, slots 3, 9 and 15, hold 9 blocks beside 5 free ones. -/
def fullStore : State :=
  { State.reset with
    dir := [held 3 .transient 0 4 10, held 9 .transient 0 2 20, held 12 .transient 1 3 30, held 15 .transient 0 3 40,
      held 40 .keep 0 131055 50]
    freeBlocks := [⟨2, 5⟩], reclaim := 7 }

/-- A directory with no empty slot and no candidate. -/
def fullDirectory : State := { State.reset with dir := List.replicate 4096 { music with cart := 8 } }

theorem witness_ItemOpenCreates_reclaims :
    fullStore.Ready ∧ fullStore.NoneConcerned ∧ fullStore.DirectoryKept ∧
      fullStore.keyed 7 none (· != .dropping) = none ∧
      (∀ n ∈ [12, 15], (openForm (openPayload (16384 * n))).inRange = true ∧
        runsTotal fullStore.freeBlocks < blocksFor (16384 * n)) ∧
      (∃ e ∈ fullStore.dir, e.isCandidate = true) ∧
      12 ≤ runsTotal fullStore.freeBlocks + fullStore.reclaimBlocks ∧
      runsTotal fullStore.freeBlocks + fullStore.reclaimBlocks < 15 ∧
      (after (.itemOpen (rq 0xFF (openPayload (16384 * 12)))) fullStore).dir.map DirEntry.slot = [0, 12, 40] ∧
      sentBody (after (.itemOpen (rq 0xFF (openPayload (16384 * 15)))) fullStore) = [0x90, 0x2A, 0xFF, 0x1C] := by
  decide +kernel

theorem witness_ItemOpenCreates_noSlot :
    fullDirectory.Ready ∧ 4096 ≤ fullDirectory.dir.length ∧ (∀ e ∈ fullDirectory.dir, e.isCandidate = false) ∧
      fullDirectory.keyed 7 none (· != .dropping) = none := by
  refine ⟨by decide +kernel, by simp [fullDirectory, -List.reduceReplicate], fun e h => ?_, ?_⟩
  · rw [List.eq_of_mem_replicate h]
    rfl
  · simp [State.keyed, fullDirectory, music, -List.reduceReplicate]

/-- The cart of `music` while it is loading, `n` pairs received. -/
def loading (n : Nat) : State := stored State.reset { music with state := .loading, received := n }

/-- An ITEM_DATA of two pairs at an offset. -/
def dataPayload (offset : Nat) : List Byte := toBytes 2 2 ++ toBytes 4 offset ++ toBytes 4 7 ++ [1, 2, 3, 4, 5, 6, 7, 8]

/-- The loading cart with its write on the port. -/
def writing : State :=
  { loading 98 with
    handler := .held, inHand := some ⟨0x11, 0x2A, 0xFF, dataPayload 98⟩, port := .write
    claim := some ⟨0, 98, [⟨0x0102, 0x0304⟩, ⟨0x0506, 0x0708⟩]⟩ }

theorem witness_UploadClaims :
    (loading 98).Ready ∧ (dataPayload 98).length = 10 + 4 * field (dataPayload 98) 0 2 ∧
      1 ≤ field (dataPayload 98) 0 2 ∧ field (toBytes 2 1024) 0 2 ≤ 1024 ∧
      ((loading 98).keyed (field (dataPayload 98) 6 4) none (· == .loading)).map DirEntry.received = some 98 ∧
      field (dataPayload 98) 2 4 + field (dataPayload 98) 0 2 ≤ 100 ∧
      ({ writing with port := .idle } : State).AtRest ∧ ({ writing with port := .idle } : State).claim.isSome = true ∧
      (∀ rd ∈ allReaders, ({ writing with port := .idle } : State).claims rd = false) ∧
      Reader.deck 3 ∈ allReaders ∧ (deck3 (stored State.reset music) .bound (.item 1)).claims (.deck 3) = true ∧
      (after (.itemData (rq 0xFF (dataPayload 98))) (loading 98)).handler = .held ∧
      (after .writeBegin { writing with port := .idle }).port = .write := by decide +kernel

theorem witness_UploadWrites :
    writing.AtRest ∧ writing.MediaCanonical ∧ writing.port = .write ∧ writing.queue = [] ∧
      (writing.claim.map WriteClaim.slot) = some 0 ∧ (writing.entryAt 0).isSome = true ∧ writing.inHand.isSome = true ∧
      (∀ i : Fin 2, ((writing.entryAt 0).bind fun e => e.place (98 + i.val)) = some (98 + i.val)) ∧
      (after .writeComplete writing).media =
        [(392, 1), (393, 2), (394, 3), (395, 4), (396, 5), (397, 6), (398, 7), (399, 8)] ∧
      sentBody (after .writeComplete writing) = [0x91, 0x2A, 0xFF, 0, 0, 0, 0, 100] := by decide +kernel

/-- `music` bound by one deck. -/
def boundMusic : DirEntry := { music with bindings := 1 }

theorem witness_ItemsCloseAndDrop :
    (loading 100).Ready ∧ ((loading 100).keyed (field (toBytes 4 7) 0 4) none (· == .loading)).isSome = true ∧
      (stored State.reset music).Ready ∧
      (stored State.reset music).keyed (field (toBytes 4 7) 0 4) none (· != .dropping) = some music ∧
      (stored State.reset boundMusic).keyed (field (toBytes 4 7) 0 4) none (· != .dropping) = some boundMusic ∧
      (∀ x ∈ (loading 3).dir, x.state ≠ .ready) ∧ (loading 3).DirectoryKept ∧
      (after (.itemClose (rq 0xFF (toBytes 4 7))) (loading 100)).dir.map DirEntry.state = [.ready] ∧
      (after (.itemDrop (rq 0xFF (toBytes 4 7))) (stored State.reset boundMusic)).dir.map DirEntry.state = [.dropping] ∧
      sentBody (after (.itemPurge (rq 0xFF [2])) (loading 3)) = [0x94, 0x2A, 0xFF, 0, 0, 1, 0, 0, 0, 0] := by
  decide +kernel

/-- Entries of stations 0 and 1 and a SHARED one: READY, READY and bound, LOADING, READY. -/
def purgeable : State :=
  { State.reset with
    dir := [{ music with owner := some 0 }, { music with slot := 1, owner := some 0, bindings := 1, blocks := [⟨1, 1⟩] },
      { music with slot := 2, owner := some 1, state := .loading, blocks := [⟨2, 1⟩] },
      { music with slot := 3, blocks := [⟨3, 1⟩] }]
    freeBlocks := [⟨4, 131068⟩] }

theorem witness_ItemsCloseAndDrop_purges :
    purgeable.Ready ∧ purgeable.NoneConcerned ∧ purgeable.DirectoryKept ∧ stationOf 0 = some 0 ∧
      sentBody (after (.itemPurge (rq 0 [0])) purgeable) = [0x94, 0x2A, 0, 0, 0, 0, 0, 1, 0, 1] ∧
      sentBody (after (.itemPurge (rq 0xFF [1])) purgeable) = [0x94, 0x2A, 0xFF, 0, 0, 1, 0, 1, 0, 1] ∧
      sentBody (after (.itemPurge (rq 0xFF [2])) purgeable) = [0x94, 0x2A, 0xFF, 0, 0, 1, 0, 2, 0, 1] := by decide +kernel

/-- Cart 7 in a state, station 0 waiting for it with entry 1, and bed player 0, in a state, to play it. -/
def announced (x : ItemState) (p : PlayerState) (slot : Option Nat) (spent : Bool) : State :=
  ((stored State.reset { music with state := x, bindings := 1 }).modStation 0 fun y =>
    { y with
      cfg := { Settings.powerOn with fallbackCart := some 7 }
      list := [{ plays 1 .segue none with served := .waiting }], requests := [⟨.item 1, 0, false, 9⟩] }).setBed 0
    { Bed.reset with player := { Player.reset with state := p, slot := slot }, spent := spent }

theorem witness_ItemsCloseAndDrop_announces :
    (∀ x ∈ [ItemState.ready, .dropping], (announced x .bound (some 0) false).DirectoryKept) ∧
      ((announced .dropping .bound (some 0) false).announce.station 0).requests = [] ∧
      ((announced .dropping .bound (some 0) false).announce.station 0).list.map Entry.served = [.none] ∧
      ((announced .dropping .bound (some 0) false).announce.bed 0).player.state = .free ∧
      ((announced .ready .free none false).announce.bed 0).player.state = .bound ∧
      ((announced .ready .primed (some 1) false).announce.bed 0).player.slot = some 0 ∧
      ((announced .ready .primed (some 1) true).announce.bed 0).player.state = .free ∧
      ((announced .ready .free none true).announce.bed 0).player.state = .free ∧
      ((announced .dropping .playing (some 0) false).announce.bed 0).player.state = .playing := by decide +kernel

/-! ## RESTART -/

/-- The part at the beginning of a restart period, station 0 in AUTO. -/
def restarting : State := { (at0 opened fun x => { x with mode := .auto, clips := 4 }) with handler := .restarting }

theorem witness_RestartDone :
    State.reset.Ready ∧ restarting.inReset = false ∧ restarting.opening = true ∧ restarting.handler = .restarting ∧
      restarting.linkA.mode = restarting.linkA.active ∧ restarting.linkB.mode = restarting.linkB.active ∧
      ((after .restartPeriod restarting).station 0).mode = .idle ∧
      ((after .restartPeriod restarting).station 0).clips = 4 ∧
      sentBody (after (.restart (rq 0xFF [])) State.reset) = [0x8F, 0x2A, 0xFF, 0, 0, 0, 0, 0, 0, 1] := by decide +kernel

/-- The part at the beginning of a restart period in which an item, a fill, a spot that trails entry 5 and a bed player
sound, a fetch is on the port, conditions stand, notices wait and WORD is the target. -/
def cutShort : State :=
  let s := at0 (stored restarting { music with bindings := 2 }) fun x =>
    { x with
      list := [{ plays 9 .segue none with state := .ending, served := .deck 3 },
        { hour 2 { oneSpot with fillState := .onAir, fillServed := .deck 4, fillUsed := some 6 } with state := .onAir }] }
  let s1 := (deck3 s .playing (.item 9)).setDeck 4
    ⟨{ Player.reset with state := .playing, consumed := 44 }, some 0, some (.fill 2)⟩
  let s2 := s1.setDeck 5 ⟨{ Player.reset with state := .fading, consumed := 55 }, some 0,
    some (.trailSpot ⟨5, 8, some 1, some 1000, 1000, some 0, true, 0⟩)⟩
  { (s2.setBed 1 { Bed.reset with player := { Player.reset with state := .playing, consumed := 66 } }) with
    conds := Vector.replicate 7 ⟨0x21, 0x3F⟩
    sending := some []
    txOrder := [.notice 3, .reply [1]]
    behind := [4]
    port := .fetch ⟨.deck 3, 0, 5, 1, false⟩
    ref := { RefControl.reset with target := some .word, progress := 9 } }

theorem witness_RestartDone_ends :
    cutShort.opening = true ∧ cutShort.handler = .restarting ∧ cutShort.DirectoryKept ∧ cutShort.recordsHeld = [] ∧
      cutShort.wrapHold = false ∧ cutShort.nextSeq.toNat + 512 < 4294967296 ∧
      (allStations.map cutShort.soundingCount).sum = 4 ∧ cutShort.sending.isSome = true ∧
      cutShort.ref.bridging = none ∧ cutShort.ref.target.isSome = true ∧
      (after .restartPeriod cutShort).asrun.map (fun r => (r.outcome, r.station, r.entryId, r.aired)) =
        [(.cut, 0, 9, 0), (.fill, 0, 2, 44), (.cut, 0, 5, 55), (.fallback, 1, 0, 66)] ∧
      (∀ st ∈ allStations, (after .restartPeriod cutShort).cond (stationSet st) = ⟨0, 0x3F⟩) ∧
      (after .restartPeriod cutShort).cond deviceSet = ⟨1, 0x3F⟩ ∧
      (after .restartPeriod cutShort).txOrder = [.reply [1], .notice deviceSet] ∧
      (after .restartPeriod cutShort).port = .fetch ⟨.deck 3, 0, 5, 1, true⟩ ∧
      (after .restartPeriod cutShort).ref.target = none ∧ (after .restartPeriod cutShort).ref.progress = 0 ∧
      (after .restartPeriod cutShort).dir.map DirEntry.bindings = [0] := by decide +kernel

/-! ## Run lists -/

/-- An ENTRY_INSERT of cart 7 at a position: an ITEM with its own level 65,535, due time present where given. -/
def insertPayload (position id : Nat) (kind : Byte) (due : Option Nat) : List Byte :=
  toBytes 1 position ++ toBytes 2 id ++ [0, kind, presence [due.isSome, true], 0] ++ toBytes 6 (due.getD 0) ++ toBytes 4 7 ++
    toBytes 2 65535 ++ toBytes 4 0 ++ toBytes 4 0 ++ toBytes 4 0

/-- Station 0 with a list. -/
def listed (l : List Entry) : State := at0 State.reset fun x => { x with list := l }

/-- A full list. -/
def fullList : List Entry := (List.range 64).map fun i => plays (i + 1) .segue none

theorem witness_EntryInserted :
    State.reset.Ready ∧ (insertForm (insertPayload 255 1 0 none)).inRange = true ∧
      (insertPayload 255 1 0 none).length = 31 + 8 * (insertForm (insertPayload 255 1 0 none)).count ∧
      stationOf 0 = some 0 ∧ (listed (fullList.take 63)).Ready ∧
      ((listed (fullList.take 63)).station 0).find 64 = none ∧
      ((listed (fullList.take 63)).station 0).list.length < 64 ∧
      (insertForm (insertPayload 0 64 2 (some 9))).inRange = true ∧
      orderOk (((listed (fullList.take 63)).station 0).listWith 0 (insertForm (insertPayload 0 64 2 (some 9))).entry) =
        true ∧
      sentBody (after (.entryInsert (rq 0 (insertPayload 255 1 0 none))) State.reset) =
        [0xA0, 0x2A, 0, 0, 0, 1, 1, 0x80, 0, 0, 0, 0, 0, 0, 0, 0, 0, 0, 0] := by decide +kernel

theorem witness_InsertRefused :
    (listed fullList).Ready ∧ (insertForm (insertPayload 0 0 0 none)).inRange = false ∧
      (insertForm (insertPayload 0 65 0 none)).inRange = true ∧ ((listed fullList).station 0).find 65 = none ∧
      64 ≤ ((listed fullList).station 0).list.length ∧
      (((listed fullList).station 0).find (insertForm (insertPayload 0 64 0 none)).id).isSome = true ∧
      orderOk (((listed [plays 1 .hard (some 5)]).station 0).listWith
        (((listed [plays 1 .hard (some 5)]).station 0).insertPlace 0) (insertForm (insertPayload 0 2 2 (some 6))).entry) =
        false ∧
      sentBody (after (.entryInsert (rq 0 (insertPayload 0 2 2 (some 6)))) (listed [plays 1 .hard (some 5)])) =
        [0xA0, 0x2A, 0, 0x16] ∧
      sentBody (after (.entryInsert (rq 0 (insertPayload 0 65 0 none))) (listed fullList)) = [0xA0, 0x2A, 0, 0x1A] := by
  decide +kernel

theorem witness_EntriesLeave :
    (listed [plays 1 .segue none, plays 2 .segue none]).Ready ∧
      (listed [plays 1 .segue none, plays 2 .segue none]).ListsKept ∧
      ((listed [plays 1 .segue none]).station 0).find (field (toBytes 2 1) 0 2) = some (plays 1 .segue none) ∧
      (plays 1 .segue none).state = .waiting ∧
      ((listed [plays 1 .segue none]).station 0).isCommitted (plays 1 .segue none) = false ∧
      sentBody (after (.entryRemove (rq 0 (toBytes 2 1))) (listed [plays 1 .segue none, plays 2 .segue none])) =
        [0xA1, 0x2A, 0, 0, 1] ∧
      ((after (.listClear (rq 0 [])) (listed [plays 1 .segue none, plays 2 .segue none])).station 0).list = [] := by
  decide +kernel

/-- Entry 1 of station 0 is ARMED on deck 3, entry 2 waits for a deck, entry 3 is the target of a taken TAKE. -/
def servedList : State :=
  { at0 (deck3 (autoList State.reset []) .bound (.item 1)) fun x =>
      { x with
        take := some ⟨3, 1⟩
        requests := [⟨.item 2, 0, false, 0⟩]
        list := [{ plays 1 .segue none with state := .armed, served := .deck 3 },
          { plays 2 .segue none with served := .waiting }, plays 3 .take none] } with deferred := [(0, .take 3)] }

theorem witness_EntriesLeave_served :
    servedList.Ready ∧ servedList.ListsKept ∧ (servedList.deck 3).station = some 0 ∧
      ((servedList.station 0).find 1).any (fun e => !(servedList.station 0).isCommitted e && e.state == .armed) = true ∧
      (∀ q ∈ (servedList.station 0).requests, ∃ y ∈ (servedList.station 0).waitingList, q.target.belongs y.id = true) ∧
      ((after (.listClear (rq 0 [])) servedList).deck 3).player.state = .free ∧
      ((after (.listClear (rq 0 [])) servedList).station 0).requests = [] ∧
      (after (.listClear (rq 0 [])) servedList).deferred = [(0, .cut)] ∧
      ((after (.entryRemove (rq 0 (toBytes 2 1))) servedList).deck 3).target = none ∧
      ((after (.entryRemove (rq 0 (toBytes 2 2))) servedList).station 0).requests = [] ∧
      (after (.entryRemove (rq 0 (toBytes 2 2))) servedList).deferred = [(0, .take 3)] := by decide +kernel

/-- R73: a TAKE withdrawn by LIST_CLEAR skips nothing of a list that takes its target's id up again. -/
theorem test_cleared_take :
    ((after .internalPeriodEnd (at0 (after (.listClear (rq 0 [])) servedList) fun x =>
      { x with list := [plays 7 .take none, plays 3 .take none] })).station 0).list.map Entry.id = [7, 3] := by
  decide +kernel

/-- R101: the later of two TAKEs of one interval wins where it names an entry ahead of the other's target, also where a
TAKE_CANCEL then withdraws it. -/
def twoTakes (last : State → State) : State :=
  after .internalPeriodEnd (last (autoList State.reset
    [plays 1 .take none, plays 3 .take none, plays 4 .take none, plays 5 .take none] |> fun s =>
      after .messageSent (after (.take (rq 0 [1, 0, 3])) (after .messageSent (after (.take (rq 0 [1, 0, 5])) s)))))

theorem test_two_takes :
    ((twoTakes id).station 0).list.map Entry.id = [3, 4, 5] ∧ ((twoTakes id).station 0).take.map PendingTake.target = some 3 ∧
      ((twoTakes (after (.takeCancel (rq 0 [])))).station 0).list.map Entry.id = [5] := by decide +kernel

/-- An ENTRY_AMEND of entry 1: its level set, and its due time too where one is given. -/
def amendPayload (level : Nat) (due : Option Nat) : List Byte :=
  toBytes 2 1 ++ [1] ++ toBytes 2 level ++ [0] ++ toBytes 4 0 ++ [0] ++ toBytes 4 0 ++
    (match due with
      | none => 0 :: toBytes 6 0
      | some t => 1 :: toBytes 6 t)

theorem witness_EntryAmended :
    (listed [plays 1 .hard (some 5)]).Ready ∧ (amendPayload 40000 none).length = 22 ∧
      (amendForm (amendPayload 40000 none)).codesOk = true ∧
      ((listed [plays 1 .hard (some 5)]).station 0).find (amendForm (amendPayload 40000 none)).id =
        some (plays 1 .hard (some 5)) ∧
      ((listed [plays 1 .hard (some 5)]).station 0).isCommitted (plays 1 .hard (some 5)) = false ∧
      (amendForm (amendPayload 40000 (some 9))).badKind (plays 1 .hard (some 5)) = false ∧
      (∀ v ∈ [0, 9], (amendForm (amendPayload 40000 none)).due ≠ some (.set v)) ∧
      (amendForm (amendPayload 40000 (some 9))).due = some (.set 9) ∧
      orderOk (((listed [plays 1 .hard (some 5)]).station 0).amended (amendForm (amendPayload 40000 (some 9)))) = true ∧
      ((after (.entryAmend (rq 0 (amendPayload 40000 (some 9)))) (listed [plays 1 .hard (some 5)])).station 0).list.map
        (fun e => (e.level, e.due)) = [(some 32768, some 9)] := by decide +kernel

/-! ## Station requests -/

/-- A STATION_SET of output level and silence window alone. -/
def setPayload (level window : Nat) : List Byte :=
  [1] ++ toBytes 2 level ++ List.replicate 28 0 ++ [1] ++ toBytes 4 window ++ List.replicate 12 0

theorem witness_SettingsStored :
    State.reset.Ready ∧ (setPayload 65535 1).length = 48 ∧ (setForm (setPayload 65535 1)).inRange = true ∧
      (State.reset.station 0).cfg.InRange ∧
      ((setForm (setPayload 65535 1)).apply Settings.powerOn).armHorizon = Settings.powerOn.armHorizon ∧
      ((setForm (setPayload 65535 1)).apply Settings.powerOn).fallbackCart = Settings.powerOn.fallbackCart ∧
      (fun c : Settings => (c.outLevel, c.window))
        ((after (.stationSet (rq 0 (setPayload 65535 1))) State.reset).station 0).cfg = (32768, 48000) := by decide +kernel

/-- Station 0 in a mode. -/
def inMode (m : Mode) : State := at0 State.reset fun x => { x with mode := m, leftMode := some .auto }

theorem witness_ModeChanged :
    (∀ m ∈ [Mode.idle, .auto, .manual, .fallback], (inMode m).Ready ∧ ((inMode m).station 0).take = none) ∧
      modeOf (field [1] 0 1) = some .auto ∧ modeOf (field [3] 0 1) = some .fallback ∧
      sentBody (after (.stationMode (rq 0 [1])) (inMode .fallback)) = [0xB1, 0x2A, 0, 0x13] ∧
      sentBody (after (.stationMode (rq 0 [1])) (inMode .auto)) = [0xB1, 0x2A, 0, 0x01] ∧
      ((after (.stationMode (rq 0 [3])) (inMode .auto)).station 0).leftMode = some .auto ∧
      (after (.stationMode (rq 0 [3])) (inMode .auto)).deferred = [(0, .fallback false)] := by decide +kernel

theorem witness_TakeTaken :
    (autoList State.reset [plays 1 .take none]).Ready ∧
      ((autoList State.reset [plays 1 .take none]).station 0).takeBadState (some 1) = false ∧
      ((autoList State.reset [plays 1 .take none]).station 0).takeEntry (some 1) = some (plays 1 .take none) ∧
      ((autoList State.reset [plays 1 .take none]).station 0).takeEntry none = some (plays 1 .take none) ∧
      ((autoList State.reset [plays 1 .take none]).station 0).takeBehindHard (plays 1 .take none) = false ∧
      (autoList State.reset [plays 1 .take none]).takeNotReady 0 (plays 1 .take none) = false ∧
      field [1, 0, 1] 0 1 ≤ 1 ∧
      ((after (.take (rq 0 [1, 0, 1])) (autoList State.reset [plays 1 .take none])).station 0).take = some ⟨1, 1⟩ := by
  decide +kernel

theorem test_take_refused :
    sentBody (after (.take (rq 0 [0, 0, 0])) State.reset) = [0xB3, 0x2A, 0, 0x13] ∧
      sentBody (after (.take (rq 0 [1, 0, 2])) (autoList State.reset [plays 1 .hard (some 9), plays 2 .take none])) =
        [0xB3, 0x2A, 0, 0x16] := by decide +kernel

theorem witness_TakeStopResume :
    (∀ m ∈ [Mode.idle, .auto, .manual, .fallback], (inMode m).Ready ∧ ((inMode m).station 0).take = none ∧
        ((inMode m).station 0).onAirBreak = none ∧ ((inMode m).station 0).sounding = false) ∧
      (at0 State.reset fun x => { x with take := some ⟨1, 1⟩ }).Ready ∧
      ((autoList State.reset [{ plays 1 .take none with state := .onAir }]).station 0).sounding = true ∧
      ((inMode .fallback).station 0).leftMode = some .auto ∧
      ((after (.takeCancel (rq 0 [])) (at0 State.reset fun x => { x with take := some ⟨1, 1⟩ })).station 0).take = none ∧
      ((after (.stop (rq 0 [])) (inMode .auto)).station 0).mode = .manual ∧
      ((after (.resume (rq 0 [])) (inMode .fallback)).station 0).mode = .auto := by decide +kernel

/-- Station 0 in the mode given, entry 1 the target of a pending take. -/
def taking (m : Mode) : State :=
  at0 (autoList State.reset [{ plays 1 .take none with state := .pending }]) fun x =>
    { x with mode := m, take := some ⟨1, 5⟩ }

theorem witness_takes_withdrawn :
    (∀ m ∈ [Mode.auto, .manual], (taking m).Ready ∧ ((taking m).station 0).take = some ⟨1, 5⟩ ∧
        ((taking m).station 0).onAirBreak = none) ∧
      (after (.stationMode (rq 0 [0])) (taking .auto)).deferred = [(0, .toIdle false true)] ∧
      ((after (.stationMode (rq 0 [0])) (taking .auto)).station 0).take = none ∧
      ((after (.stationMode (rq 0 [2])) (taking .auto)).station 0).take = some ⟨1, 5⟩ ∧
      ((after (.stop (rq 0 [])) (taking .manual)).station 0).take = none ∧
      (after (.stop (rq 0 [])) (taking .manual)).deferred = [(0, .stop false)] ∧
      (State.act (taking .manual) 0 (.stop false)).cond 0 = (taking .manual).cond 0 ∧
      (((taking .auto).act 0 (.fallback true)).cond 0).pending &&& 0x10 = 0x10 ∧
      (taking .auto).takeToCome 0 = false ∧
      ((State.reset.act 0 (.toIdle false false)).cond 0).pending &&& 0x10 = 0 := by decide +kernel

/-- Entry 1 of station 0 is PENDING by its start kind since time 5, and entry 2 behind it the target of a take. -/
def pendingAhead : State :=
  at0 (autoList State.reset [{ plays 1 .segue none with state := .pending }, plays 2 .take none]) fun x =>
    { x with take := some ⟨2, 6⟩, due := some ⟨5, 5⟩ }

theorem witness_takes_withdrawn_ahead :
    pendingAhead.Ready ∧ (pendingAhead.station 0).waitingList.head?.map Entry.id ≠ some 2 ∧
      (∀ c ∈ [Instr.takeCancel (rq 0 []), .stop (rq 0 []), .stationMode (rq 0 [0])],
        ((after c pendingAhead).station 0).take = none ∧ ((after c pendingAhead).station 0).due = some ⟨5, 5⟩ ∧
        ((after c pendingAhead).station 0).list.head?.map Entry.state = some .pending) ∧
      ((after (.takeCancel (rq 0 [])) (at0 (taking .auto) fun x => { x with due := some ⟨5, 5⟩ })).station 0).due =
        none := by decide +kernel

/-- R88: entry 1 keeps its due moment through a TAKE of entry 2, a TAKE_CANCEL and the removal of entry 2. -/
theorem test_due_kept :
    ((after .internalPeriodEnd (after (.entryRemove (rq 0 (toBytes 2 2))) (after .messageSent
      (after (.takeCancel (rq 0 [])) { pendingAhead with deferred := [(0, .take 2)] })))).station 0).due =
      some ⟨5, 5⟩ := by decide +kernel

theorem witness_TimeSet :
    State.reset.Ready ∧ namedStations 0xFF = some allStations ∧ namedStations 5 = some [5] ∧
      (∀ st ∈ allStations, (State.reset.station st).breakActive = false) ∧
      ((listed [{ hour 1 oneSpot with state := .armed }]).station 0).breakActive = true ∧
      (listed [{ hour 1 oneSpot with state := .armed }]).Ready ∧
      (after (.setTime (rq 5 (toBytes 6 1000))) (atHouse State.reset 2000)).nextTime 5 = 1000 ∧
      (after (.setTime (rq 0xFF (toBytes 6 0))) (atHouse State.reset 2000)).nextTime 0 = 0 := by decide +kernel

theorem witness_StandsDown :
    (∃ act : Deferred, act = .toIdle false true ∨ act = .fallback true) ∧
      ((State.act (listed [{ plays 1 .segue none with state := .pending, served := .waiting }]) 0
        (.fallback false)).station 0).list.map (fun e => (e.state, e.served)) = [(.waiting, .none)] :=
  ⟨⟨.fallback true, .inr rfl⟩, by decide +kernel⟩

/-- Entry 9 of station 0 sounds on deck 3, entries 1 and 2 wait behind it, and a take of entry 2 is pending. -/
def taken : State :=
  at0 ((deck3 (autoList State.reset []) .playing (.item 9)).modPlayer 3 fun p =>
      { p with ramp := ⟨32768, 32768, 0, 0⟩ }) fun x =>
    { x with
      take := some ⟨2, 0⟩
      list := [{ plays 9 .segue none with state := .onAir, served := .deck 3 }, plays 1 .segue none,
        plays 2 .take none] }

/-- A state in which station 0 has left IDLE with a break past its end, a HARD item beyond the tolerance and a SEGUE
item. -/
def leaving : State :=
  atHouse (autoList State.reset [hour 1 oneSpot, plays 2 .hard (some 60000), plays 3 .segue none]) 200000

theorem witness_StandsDown_acts :
    ({ State.reset with deferred := [(0, .leaveIdle)] } : State).PlainEnd ∧
      taken.ListsKept ∧ taken.DirectoryKept ∧ (∀ u : StationId, (taken.station u).requests = []) ∧
      (taken.station 0).find 2 = some (plays 2 .take none) ∧ taken.LogTakes 1 ∧
      (3 : DeckId) ∈ (taken.station 0).soundingDecks ∧ (taken.deck 3).player.sounds = true ∧
      (taken.lookup 0 7).isSome = true ∧ taken.belowCap 0 = true ∧ taken.takeToCome 0 = false ∧
      ((taken.act 0 (.take 2)).station 0).list.map (fun e => (e.id, e.served)) = [(9, .deck 3), (2, .deck 0)] ∧
      (taken.act 0 (.take 2)).asrun.map (fun r => (r.entryId, r.outcome)) = [(1, .skipped)] ∧
      ((taken.act 0 (.take 2)).deck 3).player.ramp = ⟨32768, 0, 9600, 0⟩ ∧
      ((taken.act 0 (.stop true)).station 0).take = none ∧ ((taken.act 0 (.stop true)).deck 3).player.state = .fading ∧
      leaving.ListsKept ∧ (leaving.station 0).airs = true ∧
      ((leaving.act 0 .leaveIdle).station 0).list.map Entry.id = [3] ∧
      (leaving.act 0 .leaveIdle).asrun.map Record.outcome = [.skipped, .tooLate] := by decide +kernel

/-- Station 0's break is on the air with its first spot on deck 3, a second still to start. -/
def breakSounding : State :=
  (deck3 (autoList State.reset [{ hour 2 { oneSpot with
      spots := [{ readySpot with state := .onAir, startTime := 1000 }, { readySpot with served := .none }]
      join := some 1000 } with state := .onAir }]) .playing (.spot 2 0)).modPlayer 3 fun p =>
    { p with ramp := ⟨32768, 32768, 0, 0⟩ }

theorem witness_StandsDown_manual :
    (taking .auto).ListsKept ∧ (listed [{ plays 1 .segue none with state := .pending, served := .waiting }]).ListsKept ∧
      (((taking .auto).act 0 .autoToManual).station 0).list.map Entry.state = [.pending] ∧
      ((State.act (listed [{ plays 1 .segue none with state := .pending, served := .waiting }]) 0
        .autoToManual).station 0).list.map (fun e => (e.state, e.served)) = [(.waiting, .waiting)] ∧
      ((taken.act 0 .cut).deck 3).player.ramp = ⟨32768, 0, 9600, 0⟩ ∧
      ((taken.act 0 .reevaluate).station 0).dirty = true ∧ ((taken.act 0 .manualToAuto).station 0).silence = 0 := by
  decide +kernel

theorem witness_StandsDown_ends :
    breakSounding.ListsKept ∧ ((breakSounding.station 0).onAirBreak.map fun x => x.1.id) = some 2 ∧
      breakSounding.recordsHeld = [] ∧ (∀ u : StationId, (breakSounding.station u).requests = []) ∧
      (breakSounding.deck 3).player.sounds = true ∧ (breakSounding.deck 3).station = some 0 ∧
      (∀ act ∈ [Deferred.toIdle false false, .fallback false],
        ((breakSounding.act 0 act).deck 3).player.ramp = ⟨32768, 0, 9600, 0⟩ ∧
        ((breakSounding.act 0 act).deck 3).target = some (.trailSpot ⟨2, 8, some 1, some 1000, 1000, some 0, true, 0⟩) ∧
        (breakSounding.act 0 act).recordsHeld.map (fun x => (x.1, x.2.outcome)) = [(some 1, .dropped)] ∧
        ((breakSounding.act 0 act).station 0).list = [] ∧
        ((taken.act 0 act).deck 3).player.ramp = ⟨32768, 0, 9600, 0⟩ ∧
        ((servedList.act 0 act).deck 3).player.state = .free ∧ (servedList.deck 3).station = some 0 ∧
        (servedList.station 0).onAirBreak = none) := by decide +kernel

/-- Station 0 back from FALLBACK in AUTO, one entry waiting, its bed player sounding. -/
def resumed : State :=
  (autoList State.reset [plays 1 .segue none]).setBed 0
    { Bed.reset with player := { Player.reset with state := .playing, ramp := ⟨32768, 32768, 0, 0⟩ }, airWanted := true }

theorem witness_StandsDown_resumes :
    (resumed.bed 0).player.sounds = true ∧ (resumed.station 0).airs = true ∧ (resumed.station 0).take = none ∧
      (∀ x ∈ (resumed.station 0).waitingList, x.startKind ≠ .hard ∧ x.isBreak = false) ∧
      (resumed.station 0).waitingList.head? = some (plays 1 .segue none) ∧ (resumed.lookup 0 7).isSome = true ∧
      ({ resumed with dir := [] } : State).lookup 0 7 = none ∧
      ((resumed.act 0 (.resume .auto)).station 0).take = some ⟨1, 0⟩ ∧
      ((resumed.act 0 (.resume .auto)).bed 0).player.ramp = ⟨32768, 0, 9600, 0⟩ ∧
      ((State.act { resumed with dir := [] } 0 (.resume .auto)).station 0).take = none := by decide +kernel

/-! ## Reference controller, links, log, conditions -/

/-- A reference controller changed. -/
def withRef (f : RefControl → RefControl) : State := { State.reset with ref := f RefControl.reset }

theorem witness_ReferenceSelected :
    State.reset.Ready ∧ (withRef fun r => { r with current := .word, target := some (.link .a) }).Ready ∧
      State.reset.ref.bridging = none ∧ sourceOf (field [2, 0] 0 1) = some (.link .a) ∧
      autoReturnOf (field [2, 0] 1 1) = some true ∧ sourceOf (field [0, 1] 0 1) = some .internal ∧
      (State.reset.link .a).mode ≠ .slave ∧ State.reset.ref.target = none ∧
      (withRef fun r => { r with target := some .word }).ref.target ≠ none ∧
      (after (.refSelect (rq 0xFF [2, 0])) State.reset).ref = State.reset.ref ∧
      (after (.refSelect (rq 0xFF [1, 0])) State.reset).ref.target = some .word ∧
      sentBody (after (.refSelect (rq 0xFF [0, 1])) (withRef fun r => { r with current := .word })) =
        [0xC0, 0x2A, 0xFF, 0, 0, 0, 0, 0, 1] ∧
      (after (.refCancel (rq 0xFF [])) (withRef fun r => { r with target := some .word })).ref.target = none := by
  decide +kernel

/-- Link A with an assignment of station 1 to slots 30 and 31. -/
def assigned : State :=
  State.reset.setLink .a { AirLink.reset with assigns := AirLink.reset.assigns.set 1 (some ⟨30, .stereo⟩) }

theorem witness_LinksSet :
    State.reset.Ready ∧ assigned.Ready ∧ linkOf (field [0, 1, 0] 0 1) = some .a ∧
      linkModeOf (field [0, 1, 0] 1 1) = some .master ∧ mirrorOf (field [1, 0, 1] 2 1) = some true ∧
      (withRef fun r => { r with current := .link .a }).ref.uses .a = true ∧ State.reset.ref.uses .a = false ∧
      formatOf (field [0, 30, 2] 2 1) = some (some .stereoMono) ∧ 32 < field [0, 30, 2] 1 1 + SlotFormat.stereoMono.width ∧
      field [0, 31, 1] 1 1 + SlotFormat.mono.width ≤ 32 ∧
      (assigned.link .a).assigns[(1 : StationId)] = some ⟨30, .stereo⟩ ∧
      (⟨30, .stereo⟩ : Assignment).overlaps ⟨31, .mono⟩ = true ∧ formatOf (field [0, 0, 3] 2 1) = some none ∧
      sentBody (after (.linkSet (rq 0xFF [0, 1, 1])) State.reset) = [0xC8, 0x2A, 0xFF, 0x15] ∧
      (after (.linkSet (rq 0xFF [0, 1, 0])) State.reset).linkA.mode = .master ∧
      sentBody (after (.linkAssign (rq 0 [0, 31, 1])) assigned) = [0xC9, 0x2A, 0, 0x1D] ∧
      (after (.linkAssign (rq 1 [0, 0, 3])) assigned).linkA.assigns[(1 : StationId)] = none ∧
      (assigned.link .a).assigns[(0 : StationId)] = none ∧
      (sentBody (after (.linkAssign (rq 1 [0, 30, 0])) assigned)).take 7 = [0xC9, 0x2A, 1, 0x01, 0, 0, 0] ∧
      (sentBody (after (.linkAssign (rq 0 [0, 0, 3])) assigned)).take 4 = [0xC9, 0x2A, 0, 0x01] := by decide +kernel

/-- A record. -/
def aRecord (n : Count32) : Record :=
  { seq := n, station := 0, entryId := 1, spotRef := none, cart := 7, used := none, scheduled := none, startTime := 0,
    endTime := 0, aired := 0, outcome := .complete, stalls := 0, mediaErrors := 0, lateness := none }

/-- A log with `n` records. -/
def logged (n : Nat) : State := { State.reset with asrun := List.replicate n (aRecord 0) }

theorem witness_LogAndFaults :
    (logged 511).asrun.length < 512 ∧ 512 ≤ (logged 512).asrun.length ∧ (logged 0).asrun = [] ∧ (logged 17).Ready ∧
      field [255] 0 1 = 255 ∧ min 255 16 < (logged 17).asrun.length ∧ (logged 16).asrun.length ≤ 16 ∧
      ((logged 512).addRecord (aRecord 0)).asrun.length = 512 ∧ ((logged 512).addRecord (aRecord 0)).nextSeq = 1 ∧
      (after (.asrunFetch (rq 0xFF [255])) (logged 17)).asrun.length = 1 ∧ (State.reset.station 0).fault = none ∧
      ((at0 State.reset fun x => { x with fault := some ⟨.silence, 1, 2, 3, false⟩ }).station 0).fault.isSome = true := by
  decide +kernel

/-- Two records of one break, made in this period. -/
def madeRecords : State :=
  { logged 3 with recordsHeld := [(some 0, aRecord 0), (some 1, { aRecord 0 with outcome := .cut })], nextSeq := 7 }

theorem witness_LogAndFaults_breaks :
    madeRecords.LogTakes madeRecords.recordsHeld.length ∧ madeRecords.PlainEnd ∧ madeRecords.deferred = [] ∧
      (∀ d : DeckId, (madeRecords.deck d).player.ended = none) ∧
      (∀ u : StationId, (madeRecords.bed u).player.ended = none ∧ (madeRecords.station u).dirty = false) ∧
      (after .internalPeriodEnd madeRecords).asrun.map (fun r => (r.seq, r.outcome)) =
        [(0, .complete), (0, .complete), (0, .complete), (7, .complete), (8, .cut)] := by decide +kernel

/-- Deck 3 ends with this period the play of spot 0 of entry 1, whose records for spot 1 and behind it are held. -/
def awaiting : State :=
  { (deck3 madeRecords .fading (.spot 1 0)).modPlayer 3 fun p => { p with ended := some .faded } with
    recordsHeld := [(some 0, aRecord 0), (some 1, aRecord 0), (none, aRecord 0)] }

theorem witness_LogAndFaults_held :
    awaiting.opening = false ∧ awaiting.LogTakes 1 ∧ awaiting.recordsHeld.map awaiting.mustWait = [false, true, false] ∧
      awaiting.release.recordsHeld = [(some 1, aRecord 0), (none, aRecord 0)] ∧ awaiting.release.nextSeq = 8 ∧
      (awaiting.record (aRecord 5)).recordsHeld.length = 4 ∧ (State.reset.record (aRecord 5)).nextSeq = 1 ∧
      ({ awaiting with opening := true } : State).release = { awaiting with opening := true } ∧
      ({ madeRecords with opening := true } : State).queue = [] ∧
      (State.settle { madeRecords with opening := true }).recordsHeld = [] ∧
      (State.settle { madeRecords with opening := true }).asrun.length = 5 := by decide +kernel

theorem witness_ConditionsSet_low :
    ((at0 State.reset fun x => { x with lowRel := false }).station 0).notStarted < 4 ∧
      ((at0 State.reset fun x => { x with lowRel := false }).evalLow 0).cond 0 = ⟨0x08, 0⟩ ∧
      4 ≤ ((listed (fullList.take 4)).station 0).notStarted ∧ ((listed (fullList.take 4)).station 0).lowRel = true ∧
      (((listed (fullList.take 4)).setCond 0 ⟨0x3F, 0⟩).evalLow 0).cond 0 = ⟨0x37, 0⟩ ∧
      ((State.reset.station 0).lowRel = true ↔ (State.reset.station 0).notStarted < 4) := by decide +kernel

theorem witness_ConditionsSet :
    State.reset.Ready ∧ (sending []).Ready ∧ setOf 0xFF = some 6 ∧ setOf 5 = some 5 ∧
      (0x40 : Byte) &&& ~~~setBits 5 ≠ 0 ∧ (0x7F : Byte) &&& ~~~setBits 6 = 0 ∧
      (1 : Byte) = ((sending []).cond 0).enabled ∧ (State.reset.setCond 0 ⟨1, 0⟩).Ready ∧
      ((State.reset.setCond 0 ⟨1, 0⟩).cond 0).pending &&& 1 &&& ~~~((State.reset.setCond 0 ⟨1, 0⟩).cond 0).enabled ≠ 0 ∧
      (State.reset.setCond 0 ⟨1, 0⟩).noticeWaits 0 = false ∧
      ((after (.condClear (rq 0 [0x3F])) (State.reset.setCond 0 ⟨0x3F, 0⟩)).cond 0).pending = 0x08 ∧
      (after (.noticeMask (rq 0 [1])) (State.reset.setCond 0 ⟨1, 0⟩)).txOrder = [.notice 0] := by decide +kernel

theorem witness_ConditionsSet_notice :
    (State.reset.setCond 0 ⟨0x08, 0x3F⟩).noticeWaits 0 = false ∧
      (0x01 : Byte) &&& 0x3F &&& ~~~0x08 ≠ 0 ∧ (0x08 : Byte) &&& 0x3F &&& ~~~0x08 = 0 ∧
      sentBody ((State.reset.setCond 0 ⟨0x08, 0x3F⟩).raiseBits 0 0x01) = [0x7F, 0, 0, 0x09] ∧
      ((State.reset.setCond 0 ⟨0x08, 0x3F⟩).raiseBits 0 0x08).sending = none ∧
      (((sending []).setCond 0 ⟨0x08, 0x3F⟩).raiseBits 0 0x01).txOrder = [.notice 0] ∧
      ((((sending []).setCond 0 ⟨0x08, 0x3F⟩).raiseBits 0 0x01).raiseBits 0 0x02).txOrder = [.notice 0] ∧
      ((State.reset.working.setCond 0 ⟨0, 1⟩).raiseBits 0 0x01).behind = [0] := by decide +kernel

/-! ## Timebase and links -/

/-- The part following WORD, `n` windows missed. -/
def following (n : Nat) : State := withRef fun r => { r with current := .word, miss := n }

theorem witness_PeriodsEnd :
    State.reset.AtRest ∧ (following 3).AtRest ∧ (following 3).ref.bridging = none ∧ (following 3).ref.switchFrom = none ∧
      (following 3).ref.current ≠ .internal ∧ (following 3).ref.target ≠ some (following 3).ref.current ∧
      (after .internalPeriodEnd State.reset).house = 1 ∧
      (after (.refEdgeAccepted 990000) (following 2)).ref.miss = 0 ∧
      (after (.refEdgeAccepted 989999) (following 2)).house = 0 ∧
      (after (.refEdgeAccepted 1010000) (following 2)).house = 1 ∧ (after .refWindowMiss (following 2)).ref.miss = 3 ∧
      (after .refWindowMiss (following 3)).ref.current = .internal ∧
      (after .refWindowMiss (following 3)).ref.fallen = true := by decide +kernel

/-- The part following link A, its preferred source, with the auto-return flag ON and the link in a stored mode. -/
def followingLink (m : LinkMode) : State :=
  { State.reset.setLink .a { AirLink.reset with mode := m, active := .slave } with
    ref := { RefControl.reset with current := .link .a, miss := 3, preferred := .link .a, autoReturn := true } }

theorem witness_PeriodsEnd_watch :
    (∀ m ∈ [LinkMode.slave, .off], (followingLink m).AtRest ∧ (followingLink m).ref.bridging = none ∧
        (followingLink m).ref.switchFrom = none ∧ (followingLink m).ref.miss = 3) ∧
      (after .refWindowMiss (followingLink .slave)).ref.target = some (.link .a) ∧
      (after .refWindowMiss (followingLink .off)).ref.target = none ∧
      (withRef fun r => { r with current := .word, miss := 3, autoReturn := true }).ref.preferred = .internal := by
  decide +kernel

/-- INTERNAL paces and WORD is the target, its last edge at the moment given, the lock at `n`. -/
def locking (n : Nat) (last : Option Nat) : State :=
  withRef fun r => { r with target := some .word, progress := n, lastEdge := last }

theorem witness_TargetMeasured :
    (locking 63 none).AtRest ∧ (locking 63 none).ref.bridging = none ∧ (locking 63 none).ref.pacing ≠ .word ∧
      (locking 63 none).ref.progress < 64 ∧ (locking 62 (some 0)).ref.progress < 63 ∧ 0 + 990000 ≤ 0 + 990000 ∧
      (after (.targetEdge 5) (locking 0 none)).ref.lastEdge = some 5 ∧
      (after (.targetEdge 990000) (locking 62 (some 0))).ref.progress = 63 ∧
      (after (.targetEdge 989999) (locking 62 (some 0))).ref.progress = 0 ∧
      (after (.targetEdge 1010001) (locking 62 (some 0))).ref.progress = 0 ∧
      (after .targetWindowTimeout { locking 62 (some 0) with periodStart := 10000 }).ref.lastEdge = none := by
  decide +kernel

theorem witness_LockCompleted :
    ({ locking 63 (some 0) with periodStart := 600000 } : State).AtRest ∧
      (locking 63 (some 0)).ref.current ≠ .word ∧ (locking 63 (some 0)).ref.fallen = false ∧
      (after (.targetEdge 400000) { locking 63 (some 0) with periodStart := 600000 }).ref.bridging =
        some ⟨.word, .selected, 1000000⟩ ∧
      (after (.targetEdge 500000) { locking 63 (some 0) with periodStart := 500000 }).ref.current = .word := by
  decide +kernel

/-- WORD is locked with its lock edge at 100,000, and the bridging period runs. -/
def bridging : State :=
  withRef fun r => { r with target := some .word, progress := 64, bridging := some ⟨.word, .selected, 100000⟩ }

theorem witness_SwitchesMade :
    bridging.AtRest ∧ bridging.ref.switchFrom = none ∧ bridging.ref.fallen = false ∧
      (withRef fun r => { r with switchFrom := some .word }).AtRest ∧
      (after (.bridgingEnd (some 1110000)) bridging).ref.miss = 0 ∧ (after (.bridgingEnd none) bridging).ref.miss = 1 ∧
      (after (.bridgingEnd none) bridging).periodStart = 1110000 ∧
      (after (.refSwitchInternal (some 990000)) (withRef fun r => { r with switchFrom := some .word })).house = 1 ∧
      (after (.refSwitchInternal none) (withRef fun r => { r with switchFrom := some .word })).ref.switchFrom = none := by
  decide +kernel

/-- A switch from WORD to INTERNAL waits, and WORD is the target again. -/
def backAgain : State :=
  withRef fun r => { r with switchFrom := some .word, target := some .word, lastEdge := some 0, progress := 5 }

theorem witness_SwitchesMade_judged :
    backAgain.AtRest ∧ backAgain.ref.bridging = none ∧ 0 + 990000 ≤ backAgain.periodStart + 1000000 ∧
      backAgain.periodStart + 1000000 ≤ 0 + 1010000 ∧ backAgain.ref.progress < 63 ∧
      (after (.refSwitchInternal (some 1000000)) backAgain).ref.progress = 6 ∧
      (after (.refSwitchInternal (some 1000000)) backAgain).house = 1 := by decide +kernel

theorem witness_ReferenceSelected_bridging :
    bridging.Ready ∧ bridging.ref.switchFrom = none ∧ sourceOf (field [0, 1] 0 1) = some .internal ∧
      sentBody (after (.refSelect (rq 0xFF [0, 1])) bridging) = [0xC0, 0x2A, 0xFF, 0, 0, 0, 0, 0, 1] ∧
      (fun r : RefControl => (r.target, r.progress)) (after (.refSelect (rq 0xFF [0, 1])) bridging).ref = (none, 0) := by
  decide +kernel

/-- Link A in SLAVE with framing. -/
def slave (f : Framing) : State :=
  State.reset.setLink .a { AirLink.reset with mode := .slave, active := .slave, framing := some f }

theorem witness_FramePulses :
    (∀ f ∈ [(⟨.hunt, none, 0, 0, none, none⟩ : Framing), ⟨.hunt, some 5, 15, 0, none, none⟩,
      ⟨.sync, some 5, 16, 0, none, none⟩, ⟨.sync, some 5, 16, 0, some Image.zero, none⟩],
        (slave f).AtRest ∧ (slave f).ref.bridging = none ∧ (slave f).ref.target ≠ some (.link .a) ∧
          (slave f).ref.pacing ≠ .link .a ∧ (slave f).periodStart + 4000000 ≤ f.lossFrom + 4000000) ∧
      ((after (.framePulse .a 768 0) (slave ⟨.hunt, some 5, 15, 0, none, none⟩)).linkA.framing.map
        fun g => (g.sub, g.run)) = some (.sync, 16) ∧
      (after (.framePulse .a 767 0) (slave ⟨.sync, some 5, 16, 0, none, none⟩)).linkA.alignments = 1 ∧
      (after (.framePulse .a 768 0) (slave ⟨.sync, some 5, 16, 0, none, none⟩)).linkA.repeats = 1 := by decide +kernel

/-- Link A in SYNC with no image in its store, the reference controller as given. -/
def pulsed (f : RefControl → RefControl) : State :=
  { slave ⟨.sync, some 5, 16, 0, none, none⟩ with ref := f RefControl.reset }

theorem witness_FramePulses_source :
    (pulsed fun r => { r with current := .link .a, miss := 2 }).AtRest ∧
      (after (.framePulse .a 768 1000000) (pulsed fun r => { r with current := .link .a, miss := 2 })).house = 1 ∧
      (after (.framePulse .a 768 1000000) (pulsed fun r => { r with current := .link .a, miss := 2 })).ref.miss = 0 ∧
      (after (.framePulse .a 100 900000) (pulsed fun r => { r with current := .link .a, miss := 2 })).house = 0 ∧
      (after (.framePulse .a 100 900000) (pulsed fun r => { r with current := .link .a })).linkA.alignments = 1 ∧
      (after (.framePulse .a 768 900000) (pulsed fun r => { r with current := .link .a })).linkA.repeats = 0 := by
  decide +kernel

theorem witness_FramePulses_target :
    (pulsed fun r => { r with target := some (.link .a) }).ref.lastEdge = none ∧
      (after (.framePulse .a 768 7) (pulsed fun r => { r with target := some (.link .a) })).ref.lastEdge = some 7 ∧
      (∀ n ∈ [62, 63], (after (.framePulse .a 768 499999)
        { pulsed fun r => { r with target := some (.link .a), progress := n, lastEdge := some 3000000 } with
          periodStart := 3500001 }).ref.progress = n + 1) ∧
      (after (.framePulse .a 768 499999)
        { pulsed fun r => { r with target := some (.link .a), progress := 5, lastEdge := some 0 } with
          periodStart := 3500001 }).ref.progress = 0 ∧
      (after (.framePulse .a 768 500000)
        { pulsed fun r => { r with target := some (.link .a), progress := 63, lastEdge := some 3000000 } with
          periodStart := 3500000 }).ref.current = .link .a ∧
      (after (.framePulse .a 768 1100000)
        (pulsed fun r =>
          { r with
            target := some (.link .a), progress := 64, bridging := some ⟨.link .a, .selected, 100000⟩ })).ref.current =
        .link .a := by decide +kernel

theorem witness_LinkEvents :
    (slave ⟨.sync, some 5, 16, 0, none, none⟩).AtRest ∧
      ({ slave ⟨.sync, some 5, 16, 0, none, none⟩ with periodStart := 3000000 } : State).ref.pacing = .internal ∧
      (opened.setLink .b { AirLink.reset with mode := .master }).opening = true ∧
      ((opened.setLink .b { AirLink.reset with mode := .master }).link .b).mode ≠
        ((opened.setLink .b { AirLink.reset with mode := .master }).link .b).active ∧
      (after (.linkLost .a) { slave ⟨.sync, some 5, 16, 0, none, none⟩ with periodStart := 3000000 }).linkA.framing.map
        Framing.sub = some .lost ∧
      (after (.flywheelFrame .a) (slave ⟨.sync, some 5, 16, 0, none, none⟩)).linkA.framing.map Framing.run = some 0 ∧
      (after (.linkModeChange .b) (opened.setLink .b { AirLink.reset with mode := .slave })).linkB.framing.isSome =
        true := by decide +kernel

theorem witness_LinkEvents_flywheel :
    (slave ⟨.hunt, some 5, 3, 0, none, none⟩).AtRest ∧
      (after (.flywheelFrame .a) (slave ⟨.hunt, some 5, 3, 0, some (Image.zero.set 0 9), none⟩)).linkA.frame =
        some Image.zero ∧
      (after (.flywheelFrame .a) (slave ⟨.sync, some 5, 16, 0, some (Image.zero.set 0 9), none⟩)).linkA.frame =
        some (Image.zero.set 0 9) ∧
      (after (.flywheelFrame .a) (slave ⟨.sync, some 5, 16, 0, none, some (Image.zero.set 0 8)⟩)).linkA.frame =
        some (Image.zero.set 0 8) ∧
      (after (.flywheelFrame .a) (slave ⟨.sync, some 5, 16, 0, none, none⟩)).linkA.repeats = 1 ∧
      ((after (.flywheelFrame .a) (slave ⟨.sync, some 5, 16, 0, none, none⟩)).cond deviceSet).pending = 0x20 ∧
      (pulsed fun r => { r with current := .link .a }).ref.pacing = .link .a ∧
      (after (.flywheelFrame .a) (pulsed fun r => { r with current := .link .a })).linkA.repeats = 0 := by
  decide +kernel

/-- INTERNAL paces after a loss, with link B preferred and to be watched, link B in SLAVE in its stored mode alone. -/
def fallenBack : State :=
  { opened.setLink .b { AirLink.reset with mode := .slave } with
    ref := { RefControl.reset with fallen := true, autoReturn := true, preferred := .link .b } }

theorem witness_LinkEvents_watch :
    fallenBack.inReset = false ∧ fallenBack.opening = true ∧ (fallenBack.link .b).mode ≠ (fallenBack.link .b).active ∧
      (after (.linkModeChange .b) fallenBack).ref.target = some (.link .b) ∧
      (after (.linkModeChange .b) (fallenBack.setLink .b { AirLink.reset with mode := .master })).ref =
        fallenBack.ref := by decide +kernel

/-- Link A in SYNC with a sent image and an unsent one, in the store or the reference as the source says. -/
def slaveOn (src : Source) (opens : Bool) : State :=
  { State.reset.setLink .a
      { AirLink.reset with
        mode := .slave, active := .slave, frameOpens := opens
        framing := some ⟨.sync, some 0, 16, 0, some Image.zero, some Image.zero⟩ } with
    ref := { RefControl.reset with current := src } }

theorem witness_ImagesFormed_frames :
    Image.zero.length = 32 ∧ (Image.lines (Image.zero.set 1 0x800001)).length = 768 ∧
      [0, 1, 24, 25, 47].map (fun k => (Image.lines (Image.zero.set 1 0x800001))[k]?) =
        [some ⟨true, false, false⟩, some ⟨false, false, false⟩, some ⟨false, true, true⟩, some ⟨false, false, false⟩,
          some ⟨false, true, true⟩] ∧
      (slaveOn (.link .a) true).ref.pacing = .link .a ∧ (slaveOn .internal false).ref.pacing ≠ .link .a ∧
      (((slaveOn (.link .a) true).linkPeriod .a).link .a).frame = some Image.zero ∧
      (((slaveOn .internal false).linkPeriod .a).link .a).drops = 1 ∧
      (((State.reset.setLink .b { AirLink.reset with active := .master }).linkPeriod .b).link .b).frame =
        some Image.zero := by decide +kernel

theorem witness_ImagesFormed :
    (assigned.tableOf .a)[(1 : StationId)] = some ⟨30, .stereo⟩ ∧ 30 + SlotFormat.stereo.width ≤ 32 ∧
      (∀ u : StationId, u ≠ 1 → (assigned.tableOf .a)[u] = none) ∧
      ({ State.reset with linkB := { AirLink.reset with mirror := true } } : State).linkB.mirror = true ∧
      ((assigned.modStation 1 fun x => { x with out := ⟨0x1234, 0xFFFF, 0, false⟩ }).imageOf .a).drop 29 =
        [0, 0x123400, 0xFFFF00] := by decide +kernel

/-! ## Stations in a period -/

/-- Station 0 in AUTO whose silence counter has reached the window. -/
def silent : State := at0 State.reset fun x => { x with mode := .auto, silence := 480000, silenceDue := true }

theorem witness_SilenceOrdered :
    silent.AtRest ∧ (silent.station 0).silenceDue = true ∧ (silent.station 0).airs = true ∧
      (silent.station 0).take = none ∧ (silent.station 0).onAir = none ∧ (silent.station 0).out.quiet = true ∧
      (silent.station 0).cfg.window ≤ (silent.station 0).silence + 1 ∧ (State.reset.station 0).airs = false ∧
      ((after (.silenceWindowReached 0) silent).station 0).mode = .fallback ∧
      ((after (.silenceWindowReached 0) silent).station 0).fault = some ⟨.silence, 0, 0, 1, false⟩ := by decide +kernel

theorem witness_SilenceOrdered_take :
    (at0 silent fun x => { x with take := some ⟨1, 5⟩ }).AtRest ∧
      ((at0 silent fun x => { x with take := some ⟨1, 5⟩ }).station 0).airs = true ∧
      (after (.silenceWindowReached 0) (at0 silent fun x => { x with take := some ⟨1, 5⟩ })).deferred =
        [(0, .fallback true)] := by decide +kernel

/-- An entry served by deck 3. -/
def armedBy3 (e : Entry) : Entry := { e with state := .armed, served := .deck 3, fadeIn := some 4800 }

/-- Station 0 in AUTO at the beginning of a period, one entry on PRIMED deck 3. -/
def primed (e : Entry) : State := deck3 (autoList opened [armedBy3 e]) .primed (.item e.id)

theorem witness_EntryStarts :
    (∀ e ∈ [plays 1 .segue none, plays 2 .hard (some 0)],
      (primed e).InOpening ∧ (primed e).ListsKept ∧ (primed e).firstItem 0 = some (armedBy3 e) ∧
        (primed e).isDue 0 (armedBy3 e) = true ∧ ((primed e).deck 3).player.state = .primed) ∧
      (primed (plays 1 .segue none)).preFadeDue 0 = none ∧
      (at0 (primed (plays 2 .hard (some 0))) fun x => { x with preFade := some ⟨2, 0⟩ }).preFadeDue 0 = none ∧
      ((after (.entryStart 0) (primed (plays 1 .segue none))).deck 3).player.ramp = ⟨0, 32768, 4800, 0⟩ ∧
      ((after (.entryStart 0) (primed (plays 1 .segue none))).deck 3).player.level = 30000 ∧
      ((after (.entryStart 0) (primed (plays 1 .segue none))).station 0).list.map Entry.state = [.onAir] ∧
      ((after (.hardEventDue 0)
        (at0 (primed (plays 2 .hard (some 0))) fun x => { x with preFade := some ⟨2, 0⟩ })).station 0).list.map
          (fun e => (e.state, e.lateness)) = [(.onAir, some 0)] := by decide +kernel

/-- An entry with a fade-out of 100 sounds on deck 4, at its segue point, and entry 1 is next on PRIMED deck 3. -/
def outgoing (k : StartKind) (f : Station → Station) : State :=
  at0 ((primed (plays 1 k none)).setDeck 4
      ⟨{ Player.reset with
        state := .playing, slot := some 0, playPos := 80, ramp := ⟨32768, 32768, 0, 0⟩ }, some 0, some (.item 9)⟩) fun x =>
    f { x with
      list := { plays 9 .segue none with state := .onAir, served := .deck 4, fadeOut := some 100 } :: x.list }

theorem witness_EntryStarts_outgoing :
    (outgoing .segue id).ListsKept ∧ (outgoing .segue id).isDue 0 (armedBy3 (plays 1 .segue none)) = true ∧
      (outgoing .follow id).isDue 0 (armedBy3 (plays 1 .follow none)) = false ∧
      (outgoing .take fun x => { x with take := some ⟨1, 0⟩ }).isDue 0 (armedBy3 (plays 1 .take none)) = true ∧
      ((after (.entryStart 0) (outgoing .segue id)).deck 4).player.ramp = ⟨32768, 0, 100, 0⟩ ∧
      ((after (.entryStart 0) (outgoing .segue fun x => { x with take := some ⟨1, 0⟩ })).deck 4).player.ramp =
        ⟨32768, 32768, 0, 0⟩ ∧
      ((after (.entryStart 0) (outgoing .take fun x => { x with take := some ⟨1, 0⟩ })).station 0).take = none ∧
      ((after (.entryStart 0) (outgoing .take fun x => { x with take := some ⟨1, 0⟩ })).station 0).list.map Entry.state =
        [.ending, .onAir] := by decide +kernel

/-- Station 0 with a HARD item due now, its pre-fade made, what serves it as given. -/
def dueNow (v : Served) (qs : List DeckRequest) : State :=
  at0 (autoList opened [{ plays 2 .hard (some 0) with served := v }]) fun x =>
    { x with preFade := some ⟨2, 0⟩, requests := qs }

/-- Every deck is in use. -/
def noDeck (s : State) : State := { s with decks := Vector.replicate 16 ⟨{ Player.reset with state := .bound }, none, none⟩ }

theorem witness_DueWithoutDeck :
    (∀ s ∈ [dueNow .none [], dueNow (.deck 3) [], dueNow .waiting [⟨.item 2, 0, false, 9⟩]],
      s.InOpening ∧ s.ListsKept ∧ s.preFadeDue 0 = none ∧ (s.station 0).onAirBreak = none ∧ s.Capped) ∧
      (dueNow .none []).firstItem 0 = some (plays 2 .hard (some 0)) ∧ (dueNow .none []).primedDeck (.deck 3) = none ∧
      (∀ q ∈ ((dueNow .none []).station 0).requests, q.target ≠ .item 2) ∧
      ((dueNow .none []).lookup 0 7).isSome = true ∧ ({ dueNow .none [] with dir := [] } : State).lookup 0 7 = none ∧
      ((dueNow .waiting [⟨.item 2, 0, false, 9⟩]).station 0).requests.find? (fun x => x.target == .item 2) =
        some ⟨.item 2, 0, false, 9⟩ ∧
      (∀ d : DeckId, ((noDeck (dueNow .waiting [])).deck d).player.state ≠ .free) ∧
      ((after (.hardEventDue 0) (noDeck (dueNow .waiting [⟨.item 2, 0, false, 9⟩]))).station 0).requests =
        [⟨.item 2, 0, false, 0⟩] ∧
      (after (.hardEventDue 0) { dueNow .none [] with dir := [] }).asrun.map Record.outcome = [.missing] := by
  decide +kernel

theorem witness_DueWithoutDeck_others :
    (∀ k ∈ [StartKind.segue, .follow], (autoList opened [plays 1 k none]).InOpening ∧
        (autoList opened [plays 1 k none]).isDue 0 (plays 1 k none) = true ∧
        ((State.opJudgeFirst (autoList opened [plays 1 k none]) 0).station 0).list.map Entry.state = [.pending]) ∧
      (taking .manual).isDue 0 { plays 1 .take none with state := .pending } = true ∧
      ({ taking .manual with dir := [] } : State).lookup 0 7 = none ∧
      ((State.opJudgeFirst { taking .manual with dir := [] } 0).station 0).take = none ∧
      ((State.opJudgeFirst { taking .manual with dir := [] } 0).cond 0).pending &&& 0x10 = 0x10 ∧
      (State.opJudgeFirst { taking .manual with dir := [] } 0).asrun.map Record.outcome = [.missing] := by decide +kernel

/-- Station 0 at time 500 with a HARD entry due at 1,000, a hard fade of 500, an entry ahead and one on air. -/
def beforeHard : State :=
  let s := (deck3 (stored opened music) .playing (.item 9)).modPlayer 3 fun p => { p with ramp := ⟨32768, 32768, 0, 0⟩ }
  at0 (atHouse s 500) fun x =>
    { x with
      mode := .auto
      cfg := { Settings.powerOn with hardFade := 500 }
      take := some ⟨1, 500⟩
      list := [{ plays 9 .segue none with state := .onAir, served := .deck 3 }, plays 1 .segue none,
        { plays 2 .hard (some 1000) with state := .armed, served := .deck 4 }] }

theorem witness_PreFadeAndHorizon :
    beforeHard.InOpening ∧ beforeHard.ListsKept ∧ (beforeHard.station 0).airs = true ∧
      (beforeHard.station 0).preFade = none ∧ (beforeHard.station 0).onAirBreak = none ∧
      (beforeHard.station 0).acted = false ∧ ((beforeHard.station 0).hardEntry.map Entry.id) = some 2 ∧
      1000 ≤ beforeHard.stationTime 0 + (beforeHard.station 0).cfg.hardFade ∧
      (atHouse beforeHard 1000).stationTime 0 = 1000 ∧ (3 : DeckId) ∈ (beforeHard.station 0).soundingDecks ∧
      (2 : DeckId) ∉ (beforeHard.station 0).soundingDecks ∧ (beforeHard.deck 3).player.sounds = true ∧
      ((after (.preFade 0) beforeHard).deck 3).player.ramp = ⟨32768, 0, 500, 0⟩ ∧
      ((after (.preFade 0) beforeHard).station 0).list.map Entry.id = [9, 2] ∧
      (after (.preFade 0) beforeHard).asrun.map (fun r => (r.entryId, r.outcome)) = [(1, .skipped)] ∧
      ((after (.preFade 0) beforeHard).cond 0).pending &&& 0x10 = 0x10 ∧
      (at0 (autoList opened [plays 1 .segue none, plays 2 .segue none, plays 3 .hard (some 480000)]) id).InOpening ∧
      ((after (.armHorizonReached 0)
        (autoList opened [plays 1 .segue none, plays 2 .segue none, plays 3 .hard (some 480000)])).station 0).list.map
          (fun e => (e.id, e.served)) = [(1, .deck 1), (2, .deck 2), (3, .deck 0)] := by decide +kernel

/-- Station 0 at time 1,000 with a hard fade of 0 and a HARD item due now, an entry on air. -/
def hardNow : State :=
  at0 (atHouse beforeHard 1000) fun x => { x with cfg := { Settings.powerOn with hardFade := 0 } }

/-- The hard entry of `beforeHard`, its pre-fade begun and the station then moved to IDLE or FALLBACK. -/
def afterPreFade (act : Deferred) : State :=
  { ((after (.preFade 0) beforeHard).act 0 act).settlePool with handler := .ready, opening := false }

/-- R66, R70, R71: the entry stays committed with the pre-fade record cleared; R69: an insert goes behind it. -/
theorem test_preFaded_stays_committed :
    ∀ act ∈ [Deferred.toIdle false false, .fallback false],
      ((afterPreFade act).station 0).preFade = none ∧ (afterPreFade act).Ready ∧
      sentBody (after (.entryRemove (rq 0 (toBytes 2 2))) (afterPreFade act)) = [0xA1, 0x2A, 0, 0x13] ∧
      ((after (.entryInsert (rq 0 (insertPayload 0 7 0 none))) (afterPreFade act)).station 0).list.map Entry.id =
        [9, 2, 7] := by decide +kernel

theorem witness_EntriesLeave_committed :
    ((afterPreFade (.toIdle false false)).station 0).waitingList.map (fun e => (e.id, e.preFaded)) = [(2, true)] ∧
      ((afterPreFade (.toIdle false false)).station 0).behindCommitted = 1 ∧ (toBytes 2 2).length = 2 ∧
      (((afterPreFade (.toIdle false false)).station 0).find (field (toBytes 2 2) 0 2)).map Entry.id = some 2 := by
  decide +kernel

/-- An ENTRY_AMEND of the level of entry 2. -/
def amendHard : Req := rq 0 (toBytes 2 2 ++ (amendPayload 0 none).drop 2)

theorem witness_EntryAmended_committed :
    (((afterPreFade (.toIdle false false)).station 0).find (amendForm amendHard.payload).id).map Entry.preFaded =
        some true ∧ amendHard.payload.length = 22 ∧
      sentBody (after (.entryAmend amendHard) (afterPreFade (.toIdle false false))) = [0xA2, 0x2A, 0, 0x13] := by
  decide +kernel

theorem witness_StandsDown_committed :
    (after (.preFade 0) beforeHard).ListsKept ∧
      ((after (.preFade 0) beforeHard).station 0).waitingList.map (fun e => (e.id, e.preFaded)) = [(2, true)] := by
  decide +kernel

theorem witness_PreFadeAndHorizon_cut :
    hardNow.InOpening ∧ (hardNow.station 0).cfg.hardFade = 0 ∧ hardNow.stationTime 0 = 1000 ∧ hardNow.LogTakes 1 ∧
      ((after (.preFade 0) hardNow).deck 3).player.ramp = ⟨32768, 0, 0, 0⟩ ∧
      ((after (.preFade 0) (atHouse hardNow 1001)).deck 3).player.ramp = ⟨32768, 0, 9600, 0⟩ := by decide +kernel

theorem witness_ItemArmed :
    ((autoList opened [plays 1 .segue none]).station 0).find 1 = some (plays 1 .segue none) ∧
      (autoList opened [plays 1 .segue none]).lookup 0 7 = some music ∧
      (autoList opened [plays 1 .segue none]).entryAt 0 = some music ∧
      (autoList opened [plays 1 .segue none]).belowCap 0 = true ∧
      (∀ u : StationId, ((autoList opened [plays 1 .segue none]).station u).requests = []) ∧
      ((autoList opened [plays 1 .segue none]).deck 0).player.state = .free ∧
      (∀ d : DeckId, ((noDeck (autoList opened [plays 1 .segue none])).deck d).player.state ≠ .free) ∧
      (noDeck (autoList opened [plays 1 .segue none])).belowCap 0 = true ∧
      (((noDeck (autoList opened [plays 1 .segue none])).armItem 0 (plays 1 .segue none) 7).station 0).requests.map
        DeckRequest.key = [0] := by decide +kernel

/-- Two SEGUE items ahead of a HARD one within the horizon. -/
def candidateList : State := autoList opened [plays 1 .segue none, plays 2 .segue none, plays 3 .hard (some 480000)]

theorem witness_ItemArmed_candidates :
    candidateList.ListsKept ∧ candidateList.candidates 0 = [3, 1, 2] ∧
      (autoList opened [plays 1 .segue none, plays 2 .segue none, plays 3 .hard (some 480001)]).candidates 0 = [1, 2] ∧
      ((listed [plays 1 .segue none]).station 0).airs = false ∧
      candidateList.expectedStart 0 (plays 3 .hard (some 480000)) = 480000 ∧
      candidateList.expectedStart 0 (plays 1 .segue none) = 0 ∧
      candidateList.expectedStart 0 (plays 2 .segue none) = 281474976710655 ∧
      (atHouse (outgoing .follow id) 500).expectedStart 0 (armedBy3 (plays 1 .follow none)) = 510 ∧
      (at0 State.reset fun x => { x with offset := 10 }).requestKey 0 5 = 281474976710651 ∧
      candidateList.requestKey 0 281474976710655 = 281474976710655 := by decide +kernel

/-- Station 0 with the break of one spot, its cart and category in the store as given, a fill cart 7. -/
def arming (cart : Nat) (c : Category) : State :=
  autoList (stored opened music) [hour 2 { oneSpot with fillCart := some 7 }] |> fun s =>
    { s with dir := [{ music with cart := cart, category := c }] }

theorem witness_ItemArmed_break :
    (arming 8 .spot).ListsKept ∧ (arming 8 .spot).belowCap 0 = true ∧ oneSpot.unserved = true ∧
      (oneSpot.planned 1000 1000 ((arming 8 .spot).lookups 0 oneSpot)).nextSpot.isSome = true ∧
      (((arming 8 .spot).armBreak 0 (hour 2 oneSpot) oneSpot).deck 0).target = some (.spot 2 0) ∧
      ((noDeck (arming 8 .spot)).armBreak 0 (hour 2 oneSpot) oneSpot).decks = (noDeck (arming 8 .spot)).decks ∧
      (((noDeck (arming 8 .spot)).armBreak 0 (hour 2 oneSpot) oneSpot).station 0).requests =
        [⟨.spot 2 0, 0, false, 1000⟩] ∧
      (oneSpot.planned 1000 1000 ((arming 7 .bed).lookups 0 oneSpot)).spots.any Spot.remains = false ∧
      (arming 7 .bed).lookup 0 7 = some { music with category := .bed } ∧
      (((arming 7 .bed).armBreak 0 (hour 2 oneSpot) { oneSpot with fillCart := some 7 }).deck 0).target = some (.fill 2) ∧
      (((noDeck (arming 7 .bed)).armBreak 0 (hour 2 oneSpot) { oneSpot with fillCart := some 7 }).station 0).requests =
        [⟨.fill 2, 0, true, 1000⟩] ∧
      (((arming 7 .music).armBreak 0 (hour 2 oneSpot) { oneSpot with fillCart := some 7 }).cond 0).pending &&& 0x04 = 0x04 ∧
      (((arming 8 .spot).deadRequest 0 ⟨.spot 2 0, 0, false, 1000⟩).station 0).dirty = true := by decide +kernel

/-- Station 0 in AUTO with a HARD item whose tolerance has passed by one period at house counter `n`. -/
def late (n : Nat) : State := atHouse (autoList opened [plays 1 .segue none, plays 2 .hard (some 1000)]) n

theorem witness_LateItemsLeave :
    (late 97001).InOpening ∧ (late 97001).ListsKept ∧ ((late 97001).station 0).airs = true ∧
      (late 97001).isTooLate 0 (plays 2 .hard (some 1000)) = true ∧ (late 97001).LogTakes 1 ∧
      (after (.hardItemTooLate 0) (late 97001)).asrun.map (fun r => (r.outcome, r.scheduled, r.lateness)) =
        [(.tooLate, some 1000, some 96001)] ∧
      (late 97000).isTooLate 0 (plays 2 .hard (some 1000)) = false ∧
      ((after (.hardItemTooLate 0) (late 97001)).station 0).list.map Entry.id = [1] ∧
      ((after (.hardItemTooLate 0) (late 97001)).station 0).fault = some ⟨.tooLate, 2, 7, 97001, false⟩ ∧
      ((after (.hardItemTooLate 0) (late 97000)).station 0).list.map Entry.id = [1, 2] := by decide +kernel

/-! ## Breaks -/

theorem witness_PlanFits :
    [spotFound 1 .spot].length = oneSpot.spots.length ∧
      ((({ oneSpot with spots := List.replicate 5 (Spot.fresh (8, 1)) } : BreakData).planned 1000 11000
        [spotFound 30000 .spot, spotFound 9000 .spot, none, spotFound 8000 .spot, spotFound 1 .music]).spots.map
          Spot.plan) = [.included, .excluded, .missing, .included, .wrongKind] ∧
      (({ oneSpot with spots := List.replicate 5 (Spot.fresh (8, 1)) } : BreakData).planned 1000 11000
        [spotFound 30000 .spot, spotFound 9000 .spot, none, spotFound 8000 .spot, spotFound 1 .music]).gap = 0 := by
  decide +kernel

/-- Station 0 in AUTO with a break due at 1,000, its pre-fade made, at house counter `n`. -/
def breakAt (n : Nat) : State :=
  atHouse (at0 (autoList opened [plays 1 .segue none, hour 2 oneSpot]) fun x => { x with preFade := some ⟨2, 1000⟩ }) n

theorem witness_BreakStarts :
    (breakAt 1000).InOpening ∧ (breakAt 1000).ListsKept ∧ ((breakAt 1000).hardBreak 0).isSome = true ∧
      (breakAt 1000).preFadeDue 0 = none ∧ (breakAt 48999).stationTime 0 < (hour 2 oneSpot).endTime ∧
      (hour 2 oneSpot).endTime ≤ (breakAt 49000).stationTime 0 ∧
      (breakAt 49000).asrun.length + oneSpot.spots.length ≤ 512 ∧
      ((after (.breakStart 0) (breakAt 48999)).station 0).list.map (fun e => (e.state, e.lateness)) =
        [(.armed, none), (.onAir, some 47999)] ∧
      (after (.breakStart 0) (breakAt 48999)).recordsHeld.map (fun x => (x.1, x.2.outcome, x.2.startTime)) =
        [(some 0, .missing, 48999)] ∧
      ((after (.breakSkip 0) (breakAt 49000)).station 0).list.map Entry.id = [1] ∧
      (after (.breakSkip 0) (breakAt 49000)).asrun.map Record.outcome = [.skipped] := by decide +kernel

/-- The break due at 1,000 with a spot of cart 7, which is music, and one of cart 8, which is not there. -/
def twoSpots : State :=
  atHouse (at0 (autoList opened
      [hour 2 { oneSpot with spots := [Spot.fresh (7, 1), Spot.fresh (8, 2)], fillState := .waiting }]) fun x =>
    { x with preFade := some ⟨2, 1000⟩ }) 1000

theorem witness_BreakStarts_plan :
    twoSpots.InOpening ∧ twoSpots.ListsKept ∧ twoSpots.preFadeDue 0 = none ∧ (twoSpots.hardBreak 0).isSome = true ∧
      (∀ u : StationId, (twoSpots.station u).requests = []) ∧ twoSpots.recordsHeld = [] ∧
      (after (.breakStart 0) twoSpots).recordsHeld.map (fun x => (x.1, x.2.outcome, x.2.used)) =
        [(some 0, .wrongKind, some ⟨none, .music⟩), (some 1, .missing, none)] := by decide +kernel

/-- The break on air at station 0 with data `b` and deck 3 in the state given, at house counter `n`. -/
def onAirAt (n : Nat) (b : BreakData) (p : PlayerState) (t : Target) : State :=
  atHouse (deck3 (autoList opened [{ hour 2 b with state := .onAir }]) p t) n

/-- Break data with that spot next. -/
def spotNext : BreakData := { oneSpot with spots := [readySpot], join := some 1000, gap := 47920 }

/-- Break data with the spot done and the fill on deck 3. -/
def fillNext (x : FillState) : BreakData :=
  { oneSpot with
    spots := [{ readySpot with state := .done, served := .none }], join := some 1000, gap := 47920, fillUsed := some 7
    fillPlanned := spotFound 80 .bed, fillServed := .deck 3, fillState := x }

theorem witness_SpotsAndFillStart :
    (onAirAt 48999 spotNext .primed (.spot 2 0)).InOpening ∧ (onAirAt 48999 spotNext .primed (.spot 2 0)).ListsKept ∧
      ((onAirAt 48999 spotNext .primed (.spot 2 0)).station 0).onAirBreak.isSome = true ∧
      spotNext.spotOnAir = none ∧ spotNext.nextSpot = some (0, readySpot) ∧
      (onAirAt 48999 (fillNext .armed) .primed (.fill 2)).InOpening ∧ (fillNext .armed).spotOnAir = none ∧
      (fillNext .armed).nextSpot = none ∧ (onAirAt 44200 (fillNext .armed) .primed (.fill 2)).stationTime 0 + 4800 = 49000 ∧
      (onAirAt 44200 (fillNext .onAir) .playing (.fill 2)).InOpening ∧
      ((after (.spotStart 0) (onAirAt 1000 spotNext .primed (.spot 2 0))).deck 3).player.state = .playing ∧
      ((after (.fillStart 0) (onAirAt 44199 (fillNext .armed) .primed (.fill 2))).deck 3).player.state = .playing ∧
      ((after (.fillStart 0) (onAirAt 44200 (fillNext .armed) .primed (.fill 2))).deck 3).player.ramp =
        ⟨32768, 0, 4800, 0⟩ ∧
      ((after (.fillClosingFade 0) (onAirAt 44200 (fillNext .onAir) .playing (.fill 2))).deck 3).player.state =
        .fading := by decide +kernel

/-- Station 0's break on the air with a next spot that nothing serves, the entry planned for it in the store. -/
def nextUnserved (b : BreakData) : State :=
  let s := autoList opened [{ hour 2 b with state := .onAir }]
  atHouse { s with dir := [{ music with category := .spot }] } 2000

/-- Its data. -/
def unservedSpot : BreakData :=
  { spotNext with spots := [{ readySpot with state := .waiting, served := .none, planned := spotFound 80 .spot }] }

/-- The data of a break whose spot is done, its fill not resolved, with a fill cart. -/
def unresolved (cart : Nat) : BreakData :=
  { spotNext with spots := [{ readySpot with state := .done, served := .none }], fillCart := some cart }

theorem witness_SpotsAndFillStart_served :
    (nextUnserved unservedSpot).ListsKept ∧
      ((nextUnserved unservedSpot).station 0).onAirBreak = some ({ hour 2 unservedSpot with state := .onAir }, unservedSpot) ∧
      (nextUnserved unservedSpot).plannedReady ⟨0, 0, none, .spot, 32768, 80⟩ = true ∧
      (nextUnserved unservedSpot).belowCap 0 = true ∧ unservedSpot.spotOnAir = none ∧
      (((nextUnserved unservedSpot).serveBreak 0).deck 0).target = some (.spot 2 0) ∧
      ((State.serveBreak (noDeck (nextUnserved unservedSpot)) 0).station 0).requests = [⟨.spot 2 0, 0, false, 2000⟩] ∧
      ((State.serveBreak { nextUnserved unservedSpot with dir := [] } 0).station 0).fault =
        some ⟨.missing, 2, 8, 2000, false⟩ ∧
      (unresolved 7).nextSpot = none ∧
      ((State.serveBreak (nextUnserved (unresolved 7)) 0).cond 0).pending &&& 0x04 = 0x04 ∧
      ((State.serveBreak (nextUnserved (unresolved 6)) 0).cond 0).pending &&& 0x04 = 0x04 ∧
      ((State.serveBreak (noDeck { nextUnserved (unresolved 7) with dir := [{ music with category := .bed }] })
        0).station 0).requests = [⟨.fill 2, 0, true, 2000⟩] ∧
      ((State.spotMissing { nextUnserved unservedSpot with opening := false } 0 (hour 2 unservedSpot) unservedSpot 0
        readySpot).asrun.map fun r => (r.outcome, r.startTime)) = [(.missing, 2000)] := by decide +kernel

theorem witness_BreakCloses :
    (onAirAt 49000 (fillNext .pending) .bound (.fill 2)).InOpening ∧
      (onAirAt 49000 (fillNext .pending) .bound (.fill 2)).ListsKept ∧
      ((onAirAt 49000 (fillNext .pending) .bound (.fill 2)).station 0).onAirBreak.isSome = true ∧
      (hour 2 (fillNext .pending)).endTime ≤ (onAirAt 49000 (fillNext .pending) .bound (.fill 2)).stationTime 0 ∧
      (∀ p ∈ (fillNext .pending).spots, p.state = .done) ∧ (fillNext .pending).spotOnAir = none ∧
      (∀ u : StationId, ((onAirAt 49000 (fillNext .pending) .bound (.fill 2)).station u).requests = []) ∧
      ((after (.breakClose 0) (onAirAt 49000 (fillNext .pending) .bound (.fill 2))).cond 0).pending &&& 0x04 = 0x04 ∧
      ((after (.breakClose 0) (onAirAt 49000 (fillNext .pending) .bound (.fill 2))).deck 3).player.state = .free ∧
      ({ spotNext with spots := [{ readySpot with state := .onAir }] } : BreakData).spotOnAir.isSome = true ∧
      ((after (.breakClose 0)
        (onAirAt 49000 { spotNext with spots := [{ readySpot with state := .onAir }] } .playing (.spot 2 0))).deck 3).target.map
          Target.entryId = some 2 := by decide +kernel

theorem witness_BreakCloses_dropped :
    (onAirAt 49000 spotNext .primed (.spot 2 0)).InOpening ∧ (onAirAt 49000 spotNext .primed (.spot 2 0)).ListsKept ∧
      (onAirAt 49000 spotNext .primed (.spot 2 0)).recordsHeld = [] ∧
      (∀ u : StationId, ((onAirAt 49000 spotNext .primed (.spot 2 0)).station u).requests = []) ∧
      (after (.breakClose 0) (onAirAt 49000 spotNext .primed (.spot 2 0))).recordsHeld.map
        (fun x => (x.1, x.2.outcome, x.2.scheduled)) = [(some 0, .dropped, some 1000)] ∧
      ((after (.breakClose 0) (onAirAt 49000 { fillNext .armed with fillDue := true } .bound (.fill 2))).cond 0).pending &&&
        0x04 = 0x04 ∧
      ((after (.breakClose 0) (onAirAt 49000 (fillNext .armed) .bound (.fill 2))).cond 0).pending &&& 0x04 = 0 := by
  decide +kernel

/-! ## Players and the media port -/

/-- Deck 3 at the end of its play of entry 1, which is ON_AIR at station 0. -/
def ended (c : EndCause) : State :=
  (deck3 (autoList State.reset [{ plays 1 .segue none with state := .onAir, served := .deck 3 }]) .playing
    (.item 1)).modPlayer 3 fun p => { p with ended := some c, consumed := 80 }

/-- Bed player 0 with a state. -/
def bed0 (s : State) (p : PlayerState) (c : Option EndCause) : State :=
  (at0 (stored s music) fun x => { x with mode := .fallback, cfg := { Settings.powerOn with fallbackCart := some 7 } }).setBed
    0 { Bed.reset with player := { Player.reset with state := p, slot := some 0, ended := c }, airWanted := true }

theorem witness_PlaysEnd :
    (ended .trimOut).AtRest ∧ (ended .trimOut).ListsKept ∧
      (∀ u : StationId, ((ended .trimOut).station u).requests = []) ∧
      ((ended .trimOut).deck 3).player.ended = some .trimOut ∧ (((ended .trimOut).station 0).find 1).isSome = true ∧
      (ended .trimOut).logAccepts = true ∧ (bed0 State.reset .playing (some .trimOut)).AtRest ∧
      ((bed0 State.reset .playing (some .trimOut)).bed 0).player.ended = some .trimOut ∧
      (bed0 opened .primed none).InOpening ∧ ((bed0 opened .primed none).bed 0).airWanted = true ∧
      (bed0 opened .primed none).playerEntry ((bed0 opened .primed none).bed 0).player = some music ∧
      (after (.deckEndOfPlay 3) (ended .trimOut)).asrun.map (fun r => (r.outcome, r.aired, r.endTime)) =
        [(.complete, 80, 1)] ∧
      ((after (.deckEndOfPlay 3) (ended .faded)).deck 3).player.state = .free ∧
      ((after (.bedPlayerEnd 0) (bed0 State.reset .playing (some .trimOut))).bed 0).spent = true ∧
      ((after (.bedPlayerStart 0) (bed0 opened .primed none)).bed 0).player.level = 30000 := by decide +kernel

/-- Deck 3 at the end of its play for the break of station 0, the last two periods of it stalls. -/
def breakEnded (b : BreakData) (t : Target) : State :=
  { (onAirAt 2000 b .fading t).modPlayer 3 fun p =>
      { p with ended := some .faded, consumed := 80, stalling := some 1999, stalls := 2 } with opening := false }

/-- What the record of a deck that trails a break needs. -/
def trail : Trail := ⟨2, 8, some 1, some 1000, 1000, some 0, true, 0⟩

theorem witness_PlaysEnd_breaks :
    (∀ t ∈ [Target.spot 2 0, .fill 2, .trailSpot trail, .trailFill trail],
      (breakEnded spotNext t).AtRest ∧ (breakEnded spotNext t).ListsKept ∧
        (∀ u : StationId, ((breakEnded spotNext t).station u).requests = []) ∧
        ((breakEnded spotNext t).deck 3).player.ended = some .faded ∧
        ((breakEnded spotNext t).deck 3).station = some 0 ∧ ((breakEnded spotNext t).station 0).find 2 =
          some { hour 2 spotNext with state := .onAir } ∧
        ((after (.deckEndOfPlay 3) (breakEnded spotNext t)).deck 3).player.state = .free) ∧
      [Target.spot 2 0, .fill 2, .trailSpot trail, .trailFill trail].map (fun t =>
        (after (.deckEndOfPlay 3) (breakEnded spotNext t)).asrun.map fun x => (x.outcome, x.endTime)) =
        [[(.complete, 1999)], [(.fill, 1999)], [(.cut, 1999)], [(.fill, 1999)]] ∧
      (∀ t ∈ [Target.spot 2 0, .fill 2, .trailSpot trail, .trailFill trail],
        (after (.deckEndOfPlay 3) (breakEnded spotNext t)).recordsHeld = []) := by decide +kernel

theorem witness_PlaysEnd_order :
    ([(some 0, aRecord 0), (none, aRecord 0), (some 2, aRecord 0)].filterMap fun x =>
        if x.2.station = 0 ∧ x.2.entryId = 1 then x.1 else none).Pairwise (· ≤ ·) ∧
      (placeRecord 1 (aRecord 0) [(some 0, aRecord 0), (none, aRecord 0), (some 2, aRecord 0)]).map Prod.fst =
        [some 0, none, some 1, some 2] ∧
      (after (.deckEndOfPlay 3) { ended .trimOut with recordsHeld := [(none, aRecord 0)] }).asrun.map Record.aired =
        [0, 80] := by decide +kernel

/-- Deck 3 BOUND to an item of 20,000 pairs at fetch position 16,000. -/
def fetching : State :=
  (deck3 (stored State.reset { music with length := 20000, trimOut := 20000, blocks := [⟨5, 1⟩, ⟨0, 1⟩] }) .bound
    (.item 1)).modPlayer 3 fun p => { p with fetchPos := 16000 }

theorem witness_FetchBegins :
    fetching.AtRest ∧ fetching.port = .idle ∧ fetching.chosenReader = some (.deck 3) ∧
      ((fetching.playerEntry (fetching.reader (.deck 3))).bind fun e => e.place 16000) = some 97920 ∧
      State.reset.chosenReader = none ∧ (after .fetchBegin fetching).port = .fetch ⟨.deck 3, 0, 97920, 384, false⟩ ∧
      ((after .fetchBegin fetching).deck 3).player.fetchPos = 16384 := by decide +kernel

/-- A fetch of 4 pairs for deck 3 on the port. -/
def arriving (g : Count32) (void : Bool) : State :=
  { deck3 (stored State.reset music) .bound (.item 1) with port := .fetch ⟨.deck 3, g, 0, 100, void⟩ }

theorem witness_FetchCompletes :
    (arriving 0 false).AtRest ∧ (arriving 0 true).port = .fetch ⟨.deck 3, 0, 0, 100, true⟩ ∧
      ((arriving 1 false).reader (.deck 3)).generation ≠ 1 ∧
      (arriving 0 false).playerEntry ((arriving 0 false).reader (.deck 3)) = some music ∧
      ((arriving 0 false).reader (.deck 3)).state ≠ .free ∧ ((arriving 0 false).station 0).fault = none ∧
      ((after (.fetchComplete false) (arriving 0 false)).deck 3).player.state = .primed ∧
      ((after (.fetchComplete false) (arriving 1 false)).deck 3).player.buffer.length = 1 ∧
      ((after (.fetchComplete true) (arriving 0 false)).station 0).fault = some ⟨.mediaError, 1, 7, 0, false⟩ := by
  decide +kernel

/-- Requests of two stations. -/
def asking : State :=
  (State.reset.modStation 2 fun x => { x with requests := [⟨.item 1, 0, false, 9⟩, ⟨.item 2, 0, false, 5⟩] }).modStation 4
    fun x => { x with requests := [⟨.item 3, 0, false, 5⟩] }

theorem witness_DeckArbiter :
    asking.bestRequest = some (2, ⟨.item 2, 0, false, 5⟩) ∧ State.reset.bestRequest = none ∧
      State.reset.freeDeckNo = some 0 := by decide +kernel

/-! ## The mix, and what every step keeps -/

theorem witness_RampValue :
    (⟨32768, 0, 480000, 480000⟩ : Ramp).start ≤ 32768 ∧ (⟨32768, 0, 480000, 480000⟩ : Ramp).length ≤ 480000 ∧
      (⟨0, 32768, 0, 0⟩ : Ramp).value = 32768 := by decide +kernel

/-- Station 0 in AUTO with deck 3 playing its largest pair at unity, at output level 32,768. -/
def loud : State :=
  (deck3 (autoList State.reset []) .playing (.item 1)).modPlayer 3 fun p =>
    { p with buffer := [⟨32767, 0x8000⟩], level := 32768, ramp := ⟨32768, 32768, 0, 0⟩ }

theorem witness_MixedOutput :
    (loud.station 0).mode ≠ .idle ∧ (State.reset.station 0).mode = .idle ∧
      ((loud.mixStation 0).station 0).out = ⟨32767, 0x8000, 0xFFFF, false⟩ ∧ loud.bus 0 = (32767, -32768) := by
  decide +kernel

theorem witness_MixedOutput_terms :
    ∃ terms : Player → Int × Int, ∀ p : Player, (p.sounds = false ∨ p.buffer = [] → terms p = (0, 0)) ∧
      ∀ (x : Pair) (rest : List Pair), p.sounds = true → p.buffer = x :: rest → terms p =
        (term x.l.toInt (gain p.level p.ramp.value), term x.r.toInt (gain p.level p.ramp.value)) := by
  refine ⟨fun p => if p.sounds then p.terms else (0, 0), fun p => ⟨?_, fun x rest hs hb => ?_⟩⟩
  · rintro (h | h)
    · simp [h]
    · by_cases hs : p.sounds = true <;> simp [hs, h, Player.terms]
  · simp [hs, hb, Player.terms]

theorem witness_PlayersStep :
    (State.reset.deck 3).player.sounds = false ∧ (loud.deck 3).player.sounds = true ∧
      loud.playerEntry (loud.deck 3).player = some music ∧ (loud.deck 3).player.buffer = ⟨32767, 0x8000⟩ :: [] ∧
      ((loud.tickDeck 3).deck 3).player.consumed = 1 ∧
      (((loud.tickDeck 3).tickDeck 3).deck 3).player.stalls = 1 ∧
      (((loud.tickDeck 3).tickDeck 3).deck 3).player.stalling = some 0 ∧
      (((loud.tickDeck 3).tickDeck 3).station 0).fault = some ⟨.underrun, 1, 7, 0, false⟩ := by decide +kernel

theorem witness_HouseAndMedia :
    ({ State.reset with pending := [.internalPeriodEnd] } : State).pending = .internalPeriodEnd :: [] ∧
      Instr.internalPeriodEnd.endsPeriod = true ∧
      (nextOf (step { State.reset with pending := [.internalPeriodEnd] })).map State.house = some 1 := by decide +kernel

theorem witness_InvariantsKept :
    (nextOf (step State.reset)).isSome = true ∧ State.reset.AsrunKept ∧ State.reset.QueueBounded ∧
      State.reset.MediaCanonical ∧ State.reset.Capped ∧ State.reset.ListsKept ∧ State.reset.DirectoryKept ∧
      State.reset.NoticesKept ∧ State.reset.SettingsKept ∧ State.reset.ref.Kept := by decide +kernel

theorem witness_InvariantsKept_log :
    ({ State.reset with asrun := [aRecord 0, aRecord 4], nextSeq := 5 } : State).AsrunKept ∧
      ¬ ({ State.reset with asrun := [aRecord 4, aRecord 0], nextSeq := 5 } : State).AsrunKept ∧
      ({ State.reset with asrun := [aRecord 4294967295], nextSeq := 0, wrapHold := true } : State).AsrunKept ∧
      State.AsrunKept (State.addRecord { State.reset with asrun := [aRecord 0], nextSeq := 4294967295 } (aRecord 0)) := by
  decide +kernel

end Sys2Proof.Tests
end

section
/-!
PROOFS. The value of a ramp (R48). The exact arithmetic rounds toward the start value, so a ramp's value is the start
value moved toward the target by a distance that is a natural number: `travelled`. Its bounds, its monotony and its place
below the straight line give those of a rising ramp and, turned over, those of a falling one.
-/

namespace Sys2Proof.Machine

/-- How far toward its target a ramp has moved whose values lie `d` apart, with length `len`, at progress `k`. -/
def travelled (d len k : Nat) : Nat := if len ≤ k then d else d * k / len

theorem travelled_of_le {d len k : Nat} (h : len ≤ k) : travelled d len k = d := if_pos h

theorem travelled_of_lt {d len k : Nat} (h : k < len) : travelled d len k = d * k / len :=
  if_neg (Nat.not_le.mpr h)

/-- The distance is never passed: below the end, `k / len` is less than 1. -/
theorem travelled_le (d len k : Nat) : travelled d len k ≤ d := by
  rcases Nat.lt_or_ge k len with h | h
  · rw [travelled_of_lt h]
    exact Nat.div_le_of_le_mul (Nat.mul_comm len d ▸ Nat.mul_le_mul_left d h.le)
  · rw [travelled_of_le h]

theorem travelled_mono (d len : Nat) {j k : Nat} (h : j ≤ k) : travelled d len j ≤ travelled d len k := by
  rcases Nat.lt_or_ge k len with hk | hk
  · rw [travelled_of_lt hk, travelled_of_lt (h.trans_lt hk)]
    exact Nat.div_le_div_right (Nat.mul_le_mul_left d h)
  · rw [travelled_of_le hk]
    exact travelled_le d len j

/-- Up to the end, the distance moved is not ahead of the straight line. -/
theorem travelled_mul_le (d : Nat) {len k : Nat} (h : k ≤ len) : travelled d len k * len ≤ d * k := by
  rcases h.lt_or_eq with hk | rfl
  · rw [travelled_of_lt hk]
    exact Nat.div_mul_le_self _ _
  · rw [travelled_of_le le_rfl]

/-- R48's truncated quotient is the distance moved. -/
theorem tdiv_eq_travelled (d : Nat) {len k : Nat} (hlen : 0 < len) (h : k ≤ len) :
    ((d : Int) * k).tdiv len = travelled d len k := by
  rcases h.lt_or_eq with hk | rfl
  · rw [travelled_of_lt hk]
    norm_cast
  · rw [travelled_of_le le_rfl]
    exact Int.mul_tdiv_cancel _ (by omega)

namespace Ramp

theorem value_of_length_le {r : Ramp} (h : r.length ≤ r.progress) : r.value = r.target := if_pos h

theorem value_of_progress_lt {r : Ramp} (h : r.progress < r.length) :
    r.value = ((r.start : Int) + (((r.target : Int) - r.start) * r.progress).tdiv r.length).toNat :=
  if_neg (Nat.not_le.mpr h)

/-- R48's term of a rising ramp. -/
theorem tdiv_of_start_le {r : Ramp} (hr : r.start ≤ r.target) (hlen : 0 < r.length) (h : r.progress ≤ r.length) :
    (((r.target : Int) - r.start) * r.progress).tdiv r.length =
      travelled (r.target - r.start) r.length r.progress := by
  rw [← tdiv_eq_travelled _ hlen h, Nat.cast_sub hr]

/-- R48's term of a falling ramp. -/
theorem tdiv_of_target_le {r : Ramp} (hr : r.target ≤ r.start) (hlen : 0 < r.length) (h : r.progress ≤ r.length) :
    (((r.target : Int) - r.start) * r.progress).tdiv r.length =
      -(travelled (r.start - r.target) r.length r.progress : Int) := by
  rw [← tdiv_eq_travelled _ hlen h, Nat.cast_sub hr, ← Int.neg_tdiv, ← Int.neg_mul, Int.neg_sub]

theorem value_of_start_le {r : Ramp} (hr : r.start ≤ r.target) :
    r.value = r.start + travelled (r.target - r.start) r.length r.progress := by
  rcases Nat.lt_or_ge r.progress r.length with h | h
  · rw [value_of_progress_lt h, tdiv_of_start_le hr (Nat.zero_lt_of_lt h) h.le]
    omega
  · rw [value_of_length_le h, travelled_of_le h]
    omega

theorem value_of_target_le {r : Ramp} (hr : r.target ≤ r.start) :
    r.value = r.start - travelled (r.start - r.target) r.length r.progress := by
  rcases Nat.lt_or_ge r.progress r.length with h | h
  · rw [value_of_progress_lt h, tdiv_of_target_le hr (Nat.zero_lt_of_lt h) h.le]
    omega
  · rw [value_of_length_le h, travelled_of_le h]
    omega

/-- R48's formula holds without the model's `toNat`, and at the end of the ramp too. -/
theorem cast_value_eq {r : Ramp} (hlen : 0 < r.length) (h : r.progress ≤ r.length) :
    (r.value : Int) = (r.start : Int) + (((r.target : Int) - r.start) * r.progress).tdiv r.length := by
  rcases Nat.le_total r.start r.target with hr | hr
  · rw [value_of_start_le hr, tdiv_of_start_le hr hlen h, Nat.cast_add]
  · have hle := travelled_le (r.start - r.target) r.length r.progress
    rw [value_of_target_le hr, tdiv_of_target_le hr hlen h]
    omega

theorem min_le_value (r : Ramp) : min r.start r.target ≤ r.value := by
  rcases Nat.le_total r.start r.target with hr | hr
  · rw [value_of_start_le hr]
    omega
  · have hle := travelled_le (r.start - r.target) r.length r.progress
    rw [value_of_target_le hr]
    omega

theorem value_le_max (r : Ramp) : r.value ≤ max r.start r.target := by
  rcases Nat.le_total r.start r.target with hr | hr
  · have hle := travelled_le (r.target - r.start) r.length r.progress
    rw [value_of_start_le hr]
    omega
  · rw [value_of_target_le hr]
    omega

theorem cast_value_bounds {r : Ramp} (hstart : r.start ≤ 32768) (htarget : r.target ≤ 32768) :
    (0 : Int) ≤ r.value ∧ (r.value : Int) ≤ 32768 ∧ min (r.start : Int) r.target ≤ r.value ∧
      (r.value : Int) ≤ max (r.start : Int) r.target := by
  have hlo := r.min_le_value
  have hhi := r.value_le_max
  omega

theorem value_mono {r : Ramp} (hr : r.start ≤ r.target) {j k : Nat} (h : j ≤ k) :
    value { r with progress := j } ≤ value { r with progress := k } := by
  rw [value_of_start_le (r := { r with progress := j }) hr, value_of_start_le (r := { r with progress := k }) hr]
  exact Nat.add_le_add_left (travelled_mono _ _ h) _

theorem value_anti {r : Ramp} (hr : r.target ≤ r.start) {j k : Nat} (h : j ≤ k) :
    value { r with progress := k } ≤ value { r with progress := j } := by
  rw [value_of_target_le (r := { r with progress := j }) hr, value_of_target_le (r := { r with progress := k }) hr]
  exact Nat.sub_le_sub_left (travelled_mono _ _ h) _

/-- A rising ramp is not above its straight line. -/
theorem value_mul_length_le {r : Ramp} (hr : r.start ≤ r.target) (h : r.progress ≤ r.length) :
    (r.value : Int) * r.length ≤ (r.start : Int) * r.length + ((r.target : Int) - r.start) * r.progress := by
  have hline := travelled_mul_le (r.target - r.start) h
  rw [value_of_start_le hr, Nat.cast_add, Int.add_mul, ← Nat.cast_sub hr]
  exact Int.add_le_add_left (mod_cast hline) _

/-- A falling ramp is not below its straight line. -/
theorem le_value_mul_length {r : Ramp} (hr : r.target ≤ r.start) (h : r.progress ≤ r.length) :
    (r.start : Int) * r.length + ((r.target : Int) - r.start) * r.progress ≤ (r.value : Int) * r.length := by
  have hline : (travelled (r.start - r.target) r.length r.progress : Int) * r.length ≤
      ((r.start - r.target : Nat) : Int) * r.progress := mod_cast travelled_mul_le (r.start - r.target) h
  have hle := (travelled_le (r.start - r.target) r.length r.progress).trans (Nat.sub_le _ _)
  rw [Nat.cast_sub hr] at hline
  rw [value_of_target_le hr, Nat.cast_sub hle]
  linarith

theorem value_of_start_eq_target {r : Ramp} (h : r.start = r.target) : r.value = r.start := by
  have hlo := r.min_le_value
  have hhi := r.value_le_max
  omega

end Ramp

end Sys2Proof.Machine

namespace Sys2Proof

open Machine

/-- Settles O55, clause by clause from the laws of `Ramp.value` above, each taken at the ramp set to progress `k`. -/
theorem rampValue : Obligations.RampValue := by
  unfold Obligations.RampValue
  intro r hstart htarget _ at'
  refine ⟨fun k hk hlen => ?formula, fun k hk => ?ended, fun h0 => ?noLength, fun k => ?bounds, fun j k hjk => ?monotone,
    fun k hk => ?line, fun h k => ?level⟩
  case formula => exact Ramp.cast_value_eq (r := { r with progress := k }) hlen hk
  case ended => exact congrArg _ (Ramp.value_of_length_le (r := { r with progress := k }) hk)
  case noLength => exact congrArg _ (Ramp.value_of_length_le (r := { r with progress := 0 }) h0.le)
  case bounds => exact Ramp.cast_value_bounds (r := { r with progress := k }) hstart htarget
  case monotone =>
    exact ⟨fun hr => Int.ofNat_le.mpr (Ramp.value_mono hr hjk), fun hr => Int.ofNat_le.mpr (Ramp.value_anti hr hjk)⟩
  case line =>
    exact ⟨fun hr => .inl (Ramp.value_mul_length_le (r := { r with progress := k }) hr hk),
      fun hr => .inl (Ramp.le_value_mul_length (r := { r with progress := k }) hr hk)⟩
  case level => exact congrArg _ (Ramp.value_of_start_eq_target (r := { r with progress := k }) h)

end Sys2Proof
end

section
/-!
PROOFS. What a power-on reset leaves (R82): the parts of the state as read after it, and from them that no station holds
a deck.
-/

namespace Sys2Proof.Machine

/-! ## The parts of the state after a power-on reset -/

theorem exec_powerOnReset (straps : Fin 4) (s : State) :
    exec (.powerOnReset straps) s = .next (s.powerOnKeep straps) := rfl

@[simp] theorem State.powerOnKeep_station (s : State) (straps : Fin 4) (st : StationId) :
    (s.powerOnKeep straps).station st = Station.reset := Vector.getElem_replicate ..

@[simp] theorem State.powerOnKeep_deck (s : State) (straps : Fin 4) (d : DeckId) :
    (s.powerOnKeep straps).deck d = Deck.reset := Vector.getElem_replicate ..

@[simp] theorem State.powerOnKeep_cond (s : State) (straps : Fin 4) (i : SetId) :
    (s.powerOnKeep straps).cond i = ⟨0, 0⟩ := Vector.getElem_replicate ..

/-! ## Holding no deck -/

theorem State.held_eq_nil {s : State} {st : StationId} (h : ∀ d : DeckId, (s.deck d).station ≠ some st) :
    s.held st = [] :=
  List.filter_eq_nil_iff.mpr fun d _ => by simpa using h d

@[simp] theorem State.powerOnKeep_held (s : State) (straps : Fin 4) (st : StationId) :
    (s.powerOnKeep straps).held st = [] :=
  State.held_eq_nil fun d => by simp [Deck.reset]

end Sys2Proof.Machine

namespace Sys2Proof

open Machine

/-- Settles O3: every station, every deck and every condition set is read back at its reset value, from the laws of
`State.powerOnKeep` above. -/
theorem powerOnLists : Obligations.PowerOnLists := by
  unfold Obligations.PowerOnLists
  intro straps s
  refine ⟨s.powerOnKeep straps, exec_powerOnReset straps s, fun st => ?_⟩
  rw [State.powerOnKeep_station, State.powerOnKeep_held, State.powerOnKeep_cond]
  refine ⟨?emptyList, ?noneWaiting, ?noDeck, ?noRequest, ?notLow, ?lowMark, ?armHorizon, fun id => ?noId⟩
  case notLow => exact BitVec.zero_and
  all_goals rfl

end Sys2Proof
end

section
/-!
PROOFS. What every step keeps (O59, O60): each command stands, ends one sample period, stores an upload or starts the
part anew. `Advanced n s t` is `Kept` without the bridging period, over `n` boundaries.
-/

namespace Sys2Proof.Machine

/-! ## The invariants together -/

/-- Every invariant of Safety.lean that holds of `s` holds of `t`. -/
structure Invariants (s t : State) : Prop where
  asrun : s.AsrunKept → t.AsrunKept
  queue : s.QueueBounded → t.QueueBounded
  canonical : s.MediaCanonical → t.MediaCanonical
  capped : s.Capped → t.Capped
  lists : s.ListsKept → t.ListsKept
  directory : s.DirectoryKept → t.DirectoryKept
  notices : s.NoticesKept → t.NoticesKept
  settings : s.SettingsKept → t.SettingsKept
  ref : s.ref.Kept → t.ref.Kept
  links : s.ref.Kept → s.LinksKept → t.LinksKept

theorem Invariants.trans {s t u : State} (h : Invariants s t) (k : Invariants t u) : Invariants s u where
  asrun := k.asrun ∘ h.asrun
  queue := k.queue ∘ h.queue
  canonical := k.canonical ∘ h.canonical
  capped := k.capped ∘ h.capped
  lists := k.lists ∘ h.lists
  directory := k.directory ∘ h.directory
  notices := k.notices ∘ h.notices
  settings := k.settings ∘ h.settings
  ref := k.ref ∘ h.ref
  links hr hl := k.links (h.ref hr) (h.links hr hl)

/-- From `s` to `t` the house counter rises by `n`, the media memory stands and the invariants are kept. -/
structure Advanced (n : Count48) (s t : State) : Prop extends Invariants s t where
  house : t.house = s.house + n
  media : t.media = s.media

theorem Kept.advanced {s t : State} (h : Kept s t) : Advanced 0 s t where
  asrun := h.asrun
  queue := h.queue
  canonical k := by simpa only [State.MediaCanonical, h.media] using k
  capped := h.capped
  lists := h.lists
  directory := h.directory
  notices := h.notices
  settings := h.settings
  ref := h.ref
  links _ := h.links
  house := h.house.trans (BitVec.add_zero _).symm
  media := h.media

theorem Advanced.trans {m n : Count48} {s t u : State} (h : Advanced m s t) (k : Advanced n t u) :
    Advanced (m + n) s u where
  toInvariants := h.toInvariants.trans k.toInvariants
  house := by rw [k.house, h.house, BitVec.add_assoc]
  media := k.media.trans h.media

theorem Advanced.kept {n : Count48} {s t u : State} (h : Advanced n s t) (k : Kept t u) : Advanced n s u := by
  simpa using h.trans k.advanced

theorem Kept.thenAdvanced {n : Count48} {s t u : State} (h : Kept s t) (k : Advanced n t u) : Advanced n s u := by
  simpa using h.advanced.trans k

/-- A boundary, or none. -/
def Advances (s t : State) : Prop := Advanced 0 s t ∨ Advanced 1 s t

theorem Kept.advances {s t : State} (h : Kept s t) : Advances s t := .inl h.advanced

theorem Kept.thenAdvances {s t u : State} (h : Kept s t) (k : Advances t u) : Advances s u :=
  k.imp h.thenAdvanced h.thenAdvanced

theorem Advances.kept {s t u : State} (h : Advances s t) (k : Kept t u) : Advances s u :=
  h.imp (·.kept k) (·.kept k)

/-- A controller replaced behind other changes, the bridging period not minded. -/
theorem Advanced.setRef {s : State} {r : RefControl} (hr : s.ref.Kept → r.Kept)
    (hl : s.ref.Kept → s.LinksKept → ∀ l, r.uses l = true → (s.link l).mode = .slave) :
    Advanced 0 s { s with ref := r } where
  asrun := id
  queue := id
  canonical := id
  capped := id
  lists := id
  directory := id
  notices := id
  settings := id
  ref := hr
  links k h l := ⟨(h l).1, hl k h l⟩
  house := (BitVec.add_zero _).symm
  media := rfl

theorem State.boundary_advanced (s : State) (len : Nat) : Advanced 1 s (s.boundary len) :=
  have h := (State.boundary_kept (s := s) (len := len)).advanced
  { toInvariants := ⟨h.asrun, h.queue, h.canonical, h.capped, h.lists, h.directory, h.notices, h.settings, h.ref, h.links⟩
    house := by simpa using h.house
    media := h.media }

@[simp] theorem State.boundary_bridging (s : State) (len : Nat) : (s.boundary len).ref.bridging = s.ref.bridging :=
  (State.boundary_kept (s := s) (len := len)).bridging

/-! ## The ends of a period -/

/-- Outside a bridging period a lock progress lies below 64. -/
theorem RefControl.Kept.progress_lt {r : RefControl} (h : r.Kept) (hb : r.bridging = none) : r.progress < 64 := by
  obtain ⟨-, hp, h64⟩ := h
  refine lt_of_le_of_ne hp fun he => ?_
  obtain ⟨b, hs, -⟩ := h64 he
  simp [hb] at hs

/-- A lock progress below 64 asks for no bridging period. -/
theorem RefControl.Kept.of_progress_lt {r : RefControl} (hm : r.miss ≤ 3) (hp : r.progress < 64) : r.Kept :=
  ⟨hm, hp.le, fun h => absurd h hp.ne⟩

/-- The miss count is none of what a link's use depends on. -/
theorem RefControl.uses_miss (r : RefControl) (n : Nat) (l : LinkId) : ({ r with miss := n } : RefControl).uses l = r.uses l :=
  rfl

theorem RefControl.uses_of_current {r : RefControl} {l : LinkId} (h : r.current = .link l) : r.uses l = true := by
  simp [RefControl.uses, h]

theorem Advanced.setMiss {s : State} {n : Nat} (h : s.ref.Kept → n ≤ 3) :
    Advanced 0 s { s with ref := { s.ref with miss := n } } :=
  Advanced.setRef (fun k => ⟨h k, k.2⟩) fun _ k l hu => (k l).2 hu

/-- A controller with no target, on INTERNAL or with its current source as it was, uses no link anew. -/
theorem RefControl.noTarget_uses {r x : RefControl} {l : LinkId} (hj : x.judgedTarget = none)
    (hb : x.bridging = r.bridging) (hs : x.switchFrom = r.switchFrom)
    (hc : x.current = r.current ∨ x.current = .internal) (h : x.uses l = true) : r.uses l = true := by
  simp only [RefControl.uses, RefControl.judged, hj, hb, hs, Bool.or_eq_true, beq_iff_eq] at h ⊢
  rcases hc with hc | hc
  · rw [hc] at h; exact .inl (h.resolve_right (by simp))
  · rw [hc] at h
    rcases h with (h | h) | h
    · cases h
    · cases hbr : r.bridging with
      | none => simp [hbr] at h
      | some b => simp only [hbr] at h ⊢; exact .inl (.inr h)
    · cases h

theorem State.missPeriod_advanced (s : State) : Advanced 1 s s.missPeriod := by
  have hb := s.boundary_advanced Config.windowClose
  unfold State.missPeriod
  simp only
  generalize s.boundary Config.windowClose = u at hb ⊢
  split
  · rename_i hm
    exact hb.trans (Advanced.setMiss fun _ => Nat.le_of_lt_succ hm)
  · refine ((hb.trans (Advanced.setRef ?_ fun _ k l hu => (k l).2 ?_)).kept Within.raiseDevice.kept).kept Kept.watch
    · exact fun _ => RefControl.noTarget_kept (r := { u.ref with current := .internal, miss := 0, fallen := true })
        (Nat.zero_le _)
    · exact RefControl.noTarget_uses
        (RefControl.noTarget_judged { u.ref with current := .internal, miss := 0, fallen := true }) rfl rfl (.inr rfl) hu

/-- Outside a bridging period a link is in use as the current source or as the target. -/
theorem RefControl.uses_eq {r : RefControl} (hb : r.bridging = none) (l : LinkId) :
    r.uses l = (r.current == .link l || r.target == some (.link l)) := by
  simp [RefControl.uses, RefControl.judged, RefControl.judgedTarget, hb]

theorem State.switchInternal_advanced {s : State} (hb : s.ref.bridging = none) (len : Nat) :
    Advanced 1 s (s.switchInternal len) := by
  have hadv := s.boundary_advanced len
  have hnone := (s.boundary_bridging len).trans hb
  unfold State.switchInternal
  simp only
  generalize s.boundary len = u at hadv hnone ⊢
  refine Advanced.kept (hadv.trans (Advanced.setRef ?kept ?uses)) Within.raiseDevice.kept
  case kept => exact fun k => ⟨Nat.zero_le _, k.2⟩
  case uses =>
    intro _ k l hu
    rw [RefControl.uses_eq (by exact hnone)] at hu
    exact (k l).2 ((RefControl.uses_eq hnone l).trans hu)

theorem State.acceptEdge_advanced {s : State} (hb : s.ref.bridging = none) (p : Phase) :
    Advanced 1 s (s.acceptEdge p) := by
  unfold State.acceptEdge
  split
  · exact State.switchInternal_advanced hb p
  · exact (s.boundary_advanced p).trans (Advanced.setMiss fun _ => Nat.zero_le _)

/-! ## Locks -/

/-- The controller behind a bridging period, field by field. -/
theorem RefControl.bridged_bridging (r : RefControl) (b : Bridge) (missed : Bool) :
    (r.bridged b missed).bridging = none := by
  simp only [RefControl.bridged, apply_ite RefControl.bridging, ite_self]

theorem RefControl.bridged_current (r : RefControl) (b : Bridge) (missed : Bool) :
    (r.bridged b missed).current = if r.switchFrom.isSome then .internal else b.source := by
  simp only [RefControl.bridged, apply_ite RefControl.current]

theorem RefControl.bridged_miss (r : RefControl) (b : Bridge) (missed : Bool) : (r.bridged b missed).miss ≤ 1 := by
  simp only [RefControl.bridged, apply_ite RefControl.miss]
  split
  · exact Nat.zero_le _
  · split <;> omega

theorem RefControl.bridged_target (r : RefControl) (b : Bridge) (missed : Bool) :
    (r.bridged b missed).target = if r.completed b then none else r.target := by
  simp only [RefControl.bridged, apply_ite RefControl.target, RefControl.noTarget, ite_self]

theorem RefControl.bridged_progress (r : RefControl) (b : Bridge) (missed : Bool) :
    (r.bridged b missed).progress = if r.completed b then 0 else r.progress := by
  simp only [RefControl.bridged, apply_ite RefControl.progress, RefControl.noTarget, ite_self]

/-- Behind the bridging period the lock progress of a completed lock is gone. -/
theorem RefControl.bridged_kept {r : RefControl} {b : Bridge} {missed : Bool} (h : r.Kept) (hb : r.bridging = some b) :
    (r.bridged b missed).Kept := by
  obtain ⟨-, hp, h64⟩ := h
  refine .of_progress_lt ((r.bridged_miss b missed).trans (by decide)) ?_
  rw [RefControl.bridged_progress]
  split
  · exact Nat.zero_lt_succ _
  · rename_i hc
    refine lt_of_le_of_ne hp fun he => hc ?_
    obtain ⟨b', hb', ht⟩ := h64 he
    obtain rfl : b = b' := by simpa [hb] using hb'
    simp [RefControl.completed, ht, he, Config.lockPeriods]

/-- The source a completed lock switches to, and a target besides, were in use before. -/
theorem RefControl.bridged_uses {r : RefControl} {b : Bridge} {missed : Bool} {l : LinkId} (hb : r.bridging = some b)
    (h : (r.bridged b missed).uses l = true) : r.uses l = true := by
  rw [RefControl.uses_eq (r.bridged_bridging b missed), RefControl.bridged_current, RefControl.bridged_target] at h
  simp only [Bool.or_eq_true, beq_iff_eq] at h
  simp only [RefControl.uses, RefControl.judged, RefControl.judgedTarget, hb, Bool.or_eq_true, beq_iff_eq]
  exact h.imp .inr id

theorem State.dropStore_kept {s : State} {src : Source} : Kept s (s.dropStore src) := by
  cases src
  · exact Kept.refl _
  · exact Kept.refl _
  · exact Kept.modFraming

theorem State.endBridging_advanced {s : State} {b : Bridge} (hb : s.ref.bridging = some b) (len : Nat) (missed : Bool) :
    Advanced 1 s (s.endBridging b len missed) := by
  have hadv := s.boundary_advanced len
  have hsome := (s.boundary_bridging len).trans hb
  unfold State.endBridging
  simp only
  generalize s.boundary len = u at hadv hsome ⊢
  have href : Advanced 0 u { u with ref := u.ref.bridged b missed } :=
    Advanced.setRef (fun k => RefControl.bridged_kept k hsome)
      fun _ k l hu => (k l).2 (RefControl.bridged_uses hsome hu)
  have hstore := Kept.ite (b := u.ref.switchFrom.isSome = true) (Kept.refl { u with ref := u.ref.bridged b missed })
    (State.dropStore_kept (src := b.source))
  exact (((hadv.trans href).kept hstore).kept Within.raiseDevice.kept).kept Kept.watch

/-! ## Edges of the target -/

/-- An edge judged moves the progress and the measurement only: to 0, by one, or not at all. -/
theorem RefControl.judgeEdge_eq (r : RefControl) (now : Nat) :
    ∃ n, r.judgeEdge now = { r with progress := n, lastEdge := some now } ∧ n ≤ r.progress + 1 := by
  unfold RefControl.judgeEdge
  split
  · exact ⟨r.progress, rfl, Nat.le_succ _⟩
  · split
    · exact ⟨0, rfl, Nat.zero_le _⟩
    · split
      · exact ⟨0, rfl, Nat.zero_le _⟩
      · exact ⟨r.progress + 1, rfl, le_rfl⟩

/-- While a source is judged as target its lock is not complete. -/
theorem RefControl.Kept.progress_lt_of_judged {r : RefControl} (h : r.Kept) {src : Source}
    (ht : r.judgedTarget = some src) : r.progress < 64 := by
  obtain ⟨-, hp, h64⟩ := h
  refine lt_of_le_of_ne hp fun he => ?_
  obtain ⟨b, hb, hs⟩ := h64 he
  simp [RefControl.judgedTarget, hb, RefControl.completed, hs, he, Config.lockPeriods] at ht

/-- What is judged as target is the target. -/
theorem RefControl.target_of_judged {r : RefControl} {src : Source} (h : r.judgedTarget = some src) :
    r.target = some src := by
  rcases r.judgedTarget_cases with hc | hc
  · rw [hc] at h; cases h
  · exact hc ▸ h

/-- A controller of the same current source uses what it judges as current and as target. -/
theorem RefControl.uses_of {r x : RefControl} {l : LinkId} (h : x.uses l = true) (hc : x.current = r.current)
    (hj : x.judged = .link l → r.uses l = true) (ht : x.judgedTarget = some (.link l) → r.uses l = true) :
    r.uses l = true := by
  rw [RefControl.uses, Bool.or_eq_true, Bool.or_eq_true, beq_iff_eq, beq_iff_eq, beq_iff_eq] at h
  obtain (h | h) | h := h
  · exact RefControl.uses_of_current (hc ▸ h)
  · exact hj h
  · exact ht h

theorem RefControl.uses_of_judgedTarget {r : RefControl} {l : LinkId} (h : r.judgedTarget = some (.link l)) :
    r.uses l = true := by
  simp [RefControl.uses, h]

theorem RefControl.uses_of_judged {r : RefControl} {l : LinkId} (h : r.judged = .link l) : r.uses l = true := by
  simp [RefControl.uses, h]

/-- While `src` is judged as target, a controller with the same target uses by it no link anew. -/
theorem RefControl.judgedTarget_uses {r x : RefControl} {src : Source} {l : LinkId}
    (h : x.judgedTarget = some (.link l)) (hs : r.judgedTarget = some src) (hx : x.target = r.target) :
    r.uses l = true := by
  have hl := RefControl.target_of_judged h
  rw [hx, RefControl.target_of_judged hs] at hl
  exact RefControl.uses_of_judgedTarget (hs.trans hl)

/-- An edge judged makes no use of a link. -/
theorem RefControl.uses_of_edge {r : RefControl} {src : Source} (ht : r.judgedTarget = some src) {n : Nat}
    {e : Option Nat} {l : LinkId} (h : ({ r with progress := n, lastEdge := e } : RefControl).uses l = true) :
    r.uses l = true :=
  RefControl.uses_of h rfl (RefControl.uses_of_judged (r := r)) (RefControl.judgedTarget_uses · ht rfl)

theorem State.bridgeEdge_bridging (s : State) (src : Source) (p : Phase) :
    (s.bridgeEdge src p).ref.bridging = s.ref.bridging := by
  unfold State.bridgeEdge
  split
  · obtain ⟨n, he, -⟩ := s.ref.judgeEdge_eq (s.periodStart + p)
    rw [he]
  · rfl

theorem State.bridgeEdge_advanced {s : State} {b : Bridge} (hb : s.ref.bridging = some b) (p : Phase) :
    Advanced 0 s (s.bridgeEdge b.source p) := by
  unfold State.bridgeEdge
  split
  · rename_i ht
    obtain ⟨n, he, hn⟩ := s.ref.judgeEdge_eq (s.periodStart + p)
    rw [he]
    refine Advanced.setRef (fun k => ?_) fun _ k l hu => (k l).2 ?_
    · have hlt := k.progress_lt_of_judged ht
      exact ⟨k.1, hn.trans hlt, fun _ => ⟨b, hb, RefControl.target_of_judged (r := s.ref) ht⟩⟩
    · exact RefControl.uses_of_edge ht hu
  · exact (Kept.refl _).advanced

/-- A bridging period begun by a completed lock uses the target, which was in use before. -/
theorem RefControl.uses_of_bridging {r : RefControl} {b : Bridge} (ht : r.judgedTarget = some b.source) (n : Nat)
    (e : Option Nat) {l : LinkId}
    (h : ({ r with progress := n, lastEdge := e, bridging := some b } : RefControl).uses l = true) :
    r.uses l = true := by
  refine RefControl.uses_of h rfl (fun hm => ?_) (RefControl.judgedTarget_uses · ht rfl)
  by_cases hs : r.switchFrom.isSome = true
  · simp [RefControl.judged, hs] at hm
  · refine RefControl.uses_of_judgedTarget (ht.trans (congrArg some ?_))
    simpa [RefControl.judged, hs] using hm

theorem State.edgeOfTarget_advances {s : State} {src : Source} (ht : s.ref.judgedTarget = some src) (p : Phase) :
    Advances s (s.edgeOfTarget src p) := by
  obtain ⟨n, he, hn⟩ := s.ref.judgeEdge_eq (s.periodStart + p)
  have hsrc := RefControl.target_of_judged ht
  unfold State.edgeOfTarget
  simp only [he]
  split
  · rename_i hlt
    refine .inl (Advanced.setRef (fun k => .of_progress_lt k.1 hlt) fun _ k l hu => (k l).2 ?_)
    exact RefControl.uses_of_edge ht hu
  · have hbridge : Advanced 0 s { s with ref := { s.ref with
        progress := n, lastEdge := some (s.periodStart + p), bridging := some ⟨src, s.ref.origin, s.periodStart + p⟩ } } := by
      refine Advanced.setRef (fun k => ?_) fun _ k l hu => (k l).2 (RefControl.uses_of_bridging ht n _ hu)
      have hlt := k.progress_lt_of_judged ht
      exact ⟨k.1, hn.trans hlt, fun _ => ⟨_, rfl, hsrc⟩⟩
    split
    · exact .inr (by simpa using hbridge.trans (State.endBridging_advanced rfl p false))
    · exact .inl hbridge

/-- Outside a bridging period the target is what is judged as target. -/
theorem RefControl.judgedTarget_eq {r : RefControl} (hb : r.bridging = none) : r.judgedTarget = r.target := by
  simp only [RefControl.judgedTarget, hb]

/-- A house counter that has risen by one is another. -/
theorem Advanced.house_ne {s t : State} (h : Advanced 1 s t) : t.house ≠ s.house := by
  rw [h.house]
  exact fun he => absurd (BitVec.add_right_eq_self.mp he) (by decide)

theorem State.refEdge_advances (s : State) (src : Source) (p : Phase) : Advances s (s.refEdge src p) := by
  unfold State.refEdge
  split
  · rename_i b hb
    split
    · rename_i hsrc
      subst hsrc
      have h0 := State.bridgeEdge_advanced hb p
      simp only
      split
      · have hb' := (s.bridgeEdge_bridging b.source p).trans hb
        exact .inr (by simpa using h0.trans (State.endBridging_advanced hb' p false))
      · exact .inl h0
    · split
      · rename_i ht
        exact State.edgeOfTarget_advances ht p
      · exact (Kept.refl _).advances
  · rename_i hb
    have h1 : Advances s (if s.ref.target = some src then s.edgeOfTarget src p else s) := by
      split
      · rename_i ht
        exact State.edgeOfTarget_advances ((RefControl.judgedTarget_eq hb).trans ht) p
      · exact (Kept.refl _).advances
    simp only
    generalize (if s.ref.target = some src then s.edgeOfTarget src p else s) = u at h1 ⊢
    split
    · rename_i hc
      obtain ⟨-, -, -, hnone, hh⟩ := hc
      have h0 := h1.resolve_right fun h => h.house_ne hh
      exact .inr (by simpa using h0.trans (State.acceptEdge_advanced hnone p))
    · exact h1

/-! ## The commands that can end a period -/

theorem State.opInternalEnd_advances (s : State) : Advances s s.opInternalEnd := by
  refine Kept.settle.thenAdvances ?_
  unfold State.opInternalEnd
  simp only
  split
  · exact .inr (State.boundary_advanced _ _)
  · exact (Kept.refl _).advances

theorem State.opEdgeAccepted_advances (s : State) (p : Phase) : Advances s (s.opEdgeAccepted p) := by
  refine Kept.settle.thenAdvances ?_
  unfold State.opEdgeAccepted
  simp only
  split
  · exact State.refEdge_advances _ _ p
  · exact (Kept.refl _).advances

theorem State.opWindowMiss_advances (s : State) : Advances s s.opWindowMiss := by
  refine Kept.settle.thenAdvances ?_
  unfold State.opWindowMiss
  simp only
  split
  · exact .inr (State.missPeriod_advanced _)
  · exact (Kept.refl _).advances

theorem State.opTargetEdge_advances (s : State) (p : Phase) : Advances s (s.opTargetEdge p) := by
  refine Kept.settle.thenAdvances ?_
  unfold State.opTargetEdge
  simp only
  split
  · exact (Kept.refl _).advances
  · exact State.refEdge_advances _ _ p

theorem State.opBridgingEnd_advances (s : State) (e : Option Phase) : Advances s (s.opBridgingEnd e) := by
  refine Kept.settle.thenAdvances ?_
  unfold State.opBridgingEnd
  simp only
  split
  · exact (Kept.refl _).advances
  · rename_i b hb
    split
    · split
      · exact State.refEdge_advances _ _ _
      · exact (Kept.refl _).advances
    · exact .inr (State.endBridging_advanced hb _ true)

theorem State.opSwitchInternal_advances (s : State) (e : Option Phase) : Advances s (s.opSwitchInternal e) := by
  refine Kept.settle.thenAdvances ?_
  unfold State.opSwitchInternal
  simp only
  split
  · rename_i hw
    split
    · split
      · exact State.refEdge_advances _ _ _
      · exact (Kept.refl _).advances
    · have hb : s.settle.ref.bridging = none := by
        simp only [State.switchWaits, Bool.and_eq_true] at hw
        simpa using hw.1
      exact .inr (State.switchInternal_advanced hb _)
  · exact (Kept.refl _).advances

theorem State.beginFrame_kept {s : State} {l : LinkId} : Kept s (s.beginFrame l) :=
  Kept.ite (Kept.setLink_of_eq rfl rfl rfl rfl) Kept.frameContent

theorem State.alignment_kept {s : State} {l : LinkId} : Kept s (s.alignment l) := by
  unfold State.alignment
  refine Kept.trans ?_ Within.raiseDevice.kept
  exact Kept.setLink_of_eq rfl rfl rfl rfl

theorem State.framePulse_advances (s : State) (l : LinkId) (bit : Nat) (p : Phase) :
    Advances s (s.framePulse l bit p) := by
  unfold State.framePulse
  split
  · exact (Kept.refl _).advances
  · simp only
    refine Advances.kept (Kept.thenAdvances ?_ (State.refEdge_advances _ _ p)) State.beginFrame_kept
    exact (Kept.ite State.alignment_kept (Kept.refl _)).trans Kept.modFraming

theorem State.opFramePulse_advances (s : State) (l : LinkId) (bit : Nat) (p : Phase) :
    Advances s (s.opFramePulse l bit p) := by
  unfold State.opFramePulse
  exact (Kept.settle.trans (Kept.ite Kept.loseLink (Kept.refl _))).thenAdvances (State.framePulse_advances _ l bit p)

/-! ## The other commands -/

theorem State.opTargetTimeout_kept (s : State) : Kept s s.opTargetTimeout := by
  refine Kept.settle.trans ?_
  unfold State.opTargetTimeout
  simp only
  split
  · rename_i h
    exact Kept.missedTarget h.1
  · exact Kept.refl _

theorem State.opFlywheel_kept (s : State) (l : LinkId) : Kept s (s.opFlywheel l) := by
  refine Kept.settle.trans ?_
  unfold State.opFlywheel
  simp only
  split
  · exact Kept.refl _
  · exact Kept.ite (Kept.modFraming.trans State.beginFrame_kept) (Kept.refl _)

theorem State.opLinkLost_kept (s : State) (l : LinkId) : Kept s (s.opLinkLost l) := Kept.settle.trans Kept.loseIfDue

theorem State.opLinkMode_kept (s : State) (l : LinkId) : Kept s (s.opLinkMode l) :=
  Kept.ite Kept.linkModeAct (Kept.refl _)

theorem State.completeMessage_kept (s : State) (body : List Byte) : Kept s (s.completeMessage body) :=
  Kept.setRx.trans (Kept.enqueue.trans Kept.runHandler)

theorem State.receiveByte_kept (s : State) (b : Byte) : Kept s (s.receiveByte b) := by
  unfold State.receiveByte
  simp only
  split
  · exact Kept.ite Kept.setRx (Kept.refl _)
  · exact Kept.ite Kept.setRx (Kept.ite Kept.setRx Kept.discardMessage)
  · exact Kept.setRx
  · exact Kept.ite Kept.setRx (Kept.ite (State.completeMessage_kept s _) Kept.discardMessage)

theorem State.receive_kept (s : State) (bs : List Byte) : Kept s (s.receive bs) := by
  unfold State.receive
  induction bs generalizing s with
  | nil => exact Kept.refl _
  | cons b bs ih => exact (s.receiveByte_kept b).trans (ih _)

theorem State.framingError_kept (s : State) : Kept s s.framingError := Kept.ite (Kept.refl _) Kept.discardMessage

theorem State.gapTimeout_kept (s : State) : Kept s s.gapTimeout := Kept.ite Kept.discardMessage (Kept.refl _)

theorem State.messageSent_kept (s : State) : Kept s s.messageSent := by
  have hidle : Kept s { s with sending := none } := Kept.of_eq rfl rfl rfl rfl rfl rfl rfl rfl rfl rfl rfl rfl rfl rfl
  exact Kept.ite ((hidle.trans Within.pump.kept).trans Kept.runHandler) (Kept.refl _)

theorem State.request_kept {s t : State} {k : Byte} {r : Req} (h : s.request k r (handlerFor k) = .next t) : Kept s t := by
  unfold State.request at h
  split at h
  · cases h; exact Kept.refl _
  · simp only at h
    split at h <;> cases h
    · exact Kept.settle.trans (Kept.serve (Kept.handlerFor k))
    · exact Kept.settle.trans Kept.enqueue

theorem State.inPeriod_kept {s : State} {f : State → State} (h : ∀ x, Within x (f x)) : Kept s (s.inPeriod f) :=
  Kept.ite (Kept.beginPeriod.trans ((h _).trans Within.settlePool).kept) (Kept.refl _)

/-! ## The media port -/

theorem State.setPort_kept {s : State} {p : Port} : Kept s { s with port := p } :=
  Kept.of_eq rfl rfl rfl rfl rfl rfl rfl rfl rfl rfl rfl rfl rfl rfl

theorem Within.modReader {s : State} {r : Reader} {f : Player → Player} : Within s (s.modReader r f) := by
  cases r
  · exact Within.modPlayer
  · exact Within.modBedPlayer

theorem State.opFetchBegin_kept {s t : State} (h : s.opFetchBegin = .next t) : Kept s t := by
  unfold State.opFetchBegin at h
  split at h
  · cases h; exact Kept.refl _
  · split at h
    · cases h; exact Kept.refl _
    · split at h
      · cases h; exact Kept.refl _
      · split at h <;> cases h
        exact Within.modReader.kept.trans State.setPort_kept

theorem Within.readerFault {s : State} {r : Reader} : Within s (s.readerFault r) := by
  cases r
  · exact Within.deckFault
  · exact Within.bedFault

theorem Within.primeReader {s : State} {r : Reader} : Within s (s.primeReader r) := by
  unfold State.primeReader
  simp only
  split
  · exact Within.refl _
  · exact Within.ite Within.modReader (Within.refl _)

theorem Within.enterPairs {s : State} {f : Fetch} {err : Bool} : Within s (s.enterPairs f err) :=
  Within.modReader.trans ((Within.ite Within.readerFault (Within.refl _)).trans Within.primeReader)

theorem State.opFetchComplete_kept (s : State) (err : Bool) : Kept s (s.opFetchComplete err) := by
  unfold State.opFetchComplete
  split
  · exact State.setPort_kept.trans (Kept.ite Within.enterPairs.kept (Kept.refl _))
  · exact Kept.refl _
  · exact Kept.refl _

theorem State.opWriteBegin_kept (s : State) : Kept s s.opWriteBegin := Kept.ite State.setPort_kept (Kept.refl _)

/-! ## The completed write -/

/-- Fields that no invariant but the form of the media memory reads. -/
theorem State.stored_invariants {s : State} {m : List Host.Cell} (hm : s.MediaCanonical → Memory.wf m = true) :
    Invariants s { s with media := m, port := .idle, claim := none } :=
  ⟨id, id, hm, id, id, id, id, id, id, fun _ => id⟩

theorem Kept.releaseHeld {s : State} {n : Nat} : Kept s (s.releaseHeld n) := by
  have hready : Kept s { s with handler := .ready, inHand := none } :=
    Kept.of_eq rfl rfl rfl rfl rfl rfl rfl rfl rfl rfl rfl rfl rfl rfl
  unfold State.releaseHeld
  simp only
  split
  · exact hready
  · exact hready.trans Within.placeReply.kept

theorem State.opWriteComplete_kept {s t : State} (h : s.opWriteComplete = .next t) :
    Invariants s t ∧ t.house = s.house := by
  have stay (h : Host.Outcome.next (φ := Fault) (ρ := Refusal) s = .next t) : Invariants s t ∧ t.house = s.house := by
    cases h; exact ⟨(Kept.refl s).advanced.toInvariants, rfl⟩
  unfold State.opWriteComplete at h
  split at h
  · split at h
    · exact stay h
    · split at h <;> cases h
      rename_i c _ _ _ e _ _ m hw
      have hdir := Within.kept (Within.modDir (s := { s with media := m, port := .idle, claim := none })
        (slot := c.slot) (f := fun x => { x with received := e.received + c.pairs.length }) fun _ => ⟨rfl, rfl⟩)
      have hrest := (hdir.trans Kept.releaseHeld).trans (Kept.runHandler
        (s := State.releaseHeld _ (e.received + c.pairs.length)))
      exact ⟨(State.stored_invariants fun hm => writePairs_wf hm hw).trans hrest.advanced.toInvariants, hrest.house⟩
  · exact stay h

/-! ## Resets -/

theorem State.assertReset_advanced (s : State) : Advanced 0 s s.assertReset where
  asrun := id
  queue := id
  canonical := id
  capped := id
  lists := id
  directory := id
  notices k i := ⟨(k i).1, by simp [State.noticeCount, State.assertReset]⟩
  settings := id
  ref := id
  links _ k l := by
    cases l
    · exact k .a
    · exact k .b
  house := (BitVec.add_zero _).symm
  media := rfl

theorem RefControl.reset_kept : RefControl.reset.Kept := .of_progress_lt (Nat.zero_le _) (by decide)

theorem AirLink.reset_kept : AirLink.reset.Kept := by
  have hnone (st : StationId) : AirLink.reset.assigns[st] = none := Vector.getElem_replicate ..
  exact ⟨fun x y _ a b h => by simp [hnone] at h, fun x a h => by simp [hnone] at h, by decide⟩

/-- Every invariant holds of a part that has just been reset. -/
theorem State.powerOnKeep_holds (s : State) (straps : Fin 4) :
    let t := s.powerOnKeep straps
    t.AsrunKept ∧ t.QueueBounded ∧ t.MediaCanonical ∧ t.Capped ∧ t.ListsKept ∧ t.DirectoryKept ∧ t.NoticesKept ∧
      t.SettingsKept ∧ t.LinksKept ∧ t.ref.Kept := by
  refine ⟨?asrun, ?queue, rfl, fun st => ?capped, fun st => ?lists, ?directory, fun i => ?notices, fun st => ?settings,
    fun l => ?links, RefControl.reset_kept⟩
  case asrun => exact ⟨Nat.zero_le _, List.Pairwise.nil, fun _ _ h => absurd h List.not_mem_nil⟩
  case queue => exact Nat.zero_le _
  case capped => rw [State.deckLoad, State.powerOnKeep_held, State.powerOnKeep_station]; exact Nat.zero_le _
  case lists => rw [State.powerOnKeep_station]; exact ⟨Nat.zero_le _, List.nodup_nil, rfl⟩
  case directory => exact ⟨List.Pairwise.nil, fun _ h => absurd h List.not_mem_nil, rfl⟩
  case notices =>
    rw [State.condInSet, State.powerOnKeep_cond]
    exact ⟨⟨BitVec.zero_and, BitVec.zero_and⟩, Nat.zero_le _⟩
  case settings => rw [State.powerOnKeep_station]; decide
  case links =>
    have hl : (s.powerOnKeep straps).link l = AirLink.reset := by cases l <;> rfl
    rw [hl]
    exact ⟨AirLink.reset_kept, fun h => by cases l <;> cases h⟩

theorem State.powerOnKeep_invariants (s : State) (straps : Fin 4) : Invariants s (s.powerOnKeep straps) := by
  obtain ⟨hasrun, hqueue, hmedia, hcapped, hlists, hdir, hnotices, hsettings, hlinks, href⟩ :=
    s.powerOnKeep_holds straps
  exact ⟨fun _ => hasrun, fun _ => hqueue, fun _ => hmedia, fun _ => hcapped, fun _ => hlists, fun _ => hdir,
    fun _ => hnotices, fun _ => hsettings, fun _ => href, fun _ _ => hlinks⟩

/-! ## Every command -/

/-- What a command can make of a part: it stands, one sample period ends, an upload is stored, or it starts anew. -/
inductive Stepped (c : Instr) (s t : State) : Prop where
  | stood (h : Advanced 0 s t)
  | ended (hc : c.endsPeriod = true) (h : Advanced 1 s t)
  | stored (hc : c = .writeComplete) (h : Invariants s t) (hh : t.house = s.house)
  | anew (straps : Fin 4) (hc : c = .powerOnReset straps) (ht : t = s.powerOnKeep straps)

theorem Kept.stepped {c : Instr} {s t : State} (h : Kept s t) : Stepped c s t := .stood h.advanced

theorem Advances.stepped {c : Instr} {s t : State} (hc : c.endsPeriod = true) (h : Advances s t) : Stepped c s t :=
  h.elim .stood (.ended hc)

/-- A command that a part held in reset disregards. -/
theorem Stepped.live {c : Instr} {s t : State} {f : State → State} (hf : ∀ x, Stepped c x (f x))
    (h : s.live f = .next t) : Stepped c s t := by
  unfold State.live at h
  split at h <;> cases h
  · exact (Kept.refl _).stepped
  · exact hf s

theorem Stepped.inPeriod {c : Instr} {s t : State} {f : State → State} (hf : ∀ x, Within x (f x))
    (h : s.live (fun x => x.inPeriod f) = .next t) : Stepped c s t := .live (fun _ => (State.inPeriod_kept hf).stepped) h

theorem exec_event_stepped {c : Instr} {s t : State} (hr : c.request = none) (h : exec c s = .next t) :
    Stepped c s t := by
  cases c <;> simp only [Instr.request, reduceCtorEq] at hr
  case restartPeriod => exact .live (fun _ => (Kept.ite Kept.restartAct (Kept.refl _)).stepped) h
  case writeBegin => exact .live (fun _ => (Kept.settle.trans (State.opWriteBegin_kept _)).stepped) h
  case writeComplete =>
    simp only [exec, execWriteComplete] at h
    split at h
    · cases h; exact (Kept.refl _).stepped
    · obtain ⟨hi, hh⟩ := State.opWriteComplete_kept h
      have hs := (Kept.settle (s := s)).advanced
      exact .stored rfl (hs.toInvariants.trans hi) (hh.trans (by simpa using hs.house))
  case messageComplete bytes => exact .live (fun _ => (Kept.settle.trans (State.receive_kept _ bytes)).stepped) h
  case receiveGapTimeout => exact .live (fun _ => (Kept.settle.trans (State.gapTimeout_kept _)).stepped) h
  case messageSent => exact .live (fun _ => (Kept.settle.trans (State.messageSent_kept _)).stepped) h
  case resetAssert => cases h; exact .stood s.assertReset_advanced
  case powerOnReset straps => cases h; exact .anew straps rfl rfl
  case internalPeriodEnd => exact .live (fun x => x.opInternalEnd_advances.stepped rfl) h
  case refEdgeAccepted p => exact .live (fun x => (x.opEdgeAccepted_advances p).stepped rfl) h
  case refWindowMiss => exact .live (fun x => x.opWindowMiss_advances.stepped rfl) h
  case targetEdge p => exact .live (fun x => (x.opTargetEdge_advances p).stepped rfl) h
  case targetWindowTimeout => exact .live (fun x => x.opTargetTimeout_kept.stepped) h
  case bridgingEnd e => exact .live (fun x => (x.opBridgingEnd_advances e).stepped rfl) h
  case refSwitchInternal e => exact .live (fun x => (x.opSwitchInternal_advances e).stepped rfl) h
  case silenceWindowReached st => exact .live (fun _ => (Kept.settle.trans Kept.silenceOrder).stepped) h
  case entryStart st => exact .inPeriod (fun _ => Within.opEntryStart) h
  case armHorizonReached st => exact .inPeriod (fun _ => Within.opHorizon) h
  case preFade st => exact .inPeriod (fun _ => Within.opPreFade) h
  case hardEventDue st => exact .inPeriod (fun _ => Within.opHardDue) h
  case hardItemTooLate st => exact .inPeriod (fun _ => Within.opTooLate) h
  case breakStart st => exact .inPeriod (fun _ => Within.opBreakStart) h
  case breakSkip st => exact .inPeriod (fun _ => Within.opBreakSkip) h
  case spotStart st => exact .inPeriod (fun _ => Within.opSpotStart) h
  case fillStart st => exact .inPeriod (fun _ => Within.opFillStart) h
  case fillClosingFade st => exact .inPeriod (fun _ => Within.opFillClosing) h
  case breakClose st => exact .inPeriod (fun _ => Within.opBreakClose) h
  case deckEndOfPlay d => exact .live (fun _ => (Kept.settle.trans (Within.opDeckEnd.trans Within.settlePool).kept).stepped) h
  case bedPlayerStart st => exact .inPeriod (fun _ => Within.opBedStart) h
  case bedPlayerEnd st => exact .live (fun _ => (Kept.settle.trans Within.opBedEnd.kept).stepped) h
  case fetchBegin =>
    simp only [exec, execFetchBegin] at h
    split at h
    · cases h; exact (Kept.refl _).stepped
    · exact (Kept.settle.trans (State.opFetchBegin_kept h)).stepped
  case fetchComplete err => exact .live (fun _ => (Kept.settle.trans (State.opFetchComplete_kept _ err)).stepped) h
  case framePulse l bit p => exact .live (fun x => (x.opFramePulse_advances l bit p).stepped rfl) h
  case flywheelFrame l => exact .live (fun x => (x.opFlywheel_kept l).stepped) h
  case linkLost l => exact .live (fun x => (x.opLinkLost_kept l).stepped) h
  case linkModeChange l => exact .live (fun x => (x.opLinkMode_kept l).stepped) h
  case framingError bytes =>
    exact .live (fun _ => (Kept.settle.trans ((State.receive_kept _ bytes).trans (State.framingError_kept _))).stepped) h
  case bodyLengthOutOfRange n => exact .live (fun _ => (Kept.settle.trans (State.receive_kept _ _)).stepped) h

theorem exec_stepped {c : Instr} {s t : State} (h : exec c s = .next t) : Stepped c s t := by
  cases hr : c.request with
  | some kr => exact (State.request_kept ((exec_request (k := kr.1) (r := kr.2) hr).symm.trans h)).stepped
  | none => exact exec_event_stepped hr h

theorem Stepped.invariants {c : Instr} {s t : State} (h : Stepped c s t) : Invariants s t := by
  cases h with
  | stood h => exact h.toInvariants
  | ended _ h => exact h.toInvariants
  | stored _ h _ => exact h
  | anew straps _ ht => rw [ht]; exact s.powerOnKeep_invariants straps

/-- The queue of commands is none of what the invariants read. -/
theorem State.setPending_kept {s : State} {cs : List Instr} : Kept s { s with pending := cs } :=
  Kept.of_eq rfl rfl rfl rfl rfl rfl rfl rfl rfl rfl rfl rfl rfl rfl

theorem step_invariants {s t : State} (h : step s = .next t) : Invariants s t := by
  unfold step at h
  split at h
  · cases h; exact (Kept.refl _).advanced.toInvariants
  · exact State.setPending_kept.advanced.toInvariants.trans (exec_stepped h).invariants

end Sys2Proof.Machine

namespace Sys2Proof

open Machine

/-- Settles O60: what `step_invariants` says of each of the invariants. -/
theorem invariantsKept : Obligations.InvariantsKept := by
  unfold Obligations.InvariantsKept
  intro s t h
  obtain ⟨hasrun, hqueue, hmedia, hcapped, hlists, hdir, hnotices, hsettings, href, hlinks⟩ := step_invariants h
  exact ⟨hasrun, hqueue, hmedia, hcapped, hlists, hdir, hnotices, hsettings, href, hlinks⟩

/-- Settles O59: of what a command can make of a part (`exec_stepped`), only the end of a period and a power-on reset
move the house counter, and only a stored upload and a power-on reset the media memory. -/
theorem houseAndMedia : Obligations.HouseAndMedia := by
  unfold Obligations.HouseAndMedia
  intro s t c rest hp h
  simp only [step, hp] at h
  cases exec_stepped h with
  | stood h => exact ⟨.inl (h.house.trans (BitVec.add_zero _)), .inl h.media⟩
  | ended hc h => exact ⟨.inr (.inl ⟨hc, h.house⟩), .inl h.media⟩
  | stored hc _ hh => exact ⟨.inl hh, .inr (.inl hc)⟩
  | anew straps hc ht => rw [ht]; exact ⟨.inr (.inr ⟨⟨straps, hc⟩, rfl⟩), .inr (.inr ⟨⟨straps, hc⟩, rfl⟩)⟩

/-- Settles O5: `State.reset` is what a power-on reset leaves of itself. -/
theorem resetInvariants : Obligations.ResetInvariants := State.reset.powerOnKeep_holds 0

end Sys2Proof
end

section
/-!
PROOFS. A step and its resets (O1, O2, O4, O6), and the control link: the receiver, the queue of requests and the
transmit order (O7 to O10).
-/

namespace Sys2Proof.Machine

@[simp] theorem State.powerOnKeep_bed (s : State) (straps : Fin 4) (st : StationId) :
    (s.powerOnKeep straps).bed st = Bed.reset := Vector.getElem_replicate ..

@[simp] theorem State.powerOnKeep_link (s : State) (straps : Fin 4) (l : LinkId) :
    (s.powerOnKeep straps).link l = AirLink.reset := by cases l <;> rfl

theorem AirLink.reset_assigns (st : StationId) : AirLink.reset.assigns[st] = none := Vector.getElem_replicate ..

end Sys2Proof.Machine

namespace Sys2Proof

open Machine

/-- Settles O1: the two branches of `step`. -/
theorem stepRunsFront : Obligations.StepRunsFront := by
  unfold Obligations.StepRunsFront
  refine ⟨fun c rest s h => ?_, fun s h => ?_⟩
  · simp only [step, h]
  · simp only [step, h]

/-- Settles O2: the free list is the one run of all blocks. -/
theorem powerOnStore : Obligations.PowerOnStore := by
  unfold Obligations.PowerOnStore
  intro straps s
  refine ⟨s.powerOnKeep straps, exec_powerOnReset straps s, rfl, fun k hk => ?_, rfl, rfl, rfl, rfl⟩
  have hrun : (s.powerOnKeep straps).freeBlocks = [⟨0, Config.blockCount⟩] := rfl
  simp [hrun, blockAt, Config.blockCount, hk]

/-- Settles O4: every field read back at its reset value. -/
theorem powerOnRest : Obligations.PowerOnRest := by
  unfold Obligations.PowerOnRest
  intro straps s
  refine ⟨s.powerOnKeep straps, exec_powerOnReset straps s, rfl, rfl, rfl, rfl, rfl, rfl, rfl, rfl, rfl, rfl,
    fun d => ?decks, fun st => ?beds, fun st => ?stations, rfl, rfl, rfl, rfl, rfl, rfl, rfl, rfl, fun l => ?links, rfl, rfl,
    rfl, rfl, fun i => ?conds⟩
  case decks => rw [State.powerOnKeep_deck]; exact ⟨rfl, rfl, rfl, rfl, rfl⟩
  case beds => rw [State.powerOnKeep_bed]; exact ⟨rfl, rfl, rfl, rfl⟩
  case stations => rw [State.powerOnKeep_station]; exact ⟨rfl, rfl, rfl, rfl, rfl, rfl, rfl, rfl, rfl, rfl⟩
  case links =>
    rw [State.powerOnKeep_link]
    exact ⟨rfl, rfl, rfl, rfl, rfl, rfl, rfl, AirLink.reset_assigns⟩
  case conds => rw [State.powerOnKeep_cond]; exact ⟨rfl, rfl⟩

/-- An event command asks first whether the part is held in reset (R214). -/
theorem exec_event_inReset {s : State} (hr : s.inReset = true) {c : Instr} (hreq : c.request = none)
    (ha : c ≠ .resetAssert) (hp : ∀ straps : Fin 4, c ≠ .powerOnReset straps) : exec c s = .next s := by
  cases c <;> simp only [Instr.request, reduceCtorEq] at hreq
  case resetAssert => exact absurd rfl ha
  case powerOnReset straps => exact absurd rfl (hp straps)
  all_goals exact if_pos hr

/-- Settles O6: RESET_ASSERT field by field; every other command but a power-on reset asks first whether the part is held
in reset. -/
theorem heldInReset : Obligations.HeldInReset := by
  unfold Obligations.HeldInReset
  refine ⟨fun s => ⟨s.assertReset, rfl, rfl, rfl, rfl, rfl, rfl, rfl, rfl, rfl, rfl, rfl, rfl, rfl, rfl, rfl, rfl, rfl⟩,
    fun s c hr ha hp => ?_⟩
  cases hreq : c.request with
  | some kr => rw [exec_request (k := kr.1) (r := kr.2) hreq, State.request, if_pos hr]
  | none => exact exec_event_inReset hr hreq ha hp

end Sys2Proof

namespace Sys2Proof.Machine

/-! ## Queueing -/

theorem State.enqueue_of_lt {s : State} {m : Message} (h : s.queue.length < 16) :
    s.enqueue m = { s with queue := s.queue ++ [m] } := if_pos h

theorem State.enqueue_of_le {s : State} {m : Message} (h : 16 ≤ s.queue.length) :
    s.enqueue m = State.raiseDevice { s with badMessages := Count32.succHold s.badMessages } .badMessage :=
  if_neg (Nat.not_lt.mpr h)

/-- A request that the handler cannot take is queued (R202). -/
theorem State.request_busy {s : State} (hs : s.AtRest) (hb : ¬(s.canTake = true ∧ s.queue = [])) (k : Byte) (r : Req)
    (h : Req → State → State × Answer) :
    s.request k r h = .next (s.enqueue ⟨k, r.tag, r.station, r.payload⟩) := by
  simp only [State.request, hs.1, State.settle_atRest hs.2, if_neg hb, Bool.false_eq_true, if_false]

theorem State.canTake_eq_false {s : State} (h : s.handler ≠ .ready ∨ s.replyWaits = true) : s.canTake = false := by
  rcases h with h | h
  · simp [State.canTake, h]
  · simp [State.canTake, h]

theorem State.setQueue_self {s : State} {q : List Message} (h : s.queue = q) : { s with queue := q } = s := by
  subst h; rfl

/-- A handler that can take no request leaves the queue (R203). -/
theorem State.runHandler_busy {s : State} (h : s.canTake = false) : s.runHandler = s := by
  unfold State.runHandler
  cases s.queue.length with
  | zero => rfl
  | succ n => simp only [handlerLoop, h, Bool.false_eq_true, if_false]

/-- A handler that is READY takes the one message queued (R203). -/
theorem State.runHandler_one {s : State} {m : Message} (h : s.canTake = true) (hq : s.queue = [m]) :
    s.runHandler = State.serve { s with queue := [] } m.kind m.req (handlerFor m.kind) := by
  simp only [State.runHandler, hq, List.length_cons, List.length_nil, handlerLoop, h, if_true]

/-! ## The receiver -/

theorem beNat_toBytes_two {n : Nat} (h : n < 65536) : beNat (toBytes 2 n) = n := by
  simp only [toBytes, beNat, List.foldl, BitVec.toNat_ofNat]
  omega

theorem beNat_word2 (w : BitVec 16) : beNat (word2 w) = w.toNat := by
  have := w.isLt
  simp only [word2, beNat, List.foldl, BitVec.extractLsb'_toNat, Nat.shiftRight_eq_div_pow]
  omega

/-- The start byte and two length bytes, in HUNT (R200). -/
theorem State.receive_length {s : State} (h : s.rx = Receiver.reset) (a b : Byte) :
    s.receive [0xA5, a, b] = s.lengthRead ⟨.length, [a, b], [], [], 0⟩ := by
  simp only [State.receive, List.foldl, State.receiveByte, h, Receiver.reset]
  rfl

/-- The receiver's place in a message's body is none of what its discard or its completion depends on. -/
theorem State.discardMessage_rx (s : State) (x : Receiver) : State.discardMessage { s with rx := x } = s.discardMessage :=
  rfl

theorem State.completeMessage_rx (s : State) (x : Receiver) (body : List Byte) :
    State.completeMessage { s with rx := x } body = s.completeMessage body := rfl

/-- A byte of a message's body (R200). -/
theorem State.receiveByte_body {s : State} {lb got : List Byte} (h : s.rx = ⟨.body, lb, got, [], 0⟩) (b : Byte) :
    s.receiveByte b = { s with
      rx := ⟨if (got ++ [b]).length < beNat lb then .body else .check, lb, got ++ [b], [], 0⟩ } := by
  simp only [State.receiveByte, h, Receiver.length]
  split <;> rfl

/-- The body's bytes gather until the length is reached (R200). -/
theorem State.receive_body {s : State} {lb got bs : List Byte} (h : s.rx = ⟨.body, lb, got, [], 0⟩) (hne : bs ≠ [])
    (hlen : got.length + bs.length = beNat lb) :
    s.receive bs = { s with rx := ⟨.check, lb, got ++ bs, [], 0⟩ } := by
  induction bs generalizing s got with
  | nil => exact absurd rfl hne
  | cons b bs ih =>
    rw [List.length_cons] at hlen
    have hstep := State.receiveByte_body h b
    rw [List.length_append, List.length_singleton] at hstep
    rw [State.receive, List.foldl_cons, hstep]
    cases bs with
    | nil => rw [if_neg (by rw [List.length_nil] at hlen; omega), List.foldl_nil]
    | cons c cs =>
      rw [if_pos (by rw [List.length_cons] at hlen; omega)]
      have hrest := ih (s := { s with rx := ⟨.body, lb, got ++ [b], [], 0⟩ }) rfl (List.cons_ne_nil _ _)
        (by rw [List.length_append, List.length_singleton]; omega)
      rwa [List.append_assoc] at hrest

theorem State.receive_append (s : State) (xs ys : List Byte) : s.receive (xs ++ ys) = (s.receive xs).receive ys :=
  List.foldl_append ..

/-- A message with any check, from its start byte on: it completes where the check is its own, and is discarded
otherwise (R199, R200). -/
theorem State.receive_message {s : State} (h : s.rx = Receiver.reset) {body : List Byte} (h3 : 3 ≤ body.length)
    (hmax : body.length ≤ 4200) (w : BitVec 16) :
    s.receive (0xA5 :: (toBytes 2 body.length ++ body ++ word2 w)) =
      if word2 w = word2 (check body) then s.completeMessage body else s.discardMessage := by
  have hlb : beNat (toBytes 2 body.length) = body.length := beNat_toBytes_two (by omega)
  have hbody : body ≠ [] := fun he => by simp [he] at h3
  have hlen : s.receive (0xA5 :: toBytes 2 body.length) =
      { s with rx := ⟨.body, toBytes 2 body.length, [], [], 0⟩ } := by
    rw [show (0xA5 :: toBytes 2 body.length : List Byte) = [0xA5, _, _] from rfl, State.receive_length h, State.lengthRead,
      if_pos]
    · rfl
    · exact ⟨h3.trans_eq hlb.symm, hlb.trans_le hmax⟩
  rw [show (0xA5 :: (toBytes 2 body.length ++ body ++ word2 w) : List Byte) =
    ((0xA5 :: toBytes 2 body.length) ++ body) ++ word2 w from by simp, State.receive_append, State.receive_append, hlen,
    State.receive_body rfl hbody (by simpa using hlb.symm), List.nil_append]
  simp only [State.receive, word2, List.foldl, State.receiveByte, State.checkRead]
  rfl

theorem word2_inj {v w : BitVec 16} (h : word2 v = word2 w) : v = w :=
  BitVec.eq_of_toNat_eq (by rw [← beNat_word2 v, ← beNat_word2 w, h])

end Sys2Proof.Machine

namespace Sys2Proof

open Machine

/-- Settles O7: a request that finds the handler busy or the queue not empty is queued. -/
theorem busyQueues : Obligations.BusyQueues := by
  unfold Obligations.BusyQueues
  intro s c k r hs hc hbusy
  have hb : ¬(s.canTake = true ∧ s.queue = []) := by
    rintro ⟨ht, hq⟩
    obtain h | h | h := hbusy
    · rw [State.canTake_eq_false (.inl h)] at ht; cases ht
    · rw [State.canTake_eq_false (.inr h)] at ht; cases ht
    · exact h hq
  rw [exec_request hc, State.request_busy hs hb]
  exact ⟨fun hl => congrArg _ (State.enqueue_of_lt hl), fun hl => congrArg _ (State.enqueue_of_le hl)⟩

end Sys2Proof

namespace Sys2Proof.Machine

/-! ## Completed and discarded messages -/

/-- While a message is being sent, what a trigger places begins no message, so that a waiting reply waits on. -/
theorem State.trigger_canTake {s : State} {i : SetId}
    (h : s.handler ≠ .ready ∨ s.replyWaits = true ∧ s.sending.isSome = true) : (s.trigger i).canTake = false := by
  have hs : s.canTake = false := State.canTake_eq_false (h.imp_right And.left)
  unfold State.trigger
  split
  · exact hs
  · split
    · exact hs
    · obtain h | ⟨hw, hsend⟩ := h
      · exact State.canTake_eq_false (.inl (by unfold State.pump; split <;> exact h))
      · refine State.canTake_eq_false (.inr ?_)
        rw [State.pump, if_pos (by exact hsend)]
        simp only [State.replyWaits, List.any_append] at hw ⊢
        rw [hw, Bool.true_or]

theorem State.raiseDevice_canTake {s : State} {c : DeviceCond}
    (h : s.handler ≠ .ready ∨ s.replyWaits = true ∧ s.sending.isSome = true) : (s.raiseDevice c).canTake = false := by
  unfold State.raiseDevice State.raiseBits
  simp only
  split
  · exact State.canTake_eq_false (h.imp_right And.left)
  · exact State.trigger_canTake h

theorem messageOf_requestBody (k : Byte) (r : Req) :
    messageOf (requestBody k r) = ⟨k, r.tag, r.station, r.payload⟩ := rfl

/-- The receiver that completes a message stands in HUNT again. -/
theorem State.completeMessage_eq {s : State} (h : s.rx = Receiver.reset) (body : List Byte) :
    s.completeMessage body = (s.enqueue (messageOf body)).runHandler := by
  rw [State.completeMessage, ← h]

/-- A framed message that reaches a part at rest completes (R198, R200). -/
theorem exec_messageComplete_frame {s : State} (hs : s.AtRest) (hrx : s.rx = Receiver.reset) {body : List Byte}
    (h3 : 3 ≤ body.length) (hmax : body.length ≤ 4200) :
    exec (.messageComplete (frameMessage body)) s = .next (s.enqueue (messageOf body)).runHandler := by
  refine (hs.event fun x => x.receive (frameMessage body)).trans (congrArg _ ?_)
  rw [frameMessage, State.receive_message hrx h3 hmax, if_pos rfl, State.completeMessage_eq hrx]

end Sys2Proof.Machine

namespace Sys2Proof

open Machine

/-- Settles O8: the message's bytes are received (`State.receive_message`), the message is queued, and a handler that may
take it serves it as it serves the request. -/
theorem messageIsRequest : Obligations.MessageIsRequest := by
  unfold Obligations.MessageIsRequest
  intro s k r hs hrx hlen
  have hbody : (requestBody k r).length = r.payload.length + 3 := rfl
  have hexec := exec_messageComplete_frame hs hrx (body := requestBody k r) (by omega) (by omega)
  rw [messageOf_requestBody] at hexec
  refine ⟨fun hr => ?ready, fun hb hl => ?waits, fun hb hl => ?discarded⟩
  case ready =>
    have hq : s.queue = [] := hr.2.2.2.1
    have hserve : exec (.messageComplete (frameMessage (requestBody k r))) s =
        .next (Answer.after k r (handlerFor k r s.working)) := by
      rw [hexec, State.enqueue_of_lt (by rw [hq]; exact Nat.zero_lt_succ _), hq, List.nil_append]
      refine congrArg _ ((State.runHandler_one (s := { s with queue := [_] })
        (State.canTake_of hr.handler hr.2.2.1) rfl).trans ?_)
      exact congrArg (State.serve · k r (handlerFor k)) (State.setQueue_self hq)
    exact ⟨hserve, fun c hc => hserve.trans (exec_request_ready hr hc).symm⟩
  case waits =>
    rw [hexec, State.enqueue_of_lt hl, State.runHandler_busy]
    exact State.canTake_eq_false hb
  case discarded =>
    rw [hexec, State.enqueue_of_le hl, State.runHandler_busy]
    exact State.raiseDevice_canTake hb

/-- Settles O9: each event that discards a message comes to `State.discardMessage`. -/
theorem discardedMessages : Obligations.DiscardedMessages := by
  unfold Obligations.DiscardedMessages
  intro s hs
  refine ⟨fun body w hrx h3 hmax hw => ?check, fun n hrx hn => ?length, fun hh => ?framing, fun hh => ?framingHunt,
    fun hh hg => ?gap, fun hh => ?gapNone⟩
  case check =>
    refine (hs.event fun x => x.receive _).trans (congrArg _ ?_)
    rw [State.receive_message hrx h3 hmax, if_neg fun he => hw (word2_inj he)]
    rfl
  case length =>
    refine (hs.event fun x => x.receive _).trans (congrArg _ ?_)
    rw [word2, State.receive_length hrx, State.lengthRead, if_neg]
    · rfl
    · have hl : Receiver.length ⟨.length, word2 n, [], [], 0⟩ = n.toNat := beNat_word2 n
      rw [word2] at hl
      omega
  case framing => exact (hs.event fun x => (x.receive []).framingError).trans (congrArg _ (if_neg hh))
  case framingHunt => exact (hs.event fun x => (x.receive []).framingError).trans (congrArg _ (if_pos hh))
  case gap =>
    refine (hs.event State.gapTimeout).trans (congrArg _ (if_pos ?_))
    simp [Receiver.gapOver, hh, Config.receiveGap, hg]
  case gapNone =>
    refine (hs.event State.gapTimeout).trans (congrArg _ (if_neg ?_))
    rw [Receiver.gapOver, Bool.and_eq_true, bne_iff_ne, decide_eq_true_eq, not_and]
    exact fun h => Nat.not_le.mpr (hh.resolve_left h)

/-- Settles O10: a part whose queue is empty goes on with its transmit order alone. -/
theorem nextMessage : Obligations.NextMessage := by
  unfold Obligations.NextMessage
  intro s hs hsend hq
  have hexec (tx : List TxItem) : exec .messageSent { s with txOrder := tx } =
      .next { s with sending := (startNext s.conds tx).1, txOrder := (startNext s.conds tx).2 } := by
    refine (State.AtRest.event (s := { s with txOrder := tx }) hs State.messageSent).trans (congrArg _ ?_)
    rw [State.messageSent, if_pos hsend]
    exact State.runHandler_nil hq
  refine ⟨fun h => ?empty, fun body rest h => ?reply, fun i rest h hn => ?notice, fun i rest h hn => ?withdrawn⟩
  case empty => exact (hexec s.txOrder).trans (by rw [h]; rfl)
  case reply => exact (hexec s.txOrder).trans (by rw [h]; rfl)
  case notice =>
    have hstart : startNext s.conds (.notice i :: rest) =
        (some (frameMessage (noticeBody i (s.cond i).notice)), rest) := if_neg hn
    exact (hexec s.txOrder).trans (by rw [h, hstart])
  case withdrawn =>
    have hstart : startNext s.conds (.notice i :: rest) = startNext s.conds rest := if_pos hn
    exact (hexec s.txOrder).trans ((by rw [h, hstart] : _ = _).trans (hexec rest).symm)

end Sys2Proof
end

section
/-!
PROOFS. The checks every request passes (O11), the check of a message (O12), and the requests that read (O13, O14).
-/

namespace Sys2Proof.Machine

/-! ## The checks of a kind -/

/-- A refusal changes nothing, and its reply carries no payload (R204, R206). -/
def RefusesPlainly (s : State) (a : State × Answer) : Prop :=
  ∀ (t : State) (code : Byte) (p : List Byte), a = (t, .reply code p) → code ≠ rOK → code ≠ rREDUNDANT → t = s ∧ p = []

theorem RefusesPlainly.refuse (s : State) (code : Byte) : RefusesPlainly s (refuse s code) := by
  intro t c p h _ _
  cases h
  exact ⟨rfl, rfl⟩

theorem RefusesPlainly.of_ok {s t : State} {p : List Byte} : RefusesPlainly s (answerOk t p) := by
  intro u c q h h0 _
  cases h
  exact absurd rfl h0

theorem RefusesPlainly.of_redundant {s t : State} {p : List Byte} : RefusesPlainly s (t, .reply rREDUNDANT p) := by
  intro u c q h _ h1
  cases h
  exact absurd rfl h1

theorem RefusesPlainly.ite {s : State} {a b : State × Answer} {c : Prop} [Decidable c] (ha : RefusesPlainly s a)
    (hb : RefusesPlainly s b) : RefusesPlainly s (if c then a else b) := by
  split
  · exact ha
  · exact hb

/-- A rule judges length and station field as its kind asks, ahead of everything else, and refuses plainly (R206). -/
structure ChecksAs (k : Byte) (h : Req → State → State × Answer) : Prop where
  malformed : ∀ r s, lengthOk k r = false → h r s = refuse s rMALFORMED
  badStation : ∀ r s, lengthOk k r = true → badStation k r = true → h r s = refuse s rBAD_STATION
  plain : ∀ r s, RefusesPlainly s (h r s)

theorem lengthOk_of_fixed {k : Byte} {n : Nat} (hk : fixedLength k = some n) (r : Req) :
    lengthOk k r = true ↔ r.payload.length = n := by
  simp only [lengthOk, hk, beq_iff_eq]

theorem badStation_device {k : Byte} (hd : deviceKinds.contains k = true) (hs : stationKinds.contains k = false)
    {r : Req} : badStation k r = true ↔ r.station ≠ deviceField := by
  simp only [badStation, hd, hs, Bool.true_and, Bool.false_and, Bool.or_false, Bool.or_eq_true, Bool.and_eq_true,
    bne_iff_ne]
  exact ⟨fun h => h.elim And.right id, .inr⟩

theorem badStation_station {k : Byte} (hd : deviceKinds.contains k = false) (hs : stationKinds.contains k = true)
    {r : Req} : badStation k r = true ↔ stationOf r.station = none := by
  simp only [badStation, hd, hs, Bool.true_and, Bool.false_and, Bool.or_false, Bool.or_eq_true, Bool.and_eq_true,
    Option.isNone_iff_eq_none]
  exact ⟨fun h => h.elim And.left id, .inr⟩

theorem badStation_owner {k : Byte} (hd : deviceKinds.contains k = false) (hs : stationKinds.contains k = false)
    {r : Req} : badStation k r = true ↔ stationOf r.station = none ∧ r.station ≠ deviceField := by
  simp only [badStation, hd, hs, Bool.false_and, Bool.or_false, Bool.and_eq_true, Option.isNone_iff_eq_none, bne_iff_ne]

/-! ## Rules by the form of their checks -/

theorem ChecksAs.device {k : Byte} {n : Nat} {f : Req → State → State × Answer} (hk : fixedLength k = some n)
    (hd : deviceKinds.contains k = true) (hs : stationKinds.contains k = false)
    (hf : ∀ r s, RefusesPlainly s (f r s)) : ChecksAs k fun r s => deviceRequest r n s (f r s) where
  malformed r s h := if_pos fun he => by rw [(lengthOk_of_fixed hk r).mpr he] at h; cases h
  badStation r s hl h := by
    rw [deviceRequest, if_neg (not_not.mpr ((lengthOk_of_fixed hk r).mp hl)), if_pos ((badStation_device hd hs).mp h)]
  plain r s := .ite (.refuse s _) (.ite (.refuse s _) (hf r s))

theorem ChecksAs.station {k : Byte} {n : Req → Nat} {f : Req → State → StationId → State × Answer}
    (hk : ∀ r, lengthOk k r = true ↔ r.payload.length = n r)
    (hd : deviceKinds.contains k = false) (hs : stationKinds.contains k = true)
    (hf : ∀ r s st, RefusesPlainly s (f r s st)) : ChecksAs k fun r s => stationRequest r (n r) s (f r s) where
  malformed r s h := if_pos fun he => by rw [(hk r).mpr he] at h; cases h
  badStation r s hl h := by
    rw [stationRequest, if_neg (not_not.mpr ((hk r).mp hl)), (badStation_station hd hs).mp h]
  plain r s := by
    unfold stationRequest
    refine .ite (.refuse s _) ?_
    split
    · exact .refuse s _
    · exact hf r s _

/-- Rules that read the station field by `g`, of a kind whose length is fixed. -/
theorem ChecksAs.of_field {α : Type} {k : Byte} {n : Nat} {g : Byte → Option α} {h : Req → State → State × Answer}
    (hk : fixedLength k = some n) (hd : deviceKinds.contains k = false) (hs : stationKinds.contains k = false)
    (hg : ∀ b : Byte, stationOf b = none → b ≠ deviceField → g b = none)
    (hlen : ∀ r s, r.payload.length ≠ n → h r s = refuse s rMALFORMED)
    (hfield : ∀ r s, r.payload.length = n → g r.station = none → h r s = refuse s rBAD_STATION)
    (hf : ∀ r s, RefusesPlainly s (h r s)) : ChecksAs k h where
  malformed r s hl := hlen r s fun he => by rw [(lengthOk_of_fixed hk r).mpr he] at hl; cases hl
  badStation r s hl hb := by
    obtain ⟨h1, h2⟩ := (badStation_owner hd hs).mp hb
    exact hfield r s ((lengthOk_of_fixed hk r).mp hl) (hg _ h1 h2)
  plain := hf

theorem ownerOf_eq_none {b : Byte} (hs : stationOf b = none) (hd : b ≠ deviceField) : ownerOf b = none := by
  rw [ownerOf, if_neg hd, hs, Option.map_none]

theorem namedStations_eq_none {b : Byte} (hs : stationOf b = none) (hd : b ≠ deviceField) : namedStations b = none := by
  rw [namedStations, if_neg hd, hs, Option.map_none]

theorem stationOf_eq_none {b : Byte} : stationOf b = none ↔ ¬ b.toNat < 6 := by
  unfold stationOf
  split <;> simp_all

theorem setOf_eq_none {b : Byte} (hs : stationOf b = none) (hd : b ≠ deviceField) : setOf b = none := by
  rw [setOf, if_neg (by exact hd), dif_neg (stationOf_eq_none.mp hs)]

/-! ## The rules, kind by kind -/

/-- The form in which a rule of a fixed length reads the station field of a station. -/
theorem ChecksAs.stationFixed {k : Byte} {n : Nat} {f : Req → State → StationId → State × Answer}
    (hk : fixedLength k = some n) (hd : deviceKinds.contains k = false) (hs : stationKinds.contains k = true)
    (hf : ∀ r s st, RefusesPlainly s (f r s st)) : ChecksAs k fun r s => stationRequest r n s (f r s) :=
  .station (n := fun _ => n) (lengthOk_of_fixed hk) hd hs hf

theorem ChecksAs.echo : ChecksAs 0x01 handleEcho where
  malformed r s h := if_pos (by simpa [lengthOk, fixedLength] using h)
  badStation r s hl h := by
    have hlen : ¬256 < r.payload.length := by simpa [lengthOk, fixedLength] using hl
    rw [handleEcho, if_neg hlen, if_pos ((badStation_device rfl rfl).mp h)]
  plain r s := .ite (.refuse s _) (.ite (.refuse s _) .of_ok)

theorem ChecksAs.deviceInfo : ChecksAs 0x02 handleDeviceInfo :=
  .device rfl rfl rfl fun r s => by
    split
    · exact .refuse s _
    · exact .of_ok

theorem ChecksAs.restart : ChecksAs 0x0F handleRestart := .device rfl rfl rfl fun _ _ => .of_ok

theorem ChecksAs.itemOpen : ChecksAs 0x10 handleItemOpen :=
  .of_field rfl rfl rfl (fun _ => ownerOf_eq_none) (fun _ _ h => if_pos h)
    (fun _ _ hl hg => by rw [handleItemOpen, if_neg (not_not.mpr hl), hg]) fun r s => .ite (.refuse s _) <| by
    split
    · exact .refuse s _
    · exact .ite (.refuse s _) (.ite (.refuse s _) (.ite .of_ok (.ite (.refuse s _) (.ite (.refuse s _) .of_ok))))

theorem ChecksAs.itemClose : ChecksAs 0x12 handleItemClose :=
  .of_field rfl rfl rfl (fun _ => ownerOf_eq_none) (fun _ _ h => if_pos h)
    (fun _ _ hl hg => by rw [handleItemClose, if_neg (not_not.mpr hl), hg]) fun r s => .ite (.refuse s _) <| by
    split
    · exact .refuse s _
    · simp only
      split
      · exact .ite (.refuse s _) .of_ok
      · exact .ite .of_redundant (.refuse s _)

theorem ChecksAs.itemDrop : ChecksAs 0x13 handleItemDrop :=
  .of_field rfl rfl rfl (fun _ => ownerOf_eq_none) (fun _ _ h => if_pos h)
    (fun _ _ hl hg => by rw [handleItemDrop, if_neg (not_not.mpr hl), hg]) fun r s => .ite (.refuse s _) <| by
    split
    · exact .refuse s _
    · simp only
      split
      · exact .of_ok
      · exact .ite .of_redundant (.refuse s _)

theorem ChecksAs.itemPurge : ChecksAs 0x14 handleItemPurge where
  malformed r s h := if_pos fun he => by rw [(lengthOk_of_fixed rfl r).mpr he] at h; cases h
  badStation r s hl h := by
    obtain ⟨h1, h2⟩ := (badStation_owner rfl rfl).mp h
    rw [handleItemPurge, if_neg (not_not.mpr ((lengthOk_of_fixed rfl r).mp hl)), if_pos]
    exact .inl (by rw [ownerOf_eq_none h1 h2]; rfl)
  plain r s := .ite (.refuse s _) (.ite (.refuse s _) (.ite (.refuse s _) .of_ok))

theorem RefusesPlainly.infoAnswer (s : State) (e : Option DirEntry) : RefusesPlainly s (infoAnswer s e) := by
  cases e
  · exact .refuse s _
  · exact .of_ok

theorem ChecksAs.itemInfo : ChecksAs 0x15 handleItemInfo :=
  .of_field rfl rfl rfl (fun _ => ownerOf_eq_none) (fun _ _ h => if_pos h)
    (fun _ _ hl hg => by rw [handleItemInfo, if_neg (not_not.mpr hl), hg]) fun r s => .ite (.refuse s _) <| by
    split
    · exact .refuse s _
    · exact .ite (.ite (.refuse s _) (.ite (.refuse s _) (.infoAnswer s _))) (.ite (.infoAnswer s _) (.refuse s _))

theorem ChecksAs.storeInfo : ChecksAs 0x16 handleStoreInfo := .device rfl rfl rfl fun _ _ => .of_ok

theorem ChecksAs.entryInsert : ChecksAs 0x20 handleEntryInsert :=
  .station (n := fun r => 31 + 8 * (insertForm r.payload).count) (fun _ => beq_iff_eq) rfl rfl fun _ s _ =>
    .ite (.refuse s _) (.ite (.refuse s _) (.ite (.refuse s _) (.ite (.refuse s _) .of_ok)))

theorem ChecksAs.entryRemove : ChecksAs 0x21 handleEntryRemove :=
  .stationFixed rfl rfl rfl fun _ s _ => by
    split
    · exact .refuse s _
    · exact .ite (.refuse s _) .of_ok

theorem ChecksAs.entryAmend : ChecksAs 0x22 handleEntryAmend :=
  .stationFixed rfl rfl rfl fun _ s _ => by
    simp only
    split
    · exact .ite (.refuse s _) (.refuse s _)
    · exact .ite (.refuse s _) (.ite (.refuse s _) (.ite (.refuse s _) (.ite (.refuse s _) .of_ok)))

theorem ChecksAs.listRead : ChecksAs 0x23 handleListRead :=
  .stationFixed rfl rfl rfl fun _ s _ => .ite (.refuse s _) .of_ok

theorem ChecksAs.listClear : ChecksAs 0x24 handleListClear := .stationFixed rfl rfl rfl fun _ _ _ => .of_ok

theorem ChecksAs.stationSet : ChecksAs 0x30 handleStationSet :=
  .stationFixed rfl rfl rfl fun _ s _ => .ite .of_ok (.refuse s _)

theorem ChecksAs.stationMode : ChecksAs 0x31 handleStationMode :=
  .stationFixed rfl rfl rfl fun _ s _ => by
    simp only
    split
    · exact .refuse s _
    · exact .ite (.refuse s _) (.ite .of_redundant .of_ok)

theorem ChecksAs.stationStatus : ChecksAs 0x32 handleStationStatus :=
  .stationFixed rfl rfl rfl fun _ s _ => by
    split
    · exact .refuse s _
    · exact .of_ok

theorem ChecksAs.take : ChecksAs 0x33 handleTake :=
  .stationFixed rfl rfl rfl fun _ s _ => by
    refine .ite (.refuse s _) (.ite (.refuse s _) (.ite (.refuse s _) ?_))
    split
    · exact .refuse s _
    · exact .ite (.refuse s _) (.ite (.refuse s _) (.ite .of_redundant .of_ok))

theorem ChecksAs.takeCancel : ChecksAs 0x34 handleTakeCancel :=
  .stationFixed rfl rfl rfl fun _ _ _ => .ite .of_ok .of_redundant

theorem ChecksAs.stop : ChecksAs 0x35 handleStop :=
  .stationFixed rfl rfl rfl fun _ s _ => .ite (.refuse s _) (.ite .of_redundant .of_ok)

theorem ChecksAs.resume : ChecksAs 0x36 handleResume :=
  .stationFixed rfl rfl rfl fun _ s _ => .ite .of_ok (.refuse s _)

theorem ChecksAs.setTime : ChecksAs 0x37 handleSetTime :=
  .of_field rfl rfl rfl (fun _ => namedStations_eq_none) (fun _ _ h => if_pos h)
    (fun _ _ hl hg => by rw [handleSetTime, if_neg (not_not.mpr hl), hg]) fun r s => .ite (.refuse s _) <| by
    split
    · exact .refuse s _
    · exact .ite (.refuse s _) .of_ok

theorem ChecksAs.refSelect : ChecksAs 0x40 handleRefSelect :=
  .device rfl rfl rfl fun _ s => by
    split
    · refine .ite (.refuse s _) ?_
      split
      · exact .of_redundant
      · exact .of_ok
    · exact .ite (.refuse s _) (.refuse s _)
    · exact .refuse s _

theorem ChecksAs.refCancel : ChecksAs 0x41 handleRefCancel :=
  .device rfl rfl rfl fun _ s => by
    split
    · exact .of_ok
    · exact .of_redundant

theorem ChecksAs.refStatus : ChecksAs 0x42 handleRefStatus := .device rfl rfl rfl fun _ _ => .of_ok

theorem ChecksAs.linkSet : ChecksAs 0x48 handleLinkSet :=
  .device rfl rfl rfl fun _ s => by
    split
    · refine .ite (.refuse s _) ?_
      split
      · exact .refuse s _
      · exact .ite (.refuse s _) (.ite .of_redundant .of_ok)
    · exact .refuse s _

theorem ChecksAs.linkAssign : ChecksAs 0x49 handleLinkAssign :=
  .stationFixed rfl rfl rfl fun _ s _ => by
    split
    · exact .ite (.refuse s _) (.ite .of_redundant .of_ok)
    · exact .refuse s _

theorem ChecksAs.linkStatus : ChecksAs 0x4A handleLinkStatus :=
  .device rfl rfl rfl fun _ s => by
    split
    · exact .of_ok
    · exact .refuse s _

theorem ChecksAs.asrunFetch : ChecksAs 0x50 handleAsrunFetch :=
  .device rfl rfl rfl fun _ s => .ite (.refuse s _) .of_ok

theorem ChecksAs.faultRead : ChecksAs 0x51 handleFaultRead :=
  .stationFixed rfl rfl rfl fun _ s _ => by
    split
    · exact .refuse s _
    · exact .of_ok

theorem ChecksAs.condClear : ChecksAs 0x52 handleCondClear :=
  .of_field rfl rfl rfl (fun _ => setOf_eq_none) (fun _ _ h => if_pos h)
    (fun _ _ hl hg => by rw [handleCondClear, setRequest, if_neg (not_not.mpr hl), hg]) fun r s => .ite (.refuse s _) <| by
    split
    · exact .refuse s _
    · exact .ite .of_ok (.refuse s _)

theorem ChecksAs.noticeMask : ChecksAs 0x53 handleNoticeMask :=
  .of_field rfl rfl rfl (fun _ => setOf_eq_none) (fun _ _ h => if_pos h)
    (fun _ _ hl hg => by rw [handleNoticeMask, setRequest, if_neg (not_not.mpr hl), hg]) fun r s => .ite (.refuse s _) <| by
    split
    · exact .refuse s _
    · exact .ite (.ite .of_redundant .of_ok) (.refuse s _)

theorem handlerFor_unknown {k : Byte} (h : catalogue.contains k = false) : handlerFor k = handleUnknown := by
  unfold handlerFor
  split
  case h_34 => rfl
  all_goals
    rename_i hk
    have he : k = BitVec.ofNat 8 k.toNat := ((BitVec.ofNat_toNat 8 k).trans (BitVec.setWidth_eq k)).symm
    rw [hk] at he
    rw [he] at h
    exact absurd h (by decide)

/-- Every kind of the catalogue but ITEM_DATA's judges length and station field first. -/
theorem handlerFor_checksAs {k : Byte} (h : catalogue.contains k = true) (hk : k ≠ 0x11) : ChecksAs k (handlerFor k) := by
  simp only [catalogue, List.contains_iff_mem, List.mem_cons, List.not_mem_nil, or_false] at h
  rcases h with h | h | h | h | h | h | h | h | h | h | h | h | h | h | h | h | h | h | h | h | h | h | h | h | h | h | h |
    h | h | h | h | h | h <;> subst h
  · exact .echo
  · exact .deviceInfo
  · exact .restart
  · exact .itemOpen
  · exact absurd rfl hk
  · exact .itemClose
  · exact .itemDrop
  · exact .itemPurge
  · exact .itemInfo
  · exact .storeInfo
  · exact .entryInsert
  · exact .entryRemove
  · exact .entryAmend
  · exact .listRead
  · exact .listClear
  · exact .stationSet
  · exact .stationMode
  · exact .stationStatus
  · exact .take
  · exact .takeCancel
  · exact .stop
  · exact .resume
  · exact .setTime
  · exact .refSelect
  · exact .refCancel
  · exact .refStatus
  · exact .linkSet
  · exact .linkAssign
  · exact .linkStatus
  · exact .asrunFetch
  · exact .faultRead
  · exact .condClear
  · exact .noticeMask

/-- A refused ITEM_DATA changes nothing. -/
theorem handleItemData_refused {r : Req} {s t : State} {code : Byte} {p : List Byte}
    (h : handleItemData r s = (t, .reply code p)) : t = s := by
  have hsame : (handleItemData r s).1 = s ∨ (handleItemData r s).2 = .held := by
    unfold handleItemData
    simp only
    split
    · exact .inl rfl
    · split
      · exact .inl rfl
      · split
        · exact .inl rfl
        · split
          · exact .inl rfl
          · split
            · exact .inl rfl
            · exact .inr rfl
  rw [h] at hsame
  exact hsame.resolve_right (fun he => by cases he)

end Sys2Proof.Machine

namespace Sys2Proof

open Machine

/-- Settles O11: each kind's rule has the form of `ChecksAs`; what is refused leaves the handler's state as taken. -/
theorem requestChecks : Obligations.RequestChecks := by
  unfold Obligations.RequestChecks
  intro s c k r hs hc
  refine ⟨fun hk => ?unknown, fun hk hne hl => ?malformed, fun hk hne hl hb => ?badStation,
    fun t code p ha h0 h1 => ?refused⟩
  case unknown => exact exec_request_same hs hc (by rw [handlerFor_unknown hk]; rfl)
  case malformed => exact exec_request_same hs hc ((handlerFor_checksAs hk hne).malformed r _ hl)
  case badStation => exact exec_request_same hs hc ((handlerFor_checksAs hk hne).badStation r _ hl hb)
  case refused =>
    have hsame : t = s.working ∧ (k ≠ 0x11 → p = []) := by
      by_cases hk : k = 0x11
      · subst hk
        exact ⟨handleItemData_refused ha, fun h => absurd rfl h⟩
      · cases hcat : catalogue.contains k with
        | true => exact ((handlerFor_checksAs hcat hk).plain r _ t code p ha h0 h1).imp id fun h _ => h
        | false =>
          rw [handlerFor_unknown hcat] at ha
          exact (RefusesPlainly.refuse _ _ t code p ha h0 h1).imp id fun h _ => h
    exact ⟨exec_request_same hs hc (hsame.1 ▸ ha), hsame.2⟩

end Sys2Proof
end

section
/-!
PROOFS. The check over a message (O12): it is linear over exclusive or, it takes a nonzero register to a nonzero one, and
it runs out on its own bytes.
-/

namespace Sys2Proof.Machine

/-- A bit that meets the register's own top bit is shifted out without a trace. -/
theorem checkBit_msb (reg : BitVec 16) : checkBit reg reg.msb = reg <<< (1 : Nat) := by
  simp [checkBit]

theorem checkBit_xor (r q : BitVec 16) (b c : Bool) :
    checkBit (r ^^^ q) (b ^^ c) = checkBit r b ^^^ checkBit q c := by
  have hbit : ((b ^^ c) ^^ (r ^^^ q).msb) = ((b ^^ r.msb) ^^ (c ^^ q.msb)) := by
    rw [BitVec.msb_xor]
    cases b <;> cases c <;> simp
  simp only [checkBit, hbit, BitVec.shiftLeft_xor_distrib]
  cases b ^^ r.msb <;> cases c ^^ q.msb
  · rfl
  · exact (BitVec.xor_assoc ..)
  · simp only [if_true, if_false, Bool.bne_false, Bool.false_eq_true]; ac_rfl
  · have hac (a b c : BitVec 16) : (a ^^^ c) ^^^ (b ^^^ c) = (a ^^^ b) ^^^ (c ^^^ c) := by ac_rfl
    exact ((hac _ _ _).trans (by rw [BitVec.xor_self, BitVec.xor_zero]; rfl)).symm

theorem foldl_checkBit_xor (is : List Nat) (r q : BitVec 16) (x y : Byte) :
    is.foldl (fun reg i => checkBit reg ((x ^^^ y).getLsbD i)) (r ^^^ q) =
      is.foldl (fun reg i => checkBit reg (x.getLsbD i)) r ^^^ is.foldl (fun reg i => checkBit reg (y.getLsbD i)) q := by
  induction is generalizing r q with
  | nil => rfl
  | cons i is ih => rw [List.foldl_cons, BitVec.getLsbD_xor, checkBit_xor, ih]; rfl

theorem checkByte_xor (r q : BitVec 16) (x y : Byte) :
    checkByte (r ^^^ q) (x ^^^ y) = checkByte r x ^^^ checkByte q y := foldl_checkBit_xor _ r q x y

/-- The divisor's lowest bit is set, so that no register but 0 is taken to 0. -/
theorem checkBit_eq_zero {z : BitVec 16} (h : checkBit z false = 0) : z = 0 := by
  unfold checkBit at h
  split at h
  · have hbit := congrArg (BitVec.getLsbD · 0) h
    simp at hbit
  · rename_i hm
    have hm' : z.msb = false := by simpa using hm
    have h1 := congrArg BitVec.toNat h
    rw [BitVec.msb_eq_false_iff_two_mul_lt] at hm'
    simp only [BitVec.toNat_shiftLeft, Nat.shiftLeft_eq] at h1
    refine BitVec.eq_of_toNat_eq ?_
    simp at h1 ⊢
    omega

theorem foldl_checkBit_eq_zero {is : List Nat} {z : BitVec 16}
    (h : is.foldl (fun reg i => checkBit reg ((0 : Byte).getLsbD i)) z = 0) : z = 0 := by
  induction is generalizing z with
  | nil => exact h
  | cons i is ih =>
    refine checkBit_eq_zero (ih ?_)
    simpa using h

theorem checkByte_inj_register {r q : BitVec 16} {b : Byte} (h : checkByte r b = checkByte q b) : r = q := by
  have hz : checkByte (r ^^^ q) 0 = 0 := by
    rw [← show b ^^^ b = 0 from BitVec.xor_self, checkByte_xor, h]; exact BitVec.xor_self
  exact BitVec.xor_eq_zero_iff.mp (foldl_checkBit_eq_zero hz)

theorem checkByte_zero_eq_zero : ∀ z : Byte, checkByte 0 z = 0 → z = 0 := by decide

theorem checkByte_inj_byte {r : BitVec 16} {x y : Byte} (h : checkByte r x = checkByte r y) : x = y := by
  have hz : checkByte 0 (x ^^^ y) = 0 := by
    rw [← show r ^^^ r = 0 from BitVec.xor_self, checkByte_xor, h]; exact BitVec.xor_self.trans BitVec.xor_self.symm
  exact BitVec.xor_eq_zero_iff.mp (checkByte_zero_eq_zero _ hz)

theorem foldl_checkByte_inj {bs : List Byte} {r q : BitVec 16} (h : bs.foldl checkByte r = bs.foldl checkByte q) :
    r = q := by
  induction bs generalizing r q with
  | nil => exact h
  | cons b bs ih => exact checkByte_inj_register (ih h)

/-- Bit by bit the register's own bits, most significant first, shift it out. -/
theorem checkBit_shift (reg : BitVec 16) (n : Nat) (hn : n < 16) :
    checkBit (reg <<< n) (reg.getLsbD (15 - n)) = reg <<< (n + 1) := by
  have hm : (reg <<< n).msb = reg.getLsbD (15 - n) := by
    rw [BitVec.msb_eq_getLsbD_last, BitVec.getLsbD_shiftLeft]
    simp [show ¬ (15 < n) by omega]
  rw [← hm, checkBit_msb, ← BitVec.shiftLeft_add]

theorem checkByte_shift {reg : BitVec 16} {b : Byte} {n : Nat} (hn : n ≤ 8)
    (hb : ∀ i, i < 8 → b.getLsbD i = reg.getLsbD (8 - n + i)) : checkByte (reg <<< n) b = reg <<< (n + 8) := by
  have step (i j k : Nat) (hij : i + j = 7) (hk : k = j + 1) :
      checkBit (reg <<< (n + j)) (b.getLsbD i) = reg <<< (n + k) := by
    rw [hb i (by omega), show 8 - n + i = 15 - (n + j) by omega, checkBit_shift reg _ (by omega), hk]
    rfl
  have h0 : reg <<< n = reg <<< (n + 0) := rfl
  simp only [checkByte, List.foldl_cons, List.foldl_nil]
  rw [h0, step 7 0 1 rfl rfl, step 6 1 2 rfl rfl, step 5 2 3 rfl rfl, step 4 3 4 rfl rfl, step 3 4 5 rfl rfl,
    step 2 5 6 rfl rfl, step 1 6 7 rfl rfl, step 0 7 8 rfl rfl]

/-- The check runs out on its own two bytes. -/
theorem foldl_checkByte_word2 (reg : BitVec 16) : (word2 reg).foldl checkByte reg = 0 := by
  have hhigh : checkByte reg (reg.extractLsb' 8 8) = reg <<< 8 := by
    have h := checkByte_shift (reg := reg) (b := reg.extractLsb' 8 8) (n := 0) (by omega) fun i hi => by
      rw [BitVec.getLsbD_extractLsb']; simp [hi]
    rwa [BitVec.shiftLeft_zero] at h
  have hlow : checkByte (reg <<< 8) (reg.extractLsb' 0 8) = reg <<< 16 :=
    checkByte_shift (n := 8) le_rfl fun i hi => by rw [BitVec.getLsbD_extractLsb']; simp [hi]
  rw [word2, List.foldl_cons, List.foldl_cons, List.foldl_nil, hhigh, hlow]
  exact BitVec.shiftLeft_eq_zero le_rfl

end Sys2Proof.Machine

namespace Sys2Proof

open Machine

/-- Settles O12: the check shifts its own two bytes out, and what differs after one byte differs to the end. -/
theorem checkCatchesByte : Obligations.CheckCatchesByte := by
  unfold Obligations.CheckCatchesByte
  refine ⟨fun body => ?_, fun front back x y hxy h => hxy ?_⟩
  · rw [check, List.foldl_append]
    exact foldl_checkByte_word2 _
  · simp only [check, List.foldl_append, List.foldl_cons] at h
    exact checkByte_inj_byte (foldl_checkByte_inj h)

end Sys2Proof
end

section
/-!
PROOFS. The requests that read (O13), and those that clear as they read (O14).
-/

namespace Sys2Proof.Machine

/-- A request that changes more than the handler, but nothing that a re-evaluation hangs on (R203). -/
theorem exec_request_effect {s : State} (h : s.Ready) {c : Instr} {k : Byte} {r : Req} (hc : c.request = some (k, r))
    {f : State → State} (hf : ∀ x, f { s with handler := x } = { f s with handler := x })
    (hclean : ∀ st : StationId, ((f s).station st).dirty = false) {code : Byte} {p : List Byte}
    (ha : handlerFor k r s.working = (f s.working, .reply code p)) :
    exec c s = .next ((f s).answered k r code p) := by
  have hw : f s.working = { f s with handler := .working } := hf .working
  have hs : ({ f s with handler := .ready } : State) = f s := by
    have hr : ({ s with handler := .ready } : State) = s := by rw [← h.handler]
    rw [← hf .ready, hr]
  rw [exec_request_ready h hc, ha, Answer.after, State.replied_clean (by rw [hw]; exact hclean) (by rw [hw]), hw]
  exact congrArg (fun x => Host.Outcome.next (State.answered x k r code p)) hs

/-! ## Requests that pass the checks of length and station field -/

theorem deviceRequest_pass {r : Req} {n : Nat} (hl : r.payload.length = n) (hs : r.station = 0xFF) (s : State)
    (f : State × Answer) : deviceRequest r n s f = f := by
  rw [deviceRequest, if_neg (not_not.mpr hl), if_neg (not_not.mpr (by exact hs))]

theorem stationRequest_pass {r : Req} {n : Nat} {st : StationId} (hl : r.payload.length = n)
    (hs : stationOf r.station = some st) (s : State) (f : StationId → State × Answer) :
    stationRequest r n s f = f st := by
  rw [stationRequest, if_neg (not_not.mpr hl), hs]

theorem length_of_eq_singleton {p : List Byte} {b : Byte} (h : p = [b]) : p.length = 1 := by rw [h]; rfl

theorem toBytes_one (v : Nat) : toBytes 1 v = [BitVec.ofNat 8 v] := by
  rw [toBytes, toBytes, pow_zero, Nat.div_one]

theorem State.infoBytes_eq {s : State} (hq : s.queue = []) :
    s.infoBytes = [0x18, 0x38, 1, BitVec.ofNat 8 s.straps.val] ++ toBytes 4 s.badMessages.toNat ++ [0] ++
      toBytes 6 s.house.toNat := by
  rw [State.infoBytes, hq, toBytes_one s.straps.val]
  rfl

theorem clearOf_byteAt {p : List Byte} {b : Byte} (h : p = [b]) : clearOf (byteAt p 0) = clearOf b := by rw [h]; rfl

end Sys2Proof.Machine

namespace Sys2Proof

open Machine

/-- Settles O13: each rule by its branch for a request in range, with the part as it stands before it. -/
theorem readersAnswer : Obligations.ReadersAnswer := by
  unfold Obligations.ReadersAnswer
  intro s r hr
  refine ⟨fun hl hs => ?echo, fun hp hs => ?deviceInfo, fun hp hs => ?storeInfo, fun e hl hs hf hslot he => ?bySlot,
    fun e owner hl hs hf he => ?byKey, fun st hl hs hpos => ?listRead, fun st hp hs => ?stationStatus,
    fun hp hs => ?refStatus, fun l hp hs => ?linkStatus, fun st hp hs => ?faultRead⟩
  case echo =>
    refine exec_request_same hr rfl (?_ : handleEcho r s.working = _)
    rw [handleEcho, if_neg (Nat.not_lt.mpr hl), if_neg (not_not.mpr (by exact hs))]
    rfl
  case deviceInfo =>
    refine exec_request_same hr rfl (?_ : handleDeviceInfo r s.working = _)
    rw [handleDeviceInfo, deviceRequest_pass (length_of_eq_singleton hp) hs, clearOf_byteAt hp]
    exact congrArg (fun p => (s.working, Answer.reply rOK p)) (State.infoBytes_eq hr.2.2.2.1)
  case storeInfo =>
    refine exec_request_same hr rfl (?_ : handleStoreInfo r s.working = _)
    rw [handleStoreInfo, deviceRequest_pass (by rw [hp]; rfl) hs]
    rfl
  case bySlot =>
    refine exec_request_same hr rfl (?_ : handleItemInfo r s.working = _)
    have hown : ownerOf r.station = some none := by rw [hs]; rfl
    have hin : ¬Config.slotCount ≤ field r.payload 1 2 := Nat.not_le.mpr (Nat.lt_succ_of_le hslot)
    have he' : s.working.entryAt (field r.payload 1 2) = some e := he
    simp only [handleItemInfo, hl, ne_eq, not_true_eq_false, if_false, hown, hf, if_true, hin, he']
    exact if_neg (not_not.mpr hs)
  case byKey =>
    refine exec_request_same hr rfl (?_ : handleItemInfo r s.working = _)
    have he' : s.working.keyed (field r.payload 3 4) owner (· != .dropping) = some e := he
    simp only [handleItemInfo, hl, ne_eq, not_true_eq_false, if_false, hs, hf, Nat.one_ne_zero, if_true, State.infoByKey,
      he']
    rfl
  case listRead =>
    refine exec_request_same hr rfl (?_ : handleListRead r s.working = _)
    rw [handleListRead, stationRequest_pass hl hs]
    exact if_neg (Nat.not_lt.mpr hpos)
  case stationStatus =>
    refine exec_request_same hr rfl (?_ : handleStationStatus r s.working = _)
    rw [handleStationStatus, stationRequest_pass (length_of_eq_singleton hp) hs, clearOf_byteAt hp]
    rfl
  case refStatus =>
    refine exec_request_same hr rfl (?_ : handleRefStatus r s.working = _)
    rw [handleRefStatus, deviceRequest_pass (by rw [hp]; rfl) hs]
    rfl
  case linkStatus =>
    refine exec_request_same hr rfl (?_ : handleLinkStatus r s.working = _)
    rw [handleLinkStatus, deviceRequest_pass (by rw [hp]; rfl) hs, hp]
    cases l <;> rfl
  case faultRead =>
    refine exec_request_same hr rfl (?_ : handleFaultRead r s.working = _)
    rw [handleFaultRead, stationRequest_pass (length_of_eq_singleton hp) hs, clearOf_byteAt hp]
    rfl

/-- Settles O14: the effect of each request is a change that leaves every station without a re-evaluation owed. -/
theorem clearingReads : Obligations.ClearingReads := by
  unfold Obligations.ClearingReads
  intro s r hr
  have clean {st u : StationId} {f : Station → Station} (hf : ∀ x, (f x).dirty = x.dirty) :
      ((s.modStation st f).station u).dirty = false := by
    by_cases h : st = u
    · subst h; rw [State.modStation_station, hf]; exact hr.clean st
    · rw [State.modStation_station_ne s f h]; exact hr.clean u
  refine ⟨fun hp hs => ?deviceInfo, fun st hp hs => ?stationStatus, fun l hp hs => ?linkStatus,
    fun st hp hs => ?faultRead⟩
  case deviceInfo =>
    refine exec_request_effect hr rfl (f := fun x => { x with badMessages := 0 }) (fun _ => rfl) hr.clean
      (?_ : handleDeviceInfo r s.working = _)
    rw [handleDeviceInfo, deviceRequest_pass (length_of_eq_singleton hp) hs, clearOf_byteAt hp]
    rfl
  case stationStatus =>
    refine exec_request_effect hr rfl (f := fun x => x.modStation st fun y => { y with clips := 0 }) (fun _ => rfl)
      (fun _ => clean fun _ => rfl) (?_ : handleStationStatus r s.working = _)
    rw [handleStationStatus, stationRequest_pass (length_of_eq_singleton hp) hs, clearOf_byteAt hp]
    rfl
  case linkStatus =>
    refine exec_request_effect hr rfl
      (f := fun x => x.setLink l { x.link l with alignments := 0, repeats := 0, drops := 0 })
      (fun _ => by cases l <;> rfl) (fun _ => by cases l <;> exact hr.clean _)
      (?_ : handleLinkStatus r s.working = _)
    rw [handleLinkStatus, deviceRequest_pass (by rw [hp]; rfl) hs, hp]
    cases l <;> rfl
  case faultRead =>
    refine exec_request_effect hr rfl (f := fun x => x.modStation st fun y => { y with fault := none }) (fun _ => rfl)
      (fun _ => clean fun _ => rfl) (?_ : handleFaultRead r s.working = _)
    rw [handleFaultRead, stationRequest_pass (length_of_eq_singleton hp) hs, clearOf_byteAt hp]
    rfl

end Sys2Proof
end

section
/-!
PROOFS. What re-evaluations leave alone (O58), the choice of the deck grant arbiter (O54), and the fit plan (O47).
-/

namespace Sys2Proof.Machine

/-! ## Re-evaluations -/

theorem Reevaluated.settleLoop {n : Nat} {s : State} : Reevaluated s (settleLoop n s) := by
  induction n generalizing s with
  | zero => exact Reevaluated.refl _
  | succ n ih =>
    unfold Machine.settleLoop
    split
    · exact Reevaluated.refl _
    · exact Reevaluated.reevaluate.trans ih

theorem Reevaluated.settlePool (s : State) : Reevaluated s s.settlePool := Reevaluated.settleLoop

/-! ## The deck grant arbiter -/

/-- The request `r` at index `i` of `rs` has the smallest key, and is the earliest with it. -/
def FirstLeast (rs : List DeckRequest) (i : Nat) (r : DeckRequest) : Prop :=
  rs[i]? = some r ∧ ∀ (j : Nat) (q : DeckRequest), rs[j]? = some q → r.key < q.key ∨ r.key = q.key ∧ i ≤ j

theorem FirstLeast.concat_of_le {rs : List DeckRequest} {i : Nat} {r x : DeckRequest} (h : FirstLeast rs i r)
    (hx : r.key ≤ x.key) : FirstLeast (rs ++ [x]) i r := by
  have hi : i < rs.length := (List.getElem?_eq_some_iff.mp h.1).1
  refine ⟨by rw [List.getElem?_append_left hi]; exact h.1, fun j q hq => ?_⟩
  rcases Nat.lt_or_ge j rs.length with hj | hj
  · rw [List.getElem?_append_left hj] at hq
    exact h.2 j q hq
  · rw [List.getElem?_append_right hj, List.getElem?_singleton] at hq
    split at hq
    · cases hq
      exact hx.lt_or_eq.imp_right fun e => ⟨e, by omega⟩
    · cases hq

theorem FirstLeast.concat_new {rs : List DeckRequest} {x : DeckRequest} (h : ∀ q ∈ rs, x.key < q.key) :
    FirstLeast (rs ++ [x]) rs.length x := by
  refine ⟨by simp, fun j q hq => ?_⟩
  rcases Nat.lt_or_ge j rs.length with hj | hj
  · rw [List.getElem?_append_left hj] at hq
    exact .inl (h q (List.mem_of_getElem? hq))
  · rw [List.getElem?_append_right hj, List.getElem?_singleton] at hq
    split at hq
    · cases hq
      exact .inr ⟨rfl, hj⟩
    · cases hq

theorem FirstLeast.le {rs : List DeckRequest} {i : Nat} {r q : DeckRequest} (h : FirstLeast rs i r) (hq : q ∈ rs) :
    r.key ≤ q.key := by
  obtain ⟨j, hj⟩ := List.getElem?_of_mem hq
  exact (h.2 j q hj).elim Nat.le_of_lt fun e => e.1.le

theorem betterRequest_ne_none (acc : Option (StationId × DeckRequest)) (st : StationId) (r : DeckRequest) :
    betterRequest acc st r ≠ none := by
  unfold betterRequest
  split
  · simp
  · split <;> simp

/-- One station's requests, taken in turn from a choice so far: what is chosen then. -/
theorem foldl_betterRequest (acc : Option (StationId × DeckRequest)) (st : StationId) (rs : List DeckRequest) :
    (rs.foldl (fun a r => betterRequest a st r) acc = none ↔ acc = none ∧ rs = []) ∧
    ∀ (u : StationId) (r : DeckRequest), rs.foldl (fun a r => betterRequest a st r) acc = some (u, r) →
      (acc = some (u, r) ∧ ∀ q ∈ rs, r.key ≤ q.key) ∨
        (u = st ∧ (∃ i, FirstLeast rs i r) ∧ ∀ v q, acc = some (v, q) → r.key < q.key) := by
  induction rs using List.reverseRecOn with
  | nil => exact ⟨by simp, fun u r h => .inl ⟨h, by simp⟩⟩
  | append_singleton rs x ih =>
    obtain ⟨hnone, hsome⟩ := ih
    rw [List.foldl_append, List.foldl_cons, List.foldl_nil]
    refine ⟨by simp [betterRequest_ne_none], fun u r h => ?_⟩
    generalize rs.foldl (fun a r => betterRequest a st r) acc = c at h hnone hsome
    match c, h with
    | none, h =>
      obtain ⟨rfl, rfl⟩ := hnone.mp rfl
      cases h
      exact .inr ⟨rfl, ⟨0, FirstLeast.concat_new (by simp)⟩, by simp⟩
    | some (v, q), h =>
      have hc := hsome v q rfl
      simp only [betterRequest] at h
      split at h
      next hlt =>
        cases h
        refine .inr ⟨rfl, ?_⟩
        obtain ⟨ha, hle⟩ | ⟨-, ⟨i, hi⟩, hacc⟩ := hc
        · refine ⟨⟨_, FirstLeast.concat_new fun y hy => lt_of_lt_of_le hlt (hle y hy)⟩, fun w y hy => ?_⟩
          rw [ha] at hy
          cases hy
          exact hlt
        · exact ⟨⟨_, FirstLeast.concat_new fun y hy => lt_of_lt_of_le hlt (hi.le hy)⟩,
            fun w y hy => hlt.trans (hacc w y hy)⟩
      next hge =>
        cases h
        obtain ⟨ha, hle⟩ | ⟨hu, ⟨i, hi⟩, hacc⟩ := hc
        · refine .inl ⟨ha, fun y hy => ?_⟩
          rcases List.mem_append.mp hy with hy | hy
          · exact hle y hy
          · cases List.mem_singleton.mp hy
            exact Nat.not_lt.mp hge
        · exact .inr ⟨hu, ⟨i, hi.concat_of_le (Nat.not_lt.mp hge)⟩, hacc⟩

/-- The stations of a list in rising order, taken in turn: what is chosen of their requests. -/
theorem foldl_bestRequest (s : State) (l : List StationId) (hl : l.Pairwise (· < ·)) :
    let c := l.foldl (fun acc st => (s.station st).requests.foldl (fun a r => betterRequest a st r) acc) none
    (c = none ↔ ∀ u ∈ l, (s.station u).requests = []) ∧
    ∀ (st : StationId) (r : DeckRequest), c = some (st, r) →
      st ∈ l ∧ ∃ i : Nat, (s.station st).requests[i]? = some r ∧
        ∀ u ∈ l, ∀ (j : Nat) (q : DeckRequest), (s.station u).requests[j]? = some q →
          r.key < q.key ∨ r.key = q.key ∧ (st < u ∨ st = u ∧ i ≤ j) := by
  induction l using List.reverseRecOn with
  | nil => simp
  | append_singleton l a ih =>
    obtain ⟨hl, -, hla⟩ := List.pairwise_append.mp hl
    obtain ⟨hnone, hsome⟩ := ih hl
    simp only [List.foldl_append, List.foldl_cons, List.foldl_nil] at *
    generalize l.foldl (fun acc st => (s.station st).requests.foldl (fun a r => betterRequest a st r) acc) none = c at *
    obtain ⟨hn, hs⟩ := foldl_betterRequest c a (s.station a).requests
    refine ⟨?_, fun st r h => ?_⟩
    · rw [hn, hnone]
      simp [or_imp, forall_and]
    · obtain ⟨hc, hle⟩ | ⟨rfl, ⟨i, hi⟩, hacc⟩ := hs st r h
      · obtain ⟨hm, i, hi, hmin⟩ := hsome st r hc
        refine ⟨List.mem_append_left _ hm, i, hi, fun u hu j q hq => ?_⟩
        rcases List.mem_append.mp hu with hu | hu
        · exact hmin u hu j q hq
        · cases List.mem_singleton.mp hu
          exact (hle q (List.mem_of_getElem? hq)).lt_or_eq.imp_right fun e => ⟨e, .inl (hla st hm _ (by simp))⟩
      · refine ⟨by simp, i, hi.1, fun u hu j q hq => ?_⟩
        rcases List.mem_append.mp hu with hu | hu
        · match c, hacc, hnone, hsome with
          | none, _, hnone, _ =>
            rw [hnone.mp rfl u hu] at hq
            cases hq
          | some (v, x), hacc, _, hsome =>
            obtain ⟨-, k, -, hmin⟩ := hsome v x rfl
            refine .inl (lt_of_lt_of_le (hacc v x rfl) ?_)
            exact (hmin u hu j q hq).elim Nat.le_of_lt fun e => e.1.le
        · cases List.mem_singleton.mp hu
          exact (hi.2 j q hq).imp_right fun e => ⟨e.1, .inr ⟨rfl, e.2⟩⟩

theorem allStations_sorted : allStations.Pairwise (· < ·) := by decide

theorem allDecks_sorted : allDecks.Pairwise (· < ·) := by decide

theorem State.freeDeckNo_eq_some {s : State} {d : DeckId} : s.freeDeckNo = some d ↔
    (s.deck d).player.state = .free ∧ ∀ q : DeckId, q < d → (s.deck q).player.state ≠ .free := by
  unfold State.freeDeckNo
  rw [List.find?_eq_some_iff_append]
  constructor
  · rintro ⟨hd, as, bs, hl, has⟩
    refine ⟨by simpa using hd, fun q hq hf => ?_⟩
    have hs := allDecks_sorted
    rw [hl] at hs
    have hm : q ∈ as ++ d :: bs := hl ▸ mem_allDecks q
    rcases List.mem_append.mp hm with hm | hm
    · simpa [hf] using has q hm
    · rcases List.mem_cons.mp hm with rfl | hm
      · exact lt_irrefl _ hq
      · exact lt_asymm hq ((List.pairwise_cons.mp (List.pairwise_append.mp hs).2.1).1 q hm)
  · rintro ⟨hd, hmin⟩
    obtain ⟨as, bs, hl⟩ := List.append_of_mem (mem_allDecks d)
    refine ⟨by simpa using hd, as, bs, hl, fun q hq => ?_⟩
    have hs := allDecks_sorted
    rw [hl] at hs
    simpa using hmin q ((List.pairwise_append.mp hs).2.2 q hq d (by simp))

/-! ## The fit plan -/

theorem planSpot_sum (d sum : Nat) (p : Spot) (q : Option Planned) :
    sum + (planSpot d sum p q).1.includedLength = (planSpot d sum p q).2 := by
  unfold planSpot
  split
  · simp [Spot.includedLength]
  · split
    · simp [Spot.includedLength]
    · split <;> simp [Spot.includedLength]

theorem planSpot_le {d sum : Nat} (h : sum ≤ d) (p : Spot) (q : Option Planned) : (planSpot d sum p q).2 ≤ d := by
  unfold planSpot
  split
  · exact h
  · split
    · exact h
    · split <;> assumption

theorem planWalk_cons (d sum : Nat) (x : Spot × Option Planned) (l : List (Spot × Option Planned)) :
    planWalk d sum (x :: l) = ((planSpot d sum x.1 x.2).1 :: (planWalk d (planSpot d sum x.1 x.2).2 l).1,
      (planWalk d (planSpot d sum x.1 x.2).2 l).2) := rfl

theorem planWalk_length (d sum : Nat) (l : List (Spot × Option Planned)) : (planWalk d sum l).1.length = l.length := by
  induction l generalizing sum with
  | nil => rfl
  | cons x l ih => simp only [planWalk_cons, List.length_cons, ih]

theorem planWalk_sum (d sum : Nat) (l : List (Spot × Option Planned)) :
    sum + ((planWalk d sum l).1.map Spot.includedLength).sum = (planWalk d sum l).2 := by
  induction l generalizing sum with
  | nil => rfl
  | cons x l ih => simp only [planWalk_cons, List.map_cons, List.sum_cons, ← ih, ← planSpot_sum, Nat.add_assoc]

theorem planWalk_le {d sum : Nat} (h : sum ≤ d) (l : List (Spot × Option Planned)) : (planWalk d sum l).2 ≤ d := by
  induction l generalizing sum with
  | nil => exact h
  | cons x l ih => exact ih (planSpot_le h _ _)

/-- Each spot is judged by the sum of the INCLUDED lengths ahead of it. -/
theorem planWalk_getElem? (d sum : Nat) (l : List (Spot × Option Planned)) (i : Nat) :
    (planWalk d sum l).1[i]? = l[i]?.map fun x =>
      (planSpot d (sum + (((planWalk d sum l).1.take i).map Spot.includedLength).sum) x.1 x.2).1 := by
  induction l generalizing sum i with
  | nil => rfl
  | cons x l ih =>
    cases i with
    | zero => rfl
    | succ i =>
      simp only [planWalk_cons, List.getElem?_cons_succ, ih, List.take_succ_cons, List.map_cons, List.sum_cons,
        ← Nat.add_assoc, planSpot_sum]

theorem planSpot_judged (d sum : Nat) (o : Spot) (q : Option Planned) :
    ((planSpot d sum o q).1.plan = .missing ↔ q = none) ∧
    ((planSpot d sum o q).1.plan = .wrongKind ↔ ∃ x : Planned, q = some x ∧ x.category ≠ .spot) ∧
    ((planSpot d sum o q).1.plan = .included ↔
      ∃ x : Planned, q = some x ∧ x.category = .spot ∧ sum + x.effective ≤ d) ∧
    ((planSpot d sum o q).1.plan = .missing ∨ (planSpot d sum o q).1.plan = .wrongKind ∨
      (planSpot d sum o q).1.plan = .included ∨ (planSpot d sum o q).1.plan = .excluded) ∧
    (planSpot d sum o q).1.planned = q := by
  cases q with
  | none => simp [planSpot]
  | some x =>
    by_cases hx : x.category = .spot
    · by_cases hs : sum + x.effective ≤ d <;> simp [planSpot, hx, hs]
    · simp [planSpot, hx]

end Sys2Proof.Machine

namespace Sys2Proof
open Machine

/-- Settles O58: the owed re-evaluations are a loop of single ones, each of which leaves these parts. -/
theorem reevaluationsLeave : Obligations.ReevaluationsLeave := by
  unfold Obligations.ReevaluationsLeave
  exact Reevaluated.settlePool

/-- Settles O54: the fold over the stations keeps the first least request met so far. -/
theorem deckArbiter : Obligations.DeckArbiter := by
  unfold Obligations.DeckArbiter
  refine ⟨fun s st r h => ?_, fun s => ?_, fun s d => State.freeDeckNo_eq_some⟩
  · obtain ⟨-, i, hi, hmin⟩ := (foldl_bestRequest s allStations allStations_sorted).2 st r h
    exact ⟨i, hi, fun u => hmin u (mem_allStations u)⟩
  · refine (foldl_bestRequest s allStations allStations_sorted).1.trans ?_
    exact ⟨fun h u => h u (mem_allStations u), fun h u _ => h u⟩

/-- Settles O47: the walk judges each spot by the sum of the lengths INCLUDED ahead of it, which stays within the
span. -/
theorem planFits : Obligations.PlanFits := by
  unfold Obligations.PlanFits
  intro b due join found hlen
  have hz : (b.spots.zip found).length = b.spots.length := by rw [List.length_zip, hlen, Nat.min_self]
  have hsum := planWalk_sum (due + b.duration - join) 0 (b.spots.zip found)
  have hle := planWalk_le (Nat.zero_le (due + b.duration - join)) (b.spots.zip found)
  rw [Nat.zero_add] at hsum
  have hspots : (b.planned due join found).spots = (planWalk (due + b.duration - join) 0 (b.spots.zip found)).1 := rfl
  have hgap : (b.planned due join found).gap =
      due + b.duration - join - (planWalk (due + b.duration - join) 0 (b.spots.zip found)).2 := rfl
  rw [hspots, hgap]
  refine ⟨(planWalk_length _ _ _).trans hz, by omega, by omega, fun i p q hp hq => ?_⟩
  rw [planWalk_getElem?, Option.map_eq_some_iff, Nat.zero_add] at hp
  obtain ⟨⟨o, q'⟩, hx, rfl⟩ := hp
  have hq' : q' = q := by
    have h := (List.getElem?_zip_eq_some.mp hx).2
    exact Option.some.inj (h.symm.trans hq)
  subst hq'
  exact planSpot_judged _ _ _ _

end Sys2Proof
end

section
/-!
PROOFS. What raising a condition and reporting a fault leave alone, and what they do: the layer under the statements on
players, stations and breaks.
-/

namespace Sys2Proof.Machine

/-! ## Raising a condition -/

@[simp] theorem State.raiseBits_stations (s : State) (i : SetId) (m : Byte) :
    (s.raiseBits i m).stations = s.stations := (congrArg State.stations (s.raiseBits_unsent i m) :)
@[simp] theorem State.raiseBits_decks (s : State) (i : SetId) (m : Byte) :
    (s.raiseBits i m).decks = s.decks := (congrArg State.decks (s.raiseBits_unsent i m) :)
@[simp] theorem State.raiseBits_beds (s : State) (i : SetId) (m : Byte) :
    (s.raiseBits i m).beds = s.beds := (congrArg State.beds (s.raiseBits_unsent i m) :)
@[simp] theorem State.raiseBits_dir (s : State) (i : SetId) (m : Byte) :
    (s.raiseBits i m).dir = s.dir := (congrArg State.dir (s.raiseBits_unsent i m) :)
@[simp] theorem State.raiseBits_media (s : State) (i : SetId) (m : Byte) :
    (s.raiseBits i m).media = s.media := (congrArg State.media (s.raiseBits_unsent i m) :)
@[simp] theorem State.raiseBits_port (s : State) (i : SetId) (m : Byte) :
    (s.raiseBits i m).port = s.port := (congrArg State.port (s.raiseBits_unsent i m) :)
@[simp] theorem State.raiseBits_house (s : State) (i : SetId) (m : Byte) :
    (s.raiseBits i m).house = s.house := (congrArg State.house (s.raiseBits_unsent i m) :)
@[simp] theorem State.raiseBits_opening (s : State) (i : SetId) (m : Byte) :
    (s.raiseBits i m).opening = s.opening := (congrArg State.opening (s.raiseBits_unsent i m) :)
@[simp] theorem State.raiseBits_ref (s : State) (i : SetId) (m : Byte) :
    (s.raiseBits i m).ref = s.ref := (congrArg State.ref (s.raiseBits_unsent i m) :)
@[simp] theorem State.raiseBits_linkA (s : State) (i : SetId) (m : Byte) :
    (s.raiseBits i m).linkA = s.linkA := (congrArg State.linkA (s.raiseBits_unsent i m) :)
@[simp] theorem State.raiseBits_linkB (s : State) (i : SetId) (m : Byte) :
    (s.raiseBits i m).linkB = s.linkB := (congrArg State.linkB (s.raiseBits_unsent i m) :)
@[simp] theorem State.raiseBits_deferred (s : State) (i : SetId) (m : Byte) :
    (s.raiseBits i m).deferred = s.deferred := (congrArg State.deferred (s.raiseBits_unsent i m) :)
@[simp] theorem State.raiseBits_asrun (s : State) (i : SetId) (m : Byte) :
    (s.raiseBits i m).asrun = s.asrun := (congrArg State.asrun (s.raiseBits_unsent i m) :)
@[simp] theorem State.raiseBits_nextSeq (s : State) (i : SetId) (m : Byte) :
    (s.raiseBits i m).nextSeq = s.nextSeq := (congrArg State.nextSeq (s.raiseBits_unsent i m) :)
@[simp] theorem State.raiseBits_wrapHold (s : State) (i : SetId) (m : Byte) :
    (s.raiseBits i m).wrapHold = s.wrapHold := (congrArg State.wrapHold (s.raiseBits_unsent i m) :)
@[simp] theorem State.raiseBits_recordsHeld (s : State) (i : SetId) (m : Byte) :
    (s.raiseBits i m).recordsHeld = s.recordsHeld := (congrArg State.recordsHeld (s.raiseBits_unsent i m) :)

@[simp] theorem State.pump_conds (s : State) : s.pump.conds = s.conds := by
  unfold State.pump
  split <;> rfl

@[simp] theorem State.trigger_conds (s : State) (i : SetId) : (s.trigger i).conds = s.conds := by
  unfold State.trigger
  split
  · rfl
  · split
    · rfl
    · rw [State.pump_conds]

theorem State.raiseBits_conds (s : State) (i : SetId) (m : Byte) :
    (s.raiseBits i m).conds = (s.setCond i ((s.cond i).raise m)).conds := by
  simp only [State.raiseBits]
  split
  · rfl
  · exact State.trigger_conds _ _

theorem State.raiseBits_cond (s : State) (i : SetId) (m : Byte) : (s.raiseBits i m).cond i = (s.cond i).raise m := by
  rw [State.cond_congr (State.raiseBits_conds s i m), State.setCond_cond]

theorem State.raiseBits_cond_ne (s : State) {i j : SetId} (m : Byte) (h : i ≠ j) :
    (s.raiseBits i m).cond j = s.cond j := by
  rw [State.cond_congr (State.raiseBits_conds s i m), State.setCond_cond_ne s _ h]

@[simp] theorem State.raiseBits_station (s : State) (i : SetId) (m : Byte) (st : StationId) :
    (s.raiseBits i m).station st = s.station st := State.station_congr (s.raiseBits_stations i m) st

/-! ## Reporting a fault -/

@[simp] theorem State.reportFault_decks (s : State) (st : StationId) (c : FaultCause) (id cart t : Nat) :
    (s.reportFault st c id cart t).decks = s.decks := by
  unfold State.reportFault
  split <;> simp [State.raiseStation]
@[simp] theorem State.reportFault_beds (s : State) (st : StationId) (c : FaultCause) (id cart t : Nat) :
    (s.reportFault st c id cart t).beds = s.beds := by
  unfold State.reportFault
  split <;> simp [State.raiseStation]
@[simp] theorem State.reportFault_dir (s : State) (st : StationId) (c : FaultCause) (id cart t : Nat) :
    (s.reportFault st c id cart t).dir = s.dir := by
  unfold State.reportFault
  split <;> simp [State.raiseStation]
@[simp] theorem State.reportFault_media (s : State) (st : StationId) (c : FaultCause) (id cart t : Nat) :
    (s.reportFault st c id cart t).media = s.media := by
  unfold State.reportFault
  split <;> simp [State.raiseStation]
@[simp] theorem State.reportFault_port (s : State) (st : StationId) (c : FaultCause) (id cart t : Nat) :
    (s.reportFault st c id cart t).port = s.port := by
  unfold State.reportFault
  split <;> simp [State.raiseStation]
@[simp] theorem State.reportFault_asrun (s : State) (st : StationId) (c : FaultCause) (id cart t : Nat) :
    (s.reportFault st c id cart t).asrun = s.asrun := by
  unfold State.reportFault
  split <;> simp [State.raiseStation]
@[simp] theorem State.reportFault_recordsHeld (s : State) (st : StationId) (c : FaultCause) (id cart t : Nat) :
    (s.reportFault st c id cart t).recordsHeld = s.recordsHeld := by
  unfold State.reportFault
  split <;> simp [State.raiseStation]

/-- The fault record a report leaves: its own where none stood, and else the one that stood, marked. -/
def faultAfter (f : Option FaultRecord) (c : FaultCause) (id cart t : Nat) : FaultRecord :=
  match f with
  | none => ⟨c, id, cart, t, false⟩
  | some g => { g with further := true }

theorem State.reportFault_station (s : State) (st : StationId) (c : FaultCause) (id cart t : Nat) :
    (s.reportFault st c id cart t).station st =
      { s.station st with fault := some (faultAfter (s.station st).fault c id cart t) } := by
  unfold State.reportFault
  split
  next h => simp [State.raiseStation, h, faultAfter]
  next f h => simp [h, faultAfter]

theorem State.reportFault_station_ne (s : State) {st u : StationId} (h : st ≠ u) (c : FaultCause) (id cart t : Nat) :
    (s.reportFault st c id cart t).station u = s.station u := by
  unfold State.reportFault
  split <;> simp [State.raiseStation, State.modStation_station_ne _ _ h]

@[simp] theorem State.deckFault_decks (s : State) (d : DeckId) (c : FaultCause) : (s.deckFault d c).decks = s.decks := by
  unfold State.deckFault
  split <;> simp
@[simp] theorem State.deckFault_beds (s : State) (d : DeckId) (c : FaultCause) : (s.deckFault d c).beds = s.beds := by
  unfold State.deckFault
  split <;> simp
@[simp] theorem State.deckFault_dir (s : State) (d : DeckId) (c : FaultCause) : (s.deckFault d c).dir = s.dir := by
  unfold State.deckFault
  split <;> simp
@[simp] theorem State.deckFault_media (s : State) (d : DeckId) (c : FaultCause) : (s.deckFault d c).media = s.media := by
  unfold State.deckFault
  split <;> simp
@[simp] theorem State.deckFault_port (s : State) (d : DeckId) (c : FaultCause) : (s.deckFault d c).port = s.port := by
  unfold State.deckFault
  split <;> simp
@[simp] theorem State.deckFault_asrun (s : State) (d : DeckId) (c : FaultCause) : (s.deckFault d c).asrun = s.asrun := by
  unfold State.deckFault
  split <;> simp

theorem State.deckFault_of_station {s : State} {d : DeckId} {st : StationId} (h : (s.deck d).station = some st)
    (c : FaultCause) : s.deckFault d c = s.reportFault st c (((s.deck d).target.map Target.entryId).getD 0)
      (((s.playerEntry (s.deck d).player).map DirEntry.cart).getD 0) (s.stationTime st) := by
  simp only [State.deckFault, h]

/-! ## A player changed in its deck or bed -/

theorem State.modPlayer_deck (s : State) (d : DeckId) (f : Player → Player) :
    (s.modPlayer d f).deck d = { s.deck d with player := f (s.deck d).player } := by simp [State.modPlayer]

theorem State.modPlayer_deck_ne (s : State) {d c : DeckId} (f : Player → Player) (h : d ≠ c) :
    (s.modPlayer d f).deck c = s.deck c := State.setDeck_deck_ne s _ h

theorem State.modBedPlayer_bed (s : State) (st : StationId) (f : Player → Player) :
    (s.modBedPlayer st f).bed st = { s.bed st with player := f (s.bed st).player } := by simp [State.modBedPlayer]

theorem State.modBedPlayer_bed_ne (s : State) {st u : StationId} (f : Player → Player) (h : st ≠ u) :
    (s.modBedPlayer st f).bed u = s.bed u := State.setBed_bed_ne s _ h

end Sys2Proof.Machine
end

section
/-!
PROOFS. The mix (O56) and one period of a sounding deck (O57).
-/

namespace Sys2Proof.Machine

/-! ## The arithmetic of the mix -/

theorem gain_le_min {level ramp : Nat} (hl : level ≤ 32768) (hr : ramp ≤ 32768) : gain level ramp ≤ min level ramp := by
  refine le_min (Nat.div_le_of_le_mul ?_) (Nat.div_le_of_le_mul (Nat.mul_le_mul_right ramp hl))
  rw [Nat.mul_comm 32768]
  exact Nat.mul_le_mul_left level hr

theorem gain_eq_unity {level ramp : Nat} (hl : level ≤ 32768) (hr : ramp ≤ 32768) :
    gain level ramp = 32768 ↔ level = 32768 ∧ ramp = 32768 := by
  constructor
  · intro h
    have := gain_le_min hl hr
    omega
  · rintro ⟨rfl, rfl⟩
    rfl

/-- A sample scaled by a gain stays within the samples' range, times unity. -/
theorem scaled_sample_bounds {v g : Int} (hv : -32768 ≤ v) (hv' : v ≤ 32767) (hg : 0 ≤ g) (hg' : g ≤ 32768) :
    -32768 * 32768 ≤ v * g ∧ v * g ≤ 32767 * 32768 := by
  constructor <;> nlinarith

theorem saturate_eq (v : Int) : saturate v = max (-32768) (min 32767 v) := by
  unfold saturate
  split
  · omega
  · split <;> omega

theorem saturate_range (v : Int) : -32768 ≤ saturate v ∧ saturate v ≤ 32767 := by
  rw [saturate_eq]
  omega

theorem toInt_ofInt_sample {v : Int} (h : -32768 ≤ v) (h' : v ≤ 32767) : (BitVec.ofInt 16 v).toInt = v := by
  rw [BitVec.toInt_ofInt]
  exact Int.bmod_eq_of_le (by omega) (by omega)

theorem monoSum_range {l r : Int} (hl : -32768 ≤ l ∧ l ≤ 32767) (hr : -32768 ≤ r ∧ r ≤ 32767) :
    -32768 ≤ monoSum l r ∧ monoSum l r ≤ 32767 := by
  unfold monoSum
  omega

theorem mixOutput_l (bl br : Int) (m th : Nat) : (mixOutput bl br m th).l.toInt = saturate (scaled bl m) :=
  toInt_ofInt_sample (saturate_range _).1 (saturate_range _).2

theorem mixOutput_r (bl br : Int) (m th : Nat) : (mixOutput bl br m th).r.toInt = saturate (scaled br m) :=
  toInt_ofInt_sample (saturate_range _).1 (saturate_range _).2

theorem mixOutput_m (bl br : Int) (m th : Nat) :
    (mixOutput bl br m th).m.toInt = (saturate (scaled bl m) + saturate (scaled br m)) / 2 := by
  have h := monoSum_range (saturate_range (scaled bl m)) (saturate_range (scaled br m))
  exact toInt_ofInt_sample h.1 h.2

theorem saturates_iff (v : Int) : saturates v = true ↔ v < -32768 ∨ 32767 < v := by
  simp only [saturates, Bool.or_eq_true, decide_eq_true_eq]
  exact or_comm

/-! ## The bus -/

/-- What a player that does not sound adds to a sum is nothing, so a sum over those that sound is one over all. -/
theorem sum_filter_sounds (l : List Player) (f g : Player → Int) (hs : ∀ p, p.sounds = true → g p = f p)
    (hn : ∀ p, p.sounds = false → f p = 0) : ((l.filter Player.sounds).map g).sum = (l.map f).sum := by
  induction l with
  | nil => rfl
  | cons p l ih =>
    cases hp : p.sounds
    · simp only [List.filter_cons, hp, Bool.false_eq_true, if_false, List.map_cons, List.sum_cons, hn p hp, ih, zero_add]
    · simp only [List.filter_cons, hp, if_true, List.map_cons, List.sum_cons, hs p hp, ih]

theorem State.bus_eq (s : State) (st : StationId) (terms : Player → Int × Int)
    (hs : ∀ p : Player, p.sounds = true → terms p = p.terms) (hn : ∀ p : Player, p.sounds = false → terms p = (0, 0)) :
    s.bus st =
      (((allDecks.filter fun d => (s.deck d).station == some st).map fun d => (terms (s.deck d).player).1).sum +
          (terms (s.bed st).player).1,
        ((allDecks.filter fun d => (s.deck d).station == some st).map fun d => (terms (s.deck d).player).2).sum +
          (terms (s.bed st).player).2) := by
  unfold State.bus
  simp only [List.map_map]
  rw [sum_filter_sounds _ (fun p => (terms p).1) _ (fun p h => by rw [Function.comp_apply, hs p h])
      (fun p h => by rw [hn p h]),
    sum_filter_sounds _ (fun p => (terms p).2) _ (fun p h => by rw [Function.comp_apply, hs p h])
      (fun p h => by rw [hn p h])]
  simp only [List.map_append, List.map_map, List.sum_append, List.map_cons, List.map_nil, List.sum_singleton]
  rfl

theorem Player.terms_of_empty {p : Player} (h : p.buffer = []) : p.terms = (0, 0) := by rw [Player.terms, h]

theorem Player.terms_of_cons {p : Player} {x : Pair} {rest : List Pair} (h : p.buffer = x :: rest) :
    p.terms = (term x.l.toInt (gain p.level p.ramp.value), term x.r.toInt (gain p.level p.ramp.value)) := by
  rw [Player.terms, h]

/-! ## A station's mixer -/

@[simp] theorem State.mixStation_decks (s : State) (st : StationId) : (s.mixStation st).decks = s.decks := by
  unfold State.mixStation
  split <;> simp [State.raiseStation]

@[simp] theorem State.mixStation_beds (s : State) (st : StationId) : (s.mixStation st).beds = s.beds := by
  unfold State.mixStation
  split <;> simp [State.raiseStation]

theorem State.mixStation_station (s : State) (st : StationId) :
    (s.mixStation st).station st =
      { s.station st with
        out := s.mixed st
        clips := if s.clipsNow st then Count32.succHold (s.station st).clips else (s.station st).clips } := by
  unfold State.mixStation
  split
  next h => simp [State.raiseStation]
  next h => simp

theorem State.mixStation_station_ne (s : State) {st u : StationId} (h : u ≠ st) :
    (s.mixStation st).station u = s.station u := by
  unfold State.mixStation
  split <;> simp [State.raiseStation, State.modStation_station_ne _ _ h.symm]

theorem CondSet.raise_pending_and (c : CondSet) (m : Byte) : (c.raise m).pending &&& m = m := by
  unfold CondSet.raise
  ext i hi
  simpa using Or.inr

/-! ## One period of a deck -/

theorem State.tickDeck_silent {s : State} {d : DeckId} (h : (s.deck d).player.sounds = false) : s.tickDeck d = s := by
  simp [State.tickDeck, Player.underruns, h]

/-- What a stall run's beginning reports, ahead of the player's own step. -/
def State.underrunReported (s : State) (d : DeckId) : State :=
  if (s.deck d).player.underruns then s.deckFault d .underrun else s

@[simp] theorem State.underrunReported_decks (s : State) (d : DeckId) : (s.underrunReported d).decks = s.decks := by
  unfold State.underrunReported
  split <;> simp
@[simp] theorem State.underrunReported_beds (s : State) (d : DeckId) : (s.underrunReported d).beds = s.beds := by
  unfold State.underrunReported
  split <;> simp
@[simp] theorem State.underrunReported_dir (s : State) (d : DeckId) : (s.underrunReported d).dir = s.dir := by
  unfold State.underrunReported
  split <;> simp
@[simp] theorem State.underrunReported_media (s : State) (d : DeckId) : (s.underrunReported d).media = s.media := by
  unfold State.underrunReported
  split <;> simp
@[simp] theorem State.underrunReported_asrun (s : State) (d : DeckId) : (s.underrunReported d).asrun = s.asrun := by
  unfold State.underrunReported
  split <;> simp

theorem State.tickDeck_sounding {s : State} {d : DeckId} (h : (s.deck d).player.sounds = true) :
    s.tickDeck d = (s.underrunReported d).modPlayer d fun _ =>
      (s.deck d).player.tick (s.playerEntry (s.deck d).player) (s.deckTime d) := if_pos h

theorem State.tickDeck_player {s : State} {d : DeckId} (h : (s.deck d).player.sounds = true) :
    ((s.tickDeck d).deck d).player = (s.deck d).player.tick (s.playerEntry (s.deck d).player) (s.deckTime d) := by
  rw [State.tickDeck_sounding h, State.modPlayer_deck]

theorem Player.tick_of_cons {p : Player} {x : Pair} {rest : List Pair} (h : p.buffer = x :: rest) (e : Option DirEntry)
    (t : Nat) : p.tick e t =
      { p with
        buffer := rest, consumed := p.consumed + 1, playPos := nextPlay p e, stalling := none, ramp := p.ramp.advance,
        ended := playEnd p (e.map DirEntry.trimOut) (p.playPos + 1) } := by
  simp only [Player.tick, h]

theorem Player.tick_of_empty {p : Player} (h : p.buffer = []) (e : Option DirEntry) (t : Nat) : p.tick e t =
      { p with
        stalls := p.stalls + 1, stalling := some (p.stalling.getD t), ramp := p.ramp.advance,
        ended := playEnd p (e.map DirEntry.trimOut) p.playPos } := by
  simp only [Player.tick, h]

theorem Player.tick_ramp (p : Player) (e : Option DirEntry) (t : Nat) : (p.tick e t).ramp = p.ramp.advance := by
  cases h : p.buffer with
  | nil => rw [Player.tick_of_empty h]
  | cons x rest => rw [Player.tick_of_cons h]

theorem nextPlay_straight {p : Player} (h : p.looping = false) (e : Option DirEntry) : nextPlay p e = p.playPos + 1 := by
  unfold nextPlay
  split <;> simp [h]

theorem nextPlay_wraps {p : Player} {e : DirEntry} {l : Loop} (hp : p.looping = true) (hl : e.loop = some l)
    (h : p.playPos + 1 = l.stop) : nextPlay p (some e) = l.first := by
  simp [nextPlay, hl, hp, h]

theorem playEnd_trimOut {p : Player} (h : p.looping = false) (pos : Nat) : playEnd p (some pos) pos = some .trimOut := by
  simp [playEnd, h]

theorem playEnd_short {p : Player} {trimOut pos : Nat} (h : p.looping = true ∨ pos ≠ trimOut) :
    playEnd p (some trimOut) pos = if p.state = .fading ∧ p.ramp.length ≤ p.ramp.progress then some .faded else none := by
  unfold playEnd
  rw [if_neg]
  rintro ⟨hl, hp⟩
  cases hp
  simp_all

theorem State.tickDeck_deck_ne (s : State) {d q : DeckId} (h : q ≠ d) : (s.tickDeck d).deck q = s.deck q := by
  cases hs : (s.deck d).player.sounds
  · rw [State.tickDeck_silent hs]
  · rw [State.tickDeck_sounding hs, State.modPlayer_deck_ne _ _ h.symm]
    exact State.deck_congr (by simp) q

theorem State.tickDeck_fields (s : State) (d : DeckId) : (s.tickDeck d).beds = s.beds ∧ (s.tickDeck d).dir = s.dir ∧
    (s.tickDeck d).media = s.media ∧ (s.tickDeck d).asrun = s.asrun := by
  cases hs : (s.deck d).player.sounds
  · rw [State.tickDeck_silent hs]
    exact ⟨rfl, rfl, rfl, rfl⟩
  · rw [State.tickDeck_sounding hs]
    simp

theorem State.deckTime_of {s : State} {d : DeckId} {st : StationId} (h : (s.deck d).station = some st) :
    s.deckTime d = s.stationTime st := by
  simp [State.deckTime, h]

/-- At a stall, the station of the deck has the fault report of the first stall of a run alone. -/
theorem State.tickDeck_fault {s : State} {d : DeckId} {st : StationId} {e : DirEntry}
    (hs : (s.deck d).player.sounds = true) (hb : (s.deck d).player.buffer = []) (hst : (s.deck d).station = some st)
    (he : s.playerEntry (s.deck d).player = some e) (hf : (s.station st).fault = none) :
    ((s.tickDeck d).station st).fault.map (fun f => (f.cause, f.cart, f.time)) =
      if (s.deck d).player.stalling.isSome then none else some (.underrun, e.cart, s.stationTime st) := by
  rw [State.tickDeck_sounding hs, State.station_congr (State.modPlayer_stations _ _ _)]
  cases hr : (s.deck d).player.stalling with
  | some t => simp [State.underrunReported, Player.underruns, hr, hf]
  | none =>
    have hu : (s.deck d).player.underruns = true := by simp [Player.underruns, hs, hb, hr]
    rw [State.underrunReported, if_pos hu, State.deckFault_of_station hst, State.reportFault_station, hf, he]
    rfl

end Sys2Proof.Machine

namespace Sys2Proof
open Machine

/-- Settles O56: the arithmetic is `gain`, `term` and `saturate`, the bus a sum over the players that sound. -/
theorem mixedOutput : Obligations.MixedOutput := by
  unfold Obligations.MixedOutput
  refine ⟨fun level ramp hl hr => ⟨gain_le_min hl hr, ?_, ?_, gain_eq_unity hl hr⟩, fun s st terms ht => ?_,
    fun v g hv hv' hg => ?_, ?_⟩
  · exact Nat.mul_div_le _ _
  · exact Nat.lt_mul_div_succ _ (by decide)
  · refine State.bus_eq s st terms (fun p hp => ?_) fun p hp => (ht p).1 (.inl hp)
    cases hb : p.buffer with
    | nil => rw [(ht p).1 (.inr hb), Player.terms_of_empty hb]
    | cons x rest => rw [(ht p).2 x rest hp hb, Player.terms_of_cons hb]
  · obtain ⟨h1, h2⟩ := scaled_sample_bounds hv hv' (Int.natCast_nonneg g) (by omega)
    unfold term
    generalize v * (g : Int) = x at h1 h2 ⊢
    push_cast
    omega
  · rintro s t st rfl
    refine ⟨fun hi => ?_, fun hi => ?_, s.mixStation_decks st, s.mixStation_beds st,
      fun u hu => s.mixStation_station_ne hu⟩
    · have hc : s.clipsNow st = false := by simp [State.clipsNow, hi]
      rw [State.mixStation_station, hc]
      exact ⟨if_pos hi, rfl⟩
    · rintro vl vr rfl rfl
      have hout : ((s.mixStation st).station st).out =
          mixOutput (s.bus st).1 (s.bus st).2 (s.station st).cfg.outLevel (s.station st).cfg.threshold := by
        rw [State.mixStation_station]
        exact if_neg hi
      have hl := mixOutput_l (s.bus st).1 (s.bus st).2 (s.station st).cfg.outLevel (s.station st).cfg.threshold
      have hr := mixOutput_r (s.bus st).1 (s.bus st).2 (s.station st).cfg.outLevel (s.station st).cfg.threshold
      have hm := mixOutput_m (s.bus st).1 (s.bus st).2 (s.station st).cfg.outLevel (s.station st).cfg.threshold
      have hclip : s.clipsNow st = true ↔
          saturates (scaled (s.bus st).1 (s.station st).cfg.outLevel) = true ∨
            saturates (scaled (s.bus st).2 (s.station st).cfg.outLevel) = true := by
        simp [State.clipsNow, hi]
      rw [saturates_iff, saturates_iff] at hclip
      rw [hout, hm, hl, hr]
      refine ⟨saturate_eq _, saturate_eq _, by omega, by omega, ?_, fun h => ?_, fun h => ?_⟩
      · simp [mixOutput, isQuiet]
      · have hc := hclip.mpr (or_assoc.mpr h)
        refine ⟨by rw [State.mixStation_station, hc]; rfl, ?_⟩
        rw [State.mixStation, if_pos hc]
        exact (congrArg (fun c : CondSet => c.pending &&& _) (State.raiseBits_cond _ _ _)).trans
          (CondSet.raise_pending_and _ _)
      · have hc : ¬s.clipsNow st = true := fun hc => by
          have h' := hclip.mp hc
          unfold scaled at h'
          omega
        rw [State.mixStation_station]
        exact if_neg hc

/-- Settles O57: a sounding deck's player makes one `Player.tick`, behind the report of a stall run that begins. -/
theorem playersStep : Obligations.PlayersStep := by
  unfold Obligations.PlayersStep
  intro s d
  obtain ⟨hbeds, hdir, hmedia, hasrun⟩ := s.tickDeck_fields d
  refine ⟨State.tickDeck_silent, fun e hs he => ?_, fun q hq => s.tickDeck_deck_ne hq, hbeds, hdir, hmedia, hasrun⟩
  rw [State.tickDeck_player hs, he]
  refine ⟨Player.tick_ramp _ _ _, fun x rest hb => ?_, fun hb => ?_⟩
  · rw [Player.tick_of_cons hb]
    refine ⟨rfl, rfl, rfl, rfl, fun hl => ⟨nextPlay_straight hl _, fun hp => ?_⟩, fun l hl hloop hp =>
      nextPlay_wraps hl hloop hp, playEnd_short⟩
    exact (congrArg (playEnd _ _) hp).trans (playEnd_trimOut hl _)
  · rw [Player.tick_of_empty hb]
    refine ⟨rfl, rfl, rfl, fun st hst => ?_, fun st hst hf => State.tickDeck_fault hs hb hst he hf⟩
    rw [State.deckTime_of hst]

end Sys2Proof
end

section
/-!
PROOFS. The media port: the fetches it begins (O52) and completes (O53), and uploads (O16, O17).
-/

namespace Sys2Proof.Machine

/-! ## The store arbiter's choice -/

theorem State.chosenReader_eq_argmin (s : State) :
    s.chosenReader = (allReaders.filter s.claims).argmin fun rd => (s.reader rd).buffer.length := by
  unfold State.chosenReader List.argmin
  congr 1
  funext acc rd
  cases acc <;> rfl

theorem allReaders_sorted : allReaders.Pairwise fun a b => allReaders.idxOf a < allReaders.idxOf b := by
  decide +kernel

theorem mem_allReaders (rd : Reader) : rd ∈ allReaders := by
  cases rd with
  | deck d => exact List.mem_append_left _ (List.mem_map_of_mem (mem_allDecks d))
  | bed st => exact List.mem_append_right _ (List.mem_map_of_mem (mem_allStations st))

theorem allReaders_getElem? (rd : Reader) : allReaders[allReaders.idxOf rd]? = some rd :=
  List.getElem?_idxOf (mem_allReaders rd)

theorem allReaders_idxOf {i : Nat} {rd : Reader} (h : allReaders[i]? = some rd) : allReaders.idxOf rd = i := by
  have hn : allReaders.Nodup := allReaders_sorted.imp fun hlt he => by rw [he] at hlt; exact lt_irrefl _ hlt
  obtain ⟨hi, rfl⟩ := List.getElem?_eq_some_iff.mp h
  exact hn.idxOf_getElem i hi

/-- Among claiming readers the order of a selection is that of their numbers. -/
theorem claiming_idxOf_le {s : State} {a b : Reader} (ha : s.claims a = true) (hb : s.claims b = true) :
    (allReaders.filter s.claims).idxOf a ≤ (allReaders.filter s.claims).idxOf b ↔
      allReaders.idxOf a ≤ allReaders.idxOf b := by
  have hs := allReaders_sorted.filter s.claims
  have hma : a ∈ allReaders.filter s.claims := List.mem_filter.mpr ⟨mem_allReaders a, ha⟩
  have hmb : b ∈ allReaders.filter s.claims := List.mem_filter.mpr ⟨mem_allReaders b, hb⟩
  generalize allReaders.filter s.claims = l at hs hma hmb
  have hget := fun (x : Reader) (hx : x ∈ l) => List.getElem_idxOf (List.idxOf_lt_length_iff.mpr hx)
  have hlt : ∀ x y : Reader, x ∈ l → y ∈ l → l.idxOf x < l.idxOf y → allReaders.idxOf x < allReaders.idxOf y :=
    fun x y hx hy h => by
      have := List.pairwise_iff_getElem.mp hs _ _ (List.idxOf_lt_length_iff.mpr hx) (List.idxOf_lt_length_iff.mpr hy) h
      rwa [hget x hx, hget y hy] at this
  constructor
  · intro h
    rcases h.lt_or_eq with h | h
    · exact (hlt a b hma hmb h).le
    · rw [(List.idxOf_inj hma).mp h]
  · intro h
    by_contra hc
    exact absurd (hlt b a hmb hma (Nat.lt_of_not_le hc)) (Nat.not_lt.mpr h)

theorem State.chosenReader_eq_some {s : State} {rd : Reader} : s.chosenReader = some rd ↔
    ∃ i : Nat, allReaders[i]? = some rd ∧ s.claims rd = true ∧
      ∀ (j : Nat) (o : Reader), allReaders[j]? = some o → s.claims o = true →
        (s.reader rd).buffer.length < (s.reader o).buffer.length ∨
          (s.reader rd).buffer.length = (s.reader o).buffer.length ∧ i ≤ j := by
  rw [State.chosenReader_eq_argmin, List.argmin_eq_some_iff]
  have hmem : ∀ o : Reader, o ∈ allReaders.filter s.claims ↔ s.claims o = true := fun o =>
    List.mem_filter.trans (and_iff_right (mem_allReaders o))
  simp only [hmem]
  constructor
  · rintro ⟨hc, hmin, hfirst⟩
    refine ⟨_, allReaders_getElem? rd, hc, fun j o hj ho => ?_⟩
    refine (hmin o ho).lt_or_eq.imp_right fun he => ⟨he, ?_⟩
    rw [← allReaders_idxOf hj]
    exact (claiming_idxOf_le hc ho).mp (hfirst o ho he.ge)
  · rintro ⟨i, hi, hc, h⟩
    refine ⟨hc, fun o ho => ?_, fun o ho hle => ?_⟩
    · exact (h _ o (allReaders_getElem? o) ho).elim Nat.le_of_lt fun e => e.1.le
    · refine (claiming_idxOf_le hc ho).mpr ?_
      rw [allReaders_idxOf hi]
      exact (h _ o (allReaders_getElem? o) ho).elim (fun hlt => absurd hle (Nat.not_le.mpr hlt)) And.right

theorem State.chosenReader_eq_none {s : State} : s.chosenReader = none ↔ ∀ rd ∈ allReaders, s.claims rd = false := by
  rw [State.chosenReader_eq_argmin, List.argmin_eq_none, List.filter_eq_nil_iff]
  exact forall₂_congr fun _ _ => Iff.of_eq (Bool.not_eq_true _)

/-! ## Where pairs lie -/

/-- Pairs of one block lie one behind another. -/
theorem DirEntry.place_add {e : DirEntry} {p a i : Nat} (h : e.place p = some a) (hi : i < 16384 - p % 16384) :
    e.place (p + i) = some (a + i) := by
  have hp : (p + i) / 16384 = p / 16384 := by omega
  unfold DirEntry.place at h ⊢
  simp only [Config.blockPairs] at h ⊢
  rw [hp]
  split at h
  · split at h
    next hb =>
      cases h
      simp only [hb, if_true, Option.some.injEq]
      omega
    · cases h
  · cases h

/-! ## A reader's player changed -/

theorem State.modReader_modReader (s : State) (rd : Reader) (f g : Player → Player) :
    (s.modReader rd f).modReader rd g = s.modReader rd fun p => g (f p) := by
  cases rd with
  | deck d =>
    show ((s.modPlayer d f).modPlayer d g) = s.modPlayer d fun p => g (f p)
    rw [State.modPlayer, State.modPlayer_deck]
    simp [State.modPlayer, State.setDeck]
  | bed st =>
    show ((s.modBedPlayer st f).modBedPlayer st g) = s.modBedPlayer st fun p => g (f p)
    rw [State.modBedPlayer, State.modBedPlayer_bed]
    simp [State.modBedPlayer, State.setBed]

theorem State.modReader_congr {s : State} {rd : Reader} {f g : Player → Player} (h : f (s.reader rd) = g (s.reader rd)) :
    s.modReader rd f = s.modReader rd g := by
  cases rd with
  | deck d => exact congrArg (fun p => s.setDeck d { s.deck d with player := p }) h
  | bed st => exact congrArg (fun p => s.setBed st { s.bed st with player := p }) h

theorem State.setDeck_self (s : State) (d : DeckId) : s.setDeck d (s.deck d) = s :=
  congrArg (fun v => { s with decks := v }) (Vector.set_getElem_self _)

theorem State.setBed_self (s : State) (st : StationId) : s.setBed st (s.bed st) = s :=
  congrArg (fun v => { s with beds := v }) (Vector.set_getElem_self _)

theorem State.modReader_self {s : State} {rd : Reader} {f : Player → Player} (h : f (s.reader rd) = s.reader rd) :
    s.modReader rd f = s := by
  rw [State.modReader_congr (g := id) h]
  cases rd with
  | deck d => exact State.setDeck_self s d
  | bed st => exact State.setBed_self s st

@[simp] theorem State.modReader_reader (s : State) (rd : Reader) (f : Player → Player) :
    (s.modReader rd f).reader rd = f (s.reader rd) := by
  cases rd with
  | deck d => exact congrArg Deck.player (State.modPlayer_deck s d f)
  | bed st => exact congrArg Bed.player (State.modBedPlayer_bed s st f)

theorem State.reader_congr {s t : State} (hd : t.decks = s.decks) (hb : t.beds = s.beds) (rd : Reader) :
    t.reader rd = s.reader rd := by
  cases rd with
  | deck d => exact congrArg Deck.player (State.deck_congr hd d)
  | bed st => exact congrArg Bed.player (State.bed_congr hb st)

theorem State.modReader_reader_ne (s : State) {rd o : Reader} (f : Player → Player) (h : o ≠ rd) :
    (s.modReader rd f).reader o = s.reader o := by
  cases rd with
  | deck d =>
    cases o with
    | deck c => exact congrArg Deck.player (State.modPlayer_deck_ne s f fun e => h (congrArg Reader.deck e.symm))
    | bed st => exact congrArg Bed.player (State.bed_congr (State.modPlayer_beds s d f) st)
  | bed st =>
    cases o with
    | deck c => exact congrArg Deck.player (State.deck_congr (State.modBedPlayer_decks s st f) c)
    | bed u => exact congrArg Bed.player (State.modBedPlayer_bed_ne s f fun e => h (congrArg Reader.bed e.symm))

@[simp] theorem State.modReader_dir (s : State) (rd : Reader) (f : Player → Player) : (s.modReader rd f).dir = s.dir := by
  cases rd <;> rfl
@[simp] theorem State.modReader_media (s : State) (rd : Reader) (f : Player → Player) :
    (s.modReader rd f).media = s.media := by cases rd <;> rfl
@[simp] theorem State.modReader_port (s : State) (rd : Reader) (f : Player → Player) :
    (s.modReader rd f).port = s.port := by cases rd <;> rfl
@[simp] theorem State.modReader_stations (s : State) (rd : Reader) (f : Player → Player) :
    (s.modReader rd f).stations = s.stations := by cases rd <;> rfl
@[simp] theorem State.modReader_house (s : State) (rd : Reader) (f : Player → Player) :
    (s.modReader rd f).house = s.house := by cases rd <;> rfl

@[simp] theorem State.bedFault_decks (s : State) (st : StationId) (c : FaultCause) :
    (s.bedFault st c).decks = s.decks := State.reportFault_decks _ _ _ _ _ _
@[simp] theorem State.bedFault_beds (s : State) (st : StationId) (c : FaultCause) :
    (s.bedFault st c).beds = s.beds := State.reportFault_beds _ _ _ _ _ _

theorem State.readerFault_fields (s : State) (rd : Reader) :
    (s.readerFault rd).decks = s.decks ∧ (s.readerFault rd).beds = s.beds ∧ (s.readerFault rd).dir = s.dir ∧
      (s.readerFault rd).media = s.media ∧ (s.readerFault rd).port = s.port := by
  cases rd <;> simp [State.readerFault, State.bedFault]

/-- The directory entry a reader plays. -/
theorem State.playerEntry_congr {s t : State} {p q : Player} (hd : t.dir = s.dir) (hs : q.slot = p.slot) :
    t.playerEntry q = s.playerEntry p := by
  unfold State.playerEntry State.entryAt
  rw [hd, hs]

theorem readPairs_length (m : List Host.Cell) (a n : Nat) : (readPairs m a n).length = n := by
  induction n generalizing a with
  | zero => rfl
  | succ n ih => exact congrArg (· + 1) (ih (a + 1))

/-! ## Priming -/

/-- A player as the threshold's reaching leaves it (R33). -/
def Player.primedBy (p : Player) (e : DirEntry) : Player :=
  { p with state := if p.state = .bound ∧ primeThreshold p e ≤ p.buffer.length then .primed else p.state }

theorem State.primeReader_eq {s : State} {rd : Reader} {e : DirEntry} (h : s.playerEntry (s.reader rd) = some e) :
    s.primeReader rd = s.modReader rd fun p => p.primedBy e := by
  simp only [State.primeReader, h]
  split
  next hp => exact State.modReader_congr (by simp only [Player.primedBy, if_pos hp])
  next hp => exact (State.modReader_self (by simp only [Player.primedBy, if_neg hp])).symm

/-! ## A fetch that completes -/

theorem State.opFetchComplete_of_not {s : State} {f : Fetch} (hp : s.port = .fetch f) (ha : s.accepts f = false)
    (err : Bool) : s.opFetchComplete err = { s with port := .idle } := by
  simp only [State.opFetchComplete, hp]
  exact if_neg (Bool.eq_false_iff.mp ha)

theorem State.opFetchComplete_of {s : State} {f : Fetch} (hp : s.port = .fetch f) (ha : s.accepts f = true)
    (err : Bool) : s.opFetchComplete err = State.enterPairs { s with port := .idle } f err := by
  simp only [State.opFetchComplete, hp]
  exact if_pos ha

theorem State.accepts_eq_false {s : State} {f : Fetch}
    (h : f.void = true ∨ (s.reader f.reader).state = .free ∨ (s.reader f.reader).generation ≠ f.generation) :
    s.accepts f = false := by
  unfold State.accepts
  rcases h with h | h | h <;> simp [h]

theorem State.accepts_eq_true {s : State} {f : Fetch} (hv : f.void = false) (hs : (s.reader f.reader).state ≠ .free)
    (hg : (s.reader f.reader).generation = f.generation) : s.accepts f = true := by
  simp [State.accepts, hv, hs, hg]

theorem State.enterPairs_read {s : State} {f : Fetch} {e : DirEntry} (he : s.playerEntry (s.reader f.reader) = some e) :
    s.enterPairs f false = s.modReader f.reader fun p =>
      Player.primedBy { p with buffer := p.buffer ++ readPairs s.media f.place f.count } e := by
  unfold State.enterPairs
  simp only [Bool.false_eq_true, if_false]
  rw [State.primeReader_eq (e := e), State.modReader_modReader]
  · rfl
  · rw [State.modReader_reader, ← he]
    exact State.playerEntry_congr (s.modReader_dir _ _) rfl

/-- A state with the zeros of a failed fetch entered and counted (R32), ahead of the fault's report. -/
def State.zerosEntered (s : State) (f : Fetch) : State :=
  s.modReader f.reader fun p =>
    { p with buffer := p.buffer ++ List.replicate f.count Pair.zero, mediaErrors := p.mediaErrors + 1 }

theorem State.zerosEntered_entry {s : State} {f : Fetch} {e : DirEntry}
    (he : s.playerEntry (s.reader f.reader) = some e) :
    (s.zerosEntered f).playerEntry ((s.zerosEntered f).reader f.reader) = some e := by
  rw [← he, State.zerosEntered, State.modReader_reader]
  exact State.playerEntry_congr (s.modReader_dir _ _) rfl

theorem State.enterPairs_error {s : State} {f : Fetch} {e : DirEntry} (he : s.playerEntry (s.reader f.reader) = some e) :
    s.enterPairs f true =
      ((s.zerosEntered f).readerFault f.reader).modReader f.reader fun p => p.primedBy e := by
  obtain ⟨hd, hb, hdir, -, -⟩ := (s.zerosEntered f).readerFault_fields f.reader
  show State.primeReader ((s.zerosEntered f).readerFault f.reader) f.reader = _
  refine State.primeReader_eq ?_
  rw [← State.zerosEntered_entry he, State.reader_congr hd hb]
  exact State.playerEntry_congr hdir rfl

/-- The station whose fault a reader's is, and the fault it reports where none stands (R44). -/
theorem State.readerFault_fault {s : State} {rd : Reader} {st : StationId} {e : DirEntry}
    (hst : rd = .bed st ∨ ∃ d : DeckId, rd = .deck d ∧ (s.deck d).station = some st)
    (he : s.playerEntry (s.reader rd) = some e) (hf : (s.station st).fault = none) :
    ((s.readerFault rd).station st).fault.map (fun x => (x.cause, x.cart, x.time, x.further)) =
      some (.mediaError, e.cart, s.stationTime st, false) := by
  obtain rfl | ⟨d, rfl, hd⟩ := hst
  · have he' : s.playerEntry (s.bed st).player = some e := he
    rw [State.readerFault, State.bedFault, State.reportFault_station, hf, he']
    rfl
  · have he' : s.playerEntry (s.deck d).player = some e := he
    rw [State.readerFault, State.deckFault_of_station hd, State.reportFault_station, hf, he']
    rfl

/-! ## Uploads -/

theorem pairsOf_length {n : Nat} {bs : List Byte} (h : bs.length = 4 * n) : (pairsOf bs).length = n := by
  induction n generalizing bs with
  | zero =>
    obtain rfl := List.eq_nil_of_length_eq_zero h
    rfl
  | succ n ih =>
    match bs, h with
    | a :: b :: c :: d :: rest, h =>
      exact congrArg (· + 1) (ih (by simp only [List.length_cons] at h; omega))

theorem writePairs_total {e : DirEntry} (ps : List Pair) (k : Nat) (m : List Host.Cell)
    (h : ∀ i : Nat, i < ps.length → (e.place (k + i)).isSome = true) : ∃ n, writePairs e ps k m = some n := by
  induction ps generalizing k m with
  | nil => exact ⟨m, rfl⟩
  | cons p ps ih =>
    obtain ⟨a, ha⟩ := Option.isSome_iff_exists.mp (h 0 (by simp))
    rw [Nat.add_zero] at ha
    simp only [writePairs, ha]
    refine ih (k + 1) _ fun i hi => ?_
    have := h (i + 1) (by simpa using hi)
    rwa [Nat.add_assoc, Nat.add_comm 1]

/-- A pair is read back from its place where no other pair of the upload has that place. -/
theorem readPair_writePairs {e : DirEntry} {ps : List Pair} {k : Nat} {m n : List Host.Cell} (h : Memory.wf m = true)
    (hw : writePairs e ps k m = some n)
    (hinj : ∀ i j a : Nat, i < ps.length → j < ps.length → e.place (k + i) = some a → e.place (k + j) = some a → i = j)
    {i a : Nat} {p : Pair} (hp : ps[i]? = some p) (ha : e.place (k + i) = some a) : readPair n a = p := by
  induction ps generalizing k m i with
  | nil => simp at hp
  | cons q ps ih =>
    simp only [writePairs] at hw
    split at hw
    · cases hw
    · rename_i b hb
      cases i with
      | zero =>
        rw [Nat.add_zero, hb] at ha
        cases ha
        have hother : ∀ x : Nat, 4 * a ≤ x → x < 4 * a + 4 → readByte n x = readByte (writePair m a q) x := by
          intro x hx hx'
          refine writePairs_other (writePair_wf h) hw fun j hj c hc => ?_
          by_contra hcx
          obtain rfl : c = a := by omega
          have := hinj (j + 1) 0 c (by simpa using hj) (by simp)
            (by rw [← hc]; congr 1; omega) (by rw [Nat.add_zero]; exact hb)
          omega
        rw [List.getElem?_cons_zero, Option.some.injEq] at hp
        rw [← hp, ← readPair_writePair h (a := a) (p := q)]
        simp only [readPair]
        rw [hother (4 * a) (by omega) (by omega), hother (4 * a + 1) (by omega) (by omega),
          hother (4 * a + 2) (by omega) (by omega), hother (4 * a + 3) (by omega) (by omega)]
      | succ i =>
        refine ih (writePair_wf h) hw (fun x y c hx hy hc hc' => ?_) (by simpa using hp) (by rw [← ha]; congr 1; omega)
        have := hinj (x + 1) (y + 1) c (by simpa using hx) (by simpa using hy)
          (by rw [← hc]; congr 1; omega) (by rw [← hc']; congr 1; omega)
        omega

@[simp] theorem State.placeReply_queue (s : State) (body : List Byte) : (s.placeReply body).queue = s.queue := by
  unfold State.placeReply State.pump
  split <;> rfl

theorem State.opWriteComplete_of {s : State} {c : WriteClaim} {e : DirEntry} {m : Message} {media : List Host.Cell}
    (hp : s.port = .write) (hc : s.claim = some c) (he : s.entryAt c.slot = some e) (hm : s.inHand = some m)
    (hq : s.queue = []) (hw : writePairs e c.pairs c.offset s.media = some media) :
    s.opWriteComplete = .next
      (State.answered
        (({ s with media := media, port := .idle, claim := none, handler := .ready, inHand := none } : State).modDir
          c.slot fun x => { x with received := e.received + c.pairs.length })
        m.kind m.req 0x00 (toBytes 4 (e.received + c.pairs.length))) := by
  simp only [State.opWriteComplete, hp, hc, he, hw]
  refine congrArg Host.Outcome.next ?_
  simp only [State.releaseHeld, State.modDir_inHand, hm]
  exact State.runHandler_nil ((State.placeReply_queue _ _).trans hq)

end Sys2Proof.Machine

namespace Sys2Proof
open Machine

/-- Settles O52: the arbiter's fold is an argmin over the claiming readers, and a fetch stays in its block. -/
theorem fetchBegins : Obligations.FetchBegins := by
  unfold Obligations.FetchBegins
  have hexec : ∀ s : State, s.AtRest → exec .fetchBegin s = s.opFetchBegin := fun s hs => by
    show execFetchBegin s = _
    rw [execFetchBegin, if_neg (by simp [hs.1]), State.settle_atRest hs.2]
  refine ⟨fun s rd => State.chosenReader_eq_some, fun s rd e a hs hp hc he ha => ?_, fun s hs h => ?_, fun p e => ?_⟩
  · rw [hexec s hs, State.opFetchBegin, if_neg (not_not.mpr hp), hc]
    simp only [he, ha]
    refine congrArg Host.Outcome.next ?_
    cases rd <;> rfl
  · rw [hexec s hs, State.opFetchBegin]
    split
    · rfl
    next hp => rw [h.resolve_left hp]
  · have hcount : fetchCount p e = min 2048 (min (16384 - p.fetchPos % 16384) (stopPoint p e - p.fetchPos)) := rfl
    exact ⟨by omega, fun a i ha hi => DirEntry.place_add ha (by omega), fun h => by omega⟩

/-- Settles O53: an accepted fetch's pairs enter the reader's buffer and prime it, and another's do not. -/
theorem fetchCompletes : Obligations.FetchCompletes := by
  unfold Obligations.FetchCompletes
  intro s f hs hp
  have hexec : ∀ err : Bool, exec (.fetchComplete err) s = .next (s.opFetchComplete err) := fun err =>
    hs.event fun x => x.opFetchComplete err
  refine ⟨fun h err => ?_, fun e hv hst hg he => ⟨?_, ?_⟩⟩
  · rw [hexec, State.opFetchComplete_of_not hp (State.accepts_eq_false h)]
  · rw [hexec, State.opFetchComplete_of hp (State.accepts_eq_true hv hst hg)]
    refine congrArg Host.Outcome.next ((State.enterPairs_read (s := { s with port := .idle }) he).trans ?_)
    refine State.modReader_congr ?_
    simp only [Player.primedBy, primeThreshold, List.length_append, Config.primeLevel]
    rw [readPairs_length]
  · refine ⟨_, hexec true, ?_⟩
    rw [State.opFetchComplete_of hp (State.accepts_eq_true hv hst hg)]
    have he' : State.playerEntry { s with port := .idle } (State.reader { s with port := .idle } f.reader) = some e := he
    have hu : State.reader { s with port := .idle } = s.reader := rfl
    have hmedia : State.media { s with port := .idle } = s.media := rfl
    have hport : State.port { s with port := .idle } = .idle := rfl
    have hdeck : ∀ d, State.deck { s with port := .idle } d = s.deck d := fun _ => rfl
    have hstation : ∀ st, State.station { s with port := .idle } st = s.station st := fun _ => rfl
    have htime : ∀ st, State.stationTime { s with port := .idle } st = s.stationTime st := fun _ => rfl
    generalize ({ s with port := .idle } : State) = u at he' hu hmedia hport hdeck hstation htime ⊢
    obtain ⟨hd, hb, -, hm, hpo⟩ := (u.zerosEntered f).readerFault_fields f.reader
    rw [State.enterPairs_error he', State.modReader_port, State.modReader_media, State.modReader_reader, hpo, hm,
      State.reader_congr hd hb, State.zerosEntered, State.modReader_reader, State.modReader_port, State.modReader_media,
      hu]
    refine ⟨hport, rfl, rfl, hmedia, fun rd hrd => ?_, fun st hr hf => ?_⟩
    · rw [State.modReader_reader_ne _ _ hrd]
      refine (State.reader_congr hd hb rd).trans ?_
      rw [State.zerosEntered, State.modReader_reader_ne _ _ hrd, hu]
    · rw [State.station_congr (State.modReader_stations _ _ _)]
      have hz := State.readerFault_fault (s := u.zerosEntered f) (rd := f.reader) (st := st) (e := e) ?_
        (State.zerosEntered_entry he') ?_
      · refine hz.trans ?_
        rw [State.stationTime, State.zerosEntered, State.modReader_house,
          State.station_congr (State.modReader_stations _ _ _)]
        exact congrArg (fun t => some (FaultCause.mediaError, e.cart, t, false)) (htime st)
      · refine hr.imp_right fun ⟨d, hfd, hd⟩ => ⟨d, hfd, ?_⟩
        rw [State.zerosEntered, hfd]
        exact (congrArg Deck.station (State.modPlayer_deck u d _)).trans ((congrArg Deck.station (hdeck d)).trans hd)
      · rw [State.zerosEntered, State.station_congr (State.modReader_stations _ _ _), hstation]
        exact hf

/-- Settles O16: an ITEM_DATA in order passes every check, and its claim waits until no reader claims the port. -/
theorem uploadClaims : Obligations.UploadClaims := by
  unfold Obligations.UploadClaims
  refine ⟨fun s r owner e hr how hlen h1 h2 he hoff hin => ⟨?_, ?_⟩, fun s hs hp hc hrd => ?_, fun s rd hs hm hc => ?_⟩
  · rw [exec_request_ready hr rfl]
    refine congrArg Host.Outcome.next ?_
    have hl : s.working.loadingFor r (field r.payload 6 4) = some e := by
      rw [State.loadingFor, how]
      exact he
    show Answer.after 0x11 r (handleItemData r s.working) = _
    have ha : handleItemData r s.working =
        ({ s.working with claim := some ⟨e.slot, e.received, pairsOf (r.payload.drop 10)⟩ }, .held) := by
      simp only [handleItemData]
      rw [if_neg (not_not.mpr hlen), how, hl, if_neg (by simp), if_neg (by simp; omega)]
      refine (if_neg (not_not.mpr hoff)).trans ?_
      rw [hoff]
    rw [ha]
    exact State.settlePool_clean hr.clean
  · refine pairsOf_length ?_
    rw [List.length_drop]
    omega
  · refine (hs.event State.opWriteBegin).trans (congrArg _ (if_pos ⟨hp, hc, State.chosenReader_eq_none.mpr hrd⟩))
  · refine (hs.event State.opWriteBegin).trans (congrArg _ (if_neg fun h => ?_))
    rw [State.chosenReader_eq_none.mp h.2.2 rd hm] at hc
    cases hc

/-- Settles O17: a write stores its pairs one by one, each at its own place. -/
theorem uploadWrites : Obligations.UploadWrites := by
  unfold Obligations.UploadWrites
  intro s c e m hs hmc hp hc he hm hq hplace hinj
  obtain ⟨media, hw⟩ := writePairs_total c.pairs c.offset s.media hplace
  refine ⟨media, ?_, fun i a p hi ha => readPair_writePairs hmc hw hinj hi ha, fun x hx => ?_⟩
  · show execWriteComplete s = _
    rw [execWriteComplete, if_neg (by simp [hs.1]), State.settle_atRest hs.2]
    exact State.opWriteComplete_of hp hc he hm hq hw
  · exact writePairs_other hmc hw fun i hi a ha => hx i a hi ha

end Sys2Proof
end

section
/-!
PROOFS. The requests on run lists that change one entry (O20, O21, O23), the settings (O24), and the station requests as
they are taken (O25 to O28).
-/

namespace Sys2Proof.Machine

/-! ## A request taken -/

/-- The answer of a request that a ready part takes. -/
theorem exec_request_taken {s t : State} (h : s.Ready) {c : Instr} {k : Byte} {r : Req} (hc : c.request = some (k, r))
    {code : Byte} {p : List Byte} (ha : handlerFor k r s.working = (t, .reply code p)) :
    exec c s = .next (t.replied k r code p) := by
  rw [exec_request_ready h hc, ha, Answer.after]

/-- A station change that sets off no re-evaluation leaves none owed. -/
theorem State.Ready.modStation_clean {s : State} (h : s.Ready) {st : StationId} {f : Station → Station}
    (hf : (f (s.station st)).dirty = (s.station st).dirty) (u : StationId) :
    ((s.modStation st f).station u).dirty = false := by
  by_cases hu : st = u
  · subst hu
    rw [State.modStation_station, hf]
    exact h.clean st
  · rw [State.modStation_station_ne s f hu]
    exact h.clean u

/-- A station change noted for the next period leaves no re-evaluation owed either. -/
theorem State.Ready.deferred_clean {s : State} (h : s.Ready) {st : StationId} {f : Station → Station} {d : Deferred}
    (hf : (f (s.station st)).dirty = (s.station st).dirty) (u : StationId) :
    (((s.modStation st f).defer st d).station u).dirty = false := h.modStation_clean hf u

/-! ## Committed entries -/

/-- What stands at or behind the end of a list's last stretch satisfies what the stretch satisfies. -/
theorem lt_of_not_mem_takeWhile_reverse {α : Type} {p : α → Bool} {l : List α} {i : Nat} {x : α} (hx : l[i]? = some x)
    (hp : p x = false) : i < l.length - (l.reverse.takeWhile p).length := by
  induction l using List.reverseRecOn with
  | nil => simp at hx
  | append_singleton l y ih =>
    rw [List.reverse_append, List.reverse_singleton, List.singleton_append, List.length_append, List.length_singleton]
    have hi : i < l.length + 1 := by
      have := (List.getElem?_eq_some_iff.mp hx).1
      rwa [List.length_append, List.length_singleton] at this
    rw [List.takeWhile_cons]
    split
    next hy =>
      rcases Nat.lt_or_ge i l.length with hlt | hge
      · rw [List.getElem?_append_left hlt] at hx
        have := ih hx
        rw [List.length_cons]
        omega
      · rw [List.getElem?_append_right hge, show i - l.length = 0 by omega] at hx
        cases hx
        rw [hp] at hy
        cases hy
    next hy => simpa using hi

theorem Station.lt_behindCommitted {x : Station} {i : Nat} {e : Entry} (hi : x.waitingList[i]? = some e)
    (hc : x.isCommitted e = true) : i < x.behindCommitted :=
  lt_of_not_mem_takeWhile_reverse hi (by simp [hc])

theorem Station.notStarted_of_waitingList {x : Station} {e : Entry} (h : e ∈ x.waitingList) : e.notStarted = true :=
  (List.mem_filter.mp h).2

theorem Station.isCommitted_pending {x : Station} {e : Entry} (h : e.state = .pending) : x.isCommitted e = true := by
  simp [Station.isCommitted, h]

theorem Station.isCommitted_taken {x : Station} {e : Entry} (h : x.take.map PendingTake.target = some e.id) :
    x.isCommitted e = true := by
  obtain ⟨k, hk, hid⟩ := Option.map_eq_some_iff.mp h
  simp [Station.isCommitted, hk, hid]

theorem Station.isCommitted_of {x : Station} {e : Entry} (hn : e.notStarted = true)
    (h : e.state = .pending ∨ x.take.map PendingTake.target = some e.id ∨ e.preFaded = true) :
    x.isCommitted e = true := by
  rcases h with h | h | h
  · exact Station.isCommitted_pending h
  · exact Station.isCommitted_taken h
  · exact Station.isCommitted_preFaded hn h

theorem presentIf_eq_some {b : Bool} {v w : Nat} (h : presentIf b v = some w) : w = v := by
  unfold presentIf at h
  split at h
  · exact (Option.some.inj h).symm
  · cases h

/-- The value of a setting after an action that sets it. -/
theorem Action.apply_set (lo hi old v : Nat) : Action.apply lo hi old (some (.set v)) = max lo (min v hi) := rfl

theorem Action.apply_set_zero (hi old v : Nat) : Action.apply 0 hi old (some (.set v)) = min v hi :=
  Nat.zero_max _

/-! ## ENTRY_INSERT -/

/-- The rule of an ENTRY_INSERT that passes the checks of its form. -/
theorem handleEntryInsert_eq {r : Req} {s : State} {st : StationId} (hl : r.payload.length = 31 + 8 * (insertForm
    r.payload).count) (hs : stationOf r.station = some st) : handleEntryInsert r s =
      let f := insertForm r.payload
      let x := s.station st
      let place := x.insertPlace f.position
      if !f.inRange then refuse s rRANGE
      else if f.entry.due.isSome && !orderOk (x.listWith place f.entry) then refuse s rORDER
      else if (x.find f.id).isSome then refuse s rEXISTS
      else if Config.listLimit ≤ x.list.length then refuse s rLIST_FULL
      else
        answerOk (s.insertEntry st f)
          (toBytes 1 (x.startedCount + place) ++ toBytes 1 (x.notStarted + 1) ++ f.entry.storedBytes) :=
  stationRequest_pass hl hs s _

/-! ## A take withdrawn -/

/-- The due moment a withdrawn take leaves: its target's own goes. -/
theorem Station.dueBut_eq (x : Station) (id : Nat) :
    x.dueBut id = if x.waitingList.head?.map Entry.id = some id then none else x.due := by
  unfold Station.dueBut
  cases x.waitingList.head? with
  | none => simp
  | some e => simp

theorem State.withdrawTake_none {s : State} {st : StationId} (h : (s.station st).take = none) : s.withdrawTake st = s := by
  simp only [State.withdrawTake, h]

theorem State.withdrawTake_some {s : State} {st : StationId} {k : PendingTake} (h : (s.station st).take = some k) :
    s.withdrawTake st =
      (s.modStation st fun x => { x with take := none, due := x.dueBut k.target, dirty := true }).modEntry st k.target
        Entry.returned := by
  simp only [State.withdrawTake, h]

theorem State.modStation_congr {s : State} {st : StationId} {f g : Station → Station}
    (h : f (s.station st) = g (s.station st)) : s.modStation st f = s.modStation st g :=
  congrArg (s.setStation st) h

/-- A withdrawn take by the due moment it leaves. -/
theorem State.withdrawTake_due {s : State} {st : StationId} {k : PendingTake} {due : Option DueMoment}
    (h : (s.station st).take = some k)
    (hd : due = (if (s.station st).waitingList.head?.map Entry.id = some k.target then none else (s.station st).due)) :
    s.withdrawTake st =
      (s.modStation st fun x => { x with take := none, due := due, dirty := true }).modEntry st k.target
        Entry.returned := by
  rw [State.withdrawTake_some h]
  refine congrArg (fun t : State => t.modEntry st k.target Entry.returned) (State.modStation_congr ?_)
  rw [hd, ← Station.dueBut_eq]

theorem modeAction_ends {old m : Mode} (hm : m = .auto ∨ m = .manual) (b : Bool) :
    modeAction old m b = modeAction old m false := by
  cases old <;> rcases hm with rfl | rfl <;> rfl

theorem Mode.ends_of {m : Mode} (h : m = .idle ∨ m = .fallback) : m.ends = true := by
  rcases h with rfl | rfl <;> rfl

theorem Mode.ends_of_not {m : Mode} (h : m = .auto ∨ m = .manual) : m.ends = false := by
  rcases h with rfl | rfl <;> rfl

/-! ## SET_TIME -/

theorem beNat_append_singleton (bs : List Byte) (b : Byte) : beNat (bs ++ [b]) = beNat bs * 256 + b.toNat := by
  simp only [beNat, List.foldl_append, List.foldl_cons, List.foldl_nil]

theorem beNat_lt (bs : List Byte) : beNat bs < 256 ^ bs.length := by
  induction bs using List.reverseRecOn with
  | nil => decide
  | append_singleton bs b ih =>
    rw [beNat_append_singleton, List.length_append, List.length_singleton, pow_succ]
    have := b.isLt
    omega

theorem field_lt (p : List Byte) (o n : Nat) : field p o n < 256 ^ n :=
  (beNat_lt _).trans_le (Nat.pow_le_pow_right (by decide) (by rw [List.length_take]; exact Nat.min_le_left _ _))

/-- The station change of a SET_TIME of the value `v`. -/
def State.timed (s : State) (sts : List StationId) (v : Nat) : State := forEach sts (fun st acc => acc.setTime st v) s

theorem State.timed_cons (s : State) (st : StationId) (sts : List StationId) (v : Nat) :
    s.timed (st :: sts) v = (s.setTime st v).timed sts v := rfl

theorem State.setTime_station (s : State) (st u : StationId) (v : Nat) :
    (s.setTime st v).station u =
      if st = u then { s.station u with offset := BitVec.ofNat 48 v - (s.house + 1) } else s.station u := by
  split
  next h =>
    subst h
    exact State.modStation_station s st fun x => { x with offset := BitVec.ofNat 48 v - (s.house + 1) }
  next h =>
    exact State.modStation_station_ne s (fun x => { x with offset := BitVec.ofNat 48 v - (s.house + 1) }) h

@[simp] theorem State.timed_house (s : State) (sts : List StationId) (v : Nat) : (s.timed sts v).house = s.house := by
  induction sts generalizing s with
  | nil => rfl
  | cons st sts ih => exact ih _

theorem State.timed_station (s : State) (sts : List StationId) (v : Nat) (u : StationId) :
    (s.timed sts v).station u =
      if u ∈ sts then { s.station u with offset := BitVec.ofNat 48 v - (s.house + 1) } else s.station u := by
  induction sts generalizing s with
  | nil => rfl
  | cons st sts ih =>
    rw [State.timed_cons, ih, State.setTime_station]
    by_cases hu : st = u
    · subst hu
      simp only [if_true, List.mem_cons_self]
      split <;> rfl
    · have : (u ∈ st :: sts) = (u ∈ sts) := by simp [Ne.symm hu]
      simp only [hu, if_false, this]
      rfl

theorem State.timed_deferred (s : State) (sts : List StationId) (v : Nat) :
    (s.timed sts v).deferred = s.deferred ++ sts.map fun st => (st, Deferred.reevaluate) := by
  induction sts generalizing s with
  | nil => exact (List.append_nil _).symm
  | cons st sts ih =>
    rw [State.timed_cons, ih, List.map_cons]
    exact List.append_assoc s.deferred [(st, Deferred.reevaluate)] _

theorem State.timed_frame (s : State) (sts : List StationId) (v : Nat) :
    (s.timed sts v).decks = s.decks ∧ (s.timed sts v).beds = s.beds ∧ (s.timed sts v).media = s.media ∧
      (s.timed sts v).dir = s.dir := by
  induction sts generalizing s with
  | nil => exact ⟨rfl, rfl, rfl, rfl⟩
  | cons st sts ih => exact ih _

theorem State.timed_handler (s : State) (sts : List StationId) (v : Nat) (x : Handler) :
    State.timed { s with handler := x } sts v = { s.timed sts v with handler := x } := by
  induction sts generalizing s with
  | nil => rfl
  | cons st sts ih => exact ih (s.setTime st v)

theorem nextTime_of_offset {s : State} {st : StationId} {v : Nat} (hv : v < 281474976710656)
    (h : (s.station st).offset = BitVec.ofNat 48 v - (s.house + 1)) : s.nextTime st = v := by
  unfold State.nextTime
  rw [h, BitVec.add_comm, BitVec.sub_add_cancel]
  exact Nat.mod_eq_of_lt hv

end Sys2Proof.Machine

namespace Sys2Proof
open Machine

/-- Settles O20: every check passes, and the place lies behind the last committed entry. -/
theorem entryInserted : Obligations.EntryInserted := by
  unfold Obligations.EntryInserted
  rintro s r st f x p hr rfl rfl rfl hl hs hin hord hfind hlen
  refine ⟨exec_request_taken hr rfl (?_ : handleEntryInsert r s.working = _), rfl, rfl, rfl, rfl,
    fun i e hi hc => ?_, fun v hv => presentIf_eq_some hv, fun v hv => presentIf_eq_some hv,
    fun v hv => presentIf_eq_some hv⟩
  · rw [handleEntryInsert_eq hl hs]
    have hord' : ¬((insertForm r.payload).entry.due.isSome && !orderOk ((s.working.station st).listWith
        ((s.working.station st).insertPlace (insertForm r.payload).position) (insertForm r.payload).entry)) = true := by
      intro h
      rw [Bool.and_eq_true, Bool.not_eq_true'] at h
      rw [← Bool.not_eq_true] at h
      exact h.2 (hord h.1)
    have hfind' : ¬((s.working.station st).find (insertForm r.payload).id).isSome = true := by
      rw [show s.working.station st = s.station st from rfl, hfind]
      exact Bool.false_ne_true
    simp only [hin, Bool.not_true, Bool.false_eq_true, if_false]
    rw [if_neg hord', if_neg hfind']
    exact if_neg (Nat.not_le.mpr hlen)
  · have hn := Station.notStarted_of_waitingList (List.mem_of_getElem? hi)
    exact (Station.lt_behindCommitted hi (Station.isCommitted_of hn hc)).trans_le (Nat.le_max_right _ _)

/-- Settles O21: the checks of an ENTRY_INSERT one by one, in their order. -/
theorem insertRefused : Obligations.InsertRefused := by
  unfold Obligations.InsertRefused
  rintro s r st f x hr rfl rfl hl hs
  refine ⟨fun hin => ?range, fun hin hlate => ?order, fun hin hlate hex => ?rivalled, fun hin hlate hnew hfull => ?full⟩
  all_goals
    refine exec_request_same hr rfl (?_ : handleEntryInsert r s.working = _)
    rw [handleEntryInsert_eq hl hs]
  case range => exact if_pos (by simp [hin])
  case order => exact (if_neg (by simp [hin])).trans (if_pos hlate)
  case rivalled =>
    exact (if_neg (by simp [hin])).trans ((if_neg (Bool.eq_false_iff.mp hlate)).trans (if_pos hex))
  case full =>
    have hnone : ¬((s.working.station st).find (insertForm r.payload).id).isSome = true := by
      rw [show s.working.station st = s.station st from rfl, hnew]
      exact Bool.false_ne_true
    exact (if_neg (by simp [hin])).trans
      ((if_neg (Bool.eq_false_iff.mp hlate)).trans ((if_neg hnone).trans (if_pos hfull)))

/-- Settles O23: an amendment's actions are applied together to the entry the id finds. -/
theorem entryAmended : Obligations.EntryAmended := by
  unfold Obligations.EntryAmended
  refine ⟨fun s r st e hr hl hs hf h => ?_, ?_⟩
  · refine exec_request_same hr rfl (?_ : handleEntryAmend r s.working = _)
    have hc : e.state ≠ .waiting ∨ (s.station st).isCommitted e = true := by
      by_cases hw : e.state = .waiting
      · have hn : e.notStarted = true := by rw [Entry.notStarted, hw]; rfl
        exact .inr (Station.isCommitted_of hn (.inr (h.resolve_left (not_not.mpr hw))))
      · exact .inl hw
    rw [handleEntryAmend, stationRequest_pass hl hs]
    simp only [show s.working.station st = s.station st from rfl, hf]
    exact if_pos hc
  · rintro s r st f e hr hl hs rfl hf hw hc hk hcodes hdue
    have hrule : Action.sets (amendForm r.payload).due = false ∨
        orderOk ((s.station st).amended (amendForm r.payload)) = true → handleEntryAmend r s.working =
          answerOk (s.working.amendEntry st (amendForm r.payload))
            (((amendForm r.payload).apply e).storedBytes ++ optBytes 6 ((amendForm r.payload).apply e).due) := fun ho => by
      rw [handleEntryAmend, stationRequest_pass hl hs]
      simp only [show s.working.station st = s.station st from rfl, hf]
      rw [if_neg (by simp [hw, hc]), if_neg (by simp [hk]), if_neg (by simpa [hcodes] using hdue),
        if_neg (by rcases ho with ho | ho <;> simp [ho])]
    refine ⟨fun v hv => ?_, fun hv => ?_, fun hv => ?_, fun hv => ?_, fun v hv ho => ⟨?_, ?_⟩⟩
    · exact congrArg (Action.on clampLevel e.level) hv
    · exact congrArg (Action.on clampLevel e.level) hv
    · exact congrArg (Action.on clampLevel e.level) hv
    · have hset : Action.sets (amendForm r.payload).due = false := by
        match h : (amendForm r.payload).due with
        | none => rfl
        | some .leave => rfl
        | some .absent => rfl
        | some (.set v) => exact absurd h (hv v)
      refine exec_request_taken hr rfl ((hrule (.inl hset)).trans ?_)
      simp only [State.amendEntry, hset, Bool.false_eq_true, if_false]
      rfl
    · exact congrArg (Action.on (fun v => v) e.due) hv
    · refine exec_request_taken hr rfl ((hrule (.inr ho)).trans ?_)
      simp only [State.amendEntry, show Action.sets (amendForm r.payload).due = true by rw [hv]; rfl, if_true]
      rfl

/-- Settles O24: the settings are applied together, and what hangs on three of them is left where these stand. -/
theorem settingsStored : Obligations.SettingsStored := by
  unfold Obligations.SettingsStored
  rintro s r st f c hr hl hs rfl hin rfl
  have hrule : handleStationSet r s.working =
      answerOk (s.working.applySettings st ((setForm r.payload).apply (s.station st).cfg))
        ((setForm r.payload).apply (s.station st).cfg).bytes := by
    rw [handleStationSet, stationRequest_pass hl hs]
    exact if_pos hin
  refine ⟨SetForm.apply_inRange, fun v hv => ?_, fun v hv => ?_, fun v hv => ?_, fun v hv => ?_, fun hv => ?_,
    exec_request_taken hr rfl hrule, fun ha hlow hfb => ?_⟩
  · exact (congrArg (Action.apply 0 32768 _) hv).trans (Action.apply_set_zero _ _ _)
  · exact congrArg (Action.apply 48000 2880000 _) hv
  · exact congrArg (Action.apply 48000 2880000 _) hv
  · exact (congrArg (Action.apply 0 480000 _) hv).trans (Action.apply_set_zero _ _ _)
  · exact congrArg (Action.on (fun v => v) (s.station st).cfg.fillCart) hv
  · generalize (setForm r.payload).apply (s.station st).cfg = c at hrule ha hlow hfb ⊢
    refine exec_request_effect hr rfl (f := fun x => x.modStation st fun y => { y with cfg := c }) (fun _ => rfl)
      (hr.modStation_clean rfl) (hrule.trans ?_)
    have hunchanged : s.working.applySettings st c = s.working.modStation st fun y => { y with cfg := c } :=
      (if_pos hfb).trans ((if_pos hlow).trans (if_pos ha))
    rw [hunchanged]
    rfl

/-- Settles O25: what a STATION_MODE changes at once is mode, left mode and take; the rest is noted. -/
theorem modeChanged : Obligations.ModeChanged := by
  unfold Obligations.ModeChanged
  intro s r st m hr hl hs hm
  have hstation : s.working.station st = s.station st := rfl
  have hrule : ¬((s.station st).mode = .fallback ∧ (m = .auto ∨ m = .manual)) → (s.station st).mode ≠ m →
      handleStationMode r s.working = answerOk (s.working.changeMode st m) [] := fun hf hne => by
    rw [handleStationMode, stationRequest_pass hl hs]
    simp only [hm]
    exact (if_neg hf).trans (if_neg hne)
  refine ⟨fun hf hm' => ?_, fun he => ?_, fun hne hf => ⟨fun h => ?_, fun k due hk hend hdue => ?_⟩⟩
  · refine exec_request_same hr rfl (?_ : handleStationMode r s.working = _)
    rw [handleStationMode, stationRequest_pass hl hs]
    simp only [hm]
    exact if_pos ⟨hf, hm'⟩
  · refine exec_request_same hr rfl (?_ : handleStationMode r s.working = _)
    rw [handleStationMode, stationRequest_pass hl hs]
    simp only [hm]
    refine (if_neg ?_).trans (if_pos he)
    rintro ⟨h1, h2⟩
    rw [show (s.working.station st).mode = m from he] at h1
    rcases h2 with rfl | rfl <;> cases h1
  · refine exec_request_effect hr rfl
      (f := fun x =>
        (x.modStation st fun y =>
            { y with
              mode := m
              leftMode := if m = .fallback then some (s.station st).mode else none
              silenceDue := false }).defer st (modeAction (s.station st).mode m false))
      (fun _ => rfl) (hr.deferred_clean rfl) ((hrule hf hne).trans ?_)
    have hw : (if m.ends then s.working.withdrawTake st else s.working) = s.working := by
      rcases h with h | h
      · rw [State.withdrawTake_none (s := s.working) h, ite_self]
      · rw [Mode.ends_of_not h]
        rfl
    have ha : modeAction (s.station st).mode m (m.ends && (s.station st).take.isSome) =
        modeAction (s.station st).mode m false := by
      rcases h with h | h
      · rw [h]
        cases m.ends <;> rfl
      · exact modeAction_ends h _
    simp only [State.changeMode, hw, hstation, ha]
    rfl
  · refine exec_request_taken hr rfl ((hrule hf hne).trans ?_)
    simp only [State.changeMode, Mode.ends_of hend, if_true, hstation, hk, Option.isSome_some, Bool.and_self]
    rw [State.withdrawTake_due (s := s.working) hk hdue]
    rfl

/-- Settles O26: every check passes, and the take is recorded with its action noted. -/
theorem takeTaken : Obligations.TakeTaken := by
  unfold Obligations.TakeTaken
  rintro s r st named e hr hl hs hact rfl hbad he hk hb hn ho ht
  have hstation : s.working.station st = s.station st := rfl
  refine exec_request_effect hr rfl
    (f := fun x => (x.modStation st fun y => { y with take := some ⟨e.id, s.nextTime st⟩ }).defer st (.take e.id))
    (fun _ => rfl) (hr.deferred_clean rfl) (?_ : handleTake r s.working = _)
  have hn' : s.working.takeNotReady st e = false := hn
  have hother : ¬(e.state = .onAir ∨ (s.station st).take.any (fun k => k.target == e.id) = true) := by
    rintro (h | h)
    · exact ho h
    · cases hk' : (s.station st).take with
      | none => simp [hk'] at h
      | some k => exact ht k hk' (by simpa [hk'] using h)
  rw [handleTake, stationRequest_pass hl hs]
  simp only [hstation, hbad, he, Option.any_some, hb, hn', Bool.false_eq_true, if_false]
  rw [if_neg (by simpa using hk), if_neg (Nat.not_lt.mpr hact), if_neg hother]
  rfl

/-- Settles O27: the three requests in each of the modes they meet. -/
theorem takeStopResume : Obligations.TakeStopResume := by
  unfold Obligations.TakeStopResume
  intro s r st hr hp hs
  have hl : r.payload.length = 0 := by rw [hp]; rfl
  have hstation : s.working.station st = s.station st := rfl
  have hcancel : handleTakeCancel r s.working =
      if (s.station st).take.isSome then answerOk (s.working.withdrawTake st) []
      else (s.working, .reply rREDUNDANT []) := by
    rw [handleTakeCancel, stationRequest_pass hl hs]
    rfl
  have hstop : handleStop r s.working =
      if (s.station st).mode = .fallback ∨ (s.station st).onAirBreak.isSome = true then refuse s.working rBAD_STATE
      else if (s.station st).mode = .idle ∨
          ((s.station st).mode = .manual ∧ (s.station st).sounding = false ∧ (s.station st).take = none) then
        (s.working, .reply rREDUNDANT [])
      else answerOk (s.working.stopStation st) [] := by
    rw [handleStop, stationRequest_pass hl hs]
    rfl
  have hresume : handleResume r s.working =
      if (s.station st).mode = .fallback then answerOk (s.working.resumeStation st) []
      else refuse s.working rBAD_STATE := by
    rw [handleResume, stationRequest_pass hl hs]
    rfl
  refine ⟨fun ht => ?_, fun k due hk hdue => ?_, fun h => ?_, fun hb => ⟨fun hi => ?_, fun hm hq ht => ?_,
    fun hm ht => ?_, fun k due hm hk hdue => ?_⟩, fun hm => ?_, fun left hm hleft => ?_⟩
  · exact exec_request_same hr rfl (hcancel.trans (if_neg (by simp [ht])))
  · refine exec_request_taken hr rfl ((hcancel.trans (if_pos (by simp [hk]))).trans ?_)
    rw [State.withdrawTake_due (s := s.working) hk hdue]
    rfl
  · exact exec_request_same hr rfl (hstop.trans (if_pos h))
  · exact exec_request_same hr rfl (hstop.trans ((if_neg (by simp [hi, hb])).trans (if_pos (.inl hi))))
  · exact exec_request_same hr rfl (hstop.trans ((if_neg (by simp [hm, hb])).trans (if_pos (.inr ⟨hm, hq, ht⟩))))
  · refine exec_request_effect hr rfl
      (f := fun x =>
        (x.modStation st fun y => { y with mode := .manual }).defer st (.stop ((s.station st).mode == .auto)))
      (fun _ => rfl) (hr.deferred_clean rfl) (hstop.trans ((if_neg ?_).trans ((if_neg ?_).trans ?_)))
    · rcases hm with hm | hm <;> simp [hm, hb]
    · rcases hm with hm | ⟨hm, hq⟩ <;> simp [*]
    · simp only [State.stopStation, hstation]
      rw [State.withdrawTake_none (s := s.working) ht]
      rfl
  · refine exec_request_taken hr rfl (hstop.trans ((if_neg ?_).trans ((if_neg ?_).trans ?_)))
    · rcases hm with hm | hm <;> simp [hm, hb]
    · rcases hm with hm | hm <;> simp [hm, hk]
    · simp only [State.stopStation, hstation]
      rw [State.withdrawTake_due (s := s.working) hk hdue]
      rfl
  · exact exec_request_same hr rfl (hresume.trans (if_neg hm))
  · refine exec_request_effect hr rfl
      (f := fun x => (x.modStation st fun y => { y with mode := left, leftMode := none }).defer st (.resume left))
      (fun _ => rfl) (hr.deferred_clean rfl) ((hresume.trans (if_pos hm)).trans ?_)
    simp only [State.resumeStation, hstation, hleft, Option.getD_some]
    rfl

/-- Settles O28: each station named gets the offset that makes its next station time the one given. -/
theorem timeSet : Obligations.TimeSet := by
  unfold Obligations.TimeSet
  intro s r sts hr hl hs
  have hrule : handleSetTime r s.working =
      if (sts.any fun st => (s.station st).breakActive) = true then refuse s.working rBREAK_ACTIVE
      else answerOk (s.working.timed sts (field r.payload 0 6)) (toBytes 6 (field r.payload 0 6)) := by
    simp only [handleSetTime, hl, ne_eq, not_true_eq_false, if_false, hs]
    rfl
  refine ⟨fun ⟨st, hst, hb⟩ => ?_, fun h => ⟨s.timed sts (field r.payload 0 6), ?_, ?_, ?_, ?_, ?_, ?_, ?_⟩⟩
  · exact exec_request_same hr rfl (hrule.trans (if_pos (List.any_eq_true.mpr ⟨st, hst, hb⟩)))
  · refine exec_request_effect hr rfl (f := fun x => x.timed sts (field r.payload 0 6))
      (s.timed_handler sts _) (fun u => ?_) (hrule.trans (if_neg ?_))
    · rw [State.timed_station]
      split
      · exact hr.clean u
      · exact hr.clean u
    · simpa using h
  · intro st hst
    refine nextTime_of_offset (field_lt r.payload 0 6) ?_
    rw [State.timed_house, State.timed_station, if_pos hst]
  · intro st hst
    rw [State.timed_station, if_neg hst]
  · intro st
    rw [State.timed_station]
    split <;> rfl
  · exact State.timed_deferred _ _ _
  · exact State.timed_house _ _ _
  · exact State.timed_frame _ _ _

end Sys2Proof
end

section
/-!
PROOFS. The requests to the reference controller (O30) and the links (O31), and the conditions (O33).
-/

namespace Sys2Proof.Machine

/-! ## REF_SELECT and REF_CANCEL -/

/-- The rule of a REF_SELECT whose codes are read. -/
theorem handleRefSelect_eq {r : Req} {s : State} {src : Source} {auto : Bool} (hl : r.payload.length = 2)
    (hs : r.station = 0xFF) (hsrc : sourceOf (field r.payload 0 1) = some src)
    (ha : autoReturnOf (field r.payload 1 1) = some auto) : handleRefSelect r s =
      if s.sourceAbsent src then refuse s rBAD_STATE
      else ({ s with ref := s.ref.select src auto },
        .reply (if src = s.ref.judged then rREDUNDANT else rOK) (s.ref.select src auto).selectBytes) := by
  rw [handleRefSelect, deviceRequest_pass hl hs, hsrc, ha]

theorem handleRefCancel_eq {r : Req} {s : State} (hp : r.payload = []) (hs : r.station = 0xFF) : handleRefCancel r s =
    ({ s with ref := { s.ref.dropTarget with fallen := false } },
      .reply (if s.ref.judgedTarget.isSome then rOK else rREDUNDANT)
        [sourceByte s.ref.judged, sourceByte s.ref.preferred]) :=
  deviceRequest_pass (by rw [hp]; rfl) hs s _

theorem sourceAbsent_eq_true {s : State} {src : Source} :
    s.sourceAbsent src = true ↔ ∃ l : LinkId, src = .link l ∧ (s.link l).mode ≠ .slave := by
  cases src <;> simp [State.sourceAbsent]

theorem sourceAbsent_eq_false {s : State} {src : Source} :
    ¬s.sourceAbsent src = true ↔ ∀ l : LinkId, src = .link l → (s.link l).mode = .slave := by
  rw [sourceAbsent_eq_true]
  simp

theorem RefControl.judged_unbridged {r : RefControl} (h : r.bridging = none) : r.judged = r.current := by
  simp only [RefControl.judged, h]

theorem RefControl.judgedTarget_unbridged {r : RefControl} (h : r.bridging = none) : r.judgedTarget = r.target := by
  simp only [RefControl.judgedTarget, h]

theorem optBytes_sourceByte (src : Source) : optBytes 1 (some (sourceByte src).toNat) = [1, sourceByte src] := by
  cases src with
  | internal => rfl
  | word => rfl
  | link l => cases l <;> rfl

/-- What REF_SELECT's reply carries while no bridging period runs. -/
theorem RefControl.selectBytes_unbridged {r : RefControl} (h : r.bridging = none) : r.selectBytes =
    sourceByte r.current :: (match r.target with
      | none => [0, 0]
      | some x => [1, sourceByte x]) ++ [sourceByte r.preferred, autoReturnByte r.autoReturn] := by
  rw [RefControl.selectBytes, RefControl.judged_unbridged h, RefControl.judgedTarget_unbridged h]
  cases r.target with
  | none => rfl
  | some x => exact congrArg (fun l => sourceByte r.current :: l ++ _) (optBytes_sourceByte x)

/-- The controller with the flags of a taken REF_SELECT, ahead of what it does to the target. -/
def RefControl.flagged (r : RefControl) (src : Source) (auto : Bool) : RefControl :=
  { r with preferred := src, autoReturn := auto, fallen := false }

theorem RefControl.select_judged {r : RefControl} {src : Source} {auto : Bool} (h : src = r.judged) :
    r.select src auto = (r.flagged src auto).dropTarget := if_pos h

theorem RefControl.select_internal {r : RefControl} {auto : Bool} (h : Source.internal ≠ r.judged) :
    r.select .internal auto = (r.flagged .internal auto).toInternal := (if_neg h).trans (if_pos rfl)

theorem RefControl.select_target {r : RefControl} {src : Source} {auto : Bool} (h : src ≠ r.judged)
    (hi : src ≠ .internal) : r.select src auto = (r.flagged src auto).withTarget src .selected :=
  (if_neg h).trans (if_neg hi)

theorem RefControl.dropTarget_none {r : RefControl} (h : r.judgedTarget = none) : r.dropTarget = r := by
  rw [RefControl.dropTarget, h]
  rfl

theorem RefControl.dropTarget_some {r : RefControl} (h : r.judgedTarget ≠ none) : r.dropTarget = r.noTarget :=
  if_pos (Option.isSome_iff_ne_none.mpr h)

/-- A REF_SELECT whose source may be taken, from a ready part. -/
theorem exec_refSelect {s : State} {r : Req} {src : Source} {auto : Bool} (hr : s.Ready) (hl : r.payload.length = 2)
    (hs : r.station = 0xFF) (hsrc : sourceOf (field r.payload 0 1) = some src)
    (ha : autoReturnOf (field r.payload 1 1) = some auto) (hab : ¬s.sourceAbsent src = true) :
    exec (.refSelect r) s = .next (State.answered { s with ref := s.ref.select src auto } 0x40 r
      (if src = s.ref.judged then rREDUNDANT else rOK) (s.ref.select src auto).selectBytes) :=
  exec_request_effect hr rfl (f := fun x => { x with ref := s.ref.select src auto }) (fun _ => rfl) hr.clean
    ((handleRefSelect_eq hl hs hsrc ha).trans (if_neg hab))

theorem exec_refCancel {s : State} {r : Req} (hr : s.Ready) (hp : r.payload = []) (hs : r.station = 0xFF) :
    exec (.refCancel r) s = .next (State.answered { s with ref := { s.ref.dropTarget with fallen := false } } 0x41 r
      (if s.ref.judgedTarget.isSome then rOK else rREDUNDANT) [sourceByte s.ref.judged, sourceByte s.ref.preferred]) :=
  exec_request_effect hr rfl (f := fun x => { x with ref := { s.ref.dropTarget with fallen := false } }) (fun _ => rfl)
    hr.clean (handleRefCancel_eq (s := s.working) hp hs)

/-! ## LINK_SET and LINK_ASSIGN -/

theorem handleLinkSet_eq {r : Req} {s : State} {l : LinkId} {m : LinkMode} {mirror : Bool} (hl : r.payload.length = 3)
    (hs : r.station = 0xFF) (h0 : linkOf (field r.payload 0 1) = some l) (h1 : linkModeOf (field r.payload 1 1) = some m)
    (h2 : mirrorOf (field r.payload 2 1) = some mirror) : handleLinkSet r s =
      if s.linkInUse l m then refuse s rBAD_STATE else linkSetTaken s l m mirror := by
  rw [handleLinkSet, deviceRequest_pass hl hs, h0, h1]
  simp only [h2]

/-- The rule of a LINK_ASSIGN whose codes and slots are in range. -/
theorem handleLinkAssign_eq {r : Req} {s : State} {st : StationId} {l : LinkId} {a : Option Assignment}
    (hl : r.payload.length = 3) (hs : stationOf r.station = some st) (h0 : linkOf (field r.payload 0 1) = some l)
    (ha : assignOf (field r.payload 1 1) (field r.payload 2 1) = some a) : handleLinkAssign r s =
      if a.any fun x => (s.link l).conflicts st x then refuse s rCONFLICT
      else if ((s.link l).assigns[st] : Option Assignment) = a then (s, .reply rREDUNDANT (s.link l).assignsBytes)
      else answerOk (s.setAssign l st a) ((s.setAssign l st a).link l).assignsBytes := by
  rw [handleLinkAssign, stationRequest_pass hl hs, h0, ha]

theorem assignOf_none {b f : Nat} (h : formatOf f = some none) : assignOf b f = some none := by
  rw [assignOf, h]

theorem assignOf_some {b f : Nat} {x : SlotFormat} (h : formatOf f = some (some x)) (hb : b + x.width ≤ 32) :
    assignOf b f = some (some ⟨b, x⟩) := by
  rw [assignOf, h]
  exact if_pos hb

theorem assignOf_out {b f : Nat} {x : SlotFormat} (h : formatOf f = some (some x)) (hb : 32 < b + x.width) :
    assignOf b f = none := by
  rw [assignOf, h]
  exact if_neg (Nat.not_le.mpr hb)

theorem AirLink.conflicts_iff {k : AirLink} {st : StationId} {a : Assignment} : k.conflicts st a = true ↔
    ∃ (u : StationId) (b : Assignment), u ≠ st ∧ k.assigns[u] = some b ∧ b.overlaps a = true := by
  simp only [AirLink.conflicts, List.any_eq_true, Bool.and_eq_true, bne_iff_ne, Option.any_eq_true]
  constructor
  · rintro ⟨u, -, hu, b, hb, ho⟩
    exact ⟨u, b, hu, hb, by rw [Assignment.overlaps_comm]; exact ho⟩
  · rintro ⟨u, b, hu, hb, ho⟩
    exact ⟨u, mem_allStations u, hu, b, hb, by rw [Assignment.overlaps_comm]; exact ho⟩

theorem AirLink.not_conflicts_iff {k : AirLink} {st : StationId} {a : Assignment} : ¬k.conflicts st a = true ↔
    ∀ (u : StationId) (b : Assignment), u ≠ st → k.assigns[u] = some b → b.overlaps a = false := by
  rw [AirLink.conflicts_iff]
  simp only [not_exists, not_and, Bool.not_eq_true]

/-- A link change from a ready part. -/
theorem exec_linkChange {s : State} (h : s.Ready) {c : Instr} {k : Byte} {r : Req} (hc : c.request = some (k, r))
    {l : LinkId} {x : AirLink} {code : Byte} {p : List Byte}
    (ha : handlerFor k r s.working = (s.working.setLink l x, .reply code p)) :
    exec c s = .next ((s.setLink l x).answered k r code p) :=
  exec_request_effect h hc (f := fun y => y.setLink l x) (fun _ => by cases l <;> rfl)
    (fun u => by cases l <;> exact h.clean u) ha

theorem State.working_link (s : State) (l : LinkId) : s.working.link l = s.link l := by cases l <;> rfl

/-! ## Triggers -/

theorem State.setCond_noticeWaits (s : State) (i j : SetId) (c : CondSet) :
    (s.setCond j c).noticeWaits i = s.noticeWaits i := rfl

theorem State.trigger_waiting {s : State} {i : SetId} (h : s.noticeWaits i = true) : s.trigger i = s := if_pos h

theorem State.trigger_behind {s : State} {i : SetId} (h : s.noticeWaits i = false)
    (hh : s.handler = .working ∨ s.handler = .held) : s.trigger i = { s with behind := s.behind ++ [i] } :=
  (if_neg (Bool.eq_false_iff.mp h)).trans (if_pos hh)

theorem State.trigger_placed {s : State} {i : SetId} (h : s.noticeWaits i = false)
    (hh : s.handler = .ready ∨ s.handler = .restarting) :
    s.trigger i = State.pump { s with txOrder := s.txOrder ++ [.notice i] } :=
  (if_neg (Bool.eq_false_iff.mp h)).trans (if_neg (by rcases hh with hh | hh <;> simp [hh]))

theorem State.pump_sending {s : State} (h : s.sending.isSome = true) : s.pump = s := if_pos h

theorem State.pump_idle {s : State} (h : s.sending = none) :
    s.pump = { s with sending := (startNext s.conds s.txOrder).1, txOrder := (startNext s.conds s.txOrder).2 } :=
  if_neg (by simp [h])

theorem startNext_notice {cs : Vector CondSet 7} {i : SetId} (h : cs[i].notice ≠ 0) (rest : List TxItem) :
    startNext cs (.notice i :: rest) = (some (frameMessage (noticeBody i cs[i].notice)), rest) := if_neg h

theorem State.raiseBits_of_zero {s : State} {i : SetId} {m : Byte}
    (h : m &&& (s.cond i).enabled &&& ~~~(s.cond i).pending = 0) :
    s.raiseBits i m = s.setCond i ((s.cond i).raise m) := if_pos h

theorem State.raiseBits_of_ne {s : State} {i : SetId} {m : Byte}
    (h : m &&& (s.cond i).enabled &&& ~~~(s.cond i).pending ≠ 0) :
    s.raiseBits i m = (s.setCond i ((s.cond i).raise m)).trigger i := if_neg h

/-- A raise that calls for no notice, or finds one waiting, sets the conditions alone. -/
theorem State.raiseBits_quiet {s : State} {i : SetId} {m : Byte}
    (h : m &&& (s.cond i).enabled &&& ~~~(s.cond i).pending = 0 ∨ s.noticeWaits i = true) :
    s.raiseBits i m = s.setCond i ((s.cond i).raise m) := by
  by_cases hz : m &&& (s.cond i).enabled &&& ~~~(s.cond i).pending = 0
  · exact State.raiseBits_of_zero hz
  · rw [State.raiseBits_of_ne hz]
    exact State.trigger_waiting (h.resolve_left hz)

/-- An enabled condition newly pending is in the notice. -/
theorem CondSet.raise_notice_ne {c : CondSet} {m : Byte} (h : m &&& c.enabled &&& ~~~c.pending ≠ 0) :
    (c.raise m).notice ≠ 0 := by
  intro hz
  apply h
  have hbit : ∀ (i : Nat) (hi : i < 8), ((c.pending[i] || m[i]) && c.enabled[i]) = false := fun i hi => by
    have := congrArg (fun b : Byte => b[i]) hz
    simp only [CondSet.notice, CondSet.raise, BitVec.getElem_and, BitVec.getElem_or] at this
    exact this.trans (by simp)
  ext i hi
  have := hbit i hi
  simp only [BitVec.getElem_and, BitVec.getElem_not]
  generalize c.pending[i] = p at this ⊢
  generalize m[i] = q at this ⊢
  generalize c.enabled[i] = e at this ⊢
  cases p <;> cases q <;> cases e <;> simp_all

/-! ## LIST_LOW -/

theorem stationSet_injective {u v : StationId} (h : stationSet u = stationSet v) : u = v :=
  Fin.ext (by simpa [stationSet] using h)

theorem State.modStation_self {s : State} {st : StationId} {f : Station → Station} (h : f (s.station st) = s.station st) :
    s.modStation st f = s := by
  unfold State.modStation
  rw [h]
  exact congrArg (fun v => { s with stations := v }) (Vector.set_getElem_self _)

/-- The low relation stored, ahead of what it makes of LIST_LOW (R80). -/
def State.lowNoted (s : State) (st : StationId) : State :=
  s.modStation st fun y => { y with lowRel := decide ((s.station st).notStarted < (s.station st).cfg.lowMark) }

theorem State.evalLow_on {s : State} {st : StationId} (h : (s.station st).notStarted < (s.station st).cfg.lowMark)
    (hr : (s.station st).lowRel = false) : s.evalLow st = (s.lowNoted st).raiseBits (stationSet st) 0x08 := by
  simp only [State.evalLow, h, decide_true, hr, Bool.not_false, Bool.and_self, if_true]
  simp only [State.lowNoted, h, decide_true]
  rfl

theorem State.evalLow_off {s : State} {st : StationId} (h : (s.station st).cfg.lowMark ≤ (s.station st).notStarted)
    (hr : (s.station st).lowRel = true) : s.evalLow st = (s.lowNoted st).dropBits (stationSet st) 0x08 := by
  have hd : decide ((s.station st).notStarted < (s.station st).cfg.lowMark) = false := by simpa using h
  simp only [State.evalLow, hd, hr, Bool.false_and, Bool.false_eq_true, if_false, Bool.not_false, Bool.and_self, if_true]
  simp only [State.lowNoted, hd]
  rfl

theorem State.evalLow_same {s : State} {st : StationId}
    (h : (s.station st).lowRel = true ↔ (s.station st).notStarted < (s.station st).cfg.lowMark) :
    s.evalLow st = s := by
  have hd : decide ((s.station st).notStarted < (s.station st).cfg.lowMark) = (s.station st).lowRel := by
    rw [Bool.eq_iff_iff, decide_eq_true_iff, h]
  have hs : s.modStation st (fun y => { y with lowRel := (s.station st).lowRel }) = s := State.modStation_self rfl
  simp only [State.evalLow, hd, Bool.not_and_self, Bool.and_not_self, Bool.false_eq_true, if_false]
  exact hs

/-- Whichever way LIST_LOW goes, only the relation of the station and its condition set move. -/
theorem State.evalLow_frame (s : State) (st : StationId) :
    (s.evalLow st).stations = (s.lowNoted st).stations ∧ (s.evalLow st).asrun = s.asrun ∧
      ∀ i : SetId, i ≠ stationSet st → (s.evalLow st).cond i = s.cond i := by
  by_cases hr : (s.station st).lowRel = true
  · by_cases hl : (s.station st).notStarted < (s.station st).cfg.lowMark
    · rw [State.evalLow_same (iff_of_true hr hl)]
      refine ⟨?_, rfl, fun _ _ => rfl⟩
      rw [State.lowNoted, State.modStation_self]
      simp only [hl, decide_true, ← hr]
    · rw [State.evalLow_off (Nat.not_lt.mp hl) hr]
      exact ⟨rfl, rfl, fun i hi => State.setCond_cond_ne _ _ hi.symm⟩
  · by_cases hl : (s.station st).notStarted < (s.station st).cfg.lowMark
    · rw [State.evalLow_on hl (Bool.eq_false_iff.mpr hr)]
      exact ⟨State.raiseBits_stations _ _ _, State.raiseBits_asrun _ _ _,
        fun i hi => State.raiseBits_cond_ne _ _ hi.symm⟩
    · rw [State.evalLow_same (iff_of_false hr hl)]
      refine ⟨?_, rfl, fun _ _ => rfl⟩
      rw [State.lowNoted, State.modStation_self]
      simp only [hl, decide_false, ← Bool.eq_false_iff.mpr hr]

theorem State.evalLow_station (s : State) (st : StationId) : (s.evalLow st).station st =
    { s.station st with lowRel := decide ((s.station st).notStarted < (s.station st).cfg.lowMark) } := by
  rw [State.station_congr (s.evalLow_frame st).1, State.lowNoted, State.modStation_station]

theorem State.evalLow_station_ne (s : State) {st u : StationId} (h : u ≠ st) :
    (s.evalLow st).station u = s.station u := by
  rw [State.station_congr (s.evalLow_frame st).1, State.lowNoted, State.modStation_station_ne _ _ h.symm]

/-! ## COND_CLEAR and NOTICE_MASK -/

theorem setRequest_pass {r : Req} {s : State} {i : SetId} {m : Byte} (hp : r.payload = [m])
    (hi : setOf r.station = some i) (f : SetId → Byte → State × Answer) :
    setRequest r s f = if m &&& ~~~setBits i = 0 then f i m else refuse s rRANGE := by
  have hb : byteAt r.payload 0 = m := by rw [hp]; rfl
  rw [setRequest, if_neg (not_not.mpr (length_of_eq_singleton hp)), hi]
  simp only [hb]

theorem State.storeMask_quiet {s : State} {i : SetId} {m : Byte}
    (h : (s.cond i).pending &&& m &&& ~~~(s.cond i).enabled = 0 ∨ s.noticeWaits i = true) :
    s.storeMask i m = s.setCond i { s.cond i with enabled := m } := by
  by_cases hz : (s.cond i).pending &&& m &&& ~~~(s.cond i).enabled = 0
  · exact if_pos hz
  · exact (if_neg hz).trans
      (State.trigger_waiting (s := s.setCond i { s.cond i with enabled := m }) (h.resolve_left hz))

theorem State.storeMask_notice {s : State} {i : SetId} {m : Byte}
    (h : (s.cond i).pending &&& m &&& ~~~(s.cond i).enabled ≠ 0) (hw : s.noticeWaits i = false)
    (hh : s.handler = .working) :
    s.storeMask i m = { s.setCond i { s.cond i with enabled := m } with behind := s.behind ++ [i] } :=
  (if_neg h).trans (State.trigger_behind (s := s.setCond i { s.cond i with enabled := m }) hw (.inl hh))

end Sys2Proof.Machine

namespace Sys2Proof
open Machine

/-- Settles O30: REF_SELECT and REF_CANCEL by the source they are judged against. -/
theorem referenceSelected : Obligations.ReferenceSelected := by
  unfold Obligations.ReferenceSelected
  refine ⟨fun s r b auto hr hs hb hsw hbi hl hsrc ha => ?_, ?_⟩
  · have hj : s.ref.judged = b.source := by simp only [RefControl.judged, hb, hsw]; rfl
    rw [exec_refSelect hr hl hs hsrc ha Bool.false_ne_true, if_neg (by rw [hj]; exact hbi.symm),
      RefControl.select_internal (by rw [hj]; exact hbi.symm)]
    have hpace : (s.ref.flagged .internal auto).pacing = s.ref.current := by
      simp only [RefControl.pacing, RefControl.flagged, hsw, Option.getD_none]
    have hq : (s.ref.flagged .internal auto).toInternal =
        { s.ref with
          current := .internal, preferred := .internal, autoReturn := auto, fallen := false, target := none,
          progress := 0, lastEdge := none, switchFrom := some s.ref.current } := by
      rw [RefControl.toInternal, hpace]
      rfl
    rw [hq]
    refine congrArg (fun p => Host.Outcome.next (State.answered _ 0x40 r 0x00 p)) ?_
    simp [RefControl.selectBytes, RefControl.judged, RefControl.judgedTarget, RefControl.completed, hb, sourceByte,
      optBytes, toBytes]
  · rintro s r c hr hs hb rfl
    have hj : s.ref.judged = s.ref.current := RefControl.judged_unbridged hb
    have hjt : s.ref.judgedTarget = s.ref.target := RefControl.judgedTarget_unbridged hb
    refine ⟨fun src auto hl hsrc ha => ⟨fun hab => ?_, fun hab => ?_⟩, fun hp => ⟨fun ht => ?_, fun ht => ?_⟩⟩
    · exact exec_request_same hr rfl
        ((handleRefSelect_eq hl hs hsrc ha).trans (if_pos (sourceAbsent_eq_true.mpr hab)))
    · have hexec := exec_refSelect hr hl hs hsrc ha (sourceAbsent_eq_false.mpr hab)
      have hft : (s.ref.flagged src auto).judgedTarget = s.ref.target := RefControl.judgedTarget_unbridged hb
      have hreply {q : RefControl} {code : Byte} {p : List Byte} (hq : q.bridging = none)
          (hp : (sourceByte q.current :: (match q.target with
            | none => [0, 0]
            | some x => [1, sourceByte x]) ++ [sourceByte q.preferred, autoReturnByte q.autoReturn]) = p) :
          Host.Outcome.next (φ := Fault) (ρ := Refusal) (State.answered { s with ref := q } 0x40 r code q.selectBytes) =
            .next (State.answered { s with ref := q } 0x40 r code p) := by
        rw [RefControl.selectBytes_unbridged hq, hp]
      rw [hj] at hexec
      refine ⟨fun hc ht => ?_, fun hc ht => ?_, fun hc hi => ?_, fun hc hi => ?_⟩
      · rw [hexec, if_pos hc, RefControl.select_judged (hc.trans hj.symm),
          RefControl.dropTarget_none (hft.trans ht)]
        exact hreply hb (by simp only [RefControl.flagged, ht, ← hc]; rfl)
      · rw [hexec, if_pos hc, RefControl.select_judged (hc.trans hj.symm),
          RefControl.dropTarget_some (by rw [hft]; exact ht)]
        exact hreply hb (by simp only [RefControl.noTarget, RefControl.flagged, ← hc]; rfl)
      · rw [hexec, if_neg hc, RefControl.select_target (by rw [hj]; exact hc) hi]
        exact hreply hb rfl
      · subst hi
        rw [hexec, if_neg hc, RefControl.select_internal (by rw [hj]; exact hc)]
        exact ⟨_, hreply hb rfl, rfl, rfl, rfl, rfl, rfl, rfl, rfl⟩
    · rw [exec_refCancel hr hp hs, RefControl.dropTarget_none (hjt.trans ht), hjt.trans ht, hj]
      rfl
    · rw [exec_refCancel hr hp hs, RefControl.dropTarget_some (by rw [hjt]; exact ht), hj,
        if_pos (by rw [hjt]; exact Option.isSome_iff_ne_none.mpr ht)]
      rfl

/-- Settles O31: the rules of the two requests, clause by clause. -/
theorem linksSet : Obligations.LinksSet := by
  unfold Obligations.LinksSet
  intro s r l hr hl h0
  have hlink := s.working_link l
  refine ⟨fun m mirror hs h1 h2 => ?_, fun st hs => ⟨fun f hf hb => ?_, fun f hf hb => ⟨fun hc => ?_, fun hc hne => ?_,
    fun hc he => ?_⟩, fun hf hn => ?_, fun hf hn => ?_⟩⟩
  · have hrule := handleLinkSet_eq (s := s.working) hl hs h0 h1 h2
    refine ⟨fun hm hu => ?_, fun h => ?_⟩
    · refine exec_request_same hr rfl (hrule.trans (if_pos ?_))
      rw [State.linkInUse, show s.working.ref.uses l = true from hu, Bool.and_true]
      simpa using hm
    · have hfree : ¬s.working.linkInUse l m = true := by
        rw [State.linkInUse, show s.working.ref = s.ref from rfl]
        rcases h with h | h <;> simp [h]
      have hrule := hrule.trans (if_neg hfree)
      refine ⟨fun ha hmir => ?_, fun ha hm hmir => ?_, fun ha hne => ?_⟩
      · exact exec_request_same hr rfl (hrule.trans (if_pos ⟨ha, hmir⟩))
      · refine exec_request_same hr rfl (hrule.trans ((if_neg ?_).trans ((if_pos (by rw [hlink]; exact ⟨hm, hmir⟩)).trans ?_)))
        · rcases ha with rfl | rfl <;> simp
        · rw [hlink, AirLink.modeBytes, hm, hmir]
          rfl
      · refine exec_linkChange hr rfl (hrule.trans ((if_neg ?_).trans ((if_neg ?_).trans ?_)))
        · rcases ha with rfl | rfl <;> simp
        · rw [hlink]
          exact not_and_or.mpr hne
        · simp only [State.setLinkMode, State.setLink_link, hlink]
          rfl
  · refine exec_request_same hr rfl (?_ : handleLinkAssign r s.working = _)
    rw [handleLinkAssign, stationRequest_pass hl hs, h0, assignOf_out hf hb]
    rfl
  · refine exec_request_same hr rfl
      ((handleLinkAssign_eq (s := s.working) hl hs h0 (assignOf_some hf hb)).trans (if_pos ?_))
    rw [hlink]
    exact AirLink.conflicts_iff.mpr hc
  · refine ⟨_, rfl, exec_linkChange hr rfl
      ((handleLinkAssign_eq (s := s.working) hl hs h0 (assignOf_some hf hb)).trans ((if_neg ?_).trans ((if_neg ?_).trans ?_)))⟩
    · rw [hlink]
      exact AirLink.not_conflicts_iff.mpr hc
    · rw [hlink]
      exact hne
    · simp only [State.setAssign, State.setLink_link, hlink]
      rfl
  · refine exec_request_same hr rfl
      ((handleLinkAssign_eq (s := s.working) hl hs h0 (assignOf_some hf hb)).trans ((if_neg ?_).trans ((if_pos ?_).trans ?_)))
    · rw [hlink]
      exact AirLink.not_conflicts_iff.mpr hc
    · rw [hlink]
      exact he
    · rw [hlink]
      rfl
  · refine exec_request_same hr rfl
      ((handleLinkAssign_eq (s := s.working) hl hs h0 (assignOf_none hf)).trans ((if_neg ?_).trans ((if_pos ?_).trans ?_)))
    · exact Bool.false_ne_true
    · rw [hlink]
      exact hn
    · rw [hlink]
      rfl
  · refine ⟨_, rfl, exec_linkChange hr rfl
      ((handleLinkAssign_eq (s := s.working) hl hs h0 (assignOf_none hf)).trans ((if_neg ?_).trans ((if_neg ?_).trans ?_)))⟩
    · exact Bool.false_ne_true
    · rw [hlink]
      exact hn
    · simp only [State.setAssign, State.setLink_link, hlink]
      rfl

/-- Settles O33: raises and the notices they place, the low relation, and the two requests to a set. -/
theorem conditionsSet : Obligations.ConditionsSet := by
  unfold Obligations.ConditionsSet
  refine ⟨?_, ?_, ?_⟩
  · rintro s t i m rfl
    have hc := s.raiseBits_cond i m
    refine ⟨by rw [hc]; rfl, by rw [hc]; rfl, fun j hj => s.raiseBits_cond_ne m hj.symm, s.raiseBits_stations i m,
      s.raiseBits_asrun i m, fun h => ?_, fun hz hw => ⟨fun hh => ?_, fun hh => ⟨?_, fun hsend => ?_, fun hsend htx => ?_⟩⟩⟩
    · rw [State.raiseBits_quiet h]
      exact ⟨rfl, rfl, rfl⟩
    · rw [State.raiseBits_of_ne hz, State.trigger_behind (s := s.setCond i ((s.cond i).raise m)) hw hh]
      exact ⟨rfl, rfl, rfl⟩
    · rw [State.raiseBits_of_ne hz, State.trigger_placed (s := s.setCond i ((s.cond i).raise m)) hw hh, State.pump]
      split <;> rfl
    · rw [State.raiseBits_of_ne hz, State.trigger_placed (s := s.setCond i ((s.cond i).raise m)) hw hh, State.pump_sending (by exact hsend)]
      exact ⟨rfl, rfl⟩
    · rw [State.raiseBits_of_ne hz, State.trigger_placed (s := s.setCond i ((s.cond i).raise m)) hw hh, State.pump_idle (by exact hsend)]
      have hn : ((s.setCond i ((s.cond i).raise m)).conds[i]).notice ≠ 0 := by
        rw [show (s.setCond i ((s.cond i).raise m)).conds[i] = (s.cond i).raise m from State.setCond_cond _ _ _]
        exact CondSet.raise_notice_ne hz
      have htx' : (s.setCond i ((s.cond i).raise m)).txOrder = [] := htx
      have hsc : (s.setCond i ((s.cond i).raise m)).conds[i] = (s.cond i).raise m := State.setCond_cond _ _ _
      rw [htx', List.nil_append]
      refine ⟨congrArg Prod.snd (startNext_notice hn []), (congrArg Prod.fst (startNext_notice hn [])).trans ?_⟩
      rw [hsc]
      rfl
  · rintro s t st x rfl rfl
    obtain ⟨hstations, hasrun, hcond⟩ := s.evalLow_frame st
    refine ⟨by rw [State.evalLow_station], fun h hr => ?_, fun h hr => ?_, fun h => ?_, fun u hu => ⟨?_, ?_⟩,
      by rw [State.evalLow_station], hasrun⟩
    · rw [State.evalLow_on h hr, State.raiseBits_cond]
      rfl
    · rw [State.evalLow_off h hr]
      exact congrArg CondSet.pending (State.setCond_cond _ _ _)
    · rw [State.evalLow_same h]
      exact ⟨rfl, rfl⟩
    · exact s.evalLow_station_ne hu
    · exact hcond _ fun h => hu (stationSet_injective h)
  · intro s r i m hr hp hi
    have hclear : handleCondClear r s.working = if m &&& ~~~setBits i = 0 then
        answerOk (s.working.clearConds i m) [((s.working.clearConds i m).cond i).pending]
        else refuse s.working rRANGE := setRequest_pass hp hi _
    have hmask : handleNoticeMask r s.working = if m &&& ~~~setBits i = 0 then
        (if m = (s.cond i).enabled then (s.working, .reply rREDUNDANT [m, (s.cond i).pending])
        else answerOk (s.working.storeMask i m) [m, (s.cond i).pending])
        else refuse s.working rRANGE := setRequest_pass hp hi _
    refine ⟨fun hm => ⟨?_, ?_⟩, fun hm => ⟨?_, fun he => ?_, fun hne => ⟨fun h => ?_, fun h hw => ?_⟩⟩⟩
    · exact exec_request_same hr rfl (hclear.trans (if_neg hm))
    · exact exec_request_same hr rfl (hmask.trans (if_neg hm))
    · refine exec_request_effect hr rfl
        (f := fun x => x.setCond i { s.cond i with pending := (s.cond i).pending &&& ~~~(m &&& ~~~followBits i) })
        (fun _ => rfl) hr.clean ((hclear.trans (if_pos hm)).trans ?_)
      rw [State.clearConds, State.dropBits, State.setCond_cond]
      rfl
    · exact exec_request_same hr rfl ((hmask.trans (if_pos hm)).trans (if_pos he))
    · refine exec_request_effect hr rfl (f := fun x => x.setCond i { s.cond i with enabled := m })
        (fun _ => rfl) hr.clean ((hmask.trans (if_pos hm)).trans ((if_neg hne).trans ?_))
      rw [State.storeMask_quiet (s := s.working) h]
      rfl
    · refine exec_request_effect hr rfl
        (f := fun x => { x.setCond i { s.cond i with enabled := m } with behind := [i] })
        (fun _ => rfl) hr.clean ((hmask.trans (if_pos hm)).trans ((if_neg hne).trans ?_))
      have hbehind : s.working.behind = [] := hr.2.2.2.2.1
      rw [State.storeMask_notice (s := s.working) h hw rfl, hbehind]
      rfl

end Sys2Proof
end

section
/-!
PROOFS. The target's measurement (O35) and the silence monitor (O41).
-/

namespace Sys2Proof.Machine

/-! ## The target's measurement -/

theorem Config.windowOpen_eq : Config.windowOpen = 990000 := rfl

theorem Config.windowClose_eq : Config.windowClose = 1010000 := rfl

/-- An edge of a target that does not pace the periods is judged as the target's edge alone (R156). -/
theorem State.refEdge_target {s : State} {src : Source} {p : Phase} (hb : s.ref.bridging = none)
    (ht : s.ref.target = some src) (hp : s.ref.pacing ≠ src) : s.refEdge src p = s.edgeOfTarget src p := by
  simp only [State.refEdge, hb, ht, hp, if_true, false_and, if_false]

/-- A target edge while no lock is complete: the event is the target's edge. -/
theorem exec_targetEdge {s : State} {src : Source} {p : Phase} (hs : s.AtRest) (hb : s.ref.bridging = none)
    (ht : s.ref.target = some src) : exec (.targetEdge p) s = .next (s.refEdge src p) := by
  refine (hs.event fun x => match x.ref.judgedTarget <|> x.ref.bridging.map Bridge.source with
    | none => x
    | some src => x.refEdge src p).trans (congrArg _ ?_)
  simp only [RefControl.judgedTarget_unbridged hb, ht]
  rfl

/-- An edge that does not complete the lock moves the measurement, and nothing else (R156). -/
theorem State.edgeOfTarget_short {s : State} {src : Source} {p : Phase} {r : RefControl}
    (hr : s.ref.judgeEdge (s.periodStart + p) = r) (h : r.progress < 64) :
    s.edgeOfTarget src p = { s with ref := r } := by
  subst hr
  exact if_pos h

/-- An edge of a target that does not pace the periods, where it completes no lock (R156). -/
theorem exec_targetEdge_short {s : State} {src : Source} {p : Phase} {r : RefControl} (hs : s.AtRest)
    (hb : s.ref.bridging = none) (ht : s.ref.target = some src) (hp : s.ref.pacing ≠ src)
    (hr : s.ref.judgeEdge (s.periodStart + p) = r) (h : r.progress < 64) :
    exec (.targetEdge p) s = .next { s with ref := r } := by
  rw [exec_targetEdge hs hb ht, State.refEdge_target hb ht hp, State.edgeOfTarget_short hr h]

theorem RefControl.judgeEdge_first {r : RefControl} {now : Nat} (h : r.lastEdge = none) :
    r.judgeEdge now = { r with lastEdge := some now } := by
  simp only [RefControl.judgeEdge, h]

theorem RefControl.judgeEdge_astray {r : RefControl} {now t : Nat} (h : r.lastEdge = some t)
    (ho : now < t + 990000 ∨ t + 1010000 < now) : r.judgeEdge now = { r with progress := 0, lastEdge := some now } := by
  simp only [RefControl.judgeEdge, h]
  by_cases hlate : t + Config.windowClose < now
  · exact if_pos hlate
  · exact (if_neg hlate).trans (if_pos (by rw [Config.windowClose_eq] at hlate; rw [Config.windowOpen_eq]; omega))

theorem RefControl.judgeEdge_good {r : RefControl} {now t : Nat} (h : r.lastEdge = some t) (h1 : t + 990000 ≤ now)
    (h2 : now ≤ t + 1010000) : r.judgeEdge now = { r with progress := r.progress + 1, lastEdge := some now } := by
  simp only [RefControl.judgeEdge, h]
  exact (if_neg (by rw [Config.windowClose_eq]; omega)).trans (if_neg (by rw [Config.windowOpen_eq]; omega))

/-- The time-out of a target's edge, while no lock is complete. -/
theorem exec_targetTimeout {s : State} {t : Nat} (hs : s.AtRest) (ht : s.ref.judgedTarget.isSome = true)
    (hl : s.ref.lastEdge = some t) (h : t + Config.windowClose ≤ s.latestEnd) :
    exec .targetWindowTimeout s = .next { s with ref := s.ref.missedTarget } := by
  have hany : s.ref.lastEdge.any (fun t => decide (t + Config.windowClose ≤ s.latestEnd)) = true := by
    rw [hl, Option.any_some, decide_eq_true_eq]
    exact h
  have hlive : exec .targetWindowTimeout s = .next s.opTargetTimeout := if_neg (by rw [hs.1]; exact Bool.false_ne_true)
  rw [hlive, State.opTargetTimeout, State.settle_atRest hs.2]
  exact congrArg _ (if_pos ⟨ht, hany⟩)

theorem State.le_latestEnd {s : State} (hb : s.ref.bridging = none) : s.periodStart + 1000000 ≤ s.latestEnd := by
  have hn : Config.nominal = 1000000 := rfl
  simp only [State.latestEnd, hb, hn, Config.windowClose_eq]
  split <;> omega

/-! ## The silence monitor -/

theorem Station.airs_iff {x : Station} : x.airs = true ↔ x.mode = .auto ∨ x.mode = .manual := by
  simp [Station.airs]

theorem Station.silenceSource_onAir {x : Station} {e : Entry} (h : x.onAir = some e) :
    x.silenceSource.1 = e.id ∧ ∀ c : Nat, e.body = .item c → x.silenceSource.2 = c := by
  simp only [Station.silenceSource, h]
  cases e.body with
  | item c => exact ⟨rfl, fun _ hc => by cases hc; rfl⟩
  | brk b =>
    refine ⟨?_, fun c hc => by cases hc⟩
    cases hs : b.spotOnAir <;> simp only [hs]

theorem Station.silenceSource_none {x : Station} (h : x.onAir = none) (hp : ∀ e ∈ x.list, e.state ≠ .pending) :
    x.silenceSource = (0, 0) := by
  simp only [Station.silenceSource, h]
  cases hw : x.waitingList.head? with
  | none => rfl
  | some e => exact if_neg (hp e (List.mem_filter.mp (List.mem_of_head? hw)).1)

theorem State.silenceOrder_due {s : State} {st : StationId} (hd : (s.station st).silenceDue = true)
    (ha : (s.station st).airs = true) : s.silenceOrder st =
      ((((s.reportFault st .silence (s.station st).silenceSource.1 (s.station st).silenceSource.2
        (s.nextTime st)).withdrawTake st).modStation st fun y =>
          { y with mode := .fallback, leftMode := some (s.station st).mode, silenceDue := false }).defer st
        (.fallback (s.station st).take.isSome)) := by
  simp only [State.silenceOrder, hd, ha, Bool.not_true, Bool.or_self, Bool.false_eq_true, if_false]

theorem State.defer_eq {s : State} {l : List (StationId × Deferred)} (h : s.deferred = l) (st : StationId)
    (d : Deferred) : s.defer st d = { s with deferred := l ++ [(st, d)] } := by
  subst h
  rfl

@[simp] theorem State.reportFault_deferred (s : State) (st : StationId) (c : FaultCause) (id cart t : Nat) :
    (s.reportFault st c id cart t).deferred = s.deferred := by
  unfold State.reportFault
  split <;> simp [State.raiseStation]

end Sys2Proof.Machine

namespace Sys2Proof
open Machine

/-- Settles O35: the edge or its absence, judged by the previous edge. -/
theorem targetMeasured : Obligations.TargetMeasured := by
  unfold Obligations.TargetMeasured
  intro s src p hs hb ht hp h64
  refine ⟨fun hl => exec_targetEdge_short hs hb ht hp (RefControl.judgeEdge_first hl) h64, fun t hl => ⟨fun ho => ?_,
    fun h1 h2 hlt => ?_, fun htime => ?_⟩⟩
  · exact exec_targetEdge_short hs hb ht hp (RefControl.judgeEdge_astray hl ho) (Nat.zero_lt_succ 63)
  · exact exec_targetEdge_short hs hb ht hp (RefControl.judgeEdge_good hl h1 h2) (Nat.succ_lt_succ hlt)
  · refine exec_targetTimeout hs (by rw [RefControl.judgedTarget_unbridged hb, ht]; rfl) hl ?_
    rw [Config.windowClose_eq]
    exact htime.trans (State.le_latestEnd hb)

/-- Settles O41: the counter's cases, and the order with the take it withdraws. -/
theorem silenceOrdered : Obligations.SilenceOrdered := by
  unfold Obligations.SilenceOrdered
  refine ⟨fun x => ⟨fun ha hq => ?_, fun h => ?_⟩, fun s st hs hd ha => ?_⟩
  · simp [Station.judged, ha, hq]
  · rcases h with h | h
    · simp [Station.judged, h]
    · simp only [Station.judged, h, Bool.false_eq_true, if_false, ite_self, and_self]
  · refine ⟨(s.station st).silenceSource.1, (s.station st).silenceSource.2, ?_⟩
    have hexec : exec (.silenceWindowReached st) s = .next (s.silenceOrder st) := hs.event fun x => x.silenceOrder st
    have hid {e : Entry} (h : (s.station st).onAir = some e) := Station.silenceSource_onAir h
    have hno (h : (s.station st).onAir = none) (hp : ∀ e ∈ (s.station st).list, e.state ≠ .pending) :
        (s.station st).silenceSource.1 = 0 ∧ (s.station st).silenceSource.2 = 0 := by
      rw [Station.silenceSource_none h hp]
      exact ⟨rfl, rfl⟩
    rw [hexec, State.silenceOrder_due hd ha]
    generalize (s.station st).silenceSource.1 = id at *
    generalize (s.station st).silenceSource.2 = cart at *
    have hdef := s.reportFault_deferred st .silence id cart (s.nextTime st)
    have hst := s.reportFault_station st .silence id cart (s.nextTime st)
    generalize s.reportFault st .silence id cart (s.nextTime st) = u at *
    refine ⟨fun ht => ?_, fun k due ht hdue => ?_, fun e h => hid h, hno⟩
    · rw [State.withdrawTake_none (by rw [hst]; exact ht), ht]
      exact congrArg _ (State.defer_eq ((State.modStation_deferred _ _ _).trans hdef) _ _)
    · rw [State.withdrawTake_due (due := due) (by rw [hst]; exact ht) (by rw [hst]; exact hdue), ht]
      refine congrArg _ (State.defer_eq ?_ _ _)
      rw [State.modStation_deferred, State.modEntry, State.modStation_deferred, State.modStation_deferred, hdef]

end Sys2Proof
end

section
/-!
PROOFS. The air links: the images and frames of a period (O40), and the frames a link begins by itself, its loss and its
mode changes (O39).
-/

namespace Sys2Proof.Machine

/-! ## What an event of one link leaves alone -/

@[simp] theorem State.raiseBits_link (s : State) (i : SetId) (m : Byte) (l : LinkId) :
    (s.raiseBits i m).link l = s.link l := State.link_congr (s.raiseBits_linkA i m) (s.raiseBits_linkB i m) l

theorem State.unsent_setLink (s : State) (l : LinkId) (k : AirLink) : (s.setLink l k).unsent = s.unsent.setLink l k := by
  cases l <;> rfl

theorem State.setLink_setLink (s : State) (l : LinkId) (x y : AirLink) : (s.setLink l x).setLink l y = s.setLink l y := by
  cases l <;> rfl

/-- An event of link `l` alone: nothing but the link, the device's conditions and what is to be sent. -/
structure OnLink (l : LinkId) (s t : State) : Prop where
  rest : t.unsent.setLink l AirLink.reset = s.unsent.setLink l AirLink.reset
  conds : ∀ i : SetId, i ≠ deviceSet → t.cond i = s.cond i
  enabled : (t.cond deviceSet).enabled = (s.cond deviceSet).enabled

namespace OnLink

variable {l : LinkId} {s t u : State}

theorem refl (l : LinkId) (s : State) : OnLink l s s := ⟨rfl, fun _ _ => rfl, rfl⟩

theorem trans (h : OnLink l s t) (k : OnLink l t u) : OnLink l s u :=
  ⟨k.rest.trans h.rest, fun i hi => (k.conds i hi).trans (h.conds i hi), k.enabled.trans h.enabled⟩

theorem setLink (l : LinkId) (s : State) (k : AirLink) : OnLink l s (s.setLink l k) := by
  refine ⟨?_, fun i _ => State.cond_congr (State.setLink_conds s l k) i,
    congrArg CondSet.enabled (State.cond_congr (State.setLink_conds s l k) deviceSet)⟩
  rw [State.unsent_setLink, State.setLink_setLink]

theorem raiseDevice (l : LinkId) (s : State) (c : DeviceCond) : OnLink l s (s.raiseDevice c) := by
  refine ⟨?_, fun i hi => State.raiseBits_cond_ne s _ hi.symm, ?_⟩
  · rw [State.raiseDevice, State.raiseBits_unsent]
  · rw [State.raiseDevice, State.raiseBits_cond]
    rfl

theorem stations (h : OnLink l s t) : t.stations = s.stations := by
  cases l <;> exact (congrArg State.stations h.rest :)
theorem decks (h : OnLink l s t) : t.decks = s.decks := by cases l <;> exact (congrArg State.decks h.rest :)
theorem beds (h : OnLink l s t) : t.beds = s.beds := by cases l <;> exact (congrArg State.beds h.rest :)
theorem dir (h : OnLink l s t) : t.dir = s.dir := by cases l <;> exact (congrArg State.dir h.rest :)
theorem media (h : OnLink l s t) : t.media = s.media := by cases l <;> exact (congrArg State.media h.rest :)
theorem port (h : OnLink l s t) : t.port = s.port := by cases l <;> exact (congrArg State.port h.rest :)
theorem claim (h : OnLink l s t) : t.claim = s.claim := by cases l <;> exact (congrArg State.claim h.rest :)
theorem queue (h : OnLink l s t) : t.queue = s.queue := by cases l <;> exact (congrArg State.queue h.rest :)
theorem handler (h : OnLink l s t) : t.handler = s.handler := by cases l <;> exact (congrArg State.handler h.rest :)
theorem ref (h : OnLink l s t) : t.ref = s.ref := by cases l <;> exact (congrArg State.ref h.rest :)
theorem house (h : OnLink l s t) : t.house = s.house := by cases l <;> exact (congrArg State.house h.rest :)
theorem periodStart (h : OnLink l s t) : t.periodStart = s.periodStart := by
  cases l <;> exact (congrArg State.periodStart h.rest :)
theorem opening (h : OnLink l s t) : t.opening = s.opening := by cases l <;> exact (congrArg State.opening h.rest :)
theorem asrun (h : OnLink l s t) : t.asrun = s.asrun := by cases l <;> exact (congrArg State.asrun h.rest :)
theorem recordsHeld (h : OnLink l s t) : t.recordsHeld = s.recordsHeld := by
  cases l <;> exact (congrArg State.recordsHeld h.rest :)
theorem rx (h : OnLink l s t) : t.rx = s.rx := by cases l <;> exact (congrArg State.rx h.rest :)
theorem deferred (h : OnLink l s t) : t.deferred = s.deferred := by cases l <;> exact (congrArg State.deferred h.rest :)
theorem inReset (h : OnLink l s t) : t.inReset = s.inReset := by cases l <;> exact (congrArg State.inReset h.rest :)

theorem link_ne (h : OnLink l s t) {k : LinkId} (hk : k ≠ l) : t.link k = s.link k := by
  cases l <;> cases k
  · exact absurd rfl hk
  · exact (congrArg State.linkB h.rest :)
  · exact (congrArg State.linkA h.rest :)
  · exact absurd rfl hk

end OnLink

theorem State.cond_raiseDevice (s : State) (c : DeviceCond) :
    (s.raiseDevice c).cond deviceSet = (s.cond deviceSet).raise c.mask := State.raiseBits_cond _ _ _

theorem State.raiseDevice_pending (s : State) (c : DeviceCond) :
    ((s.raiseDevice c).cond deviceSet).pending &&& c.mask = c.mask := by
  rw [State.cond_raiseDevice, CondSet.raise_pending_and]

@[simp] theorem State.raiseDevice_link (s : State) (c : DeviceCond) (l : LinkId) : (s.raiseDevice c).link l = s.link l :=
  State.raiseBits_link _ _ _ _

/-! ## What a frame carries -/

theorem State.usesStore_iff {s : State} {l : LinkId} : s.usesStore l = true ↔ s.ref.pacing ≠ .link l := by
  simp [State.usesStore]

section
variable {s : State} {l : LinkId} {f : Framing}

theorem State.frameContent_hunt (h : (s.link l).framing = some f) (hs : f.sub ≠ .sync) :
    s.frameContent l = s.setLink l { s.link l with frame := some Image.zero } := by
  simp only [State.frameContent, h]
  exact if_pos hs

theorem State.frameContent_paced (h : (s.link l).framing = some f) (hs : f.sub = .sync) (hu : s.ref.pacing = .link l) :
    s.frameContent l = s.setLink l { s.link l with frame := some (s.link l).image } := by
  simp only [State.frameContent, h]
  exact (if_neg (not_not.mpr hs)).trans (if_pos (by simp [State.usesStore, hu]))

theorem State.frameContent_stored {img : Image} (h : (s.link l).framing = some f) (hs : f.sub = .sync)
    (hu : s.ref.pacing ≠ .link l) (hn : f.newPlace = some img) :
    s.frameContent l = s.setLink l
      { s.link l with framing := some { f with newPlace := none, sentPlace := some img }, frame := some img } := by
  have hu' : ¬(!s.usesStore l) = true := by simp [State.usesStore, hu]
  simp only [State.frameContent, h]
  refine (if_neg (not_not.mpr hs)).trans ((if_neg hu').trans ?_)
  simp only [hn, State.modFraming, State.setLink_link, State.setLink_setLink, h, Option.map_some]

theorem State.frameContent_repeat (h : (s.link l).framing = some f) (hs : f.sub = .sync)
    (hu : s.ref.pacing ≠ .link l) (hn : f.newPlace = none) :
    s.frameContent l = (s.setLink l
      { s.link l with
        frame := some (f.sentPlace.getD Image.zero)
        repeats := Count32.succHold (s.link l).repeats }).raiseDevice .linkSlip := by
  have hu' : ¬(!s.usesStore l) = true := by simp [State.usesStore, hu]
  simp only [State.frameContent, h]
  refine (if_neg (not_not.mpr hs)).trans ((if_neg hu').trans ?_)
  simp only [hn, State.repeatSlip, State.setLink_link, State.setLink_setLink]

end

/-- The link fields no frame touches. -/
structure AirLink.SameSet (x y : AirLink) : Prop where
  mode : y.mode = x.mode
  active : y.active = x.active
  mirror : y.mirror = x.mirror
  assigns : y.assigns = x.assigns
  alignments : y.alignments = x.alignments
  drops : y.drops = x.drops
  image : y.image = x.image

/-- What a frame that starts takes: from the store where the link uses it, and nothing else. -/
theorem State.frameContent_frame {s t : State} {l : LinkId} {f : Framing} (ht : t = s.frameContent l)
    (h : (s.link l).framing = some f) : OnLink l s t ∧ (s.link l).SameSet (t.link l) ∧
      (f.sub ≠ .sync → (t.link l).frame = some Image.zero) ∧
      (f.sub = .sync → s.ref.pacing = .link l → (t.link l).frame = some (s.link l).image) ∧
      (f.sub ≠ .sync ∨ s.ref.pacing = .link l →
        (t.link l).framing = some f ∧ (t.link l).repeats = (s.link l).repeats ∧ t.conds = s.conds) ∧
      (f.sub = .sync → s.ref.pacing ≠ .link l → ∀ img : Image, f.newPlace = some img →
        (t.link l).frame = some img ∧ (t.link l).framing = some { f with newPlace := none, sentPlace := some img } ∧
        (t.link l).repeats = (s.link l).repeats ∧ t.conds = s.conds) ∧
      (f.sub = .sync → s.ref.pacing ≠ .link l → f.newPlace = none →
        (t.link l).frame = some (f.sentPlace.getD Image.zero) ∧ (t.link l).framing = some f ∧
        (t.link l).repeats = Count32.succHold (s.link l).repeats ∧
        t.cond deviceSet = (s.cond deviceSet).raise 0x20) := by
  by_cases hs : f.sub = .sync
  · by_cases hu : s.ref.pacing = .link l
    · rw [State.frameContent_paced h hs hu] at ht
      subst ht
      refine ⟨OnLink.setLink _ _ _, ?_, ?_⟩ <;> rw [State.setLink_link]
      · exact ⟨rfl, rfl, rfl, rfl, rfl, rfl, rfl⟩
      · exact ⟨fun hn => absurd hs hn, fun _ _ => rfl, fun _ => ⟨h, rfl, State.setLink_conds _ _ _⟩,
          fun _ hn => absurd hu hn, fun _ hn => absurd hu hn⟩
    · cases hn : f.newPlace with
      | some img =>
        rw [State.frameContent_stored h hs hu hn] at ht
        subst ht
        refine ⟨OnLink.setLink _ _ _, ?_, ?_⟩ <;> rw [State.setLink_link]
        · exact ⟨rfl, rfl, rfl, rfl, rfl, rfl, rfl⟩
        · refine ⟨fun hx => absurd hs hx, fun _ hx => absurd hx hu, fun hx => (hx.elim (absurd hs) (fun e => absurd e hu)), ?_,
            fun _ _ hx => by cases hx⟩
          rintro - - _ ⟨⟩
          exact ⟨rfl, rfl, rfl, State.setLink_conds _ _ _⟩
      | none =>
        rw [State.frameContent_repeat h hs hu hn] at ht
        subst ht
        refine ⟨(OnLink.setLink _ _ _).trans (OnLink.raiseDevice _ _ _), ?_, ?_⟩ <;>
          rw [State.raiseDevice_link, State.setLink_link]
        · exact ⟨rfl, rfl, rfl, rfl, rfl, rfl, rfl⟩
        · refine ⟨fun hx => absurd hs hx, fun _ hx => absurd hx hu, fun hx => (hx.elim (absurd hs) (fun e => absurd e hu)),
            fun _ _ img hx => (by cases hx), fun _ _ _ => ⟨rfl, h, rfl, ?_⟩⟩
          rw [State.cond_raiseDevice, State.cond_congr (State.setLink_conds _ _ _)]
          rfl
  · rw [State.frameContent_hunt h hs] at ht
    subst ht
    refine ⟨OnLink.setLink _ _ _, ?_, ?_⟩ <;> rw [State.setLink_link]
    · exact ⟨rfl, rfl, rfl, rfl, rfl, rfl, rfl⟩
    · exact ⟨fun _ => rfl, fun hx => absurd hx hs, fun _ => ⟨h, rfl, State.setLink_conds _ _ _⟩,
        fun hx => absurd hx hs, fun hx => absurd hx hs⟩

theorem State.modFraming_link {s : State} {l : LinkId} {f : Framing} (h : (s.link l).framing = some f)
    (g : Framing → Framing) : (s.modFraming l g).link l = { s.link l with framing := some (g f) } := by
  rw [State.modFraming, State.setLink_link, h, Option.map_some]

theorem OnLink.modFraming (l : LinkId) (s : State) (g : Framing → Framing) : OnLink l s (s.modFraming l g) :=
  OnLink.setLink _ _ _

theorem State.modFraming_conds (s : State) (l : LinkId) (g : Framing → Framing) : (s.modFraming l g).conds = s.conds :=
  State.setLink_conds _ _ _

/-! ## Flywheel frames, loss and mode changes -/

theorem exec_flywheelFrame {s : State} {l : LinkId} {f : Framing} (hs : s.AtRest) (h : (s.link l).framing = some f)
    (hb : f.bit.isSome = true) : exec (.flywheelFrame l) s =
      .next ((s.modFraming l fun g => { g with bit := some 0, run := 0 }).frameContent l) := by
  have ho : (s.modFraming l fun g => { g with bit := some 0, run := 0 }).opening = false :=
    (State.setLink_opening _ _ _).trans hs.2
  have hlive : exec (.flywheelFrame l) s = .next (s.opFlywheel l) := if_neg (by rw [hs.1]; exact Bool.false_ne_true)
  rw [hlive, State.opFlywheel, State.settle_atRest hs.2]
  simp only [h, hb, if_true, State.beginFrame, ho, Bool.false_eq_true, if_false]

theorem exec_linkLost {s : State} {l : LinkId} (hs : s.AtRest) :
    exec (.linkLost l) s = .next (s.loseIfDue l s.latestEnd) := hs.event fun x => x.loseIfDue l x.latestEnd

theorem State.latestEnd_internal {s : State} (hb : s.ref.bridging = none) (hp : s.ref.pacing = .internal) :
    s.latestEnd = s.periodStart + 1000000 := by
  have hn : Config.nominal = 1000000 := rfl
  simp only [State.latestEnd, hb, hp, if_true, hn]

/-- A link whose loss timer has run out is LOST (R171). -/
theorem State.loseIfDue_lost {s : State} {l : LinkId} {f : Framing} {now : Nat} (h : (s.link l).framing = some f)
    (hf : f.sub ≠ .lost) (ht : f.lossFrom + 4000000 ≤ now) : s.loseIfDue l now = s.loseLink l := by
  have hl : Config.lossTime = 4000000 := rfl
  refine if_pos ?_
  rw [AirLink.losing, h, Option.any_some, hl, Bool.and_eq_true, decide_eq_true_eq, bne_iff_ne]
  exact ⟨hf, ht⟩

theorem State.loseLink_eq {s : State} {l : LinkId} {f : Framing} (h : (s.link l).framing = some f) :
    s.loseLink l = (s.setLink l
      { s.link l with
        framing := some { sub := .lost, bit := none, run := 0, lossFrom := f.lossFrom, newPlace := none, sentPlace := none }
        frame := none
        frameOpens := false }).raiseDevice .linkAlarm := by
  simp only [State.loseLink, h, Option.map_some]

/-- The auto-return watch changes the reference controller alone (R160). -/
theorem State.watch_eq (s : State) : s.watch = { s with ref := s.watch.ref } := by
  unfold State.watch
  split <;> rfl

theorem State.watch_off {s : State} (h : s.ref.fallen = false ∨ s.ref.autoReturn = false ∨
    s.watchable s.ref.preferred = false ∨ s.ref.target ≠ none) : s.watch = s := by
  refine if_neg ?_
  rw [Bool.and_eq_true, Bool.and_eq_true, Bool.and_eq_true, Option.isNone_iff_eq_none]
  rintro ⟨⟨⟨hf, ha⟩, hw⟩, ht⟩
  rcases h with h | h | h | h
  · rw [hf] at h; cases h
  · rw [ha] at h; cases h
  · rw [hw] at h; cases h
  · exact h ht

/-- The watch's target, of the controller `r` and the preferred source `src` that stand. -/
theorem State.watch_ref_on {s : State} {r : RefControl} {src : Source} (hr : s.ref = r) (hp : r.preferred = src)
    (hf : r.fallen = true) (ha : r.autoReturn = true) (hw : s.watchable src = true) (ht : r.target = none) :
    s.watch.ref = { r with target := some src, origin := .autoReturn, progress := 0, lastEdge := none } := by
  subst hr hp
  have hc : (s.ref.fallen && s.ref.autoReturn && s.watchable s.ref.preferred && s.ref.target.isNone) = true := by
    rw [hf, ha, hw, ht]
    rfl
  exact congrArg State.ref (if_pos hc)

theorem State.watchable_link {s : State} {l : LinkId} :
    s.watchable (.link l) = true ↔ (s.link l).active = .slave ∧ (s.link l).mode = .slave := by
  simp [State.watchable]

/-- A mode change taking effect on its link. -/
theorem exec_linkModeChange {s : State} {l : LinkId} (hr : s.inReset = false) (ho : s.opening = true)
    (hm : (s.link l).mode ≠ (s.link l).active) : exec (.linkModeChange l) s =
      .next (s.setLink l ((s.link l).enterMode s.periodStart)).watch := by
  have hlive : exec (.linkModeChange l) s = .next (s.opLinkMode l) := if_neg (by rw [hr]; exact Bool.false_ne_true)
  rw [hlive, State.opLinkMode, if_pos ho, State.linkModeAct, if_neg hm]

theorem AirLink.enterMode_fields (k : AirLink) (now : Nat) : (k.enterMode now).active = k.mode ∧
    (k.enterMode now).assigns = k.assigns ∧ (k.enterMode now).mirror = k.mirror ∧
    (k.enterMode now).alignments = k.alignments ∧ (k.enterMode now).repeats = k.repeats ∧
    (k.enterMode now).drops = k.drops ∧ (k.enterMode now).frame = none ∧
    (k.mode ≠ .slave → (k.enterMode now).framing = none) ∧
    (k.mode = .slave → (k.enterMode now).framing = some (Framing.entered now)) := by
  cases hm : k.mode <;> simp [AirLink.enterMode, hm]

end Sys2Proof.Machine

namespace Sys2Proof
open Machine

/-- Settles O39: a flywheel frame is the frame its store gives, and a mode change is the watch behind the link's own. -/
theorem linkEvents : Obligations.LinkEvents := by
  unfold Obligations.LinkEvents
  refine ⟨fun s l f hs h hb => ?_, fun s l f hs h hf hbr hp ht => ?_, fun s l hr ho hm => ?_⟩
  · refine ⟨_, exec_flywheelFrame hs h hb, ?_⟩
    have hlink := State.modFraming_link h fun g => { g with bit := some 0, run := 0 }
    have hon := OnLink.modFraming l s fun g => { g with bit := some 0, run := 0 }
    have hconds := State.modFraming_conds s l fun g => { g with bit := some 0, run := 0 }
    generalize s.modFraming l (fun g => { g with bit := some 0, run := 0 }) = u at *
    obtain ⟨hfr, hsame, hzero, himg, hkeep, hstore, hrep⟩ :=
      State.frameContent_frame rfl (show (u.link l).framing = some { f with bit := some 0, run := 0 } by rw [hlink])
    have hall := hon.trans hfr
    rw [hon.ref, hlink] at himg hkeep hstore hrep
    rw [hlink] at hsame
    rw [hconds] at hkeep hstore
    rw [State.cond_congr hconds] at hrep
    generalize u.frameContent l = t at *
    refine ⟨?_, hsame.drops, hsame.alignments, fun k hk => hall.link_ne hk, hall.ref, hall.stations, hall.house,
      hall.decks, hall.beds, hall.media, hall.dir⟩
    by_cases hk : f.sub ≠ .sync ∨ s.ref.pacing = .link l
    · obtain ⟨hg, hr, hc⟩ := hkeep hk
      exact ⟨_, hg, rfl, rfl, rfl, rfl, hzero, himg, fun _ => ⟨rfl, rfl, hr, hc⟩,
        fun h1 h2 => (hk.elim (absurd h1) fun h3 => absurd h3 h2)⟩
    · obtain ⟨h1, h2⟩ := not_or.mp hk
      have h1 := not_not.mp h1
      cases hn : f.newPlace with
      | some img =>
        obtain ⟨hfrm, hg, hr, hc⟩ := hstore h1 h2 img hn
        refine ⟨_, hg, rfl, rfl, rfl, rfl, hzero, himg, fun h3 => absurd h3 hk,
          fun _ _ => ⟨fun img' hi => ?_, fun h3 => absurd h3 (Option.some_ne_none img)⟩⟩
        obtain rfl := Option.some.inj hi
        exact ⟨hfrm, rfl, rfl, hr, hc⟩
      | none =>
        obtain ⟨hfrm, hg, hr, hc⟩ := hrep h1 h2 hn
        refine ⟨_, hg, rfl, rfl, rfl, rfl, hzero, himg, fun h3 => absurd h3 hk,
          fun _ _ => ⟨fun img' h3 => absurd h3.symm (Option.some_ne_none img'), fun _ => ⟨hfrm, hn, rfl, hr, ?_⟩⟩⟩
        rw [hc, CondSet.raise_pending_and]
  · rw [exec_linkLost hs, State.latestEnd_internal hbr hp, State.loseIfDue_lost h hf ht, State.loseLink_eq h]
  · obtain ⟨hact, hasg, hmir, hal, hrep, hdr, hfrm, hfn, hfs⟩ := (s.link l).enterMode_fields s.periodStart
    refine ⟨_, _, (exec_linkModeChange hr ho hm).trans (congrArg _ (State.watch_eq _)), ?_, ?_, hact,
      AirLink.enterMode_mode, hasg, hmir, hal, hrep, hdr, hfrm, hfn, hfs⟩
    · intro h
      rw [State.watch_off, State.setLink_ref]
      rw [State.setLink_ref]
      rcases h with h | h | h | h
      · exact .inl h
      · exact .inr (.inl h)
      · exact .inr (.inr (.inr h))
      · exact .inr (.inr (.inl (by rw [h]; rfl)))
    · intro m hf ha htn hpr
      have hmode : ((s.setLink l ((s.link l).enterMode s.periodStart)).link m).mode = (s.link m).mode := by
        by_cases hml : l = m
        · subst hml
          rw [State.setLink_link, AirLink.enterMode_mode]
        · rw [State.setLink_link_ne _ _ hml]
      refine ⟨fun hms hma => ?_, fun hms => ?_⟩
      · have hactive : ((s.setLink l ((s.link l).enterMode s.periodStart)).link m).active = .slave := by
          by_cases hml : l = m
          · subst hml
            rw [State.setLink_link, hact, hms]
          · rw [State.setLink_link_ne _ _ hml, hma (Ne.symm hml)]
        exact State.watch_ref_on (State.setLink_ref _ _ _) hpr hf ha
          (State.watchable_link.mpr ⟨hactive, hmode.trans hms⟩) htn
      · rw [State.watch_off, State.setLink_ref]
        refine .inr (.inr (.inl (Bool.eq_false_iff.mpr ?_)))
        rw [State.setLink_ref, hpr]
        exact fun hw => hms (hmode.symm.trans (State.watchable_link.mp hw).2)

end Sys2Proof
end

section
/-!
PROOFS. The images and frames of a period (O40).
-/

namespace Sys2Proof.Machine

/-! ## The bits of a frame -/

/-- The places of a list of equal parts. -/
theorem flatMap_getElem? {α β : Type} {n : Nat} {f : α → List β} (hf : ∀ a, (f a).length = n) {l : List α} {i j : Nat}
    {a : α} (h : l[i]? = some a) (hj : j < n) : (l.flatMap f)[n * i + j]? = (f a)[j]? := by
  induction l generalizing i with
  | nil => simp at h
  | cons x l ih =>
    rw [List.flatMap_cons]
    cases i with
    | zero =>
      obtain rfl : x = a := by simpa using h
      rw [Nat.mul_zero, Nat.zero_add, List.getElem?_append_left (by rw [hf]; exact hj)]
    | succ i =>
      rw [List.getElem?_append_right (by rw [hf, Nat.mul_succ]; omega), hf, ← ih h]
      congr 1
      rw [Nat.mul_succ]
      omega

theorem slotBits_length (v : BitVec 24) : (slotBits v).length = 24 := by simp [slotBits]

theorem slotBits_getElem? {v : BitVec 24} {j : Nat} (hj : j < 24) : (slotBits v)[j]? = some (v.getLsbD (23 - j)) := by
  rw [slotBits, List.getElem?_map, List.getElem?_range hj, Option.map_some, BitVec.getMsbD, decide_eq_true hj,
    Bool.true_and]

theorem Image.bits_length (img : Image) : (Image.bits img).length = 24 * img.length := by
  simp [Image.bits, List.length_flatMap, slotBits_length, Nat.mul_comm]

theorem Image.lines_getElem? {img : Image} {i j : Nat} {v : BitVec 24} (h : img[i]? = some v) (hj : j < 24) :
    (Image.lines img)[24 * i + j]? = some ⟨decide (i = 0 ∧ j = 0), v.getLsbD (23 - j), v.getLsbD (23 - j)⟩ := by
  have hbit : (Image.bits img)[24 * i + j]? = some (v.getLsbD (23 - j)) :=
    (flatMap_getElem? slotBits_length h hj).trans (slotBits_getElem? hj)
  have hfirst : (24 * i + j == 0) = decide (i = 0 ∧ j = 0) := by
    rw [Bool.eq_iff_iff, beq_iff_eq, decide_eq_true_eq]
    omega
  rw [Image.lines, List.getElem?_map, List.getElem?_zipIdx, hbit, Option.map_some, Option.map_some, Nat.zero_add, hfirst]

/-! ## Images -/

theorem placeSlots_length (img : Image) (base : Nat) (vs : List (BitVec 24)) :
    (placeSlots img base vs).length = img.length := by
  induction vs generalizing img base with
  | nil => rfl
  | cons v vs ih =>
    rw [placeSlots, List.zipIdx_cons, List.foldl_cons]
    exact (ih _ _).trans List.length_set

/-- What stands in a slot after values are placed. -/
theorem placeSlots_getElem? {img : Image} {base i : Nat} {vs : List (BitVec 24)} (hi : i < img.length) :
    (placeSlots img base vs)[i]? = if base ≤ i ∧ i < base + vs.length then vs[i - base]? else img[i]? := by
  induction vs generalizing img base with
  | nil => rw [if_neg (by simp)]; rfl
  | cons v vs ih =>
    have hcons : placeSlots img base (v :: vs) = placeSlots (img.set base v) (base + 1) vs := rfl
    rw [hcons, ih (by rwa [List.length_set]), List.length_cons]
    by_cases hb : base = i
    · subst hb
      rw [if_neg (by omega), if_pos (by omega), List.getElem?_set_self hi, Nat.sub_self]
      rfl
    · rw [List.getElem?_set_ne hb]
      by_cases hr : base + 1 ≤ i ∧ i < base + 1 + vs.length
      · rw [if_pos hr, if_pos (by omega), show i - base = i - (base + 1) + 1 by omega, List.getElem?_cons_succ]
      · rw [if_neg hr, if_neg (by omega)]

theorem SlotFormat.values_length (f : SlotFormat) (o : Output) : (f.values o).length = f.width := by cases f <;> rfl

/-- One station's part of an image (R167). -/
def State.placeStation (s : State) (l : LinkId) (img : Image) (st : StationId) : Image :=
  match (s.tableOf l)[st] with
  | none => img
  | some a => placeSlots img a.base (a.format.values (s.station st).out)

theorem State.imageOf_eq (s : State) (l : LinkId) : s.imageOf l = allStations.foldl (s.placeStation l) Image.zero := rfl

theorem State.placeStation_length (s : State) (l : LinkId) (img : Image) (st : StationId) :
    (s.placeStation l img st).length = img.length := by
  unfold State.placeStation
  split
  · rfl
  · exact placeSlots_length _ _ _

theorem State.foldl_placeStation_length (s : State) (l : LinkId) (img : Image) (sts : List StationId) :
    (sts.foldl (s.placeStation l) img).length = img.length := by
  induction sts generalizing img with
  | nil => rfl
  | cons st sts ih => exact (ih _).trans (s.placeStation_length l img st)

/-- A station leaves the slots its assignment does not cover. -/
theorem State.placeStation_uncovered {s : State} {l : LinkId} {img : Image} {st : StationId} {i : Nat}
    (hi : i < img.length)
    (h : ∀ a : Assignment, (s.tableOf l)[st] = some a → i < a.base ∨ a.base + a.format.width ≤ i) :
    (s.placeStation l img st)[i]? = img[i]? := by
  unfold State.placeStation
  cases ha : (s.tableOf l)[st] with
  | none => rfl
  | some a =>
    have := h a ha
    exact (placeSlots_getElem? hi).trans (if_neg (by rw [SlotFormat.values_length]; omega))

/-- A station's values stand in the slots of its assignment. -/
theorem State.placeStation_covered {s : State} {l : LinkId} {img : Image} {st : StationId} {a : Assignment} {j : Nat}
    (ha : (s.tableOf l)[st] = some a) (hj : j < a.format.width) (hi : a.base + j < img.length) :
    (s.placeStation l img st)[a.base + j]? = (a.format.values (s.station st).out)[j]? := by
  unfold State.placeStation
  rw [ha]
  refine (placeSlots_getElem? hi).trans ((if_pos ?_).trans ?_)
  · rw [SlotFormat.values_length]
    omega
  · rw [Nat.add_sub_cancel_left]

/-- A slot keeps its value under stations that do not cover it, or that write this value. -/
theorem State.foldl_placeStation_keeps {s : State} {l : LinkId} {i : Nat} {v : Option (BitVec 24)} {sts : List StationId}
    (h : ∀ st ∈ sts, ∀ img : Image, i < img.length → img[i]? = v → (s.placeStation l img st)[i]? = v) (img : Image)
    (hi : i < img.length) (hv : img[i]? = v) : (sts.foldl (s.placeStation l) img)[i]? = v := by
  induction sts generalizing img with
  | nil => exact hv
  | cons st sts ih =>
    refine ih (fun u hu => h u (List.mem_cons_of_mem _ hu)) _ ?_ (h st List.mem_cons_self img hi hv)
    rwa [s.placeStation_length]

theorem Assignment.apart_of_not_overlaps {a b : Assignment} (h : b.overlaps a = false) :
    a.base + a.format.width ≤ b.base ∨ b.base + b.format.width ≤ a.base := by
  simp only [Assignment.overlaps, Bool.and_eq_false_iff, decide_eq_false_iff_not] at h
  omega

theorem State.imageOf_length (s : State) (l : LinkId) : (s.imageOf l).length = 32 :=
  (s.foldl_placeStation_length l _ _).trans List.length_replicate

theorem State.imageOf_uncovered {s : State} {l : LinkId} {i : Nat} (hi : i < 32)
    (h : ∀ (st : StationId) (a : Assignment), (s.tableOf l)[st] = some a → i < a.base ∨ a.base + a.format.width ≤ i) :
    (s.imageOf l)[i]? = some 0 :=
  State.foldl_placeStation_keeps (fun st _ _ hl hv => (State.placeStation_uncovered hl (h st)).trans hv) _
    (by rwa [Image.zero, List.length_replicate]) (by rw [Image.zero, List.getElem?_replicate_of_lt hi])

/-- The image carries an assigned station's values, where no other station's slots overlap its own. -/
theorem State.imageOf_covered {s : State} {l : LinkId} {st : StationId} {a : Assignment} {j : Nat}
    (ha : (s.tableOf l)[st] = some a) (hw : a.base + a.format.width ≤ 32)
    (h : ∀ (u : StationId) (b : Assignment), u ≠ st → (s.tableOf l)[u] = some b → b.overlaps a = false)
    (hj : j < a.format.width) : (s.imageOf l)[a.base + j]? = (a.format.values (s.station st).out)[j]? := by
  obtain ⟨as, bs, hl⟩ := List.append_of_mem (mem_allStations st)
  have hlen : a.base + j < (as.foldl (s.placeStation l) Image.zero).length := by
    rw [s.foldl_placeStation_length, Image.zero, List.length_replicate]
    omega
  rw [State.imageOf_eq, hl, List.foldl_append, List.foldl_cons]
  refine State.foldl_placeStation_keeps (fun u _ img hi hv => ?_) _ (by rwa [s.placeStation_length])
    (State.placeStation_covered ha hj hlen)
  by_cases hu : u = st
  · subst hu
    exact State.placeStation_covered ha hj hi
  · refine (State.placeStation_uncovered hi fun b hb => ?_).trans hv
    have := Assignment.apart_of_not_overlaps (h u b hu hb)
    omega

/-! ## A link in a period -/

/-- What an event of a link leaves of the link and of the part. -/
structure OnFrames (l : LinkId) (s t : State) : Prop where
  on : OnLink l s t
  assigns : (t.link l).assigns = (s.link l).assigns
  alignments : (t.link l).alignments = (s.link l).alignments

namespace OnFrames

variable {l : LinkId} {s t u : State}

theorem refl (l : LinkId) (s : State) : OnFrames l s s := ⟨OnLink.refl l s, rfl, rfl⟩

theorem trans (h : OnFrames l s t) (k : OnFrames l t u) : OnFrames l s u :=
  ⟨h.on.trans k.on, k.assigns.trans h.assigns, k.alignments.trans h.alignments⟩

theorem setLink {k : AirLink} (ha : k.assigns = (s.link l).assigns) (hn : k.alignments = (s.link l).alignments) :
    OnFrames l s (s.setLink l k) := ⟨OnLink.setLink l s k, by rw [State.setLink_link, ha], by rw [State.setLink_link, hn]⟩

theorem raiseDevice (l : LinkId) (s : State) (c : DeviceCond) : OnFrames l s (s.raiseDevice c) :=
  ⟨OnLink.raiseDevice l s c, by rw [State.raiseDevice_link], by rw [State.raiseDevice_link]⟩

theorem frameContent (l : LinkId) (s : State) : OnFrames l s (s.frameContent l) := by
  cases h : (s.link l).framing with
  | none =>
    have hs : s.frameContent l = s := by simp only [State.frameContent, h]
    rw [hs]
    exact refl l s
  | some f =>
    obtain ⟨hon, hsame, -⟩ := State.frameContent_frame rfl h
    exact ⟨hon, hsame.assigns, hsame.alignments⟩

theorem storeWrite (l : LinkId) (s : State) : OnFrames l s (s.storeWrite l) := by
  unfold State.storeWrite
  split
  · exact refl l s
  · refine OnFrames.trans ?_ (setLink rfl rfl)
    split
    · unfold State.dropSlip
      refine OnFrames.trans ?_ (raiseDevice _ _ _)
      exact setLink rfl rfl
    · exact refl l s

end OnFrames

/-- The link with the image of the period in progress. -/
def State.imaged (s : State) (l : LinkId) : State := s.setLink l { s.link l with image := s.imageOf l }

theorem State.imaged_link (s : State) (l : LinkId) : (s.imaged l).link l = { s.link l with image := s.imageOf l } :=
  State.setLink_link _ _ _

theorem State.linkPeriod_slave {s : State} {l : LinkId} (h : (s.link l).active = .slave) : s.linkPeriod l =
    let s2 := if (s.imaged l).usesStore l then (s.imaged l).storeWrite l else s.imaged l
    if (s.link l).frameOpens then (s2.setLink l { s2.link l with frameOpens := false }).frameContent l else s2 := by
  unfold State.linkPeriod
  split
  next h' => rw [h] at h'; cases h'
  next h' => rw [h] at h'; cases h'
  next => rfl

theorem State.linkPeriod_master {s : State} {l : LinkId} (h : (s.link l).active = .master) :
    s.linkPeriod l = s.setLink l { s.link l with image := s.imageOf l, frame := some (s.imageOf l) } := by
  unfold State.linkPeriod
  split
  next h' => rw [h] at h'; cases h'
  next => rfl
  next h' => rw [h] at h'; cases h'

theorem OnFrames.linkPeriod (l : LinkId) (s : State) : OnFrames l s (s.linkPeriod l) := by
  have himg : OnFrames l s (s.imaged l) := OnFrames.setLink rfl rfl
  cases h : (s.link l).active with
  | off =>
    have hs : s.linkPeriod l = s := by simp only [State.linkPeriod, h]
    rw [hs]
    exact refl l s
  | master =>
    rw [State.linkPeriod_master h]
    exact OnFrames.setLink rfl rfl
  | slave =>
    rw [State.linkPeriod_slave h]
    have hstore : OnFrames l s (if (s.imaged l).usesStore l then (s.imaged l).storeWrite l else s.imaged l) := by
      split
      · exact himg.trans (OnFrames.storeWrite l _)
      · exact himg
    simp only
    split
    · refine hstore.trans (OnFrames.trans ?_ (OnFrames.frameContent l _))
      exact OnFrames.setLink rfl rfl
    · exact hstore

/-- An image written over one that was not sent: a drop slip. -/
theorem State.storeWrite_drops {s : State} {l : LinkId} {f : Framing} (h : (s.link l).framing = some f)
    (hs : f.sub = .sync) (hn : f.newPlace.isSome = true) : s.storeWrite l =
      ((s.setLink l { s.link l with drops := Count32.succHold (s.link l).drops }).raiseDevice .linkSlip).setLink l
        { s.link l with
          drops := Count32.succHold (s.link l).drops
          framing := some { f with newPlace := some (s.link l).image } } := by
  simp only [State.storeWrite, h]
  rw [if_pos ⟨hs, hn⟩, State.modFraming, State.dropSlip, State.raiseDevice_link, State.setLink_link]
  simp only [h, Option.map_some]

theorem State.storeWrite_plain {s : State} {l : LinkId} {f : Framing} (h : (s.link l).framing = some f)
    (hn : f.sub ≠ .sync ∨ f.newPlace = none) :
    s.storeWrite l = s.setLink l { s.link l with framing := some { f with newPlace := some (s.link l).image } } := by
  have hc : ¬(f.sub = .sync ∧ f.newPlace.isSome = true) := by
    rintro ⟨hs, hp⟩
    rcases hn with hn | hn
    · exact hn hs
    · rw [hn] at hp
      cases hp
  simp only [State.storeWrite, h]
  rw [if_neg hc, State.modFraming, h, Option.map_some]

end Sys2Proof.Machine

namespace Sys2Proof
open Machine

/-- Settles O40: the bits of a frame, what a link's period leaves and writes, and the slots of an image. -/
theorem imagesFormed : Obligations.ImagesFormed := by
  unfold Obligations.ImagesFormed
  refine ⟨fun img hl => ⟨?_, fun i j v h hj => Image.lines_getElem? h hj⟩, ?_,
    fun s l => ⟨s.imageOf_length l, fun i hi h => State.imageOf_uncovered hi h⟩, ?_, fun s h => ?_⟩
  · rw [Image.lines, List.length_map, List.length_zipIdx, Image.bits_length, hl]
  · rintro s t l rfl
    have hall := OnFrames.linkPeriod l s
    refine ⟨fun hm => ?_, fun f ha hf => ⟨fun hp => ?_, fun hp ho => ?_⟩, hall.assigns, hall.alignments,
      fun k hk => hall.on.link_ne hk, hall.on.stations, hall.on.decks, hall.on.ref⟩
    · rw [State.linkPeriod_master hm, State.setLink_link]
      exact ⟨rfl, State.setLink_conds _ _ _⟩
    · have hpace : (s.imaged l).ref.pacing = .link l := by rw [State.imaged, State.setLink_ref, hp]
      have huse : ¬(s.imaged l).usesStore l = true := fun h => State.usesStore_iff.mp h hpace
      rw [State.linkPeriod_slave ha, if_neg huse]
      simp only
      split
      next hfo =>
        have hlink : ((s.imaged l).setLink l { (s.imaged l).link l with frameOpens := false }).link l =
            { s.link l with image := s.imageOf l, frameOpens := false } := by
          rw [State.setLink_link, State.imaged_link]
        have hc : ((s.imaged l).setLink l { (s.imaged l).link l with frameOpens := false }).conds = s.conds :=
          (State.setLink_conds _ _ _).trans (State.setLink_conds _ _ _)
        have hr : ((s.imaged l).setLink l { (s.imaged l).link l with frameOpens := false }).ref.pacing = .link l := by
          rw [State.setLink_ref, hpace]
        generalize (s.imaged l).setLink l { (s.imaged l).link l with frameOpens := false } = u at *
        obtain ⟨-, -, hzero, himg, hkeep, -⟩ := State.frameContent_frame rfl (show (u.link l).framing = some f by
          rw [hlink]; exact hf)
        obtain ⟨hg, -, hcs⟩ := hkeep (.inr hr)
        refine ⟨hg, hcs.trans hc, fun _ => ?_⟩
        by_cases hs : f.sub = .sync
        · rw [if_pos hs, himg hs hr, hlink]
        · rw [if_neg hs, hzero hs]
      next hfo =>
        rw [State.imaged_link]
        exact ⟨hf, State.setLink_conds _ _ _, fun h => absurd h hfo⟩
    · have hpace : (s.imaged l).ref.pacing ≠ .link l := by rwa [State.imaged, State.setLink_ref]
      have hfr : ((s.imaged l).link l).framing = some f := by rw [State.imaged_link]; exact hf
      have hkeep : s.linkPeriod l = (s.imaged l).storeWrite l := by
        rw [State.linkPeriod_slave ha, if_pos (State.usesStore_iff.mpr hpace), if_neg (by rw [ho]; exact Bool.false_ne_true)]
      rw [hkeep]
      by_cases hd : f.sub = .sync ∧ f.newPlace.isSome = true
      · rw [State.storeWrite_drops hfr hd.1 hd.2, State.setLink_link, State.imaged_link]
        refine ⟨rfl, rfl, rfl, fun _ _ => ⟨rfl, ?_⟩, fun hn => ?_⟩
        · rw [State.cond_congr (State.setLink_conds _ _ _)]
          exact State.raiseDevice_pending _ .linkSlip
        · rcases hn with hn | hn
          · exact absurd hd.1 hn
          · rw [hn] at hd
            exact absurd hd.2 Bool.false_ne_true
      · have hn : f.sub ≠ .sync ∨ f.newPlace = none := by
          rw [← Option.not_isSome_iff_eq_none]
          exact not_and_or.mp hd
        rw [State.storeWrite_plain hfr hn, State.setLink_link, State.imaged_link]
        exact ⟨rfl, rfl, rfl, fun h1 h2 => absurd ⟨h1, h2⟩ hd,
          fun _ => ⟨rfl, (State.setLink_conds _ _ _).trans (State.setLink_conds _ _ _)⟩⟩
  · intro s l st a ha hw h
    have hslot (j : Nat) (hj : j < a.format.width) := State.imageOf_covered ha hw h hj
    refine ⟨fun hf => ?_, fun hf => ?_, fun hf => ?_⟩ <;> rw [hf] at hslot
    · exact ⟨hslot 0 (by decide), hslot 1 (by decide)⟩
    · exact hslot 0 (by decide)
    · exact ⟨hslot 0 (by decide), hslot 1 (by decide), hslot 2 (by decide)⟩
  · have htable : s.tableOf .b = s.tableOf .a := by simp only [State.tableOf, h, if_true]
    simp only [State.imageOf, htable]

end Sys2Proof
end

section
/-!
PROOFS. When an entry is due, and the start of a due entry on its PRIMED deck (O42).
-/

namespace Sys2Proof.Machine

/-! ## The low relation and the rest of the part -/

theorem State.evalLow_unsent (s : State) (st : StationId) : (s.evalLow st).unsent = (s.lowNoted st).unsent := by
  by_cases hr : (s.station st).lowRel = true
  · by_cases hl : (s.station st).notStarted < (s.station st).cfg.lowMark
    · rw [State.evalLow_same (iff_of_true hr hl), State.lowNoted, State.modStation_self]
      simp only [hl, decide_true, ← hr]
    · rw [State.evalLow_off (Nat.not_lt.mp hl) hr]
      rfl
  · by_cases hl : (s.station st).notStarted < (s.station st).cfg.lowMark
    · rw [State.evalLow_on hl (Bool.eq_false_iff.mpr hr), State.raiseBits_unsent]
    · rw [State.evalLow_same (iff_of_false hr hl), State.lowNoted, State.modStation_self]
      simp only [hl, decide_false, ← Bool.eq_false_iff.mpr hr]

@[simp] theorem State.evalLow_decks (s : State) (st : StationId) : (s.evalLow st).decks = s.decks :=
  (congrArg State.decks (s.evalLow_unsent st) :)
@[simp] theorem State.evalLow_beds (s : State) (st : StationId) : (s.evalLow st).beds = s.beds :=
  (congrArg State.beds (s.evalLow_unsent st) :)
@[simp] theorem State.evalLow_dir (s : State) (st : StationId) : (s.evalLow st).dir = s.dir :=
  (congrArg State.dir (s.evalLow_unsent st) :)
@[simp] theorem State.evalLow_media (s : State) (st : StationId) : (s.evalLow st).media = s.media :=
  (congrArg State.media (s.evalLow_unsent st) :)
@[simp] theorem State.evalLow_asrun (s : State) (st : StationId) : (s.evalLow st).asrun = s.asrun :=
  (congrArg State.asrun (s.evalLow_unsent st) :)
@[simp] theorem State.evalLow_recordsHeld (s : State) (st : StationId) : (s.evalLow st).recordsHeld = s.recordsHeld :=
  (congrArg State.recordsHeld (s.evalLow_unsent st) :)
@[simp] theorem State.evalLow_port (s : State) (st : StationId) : (s.evalLow st).port = s.port :=
  (congrArg State.port (s.evalLow_unsent st) :)
@[simp] theorem State.evalLow_house (s : State) (st : StationId) : (s.evalLow st).house = s.house :=
  (congrArg State.house (s.evalLow_unsent st) :)
@[simp] theorem State.evalLow_opening (s : State) (st : StationId) : (s.evalLow st).opening = s.opening :=
  (congrArg State.opening (s.evalLow_unsent st) :)

/-! ## Entries by their ids -/

/-- A change of one entry, seen by a search for an id. -/
theorem find?_mapIf {l : List Entry} {k j : Nat} {f : Entry → Entry} (hf : ∀ e, (f e).id = e.id) :
    (l.map fun e => if e.id = k then f e else e).find? (fun e => e.id == j) =
      (l.find? fun e => e.id == j).map fun e => if e.id = k then f e else e := by
  rw [List.find?_map]
  have hp : ((fun e : Entry => e.id == j) ∘ fun e => if e.id = k then f e else e) = fun e => e.id == j := by
    funext e
    by_cases he : e.id = k <;> simp [he, hf]
  rw [hp]

/-- In a list without repeated ids an entry is what its id finds. -/
theorem find?_of_mem {l : List Entry} (hl : (l.map Entry.id).Nodup) {e : Entry} (he : e ∈ l) :
    l.find? (fun x => x.id == e.id) = some e := by
  induction l with
  | nil => cases he
  | cons x l ih =>
    rw [List.map_cons, List.nodup_cons] at hl
    rcases List.mem_cons.mp he with rfl | he
    · simp
    · have hx : x.id ≠ e.id := fun hx => hl.1 (hx ▸ List.mem_map_of_mem he)
      rw [List.find?_cons_of_neg (by simpa using hx)]
      exact ih hl.2 he

theorem id_injOn {l : List Entry} (hl : (l.map Entry.id).Nodup) {x y : Entry} (hx : x ∈ l) (hy : y ∈ l)
    (h : x.id = y.id) : x = y := by
  have hfx := find?_of_mem hl hx
  rw [h, find?_of_mem hl hy] at hfx
  exact (Option.some.inj hfx).symm

theorem State.ListsKept.nodup {s : State} (h : s.ListsKept) (st : StationId) : ((s.station st).list.map Entry.id).Nodup :=
  (h st).2.1

theorem Station.onAir_some {x : Station} {e : Entry} (h : x.onAir = some e) : e ∈ x.list ∧ e.state = .onAir :=
  ⟨List.mem_of_find?_eq_some h, by simpa using List.find?_some h⟩

theorem State.firstItem_some {s : State} {st : StationId} {e : Entry} (h : s.firstItem st = some e) :
    (s.station st).airs = true ∧ (s.station st).acted = false ∧ (s.station st).lateHead = false ∧
      (s.station st).waitingList.head? = some e ∧ e.isBreak = false ∧ e ∈ (s.station st).list ∧
      e.notStarted = true := by
  unfold State.firstItem at h
  simp only at h
  split at h
  · cases h
  next hc =>
    simp only [Bool.or_eq_true, Bool.not_eq_true', not_or, Bool.not_eq_false, Bool.not_eq_true] at hc
    obtain ⟨⟨ha, hd⟩, hl⟩ := hc
    split at h
    · cases h
    next x hx =>
      split at h
      · cases h
      next hb =>
        cases h
        have hm := List.mem_filter.mp (List.mem_of_head? hx)
        exact ⟨ha, hd, hl, hx, by simpa using hb, hm.1, hm.2⟩

/-! ## Becoming due -/

theorem endPoint_segue (y : DirEntry) :
    endPoint y .segue = if y.category = .spot then y.trimOut else y.segue.getD y.trimOut := by
  unfold endPoint
  cases y.segue <;> simp

theorem State.segueDue_iff {s : State} {st : StationId} : s.segueDue st = true ↔ (s.station st).onAir = none ∨
    ∃ (x : Entry) (c : Nat) (q : DeckId) (y : DirEntry), (s.station st).onAir = some x ∧ x.body = .item c ∧
      x.served = .deck q ∧ s.playerEntry (s.deck q).player = some y ∧
      (if y.category = .spot then y.trimOut else y.segue.getD y.trimOut) ≤ (s.deck q).player.playPos := by
  unfold State.segueDue
  cases ho : (s.station st).onAir with
  | none => simp
  | some x =>
    cases hb : x.body with
    | brk b => simp [hb]
    | item c =>
      cases hv : x.served with
      | none => simp [hb, hv]
      | waiting => simp [hb, hv]
      | deck q =>
        cases hp : s.playerEntry (s.deck q).player with
        | none => simp [hb, hv, hp]
        | some y => simp [hb, hv, hp, endPoint_segue]

theorem State.isDue_iff {s : State} {st : StationId} {e : Entry} : s.isDue st e = true ↔
    e.state = .pending ∨ (∃ k : PendingTake, (s.station st).take = some k ∧ k.target = e.id) ∨
    e.startKind = .hard ∧ e.dueTime ≤ s.stationTime st ∧ (s.station st).onAirBreak = none ∨
    e.startKind = .segue ∧ (s.station st).mode = .auto ∧ s.segueDue st = true ∨
    e.startKind = .follow ∧ (s.station st).mode = .auto ∧ (s.station st).onAir = none := by
  have htake : ((s.station st).take.any fun tk => tk.target == e.id) = true ↔
      ∃ k : PendingTake, (s.station st).take = some k ∧ k.target = e.id := by
    simp [Option.any_eq_true]
  unfold State.isDue
  rw [Bool.or_eq_true, Bool.or_eq_true, beq_iff_eq, htake, or_assoc]
  cases e.startKind <;> simp

/-! ## Starting -/

/-- The stations once what is on air in one of them is ENDING (R92). -/
def State.outgoing (s : State) (st : StationId) : State :=
  match (s.station st).onAir with
  | none => s
  | some x => s.modEntry st x.id fun y => { y with state := .ending }

/-- The deck that a start lets fade out, with the length of the fade: that of what is on air, under a SEGUE start that no
take made (R92). -/
structure State.FadesOut (s : State) (st : StationId) (e : Entry) (q : DeckId) (f : Nat) : Prop where
  ex : ∃ x : Entry, (s.station st).onAir = some x ∧ x.fadeOut = some f ∧ x.served = .deck q
  sounds : (s.deck q).player.sounds = true
  segue : e.startKind = .segue
  untaken : ∀ k : PendingTake, (s.station st).take = some k → k.target ≠ e.id

theorem State.untaken_iff {s : State} {st : StationId} {e : Entry} :
    ((s.station st).take.all fun tk => tk.target != e.id) = true ↔
      ∀ k : PendingTake, (s.station st).take = some k → k.target ≠ e.id := by
  simp [Option.all_eq_true]

/-- A start makes what is on air ENDING, and lets its deck fade out or leaves it. -/
theorem State.displace_cases (s : State) (st : StationId) (e : Entry) :
    (∃ q f, s.FadesOut st e q f ∧ s.displace st e = (s.outgoing st).modPlayer q fun p => p.faded f) ∨
      (∀ q f, ¬s.FadesOut st e q f) ∧ s.displace st e = s.outgoing st := by
  unfold State.displace State.outgoing
  cases ho : (s.station st).onAir with
  | none =>
    refine .inr ⟨fun q f h => ?_, rfl⟩
    obtain ⟨x, hx, -⟩ := h.ex
    rw [ho] at hx
    cases hx
  | some x =>
    simp only
    split
    next hc =>
      have hun := State.untaken_iff.mp hc.2
      split
      next f q hf hq =>
        split
        next hs => exact .inl ⟨q, f, ⟨⟨x, ho, hf, hq⟩, hs, hc.1, hun⟩, rfl⟩
        next hs =>
          refine .inr ⟨fun q' f' h => ?_, rfl⟩
          obtain ⟨y, hy, -, hq'⟩ := h.ex
          obtain rfl := Option.some.inj (ho.symm.trans hy)
          obtain rfl := Served.deck.inj (hq.symm.trans hq')
          exact hs h.sounds
      next hn =>
        refine .inr ⟨fun q f h => ?_, rfl⟩
        obtain ⟨y, hy, hf, hq⟩ := h.ex
        obtain rfl := Option.some.inj (ho.symm.trans hy)
        exact hn f q hf hq
    next hc =>
      refine .inr ⟨fun q f h => hc ⟨h.segue, State.untaken_iff.mpr h.untaken⟩, rfl⟩

/-- All but the stations, the decks and the condition unit. -/
structure State.SameRest (s t : State) : Prop where
  beds : t.beds = s.beds
  dir : t.dir = s.dir
  media : t.media = s.media
  asrun : t.asrun = s.asrun
  port : t.port = s.port
  house : t.house = s.house

theorem State.outgoing_rest (s : State) (st : StationId) : s.SameRest (s.outgoing st) ∧ (s.outgoing st).decks = s.decks := by
  unfold State.outgoing
  split <;> exact ⟨⟨rfl, rfl, rfl, rfl, rfl, rfl⟩, rfl⟩

theorem State.outgoing_station (s : State) (st : StationId) : (s.outgoing st).station st =
    { s.station st with
      list := (s.station st).list.map fun y =>
        if (s.station st).onAir.map Entry.id = some y.id then { y with state := .ending } else y } := by
  unfold State.outgoing
  split
  next h => simp [h]
  next x h =>
    rw [State.modEntry, State.modStation_station, h]
    simp only [Option.map_some, Option.some.injEq, eq_comm]

theorem State.outgoing_station_ne (s : State) {st u : StationId} (h : u ≠ st) :
    (s.outgoing st).station u = s.station u := by
  unfold State.outgoing
  split
  · rfl
  · exact State.modStation_station_ne _ _ h.symm

theorem State.displace_rest (s : State) (st : StationId) (e : Entry) : s.SameRest (s.displace st e) := by
  obtain ⟨hr, -⟩ := s.outgoing_rest st
  rcases s.displace_cases st e with ⟨q, f, -, h⟩ | ⟨-, h⟩ <;> rw [h]
  · exact ⟨hr.beds, hr.dir, hr.media, hr.asrun, hr.port, hr.house⟩
  · exact hr

theorem State.displace_stations (s : State) (st : StationId) (e : Entry) :
    (s.displace st e).stations = (s.outgoing st).stations := by
  rcases s.displace_cases st e with ⟨q, f, -, h⟩ | ⟨-, h⟩
  · rw [h]
    rfl
  · rw [h]

theorem State.displace_deck (s : State) (st : StationId) (e : Entry) :
    (∀ q f, s.FadesOut st e q f → (s.displace st e).deck q =
      { s.deck q with player := (s.deck q).player.faded f }) ∧
    ∀ q, (∀ f, ¬s.FadesOut st e q f) → (s.displace st e).deck q = s.deck q := by
  have hd (q : DeckId) : (s.outgoing st).deck q = s.deck q := State.deck_congr (s.outgoing_rest st).2 q
  rcases s.displace_cases st e with ⟨q, f, h, hs⟩ | ⟨h, hs⟩ <;> rw [hs]
  · obtain ⟨x, hx, hf, hq⟩ := h.ex
    refine ⟨fun q' f' h' => ?_, fun q' h' => ?_⟩
    · obtain ⟨y, hy, hf', hq'⟩ := h'.ex
      obtain rfl := Option.some.inj (hx.symm.trans hy)
      obtain rfl := Served.deck.inj (hq.symm.trans hq')
      obtain rfl := Option.some.inj (hf.symm.trans hf')
      rw [State.modPlayer_deck, hd]
    · rw [State.modPlayer_deck_ne _ _ (fun he => h' f (by rw [← he]; exact h)), hd]
  · exact ⟨fun q f h' => absurd h' (h q f), fun q _ => hd q⟩

section
variable {s : State} {st : StationId} {e : Entry} {d : DeckId}

/-- The level an entry starts at: its own, or its directory entry's (R34). -/
def State.startLevel (s : State) (e : Entry) (d : DeckId) : Nat :=
  e.level.getD (((s.playerEntry (s.deck d).player).map DirEntry.level).getD 0)

/-- A start but for the low relation evaluated behind it. -/
theorem State.startItem_eq (s : State) (st : StationId) (e : Entry) (d : DeckId) :
    ∃ u : State, s.startItem st e d = u.evalLow st ∧ (s.displace st e).SameRest u ∧
      u.decks = ((s.displace st e).modPlayer d fun p =>
        p.started (s.startLevel e d) ⟨0, 32768, e.fadeIn.getD 0, 0⟩).decks ∧
      u.station st =
        { s.station st with
          list := ((s.outgoing st).station st).list.map fun y => if y.id = e.id then
            { y with state := .onAir, lateness := some (s.startLateness st e), startTime := s.stationTime st } else y
          due := none
          take := if (s.station st).take.any fun tk => tk.target == e.id then none else (s.station st).take
          preFade := if (s.station st).preFade.any fun p => p.id == e.id then none else (s.station st).preFade
          acted := true
          dirty := true } ∧
      ∀ v : StationId, v ≠ st → u.station v = s.station v := by
  have hstations := s.displace_stations st e
  unfold State.startItem
  generalize s.displace st e = D at *
  refine ⟨_, rfl, ?_, ?_, ?_, ?_⟩
  · exact ⟨rfl, rfl, rfl, rfl, rfl, rfl⟩
  · rfl
  · rw [State.modStation_station, State.modEntry, State.modStation_station]
    refine (congrArg (fun x : Station => ({ x with
      list := x.list.map fun y => if y.id = e.id then
        { y with state := .onAir, lateness := some (s.startLateness st e), startTime := s.stationTime st } else y
      due := none
      take := if x.take.any fun tk => tk.target == e.id then none else x.take
      preFade := if x.preFade.any fun p => p.id == e.id then none else x.preFade
      acted := true
      dirty := true } : Station)) (State.station_congr hstations st)).trans ?_
    rw [State.outgoing_station]
  · intro v hv
    rw [State.modStation_station_ne _ _ hv.symm, State.modEntry, State.modStation_station_ne _ _ hv.symm]
    exact (State.station_congr hstations v).trans (s.outgoing_station_ne hv)

theorem State.startItem_rest (s : State) (st : StationId) (e : Entry) (d : DeckId) : s.SameRest (s.startItem st e d) := by
  have h := s.displace_rest st e
  obtain ⟨u, hu, hr, -⟩ := s.startItem_eq st e d
  rw [hu]
  exact ⟨(u.evalLow_beds st).trans (hr.beds.trans h.beds), (u.evalLow_dir st).trans (hr.dir.trans h.dir),
    (u.evalLow_media st).trans (hr.media.trans h.media), (u.evalLow_asrun st).trans (hr.asrun.trans h.asrun),
    (u.evalLow_port st).trans (hr.port.trans h.port), (u.evalLow_house st).trans (hr.house.trans h.house)⟩

theorem State.startItem_deck (hd : (s.deck d).player.sounds = false) : (s.startItem st e d).deck d =
    { s.deck d with
      player := (s.deck d).player.started (s.startLevel e d) ⟨0, 32768, e.fadeIn.getD 0, 0⟩ } := by
  have hself : (s.displace st e).deck d = s.deck d := (s.displace_deck st e).2 d fun f h => by
    have := h.sounds
    rw [hd] at this
    cases this
  obtain ⟨u, hu, -, hdecks, -⟩ := s.startItem_eq st e d
  rw [hu, State.deck_congr ((u.evalLow_decks st).trans hdecks), State.modPlayer_deck, hself]

theorem State.startItem_deck_ne {q : DeckId} (hq : q ≠ d) :
    (s.startItem st e d).deck q = (s.displace st e).deck q := by
  obtain ⟨u, hu, -, hdecks, -⟩ := s.startItem_eq st e d
  rw [hu, State.deck_congr ((u.evalLow_decks st).trans hdecks), State.modPlayer_deck_ne _ _ hq.symm]

theorem State.startItem_station_ne {u : StationId} (hu : u ≠ st) : (s.startItem st e d).station u = s.station u := by
  obtain ⟨v, hv, -, -, -, hne⟩ := s.startItem_eq st e d
  rw [hv, State.evalLow_station_ne _ hu, hne u hu]

/-- The station as a start leaves it, its low relation aside. -/
theorem State.startItem_station (s : State) (st : StationId) (e : Entry) (d : DeckId) :
    ∃ b : Bool, (s.startItem st e d).station st =
      { s.station st with
        list := ((s.outgoing st).station st).list.map fun y => if y.id = e.id then
          { y with state := .onAir, lateness := some (s.startLateness st e), startTime := s.stationTime st } else y
        due := none
        take := if (s.station st).take.any fun tk => tk.target == e.id then none else (s.station st).take
        preFade := if (s.station st).preFade.any fun p => p.id == e.id then none else (s.station st).preFade
        acted := true
        dirty := true
        lowRel := b } := by
  obtain ⟨u, hu, -, -, hst, -⟩ := s.startItem_eq st e d
  rw [hu, State.evalLow_station]
  generalize decide ((u.station st).notStarted < (u.station st).cfg.lowMark) = b
  exact ⟨b, by rw [hst]⟩

/-- The started entry, and the one it displaces, as the list then holds them. -/
theorem State.startItem_find (hl : s.ListsKept) (he : e ∈ (s.station st).list) (hn : e.notStarted = true) :
    ((s.startItem st e d).station st).find e.id =
        some { e with state := .onAir, lateness := some (s.startLateness st e), startTime := s.stationTime st } ∧
      ∀ x : Entry, (s.station st).onAir = some x →
        ((s.startItem st e d).station st).find x.id = some { x with state := .ending } := by
  have hne {x : Entry} (hx : (s.station st).onAir = some x) : x.id ≠ e.id := fun h => by
    obtain ⟨hm, hs⟩ := Station.onAir_some hx
    rw [id_injOn (hl.nodup st) hm he h] at hs
    rw [Entry.notStarted, hs] at hn
    cases hn
  obtain ⟨b, hst⟩ := s.startItem_station st e d
  have hfind (i : Nat) : ((s.startItem st e d).station st).find i =
      (((s.outgoing st).station st).list.find? fun y => y.id == i).map fun y => if y.id = e.id then
        { y with state := .onAir, lateness := some (s.startLateness st e), startTime := s.stationTime st } else y := by
    rw [hst]
    exact find?_mapIf fun _ => rfl
  have hout : (∀ x, (s.station st).onAir = some x → ((s.outgoing st).station st).list.find? (fun y => y.id == x.id) =
      some { x with state := .ending }) ∧
      ((s.outgoing st).station st).list.find? (fun y => y.id == e.id) = some e := by
    unfold State.outgoing
    split
    next h => exact ⟨fun x hx => (by rw [h] at hx; cases hx), find?_of_mem (hl.nodup st) he⟩
    next x h =>
      have hm (j : Nat) := find?_mapIf (l := (s.station st).list) (k := x.id) (j := j)
        (f := fun y => { y with state := .ending }) fun _ => rfl
      rw [State.modEntry, State.modStation_station]
      refine ⟨fun y hy => ?_, (hm e.id).trans ?_⟩
      · obtain rfl := Option.some.inj (h.symm.trans hy)
        refine (hm x.id).trans ?_
        rw [find?_of_mem (hl.nodup st) (Station.onAir_some h).1, Option.map_some, if_pos rfl]
      · rw [find?_of_mem (hl.nodup st) he, Option.map_some, if_neg (hne h).symm]
  refine ⟨?_, fun x hx => ?_⟩
  · rw [hfind, hout.2, Option.map_some, if_pos rfl]
  · rw [hfind, hout.1 x hx, Option.map_some, if_neg (hne hx)]

end

theorem State.opPreFade_none {s : State} {st : StationId} (h : s.preFadeDue st = none) : s.opPreFade st = s := by
  simp only [State.opPreFade, h]

theorem Player.sounds_primed {p : Player} (h : p.state = .primed) : p.sounds = false := by simp [Player.sounds, h]

theorem State.primedDeck_deck {s : State} {d : DeckId} (h : (s.deck d).player.state = .primed) :
    s.primedDeck (.deck d) = some d := if_pos h

theorem State.opEntryStart_start {s : State} {st : StationId} {e : Entry} {d : DeckId} (hp : s.preFadeDue st = none)
    (hf : s.firstItem st = some e) (hd : s.isDue st e = true) (hv : e.served = .deck d)
    (hs : (s.deck d).player.state = .primed) : s.opEntryStart st = s.startItem st e d := by
  have hst : s.startable st = some (e, d) := by
    simp only [State.startable, hf, hd, if_true, hv, State.primedDeck_deck hs, Option.map_some]
  unfold State.opEntryStart
  rw [State.opPreFade_none hp]
  extract_lets u
  split
  next h => rw [hst] at h; cases h
  next h =>
    rw [hst] at h
    cases h
    rfl

theorem State.opJudgeFirst_start {s : State} {st : StationId} {e : Entry} {d : DeckId}
    (hf : s.firstItem st = some e) (hd : s.isDue st e = true) (hv : e.served = .deck d)
    (hs : (s.deck d).player.state = .primed) : s.opJudgeFirst st = s.startItem st e d := by
  simp only [State.opJudgeFirst, hf, hd, if_true, hv, State.primedDeck_deck hs]

theorem State.opHardDue_judge {s : State} {st : StationId} {e : Entry} (hp : s.preFadeDue st = none)
    (hf : s.firstItem st = some e) (hk : e.startKind = .hard) (hn : e.state ≠ .pending) :
    s.opHardDue st = s.opJudgeFirst st := by
  unfold State.opHardDue
  rw [State.opPreFade_none hp]
  extract_lets u
  split
  next h => rw [hf] at h; cases h
  next h =>
    rw [hf] at h
    cases h
    exact if_pos ⟨hk, hn⟩

end Sys2Proof.Machine

namespace Sys2Proof
open Machine

/-- Settles O42: the conditions of R88 one by one, and the start on the deck that serves the entry. -/
theorem entryStarts : Obligations.EntryStarts := by
  unfold Obligations.EntryStarts
  refine ⟨fun s st e => ?_, fun s st e d ho hl hp hf hdue hv hs => ?_⟩
  · rw [State.isDue_iff, State.segueDue_iff]
    grind
  · obtain ⟨-, -, -, -, -, he, hn⟩ := State.firstItem_some hf
    obtain ⟨hfind, hfindx⟩ := State.startItem_find (d := d) hl he hn
    obtain ⟨b, hst⟩ := s.startItem_station st e d
    have hdeck := State.startItem_deck (st := st) (e := e) (Player.sounds_primed hs)
    have hrest := s.startItem_rest st e d
    obtain ⟨hfade, hstay⟩ := s.displace_deck st e
    refine ⟨s.startItem st e d, ?_, fun hk hnp => ?_, ?_, ?_, fun v hlv => ?_, fun y hlv hy => ?_, ?_,
      ⟨_, hfind, fun hk => if_pos hk, fun hk hd => ?_, fun m hk hd => ?_⟩, hfindx, fun x f q hx hfo hq hqd hsnd hk hun => ?_,
      fun q hqd h => ?_, fun k hk => ?_, ?_, fun u hu => State.startItem_station_ne hu, hrest.beds, hrest.dir, hrest.media,
      hrest.asrun, hrest.port, hrest.house⟩
    · rw [← State.opEntryStart_start hp hf hdue hv hs]
      exact ho.event fun y => y.opEntryStart st
    · rw [← State.opJudgeFirst_start hf hdue hv hs, ← State.opHardDue_judge hp hf hk hnp]
      exact ho.event fun y => y.opHardDue st
    · rw [hdeck]; rfl
    · rw [hdeck]; rfl
    · rw [hdeck]
      simp only [Player.started, State.startLevel, hlv, Option.getD_some]
    · rw [hdeck]
      simp only [Player.started, State.startLevel, hlv, hy, Option.getD_none, Option.map_some, Option.getD_some]
    · rw [hdeck]; rfl
    · exact (if_neg hk).trans (by rw [hd])
    · exact (if_neg hk).trans (by rw [hd])
    · rw [State.startItem_deck_ne hqd, hfade q f ⟨⟨x, hx, hfo, hq⟩, hsnd, hk, hun⟩]
      refine ⟨rfl, ?_⟩
      have hpf : (s.deck q).player.state = .playing ∨ (s.deck q).player.state = .fading := by
        simpa [Player.sounds] using hsnd
      rcases hpf with h | h <;> simp [Player.faded, h]
    · rw [State.startItem_deck_ne hqd]
      refine hstay q fun f hfo => ?_
      obtain ⟨x, hx, hxf, hxq⟩ := hfo.ex
      rcases h with h | h | ⟨k, hk, hkt⟩
      · rcases h x hx with h | h
        · exact h hxq
        · rw [h] at hxf
          cases hxf
      · exact h hfo.segue
      · exact hfo.untaken k hk hkt
    · rw [hst, hk]
      simp only [Option.any_some, beq_iff_eq]
    · rw [hst]

end Sys2Proof
end

section
/-!
PROOFS. The as-run log, its records held back, ASRUN_FETCH and the fault records (O32).
-/

namespace Sys2Proof.Machine

/-! ## Records made -/

theorem State.addRecord_asrun (s : State) (r : Record) : (s.addRecord r).asrun =
    if s.logAccepts then s.asrun ++ [{ r with seq := s.nextSeq }] else s.asrun :=
  (congrArg State.asrun (s.addRecord_unsent r) :)

@[simp] theorem State.addRecord_nextSeq (s : State) (r : Record) : (s.addRecord r).nextSeq = s.nextSeq + 1 :=
  (congrArg State.nextSeq (s.addRecord_unsent r) :)

theorem State.addRecord_wrapHold (s : State) (r : Record) : (s.addRecord r).wrapHold =
    (s.wrapHold || s.nextSeq == 4294967295 && !(s.addRecord r).asrun.isEmpty) := by
  rw [State.addRecord_asrun]
  exact (congrArg State.wrapHold (s.addRecord_unsent r) :)

theorem State.logAccepts_iff {s : State} : s.logAccepts = true ↔ s.asrun.length < 512 ∧ s.wrapHold = false := by
  have hlim : Config.asrunLimit = 512 := rfl
  rw [State.logAccepts, Bool.and_eq_true, decide_eq_true_eq, hlim, Bool.not_eq_true']

theorem State.addRecord_accepted {s : State} (h : s.logAccepts = true) (r : Record) :
    (s.addRecord r).asrun = s.asrun ++ [{ r with seq := s.nextSeq }] :=
  (s.addRecord_asrun r).trans (if_pos h)

/-- The log as a record finds it leaves it, conditions aside. -/
def State.logged (s : State) (r : Record) : State :=
  { s with
    asrun := if s.logAccepts then s.asrun ++ [{ r with seq := s.nextSeq }] else s.asrun
    nextSeq := s.nextSeq + 1
    wrapHold := s.wrapHold || (s.nextSeq == 4294967295 &&
      !(if s.logAccepts then s.asrun ++ [{ r with seq := s.nextSeq }] else s.asrun).isEmpty) }

theorem State.addRecord_refused {s : State} (h : s.logAccepts = false) (r : Record) :
    s.addRecord r = (s.logged r).raiseDevice .asrunLost :=
  if_pos (by rw [h]; rfl)

theorem State.addRecord_first {s : State} (h : s.logAccepts = true) (he : s.asrun = []) (r : Record) :
    s.addRecord r = (s.logged r).raiseDevice .asrunPending :=
  (if_neg (by rw [h]; exact Bool.false_ne_true)).trans (if_pos (by rw [he]; rfl))

/-- A record the log takes leaves room for the others. -/
theorem State.LogTakes.addRecord {s : State} {n : Nat} (h : s.LogTakes (n + 1)) (r : Record) :
    s.logAccepts = true ∧ (s.addRecord r).LogTakes n ∧ (s.addRecord r).asrun = s.asrun ++ [{ r with seq := s.nextSeq }] ∧
      (s.addRecord r).nextSeq.toNat = s.nextSeq.toNat + 1 := by
  obtain ⟨hlen, hw, hseq⟩ := h
  have hacc : s.logAccepts = true := State.logAccepts_iff.mpr ⟨by omega, hw⟩
  have hasrun := State.addRecord_accepted hacc r
  have hnext : (s.addRecord r).nextSeq.toNat = s.nextSeq.toNat + 1 := by
    rw [State.addRecord_nextSeq, BitVec.toNat_add]
    exact Nat.mod_eq_of_lt (by simpa using (by omega : s.nextSeq.toNat + 1 < 4294967296))
  have hne : (s.nextSeq == 4294967295) = false := by
    rw [beq_eq_false_iff_ne]
    intro he
    rw [he, show (4294967295 : Count32).toNat = 4294967295 from rfl] at hseq
    omega
  refine ⟨hacc, ⟨?_, ?_, by omega⟩, hasrun, hnext⟩
  · rw [hasrun, List.length_append, List.length_singleton]
    omega
  · rw [State.addRecord_wrapHold, hw, hne]
    rfl

/-- Records that the log takes join the queue in their order, under the next numbers. -/
theorem State.forEach_addRecord_takes {s : State} {l : List (Option Nat × Record)} (h : s.LogTakes l.length) :
    (forEach l (fun x acc => acc.addRecord x.2) s).asrun = s.asrun ++
      l.mapIdx fun i x => { x.2 with seq := s.nextSeq + BitVec.ofNat 32 i } := by
  induction l generalizing s with
  | nil => simp [forEach]
  | cons x l ih =>
    obtain ⟨-, htake, hasrun, -⟩ := State.LogTakes.addRecord h x.2
    have hrest := ih htake
    rw [hasrun, List.append_assoc, State.addRecord_nextSeq] at hrest
    refine hrest.trans ?_
    rw [List.mapIdx_cons, List.singleton_append]
    congr 2
    · simp
    · refine congrArg (fun f => List.mapIdx f l) (funext fun i => funext fun y => ?_)
      have hi : BitVec.ofNat 32 i + 1 = BitVec.ofNat 32 (i + 1) := (BitVec.ofNat_add i 1).symm
      rw [BitVec.add_assoc, BitVec.add_comm 1, hi]

theorem State.logWhile_asrun {s : State} {p : Option Nat × Record → Bool}
    (h : s.LogTakes (s.recordsHeld.takeWhile p).length) : (s.logWhile p).asrun = s.asrun ++
      (s.recordsHeld.takeWhile p).mapIdx fun i x => { x.2 with seq := s.nextSeq + BitVec.ofNat 32 i } :=
  State.forEach_addRecord_takes (s := { s with recordsHeld := s.recordsHeld.dropWhile p }) h

theorem takeWhile_true {α : Type} (l : List α) : l.takeWhile (fun _ => true) = l :=
  List.takeWhile_eq_self_iff.mpr fun _ _ => rfl

theorem State.mustWait_iff {s : State} {x : Option Nat × Record} : s.mustWait x = true ↔
    ∃ (k i : Nat) (d : DeckId) (g : Target), x.1 = some k ∧ (s.deck d).player.ended.isSome = true ∧
      (s.deck d).station = some x.2.station ∧ (s.deck d).target = some g ∧ g.entryId = x.2.entryId ∧
      g.spotIndex = some i ∧ i < k := by
  simp only [State.mustWait, Option.any_eq_true, List.any_eq_true, Bool.and_eq_true, beq_iff_eq, decide_eq_true_eq]
  constructor
  · rintro ⟨k, hk, d, -, ⟨he, hs⟩, g, hg, hid, i, hi, hlt⟩
    exact ⟨k, i, d, g, hk, he, hs, hg, hid, hi, hlt⟩
  · rintro ⟨k, i, d, g, hk, he, hs, hg, hid, hi, hlt⟩
    exact ⟨k, hk, d, mem_allDecks d, ⟨he, hs⟩, g, hg, hid, i, hi, hlt⟩

theorem State.release_opening {s : State} (h : s.opening = true) : s.release = s := if_pos h

theorem State.release_closed {s : State} (h : s.opening = false) : s.release = s.logWhile fun x => !s.mustWait x :=
  if_neg (by rw [h]; exact Bool.false_ne_true)

/-- Where no play has ended nothing waits, and every record held back reaches the log. -/
theorem State.release_recordsHeld {s : State} (h : s.opening = false)
    (hd : ∀ d : DeckId, (s.deck d).player.ended = none) : s.release.recordsHeld = [] := by
  rw [State.release_closed h, State.logWhile_recordsHeld, List.dropWhile_eq_nil_iff]
  intro x _
  rw [Bool.not_eq_true', Bool.eq_false_iff, Ne, State.mustWait_iff]
  rintro ⟨k, i, d, g, -, he, -⟩
  rw [hd d] at he
  cases he

theorem dropWhile_eq_drop {α : Type} (p : α → Bool) (l : List α) : l.dropWhile p = l.drop (l.takeWhile p).length := by
  have h : (l.takeWhile p ++ l.dropWhile p).drop (l.takeWhile p).length = l.dropWhile p := List.drop_left
  rw [List.takeWhile_append_dropWhile] at h
  exact h.symm

/-- The records that reach the log, read off the log they have reached. -/
theorem State.logWhile_reached {s : State} {p : Option Nat × Record → Bool} {k : Nat}
    (hk : k = (s.recordsHeld.takeWhile p).length) :
    (s.logWhile p).recordsHeld = s.recordsHeld.drop k ∧ (s.LogTakes k →
      (s.logWhile p).asrun.length = s.asrun.length + k ∧ (s.logWhile p).asrun.take s.asrun.length = s.asrun ∧
      ∀ (i : Nat) (x : Option Nat × Record), i < k → s.recordsHeld[i]? = some x →
        (s.logWhile p).asrun[s.asrun.length + i]? = some { x.2 with seq := s.nextSeq + BitVec.ofNat 32 i }) := by
  subst hk
  refine ⟨by rw [State.logWhile_recordsHeld, dropWhile_eq_drop], fun h => ?_⟩
  rw [State.logWhile_asrun h]
  refine ⟨by rw [List.length_append, List.length_mapIdx], List.take_left' rfl, fun i x hi hx => ?_⟩
  have htake : (s.recordsHeld.takeWhile p)[i]? = some x := by
    rw [← List.takeWhile_append_dropWhile (p := p) (l := s.recordsHeld), List.getElem?_append_left hi] at hx
    exact hx
  rw [List.getElem?_append_right (Nat.le_add_right _ _), Nat.add_sub_cancel_left, List.getElem?_mapIdx, htake,
    Option.map_some]

/-! ## A period's close where nothing ends -/

/-- Log, records held back and actions waiting stand. -/
structure LogStands (s t : State) : Prop where
  asrun : t.asrun = s.asrun
  recordsHeld : t.recordsHeld = s.recordsHeld
  nextSeq : t.nextSeq = s.nextSeq
  deferred : t.deferred = s.deferred

theorem LogStands.refl (s : State) : LogStands s s := ⟨rfl, rfl, rfl, rfl⟩

theorem LogStands.trans {s t u : State} (h : LogStands s t) (k : LogStands t u) : LogStands s u :=
  ⟨k.asrun.trans h.asrun, k.recordsHeld.trans h.recordsHeld, k.nextSeq.trans h.nextSeq, k.deferred.trans h.deferred⟩

theorem LogStands.raiseDevice (s : State) (c : DeviceCond) : LogStands s (s.raiseDevice c) :=
  ⟨State.raiseBits_asrun _ _ _, State.raiseBits_recordsHeld _ _ _, State.raiseBits_nextSeq _ _ _,
    State.raiseBits_deferred _ _ _⟩

theorem LogStands.loseIfDue (s : State) (l : LinkId) (now : Nat) : LogStands s (s.loseIfDue l now) := by
  unfold State.loseIfDue
  split
  · unfold State.loseLink
    refine LogStands.trans ?_ (LogStands.raiseDevice _ _)
    exact ⟨State.setLink_asrun _ _ _, State.setLink_recordsHeld _ _ _, State.setLink_nextSeq _ _ _,
      State.setLink_deferred _ _ _⟩
  · exact refl s

theorem LogStands.rxBoundary (s : State) : LogStands s s.rxBoundary := by
  unfold State.rxBoundary
  split
  · unfold State.discardMessage
    refine LogStands.trans ?_ (LogStands.raiseDevice _ _)
    exact ⟨rfl, rfl, rfl, rfl⟩
  · split
    · exact refl s
    · exact ⟨rfl, rfl, rfl, rfl⟩

theorem forEach_stays {α : Type} {l : List α} {f : α → State → State} {s : State} (h : ∀ x ∈ l, f x s = s) :
    forEach l f s = s := by
  unfold forEach
  induction l with
  | nil => rfl
  | cons x l ih =>
    rw [List.foldl_cons, h x List.mem_cons_self]
    exact ih fun y hy => h y (List.mem_cons_of_mem _ hy)

theorem State.opDeckEnd_playing {s : State} {d : DeckId} (h : (s.deck d).player.ended = none) : s.opDeckEnd d = s := by
  unfold State.opDeckEnd
  rw [h]

theorem State.opBedEnd_playing {s : State} {st : StationId} (h : (s.bed st).player.ended = none) :
    s.opBedEnd st = s := by
  unfold State.opBedEnd
  rw [h]

theorem State.silenceOrder_stays {s : State} {st : StationId} (h : (s.station st).silenceDue = false) :
    s.silenceOrder st = s := by
  unfold State.silenceOrder
  simp only [h, Bool.not_false, Bool.true_or, if_true]
  exact State.modStation_self (by rw [← h])

/-- Where nothing ends with the period and no order is due, its close is that of the records, the links and the
receiver. -/
theorem State.closePeriod_quiet {s : State} (hd : ∀ d : DeckId, (s.deck d).player.ended = none)
    (hb : ∀ u : StationId, (s.bed u).player.ended = none) (hc : ∀ u : StationId, (s.station u).dirty = false)
    (hq : ∀ u : StationId, (s.station u).silenceDue = false) (now : Nat) :
    LogStands s.logHeld (s.closePeriod now) := by
  have h1 : forEach allDecks (fun d acc => acc.opDeckEnd d) s = s :=
    forEach_stays fun d _ => State.opDeckEnd_playing (hd d)
  have h2 : forEach allStations (fun st acc => acc.opBedEnd st) s = s :=
    forEach_stays fun u _ => State.opBedEnd_playing (hb u)
  have h3 : forEach allStations (fun st acc => acc.silenceOrder st) s.logHeld = s.logHeld :=
    forEach_stays fun u _ => State.silenceOrder_stays (by
      rw [State.station_congr (t := s.logHeld) (State.logWhile_stations s _)]
      exact hq u)
  unfold State.closePeriod
  simp only [h1, h2, State.settlePool_clean hc, h3]
  refine LogStands.trans ?_ (LogStands.rxBoundary _)
  have hlose := (LogStands.loseIfDue s.logHeld .a now).trans (LogStands.loseIfDue _ .b now)
  generalize (s.logHeld.loseIfDue .a now).loseIfDue .b now = u at *
  split
  · exact ⟨hlose.asrun, hlose.recordsHeld, hlose.nextSeq, hlose.deferred⟩
  · exact hlose

theorem State.runDeferred_nil {s : State} (h : s.deferred = []) : s.runDeferred = s := by
  unfold State.runDeferred
  rw [h]
  rfl

theorem LogStands.openPeriod (s : State) (now : Nat) : LogStands s (s.openPeriod now) := ⟨rfl, rfl, rfl, rfl⟩

theorem exec_internalPeriodEnd {s : State} (hs : s.AtRest) (hb : s.ref.bridging = none)
    (hp : s.ref.pacing = .internal) : exec .internalPeriodEnd s = .next (s.boundary 1000000) := by
  refine (hs.event fun x => if x.onInternal then x.boundary Config.nominal else x).trans (congrArg _ (if_pos ?_))
  rw [State.onInternal, hb, hp]
  rfl

theorem State.logHeld_deferred (s : State) : s.logHeld.deferred = s.deferred := by
  have h : s.logHeld.fixed = s.fixed := Within.logHeld.fixed
  simp only [State.fixed, Fixed.mk.injEq] at h
  tauto

theorem State.logHeld_recordsHeld (s : State) : s.logHeld.recordsHeld = [] := by
  rw [State.logHeld, State.logWhile_recordsHeld, List.dropWhile_eq_nil_iff]
  exact fun _ _ => rfl

/-! ## A period completed with no request waiting -/

/-- The message queue stands. -/
structure QueueStands (s t : State) : Prop where
  queue : t.queue = s.queue

namespace QueueStands

theorem refl (s : State) : QueueStands s s := ⟨rfl⟩

theorem trans {s t u : State} (h : QueueStands s t) (k : QueueStands t u) : QueueStands s u := ⟨k.queue.trans h.queue⟩

theorem of_within {s t : State} (h : Within s t) : QueueStands s t := ⟨(Fixed.fields h.fixed).2.2.1⟩

theorem watch (s : State) : QueueStands s s.watch := ⟨by rw [State.watch_eq]⟩

theorem linkModeAct (s : State) (l : LinkId) : QueueStands s (s.linkModeAct l) := by
  unfold State.linkModeAct
  split
  · exact refl s
  · exact trans ⟨State.setLink_queue _ _ _⟩ (watch _)

theorem condsRestart (s : State) : QueueStands s s.condsRestart := by
  unfold State.condsRestart
  simp only
  split
  · exact ⟨rfl⟩
  · refine trans ?_ (of_within Within.raiseDevice)
    exact ⟨rfl⟩

theorem setHandler (s : State) (h : Handler) : QueueStands s { s with handler := h } := ⟨rfl⟩

theorem setRef (s : State) (r : RefControl) : QueueStands s { s with ref := r } := ⟨rfl⟩

theorem storeRestart (s : State) : QueueStands s s.storeRestart := ⟨rfl⟩

theorem restartBlocks (s : State) : QueueStands s { s with
    stations := s.stations.map Station.restarted, decks := Vector.replicate 16 Deck.reset,
    beds := Vector.replicate 6 Bed.reset, port := s.port.voided, deferred := [] } := ⟨rfl⟩

theorem restart (s : State) : QueueStands s s.restart := by
  unfold State.restart
  simp only
  refine trans ?_ (setHandler _ _)
  refine trans ?_ (of_within (Within.forEach fun _ _ => Within.bedTryBind))
  refine trans ?_ (condsRestart _)
  refine trans ?_ (watch _)
  refine trans ?_ (setRef _ _)
  refine trans ?_ (storeRestart _)
  refine trans ?_ (restartBlocks _)
  exact of_within ((Within.forEach fun _ _ => Within.restartRecords).trans Within.logHeld)

theorem beginPeriod (s : State) : QueueStands s s.beginPeriod := by
  have hact (t : State) : QueueStands t t.restartAct := by
    unfold State.restartAct
    split
    · exact restart t
    · exact refl t
  exact ((linkModeAct s .a).trans (linkModeAct _ .b)).trans (hact _)

theorem linkPeriod (s : State) (l : LinkId) : QueueStands s (s.linkPeriod l) := ⟨(OnFrames.linkPeriod l s).on.queue⟩

end QueueStands

/-- The period in progress completed up to its records, which only the handler's queue comes behind. -/
theorem State.settle_released {s : State} (ho : s.opening = true) (hq : s.queue = []) :
    ∃ u : State, u.opening = false ∧ s.settle = u.release := by
  unfold State.settle
  rw [if_pos ho]
  extract_lets s1 s2
  have hs2 : QueueStands s s2 := by
    refine QueueStands.trans ?_ ((QueueStands.linkPeriod _ .a).trans (QueueStands.linkPeriod _ .b))
    refine QueueStands.trans ?_ (QueueStands.of_within Within.audio)
    exact (QueueStands.beginPeriod s).trans (QueueStands.of_within (Within.forEach fun _ _ => Within.opStation))
  clear_value s2
  have hrel : QueueStands { s2 with opening := false } (State.release { s2 with opening := false }) :=
    QueueStands.of_within Within.release
  exact ⟨_, rfl, State.runHandler_nil (hrel.queue.trans (hs2.queue.trans hq))⟩

/-! ## ASRUN_FETCH -/

theorem handleAsrunFetch_eq {r : Req} {s : State} {n : Nat} (hl : r.payload.length = 1) (hs : r.station = 0xFF)
    (hn : n = field r.payload 0 1) (h1 : 1 ≤ n) : handleAsrunFetch r s =
      answerOk (s.fetchRecords (min n 16)) ((s.fetchRecords (min n 16)).fetchBytes (s.asrun.take (min n 16))) := by
  subst hn
  exact (deviceRequest_pass hl hs s _).trans (if_neg (by omega))

theorem State.fetchRecords_some {s : State} {k : Nat} (h : k < s.asrun.length) :
    s.fetchRecords k = { s with asrun := s.asrun.drop k } := by
  have he : (s.asrun.drop k).isEmpty = false := by
    rw [List.isEmpty_eq_false_iff, Ne, List.drop_eq_nil_iff]
    omega
  simp only [State.fetchRecords, he, Bool.false_eq_true, if_false, Bool.not_false, Bool.and_true]

theorem State.fetchRecords_all {s : State} {k : Nat} (h : s.asrun.length ≤ k) :
    s.fetchRecords k = State.dropBits { s with asrun := [], wrapHold := false } deviceSet 0x01 := by
  have he : s.asrun.drop k = [] := List.drop_eq_nil_of_le h
  simp only [State.fetchRecords, he, List.isEmpty_nil, if_true, Bool.not_true, Bool.and_false]
  rfl

end Sys2Proof.Machine

namespace Sys2Proof
open Machine

/-- Settles O32: the records that reach the log under their numbers, the fetch, and the fault record. -/
theorem logAndFaults : Obligations.LogAndFaults := by
  unfold Obligations.LogAndFaults
  refine ⟨fun s t k h => ?_, fun s h => State.release_opening h, fun s x => State.mustWait_iff,
    fun s x => ⟨s.record_of_none x, s.record_of_held x⟩, fun s ho hq hd => ?_, fun s hp hdef hd hbs => ?_,
    fun s x => ⟨s.addRecord_nextSeq x, fun hl hw => ?_, fun h => ?_, s.addRecord_wrapHold x⟩,
    fun s r n k hr hs hl hn h1 hk => ⟨fun hlt => ?_, fun hle => ?_⟩,
    fun s st c id cart time => ⟨fun hf => ⟨?_, ?_⟩, fun f hf => ?_, fun u hu => s.reportFault_station_ne hu.symm c id cart time⟩⟩
  · obtain ⟨rfl, rfl⟩ | ⟨rfl, ho, rfl⟩ := h
    · exact State.logWhile_reached (by rw [takeWhile_true])
    · rw [State.release_closed ho]
      exact State.logWhile_reached rfl
  · obtain ⟨u, hu, hsettle⟩ := State.settle_released ho hq
    rw [hsettle] at hd ⊢
    exact State.release_recordsHeld hu fun d => by
      rw [← hd d, State.deck_congr u.release_decks]
  · obtain ⟨hs, hb, hsw, hcur, hsil⟩ := hp
    have hclose := State.closePeriod_quiet hd (fun u => (hbs u).1) (fun u => (hbs u).2) hsil (s.periodStart + 1000000)
    have hall := hclose.trans (LogStands.openPeriod _ (s.periodStart + 1000000))
    refine ⟨_, exec_internalPeriodEnd hs hb (by rw [RefControl.pacing, hsw, hcur]; rfl), ?_⟩
    rw [State.boundary, State.settle_atRest hs.2,
      State.runDeferred_nil (hall.deferred.trans (s.logHeld_deferred.trans hdef))]
    exact ⟨hall.asrun, hall.recordsHeld.trans s.logHeld_recordsHeld, hall.nextSeq⟩
  · have hacc := State.logAccepts_iff.mpr ⟨hl, hw⟩
    refine ⟨State.addRecord_accepted hacc x, fun he => ?_⟩
    rw [State.addRecord_first hacc he]
    exact State.raiseDevice_pending _ .asrunPending
  · have hacc : s.logAccepts = false := by
      rw [Bool.eq_false_iff, Ne, State.logAccepts_iff]
      rintro ⟨hl, hw⟩
      rcases h with h | h
      · omega
      · rw [hw] at h
        cases h
    refine ⟨(s.addRecord_asrun x).trans (if_neg (by rw [hacc]; exact Bool.false_ne_true)), ?_⟩
    rw [State.addRecord_refused hacc]
    exact State.raiseDevice_pending _ .asrunLost
  · subst hk
    have hlen : (s.asrun.take (min n 16)).length = min n 16 := by
      rw [List.length_take, Nat.min_eq_left (Nat.le_of_lt hlt)]
    refine exec_request_effect hr rfl (f := fun x => { x with asrun := x.asrun.drop (min n 16) }) (fun _ => rfl) hr.clean
      ((handleAsrunFetch_eq hl hs hn h1).trans ?_)
    rw [State.fetchRecords_some (s := s.working) hlt]
    refine congrArg (fun p => (_, Answer.reply rOK p)) ?_
    rw [State.fetchBytes, show s.working.asrun = s.asrun from rfl, hlen, List.length_drop, List.append_assoc _ [_]]
    rfl
  · subst hk
    refine exec_request_effect hr rfl
      (f := fun x => State.setCond { x with asrun := [], wrapHold := false } deviceSet
        { s.cond deviceSet with pending := (s.cond deviceSet).pending &&& 0xFE }) (fun _ => rfl) hr.clean
      ((handleAsrunFetch_eq hl hs hn h1).trans ?_)
    rw [State.fetchRecords_all (s := s.working) hle]
    refine Prod.ext rfl (congrArg (Answer.reply rOK) ?_)
    rw [State.fetchBytes, show s.working.asrun = s.asrun from rfl, List.take_of_length_le hle, List.append_assoc _ [_]]
    rfl
  · rw [State.reportFault_station, hf]
    rfl
  · simp only [State.reportFault, hf]
    rw [State.raiseStation, State.raiseBits_cond]
    exact CondSet.raise_pending_and _ _
  · simp only [State.reportFault, hf]

end Sys2Proof
end

section
/-!
PROOFS. `Pooled s t`: `t` has come from `s` by operations of the deck pool and of arming, named one by one. What they
leave of stations, log, conditions and faults is read off the list of them.
-/

namespace Sys2Proof.Machine

/-- The operations of the deck pool and of arming, composed. -/
inductive Pooled : State → State → Prop
  | refl (s : State) : Pooled s s
  | trans {s t u : State} : Pooled s t → Pooled t u → Pooled s u
  | station (s : State) (st : StationId) (x : Station) : x.frame = (s.station st).frame →
      x.list.map Entry.frame = (s.station st).list.map Entry.frame → x.fault = (s.station st).fault →
      Pooled s (s.setStation st x)
  | fault (s : State) (st : StationId) (c : FaultCause) (id cart t : Nat) : Pooled s (s.reportFault st c id cart t)
  | bound (s : State) (d : DeckId) (x : Deck) : (s.deck d).player.state = .free → Pooled s (s.setDeck d x)
  | freed (s : State) (d : DeckId) : Pooled s (s.setDeck d ⟨(s.deck d).player.freed, none, none⟩)
  | bindSlot (s : State) (k : Nat) : Pooled s (s.bindSlot k)
  | unbindSlot (s : State) (k : Nat) : Pooled s (s.unbindSlot k)
  | gap (s : State) (st : StationId) : Pooled s (s.raiseStation st .breakGap)
  | missing (s : State) (i : Nat) (r : Record) : r.outcome = .missing → Pooled s (s.breakRecord i r)
  | release (s : State) : Pooled s s.release

namespace Pooled

variable {s t : State}

/-! ## The operations -/

theorem modStation {st : StationId} {f : Station → Station} (hf : ∀ x, (f x).frame = x.frame)
    (hl : ∀ x, (f x).list = x.list) (hfault : ∀ x, (f x).fault = x.fault) : Pooled s (s.modStation st f) :=
  station s st _ (hf _) (by rw [hl]) (hfault _)

theorem modEntry {st : StationId} {id : Nat} {f : Entry → Entry} (h : ∀ e, (f e).frame = e.frame) :
    Pooled s (s.modEntry st id f) := by
  refine station s st _ rfl ?_ rfl
  simp only [List.map_map]
  refine List.map_congr_left fun e _ => ?_
  by_cases he : e.id = id <;> simp [he, h]

theorem modBreak {st : StationId} {id : Nat} {f : BreakData → BreakData} (h : ∀ b, (f b).frame = b.frame) :
    Pooled s (s.modBreak st id f) := by
  refine modEntry fun e => ?_
  split
  · rfl
  · rename_i b hb
    simp only [Entry.frame, hb, h, Entry.notStarted]
    rfl

theorem modSpot {st : StationId} {id i : Nat} {f : Spot → Spot} (h : ∀ p, (f p).cart = p.cart ∧ (f p).ref = p.ref) :
    Pooled s (s.modSpot st id i f) := modBreak fun _ => BreakData.frame_spots (spots_modify h)

theorem markDirty {st : StationId} : Pooled s (s.markDirty st) := modStation (fun _ => rfl) (fun _ => rfl) fun _ => rfl

theorem withdraw {st : StationId} {p : Target → Bool} : Pooled s (s.withdraw st p) :=
  modStation (fun _ => rfl) (fun _ => rfl) fun _ => rfl

theorem forEach {α : Type} {xs : List α} {f : α → State → State} (h : ∀ x t, Pooled t (f x t)) :
    Pooled s (Machine.forEach xs f s) := by
  unfold Machine.forEach
  induction xs generalizing s with
  | nil => exact refl _
  | cons x xs ih => exact (h x s).trans ih

theorem setWaiting {st : StationId} {g : Target} : Pooled s (s.setWaiting st g) := by
  cases g
  · exact modEntry fun _ => rfl
  · exact modSpot fun _ => ⟨rfl, rfl⟩
  · exact modBreak fun _ => rfl
  · exact refl _
  · exact refl _

theorem setGranted {st : StationId} {d : DeckId} {g : Target} : Pooled s (s.setGranted st d g) := by
  cases g
  · exact modEntry fun e => Entry.frame_armed e _
  · refine trans (modSpot ?_) (modEntry Entry.frame_armed')
    exact fun _ => ⟨rfl, rfl⟩
  · refine trans (modBreak ?_) (modEntry Entry.frame_armed')
    exact fun _ => rfl
  · exact refl _
  · exact refl _

theorem spotMissing {st : StationId} {e : Entry} {b : BreakData} {i : Nat} {p : Spot} :
    Pooled s (s.spotMissing st e b i p) := by
  unfold State.spotMissing
  simp only
  refine trans (modBreak ?_) (trans (trans (missing _ _ _ rfl) (Pooled.release _)) (trans (fault _ _ _ _ _ _) markDirty))
  intro b'
  have h := BreakData.frame_spots (b := b') (l := b'.spots.modify i fun q => { q with state := .done, served := .none })
    (spots_modify fun _ => ⟨rfl, rfl⟩)
  exact (rfl : _ = ({ b' with spots := b'.spots.modify i fun q => { q with state := .done, served := .none } } :
    BreakData).frame).trans h

theorem fillAbsent {st : StationId} {id : Nat} : Pooled s (s.fillAbsent st id) := by
  unfold State.fillAbsent
  refine trans (modBreak ?_) (gap _ _)
  exact fun _ => rfl

theorem deadRequest {st : StationId} {r : DeckRequest} : Pooled s (s.deadRequest st r) := by
  unfold State.deadRequest
  simp only
  refine trans (t := s.modStation st fun x => { x with requests := x.requests.erase r, dirty := true })
    (modStation (fun _ => rfl) (fun _ => rfl) fun _ => rfl) ?_
  split
  · exact modEntry fun _ => rfl
  · split
    · exact refl _
    · split
      · exact refl _
      · split
        · exact refl _
        · split
          · exact spotMissing
          · exact modSpot fun _ => ⟨rfl, rfl⟩
  · exact fillAbsent
  · exact refl _
  · exact refl _

theorem arbitrateOnce (h : s.arbitrateOnce = some t) : Pooled s t := by
  unfold State.arbitrateOnce at h
  split at h
  · rename_i d st r hd hb
    have hfree : (s.deck d).player.state = .free := (State.freeDeckNo_eq_some.mp hd).1
    split at h
    · simp only [Option.some.injEq] at h
      subst h
      split
      · unfold State.grant
        simp only
        refine trans ?_ ((bindSlot _ _).trans setGranted)
        refine trans (modStation ?_ ?_ ?_) (bound _ _ _ ?_)
        · exact fun _ => rfl
        · exact fun _ => rfl
        · exact fun _ => rfl
        · exact hfree
      · exact deadRequest
    · simp only [Option.some.injEq] at h
      subst h
      exact deadRequest
  · simp at h

theorem arbitrateLoop {n : Nat} : Pooled s (Machine.arbitrateLoop n s) := by
  induction n generalizing s with
  | zero => exact refl _
  | succ n ih =>
    unfold Machine.arbitrateLoop
    split
    · exact refl _
    · rename_i h
      exact (arbitrateOnce h).trans ih

theorem arbitrate : Pooled s s.arbitrate := arbitrateLoop

theorem requestDeck {st : StationId} {g : Target} {slot : Nat} {lp : Bool} {n : Nat} :
    Pooled s (s.requestDeck st g slot lp n) := by
  unfold State.requestDeck
  split
  · exact refl _
  · refine trans (modStation ?_ ?_ ?_) (setWaiting.trans arbitrate)
    · exact fun _ => rfl
    · exact fun _ => rfl
    · exact fun _ => rfl

theorem remakeRequest {st : StationId} {g : Target} : Pooled s (s.remakeRequest st g) := by
  unfold State.remakeRequest
  split
  · exact refl _
  · refine trans (modStation ?_ ?_ ?_) requestDeck
    · exact fun _ => rfl
    · exact fun _ => rfl
    · exact fun _ => rfl

theorem freeDeck {d : DeckId} : Pooled s (s.freeDeck d) := by
  unfold State.freeDeck
  split
  · exact refl _
  · simp only
    refine trans ?_ (markDirty.trans arbitrate)
    split
    · exact freed _ _
    · exact (freed _ _).trans (unbindSlot _ _)

theorem freeServed {v : Served} : Pooled s (s.freeServed v) := by
  cases v
  · exact refl _
  · exact refl _
  · exact freeDeck

/-! ## Arming -/

theorem resolveFill {st : StationId} {id : Nat} {b : BreakData} : Pooled s (s.resolveFill st id b) := by
  unfold State.resolveFill
  split
  · refine trans (modBreak ?_) fillAbsent
    exact fun _ => rfl
  · split
    · refine trans (modBreak ?_) fillAbsent
      exact fun _ => rfl
    · split
      · exact modBreak fun _ => rfl
      · refine trans (modBreak ?_) fillAbsent
        exact fun _ => rfl

theorem requestFill {st : StationId} {id : Nat} {b : BreakData} {n : Nat} : Pooled s (s.requestFill st id b n) := by
  unfold State.requestFill
  split
  · split
    · exact refl _
    · split
      · exact requestDeck
      · exact fillAbsent
  · exact refl _

theorem serveSpot {n : Nat} {st : StationId} {id : Nat} : Pooled s (Machine.serveSpot n st id s) := by
  induction n generalizing s with
  | zero => exact refl _
  | succ n ih =>
    unfold Machine.serveSpot
    split
    · exact refl _
    · split
      · exact refl _
      · split
        · exact refl _
        · split
          · exact refl _
          · split
            · exact requestDeck
            · exact spotMissing.trans ih

theorem resolveIfDue {st : StationId} {id : Nat} : Pooled s (s.resolveIfDue st id) := by
  unfold State.resolveIfDue
  split
  · exact refl _
  · split
    · exact resolveFill
    · exact refl _

theorem serveBreak {st : StationId} : Pooled s (s.serveBreak st) := by
  unfold State.serveBreak
  split
  · exact refl _
  · rename_i e b _
    refine trans (t := (Machine.serveSpot b.spots.length st e.id s).resolveIfDue st e.id)
      (serveSpot.trans resolveIfDue) ?_
    simp only
    split
    · exact refl _
    · exact requestFill

theorem armItem {st : StationId} {e : Entry} {c : Nat} : Pooled s (s.armItem st e c) := by
  unfold State.armItem
  split
  · exact refl _
  · split
    · exact refl _
    · exact requestDeck

theorem armBreak {st : StationId} {e : Entry} {b : BreakData} : Pooled s (s.armBreak st e b) := by
  unfold State.armBreak
  split
  · exact refl _
  · simp only
    refine trans (t := s.modBreak st e.id fun x => s.planProvisional st e x) (modBreak (planProvisional_frame s st e)) ?_
    split
    · split
      · exact refl _
      · exact requestDeck
    · refine trans (t := State.resolveIfDue _ st e.id) resolveIfDue ?_
      split
      · exact refl _
      · split
        · exact requestFill
        · exact refl _

theorem armOne {st : StationId} {id : Nat} : Pooled s (State.armOne st id s) := by
  unfold State.armOne
  split
  · exact refl _
  · split
    · exact armItem
    · exact armBreak

theorem reevaluate {st : StationId} : Pooled s (s.reevaluate st) := by
  unfold State.reevaluate
  simp only
  refine trans (t := s.modStation st fun x => { x with dirty := false })
    (modStation (fun _ => rfl) (fun _ => rfl) fun _ => rfl) ?_
  split
  · exact refl _
  · exact serveBreak.trans (forEach fun _ _ => armOne)

theorem settleLoop {n : Nat} : Pooled s (Machine.settleLoop n s) := by
  induction n generalizing s with
  | zero => exact refl _
  | succ n ih =>
    unfold Machine.settleLoop
    split
    · exact refl _
    · exact reevaluate.trans ih

theorem settlePool : Pooled s s.settlePool := settleLoop

end Pooled

/-! ## What they leave of the condition unit -/

/-- The conditions that neither the pool nor the records raise: a switched and a failed reference, and each station's
TAKE_DROPPED. -/
def State.marks (s : State) : Byte × (StationId → Byte) :=
  ((s.cond deviceSet).pending &&& 0x0C, fun st => (s.cond (stationSet st)).pending &&& 0x10)

/-- The enable bits of the condition sets. -/
def State.enables (s : State) (i : SetId) : Byte := (s.cond i).enabled

theorem CondSet.raise_pending_off {m k : Byte} (c : CondSet) (h : m &&& k = 0) :
    (c.raise m).pending &&& k = c.pending &&& k := by
  have hd : (c.raise m).pending &&& k = (c.pending &&& k) ||| (m &&& k) := by
    ext i hi
    simp only [CondSet.raise, BitVec.getElem_and, BitVec.getElem_or]
    rw [Bool.and_or_distrib_right]
  rw [hd, h]
  exact BitVec.or_zero

theorem stationSet_ne_deviceSet (st : StationId) : stationSet st ≠ deviceSet := by
  revert st
  decide

theorem State.raiseBits_enables (s : State) (i : SetId) (m : Byte) : (s.raiseBits i m).enables = s.enables := by
  funext j
  by_cases hj : i = j
  · subst hj
    rw [State.enables, State.raiseBits_cond]
    rfl
  · rw [State.enables, State.raiseBits_cond_ne s m hj, State.enables]

theorem State.raiseStation_marks (s : State) (st : StationId) {c : StationCond} (h : c.mask &&& 0x10 = 0) :
    (s.raiseStation st c).marks = s.marks := by
  refine Prod.ext ?_ (funext fun u => ?_)
  · rw [State.marks, State.raiseStation, State.raiseBits_cond_ne s _ (stationSet_ne_deviceSet st), State.marks]
  · simp only [State.marks, State.raiseStation]
    by_cases hu : stationSet st = stationSet u
    · rw [← hu, State.raiseBits_cond, CondSet.raise_pending_off _ h]
    · rw [State.raiseBits_cond_ne s _ hu]

theorem State.raiseDevice_marks (s : State) {c : DeviceCond} (h : c.mask &&& 0x0C = 0) :
    (s.raiseDevice c).marks = s.marks := by
  refine Prod.ext ?_ (funext fun u => ?_)
  · simp only [State.marks]
    rw [State.cond_raiseDevice, CondSet.raise_pending_off _ h]
  · simp only [State.marks, State.raiseDevice]
    rw [State.raiseBits_cond_ne s _ (stationSet_ne_deviceSet u).symm]

theorem State.marks_congr {s t : State} (h : t.conds = s.conds) : t.marks = s.marks := by
  simp only [State.marks, State.cond_congr h]

theorem State.enables_congr {s t : State} (h : t.conds = s.conds) : t.enables = s.enables := by
  funext i
  simp only [State.enables, State.cond_congr h]

/-- A record leaves these conditions and the enable bits, and the log grows at its end. -/
theorem State.addRecord_frame (s : State) (r : Record) :
    (s.addRecord r).marks = s.marks ∧ (s.addRecord r).enables = s.enables ∧ s.asrun <+: (s.addRecord r).asrun := by
  refine ⟨?_, ?_, ?_⟩
  · unfold State.addRecord
    simp only
    split
    · exact (State.raiseDevice_marks _ (by decide)).trans (State.marks_congr rfl)
    · split
      · exact (State.raiseDevice_marks _ (by decide)).trans (State.marks_congr rfl)
      · exact State.marks_congr rfl
  · unfold State.addRecord
    simp only
    split
    · exact (State.raiseBits_enables _ _ _).trans (State.enables_congr rfl)
    · split
      · exact (State.raiseBits_enables _ _ _).trans (State.enables_congr rfl)
      · exact State.enables_congr rfl
  · rw [State.addRecord_asrun]
    split
    · exact List.prefix_append _ _
    · exact List.prefix_refl _

theorem State.forEach_addRecord_frame (s : State) (l : List (Option Nat × Record)) :
    (forEach l (fun x acc => acc.addRecord x.2) s).marks = s.marks ∧
      (forEach l (fun x acc => acc.addRecord x.2) s).enables = s.enables ∧
      s.asrun <+: (forEach l (fun x acc => acc.addRecord x.2) s).asrun := by
  unfold forEach
  induction l generalizing s with
  | nil => exact ⟨rfl, rfl, List.prefix_refl _⟩
  | cons x l ih =>
    obtain ⟨hm, he, ha⟩ := s.addRecord_frame x.2
    obtain ⟨km, ke, ka⟩ := ih (s.addRecord x.2)
    exact ⟨km.trans hm, ke.trans he, ha.trans ka⟩

theorem State.logWhile_frame (s : State) (p : Option Nat × Record → Bool) :
    (s.logWhile p).marks = s.marks ∧ (s.logWhile p).enables = s.enables ∧ s.asrun <+: (s.logWhile p).asrun :=
  State.forEach_addRecord_frame { s with recordsHeld := s.recordsHeld.dropWhile p } _

theorem State.release_frame (s : State) :
    s.release.marks = s.marks ∧ s.release.enables = s.enables ∧ s.asrun <+: s.release.asrun := by
  unfold State.release
  split
  · exact ⟨rfl, rfl, List.prefix_refl _⟩
  · exact s.logWhile_frame _

theorem State.reportFault_frame (s : State) (st : StationId) (c : FaultCause) (id cart t : Nat) :
    (s.reportFault st c id cart t).marks = s.marks ∧ (s.reportFault st c id cart t).enables = s.enables := by
  unfold State.reportFault
  split
  · refine ⟨(State.raiseStation_marks _ _ (by decide)).trans (State.marks_congr rfl), ?_⟩
    exact (State.raiseBits_enables _ _ _).trans (State.enables_congr rfl)
  · exact ⟨State.marks_congr rfl, State.enables_congr rfl⟩

theorem State.unbindSlot_frame (s : State) (k : Nat) : (s.unbindSlot k).conds = s.conds ∧
    (s.unbindSlot k).asrun = s.asrun ∧ (s.unbindSlot k).log = s.log ∧ (s.unbindSlot k).recordsHeld = s.recordsHeld ∧
    (s.unbindSlot k).stations = s.stations ∧ (s.unbindSlot k).decks = s.decks ∧ (s.unbindSlot k).beds = s.beds ∧
    (s.unbindSlot k).fixed = s.fixed := by
  unfold State.unbindSlot
  split
  · exact ⟨rfl, rfl, rfl, rfl, rfl, rfl, rfl, rfl⟩
  · split
    · unfold State.removeDir
      split <;> exact ⟨rfl, rfl, rfl, rfl, rfl, rfl, rfl, rfl⟩
    · exact ⟨rfl, rfl, rfl, rfl, rfl, rfl, rfl, rfl⟩

namespace Pooled

variable {s t : State}

theorem marks (h : Pooled s t) : t.marks = s.marks := by
  induction h with
  | refl => rfl
  | trans _ _ h k => exact k.trans h
  | fault s st c id cart t => exact (s.reportFault_frame st c id cart t).1
  | gap s st => exact s.raiseStation_marks st (by decide)
  | release s => exact s.release_frame.1
  | unbindSlot s k => exact State.marks_congr (s.unbindSlot_frame k).1
  | station | bound | freed | bindSlot | missing => exact State.marks_congr rfl

theorem enables (h : Pooled s t) : t.enables = s.enables := by
  induction h with
  | refl => rfl
  | trans _ _ h k => exact k.trans h
  | fault s st c id cart t => exact (s.reportFault_frame st c id cart t).2
  | gap s st => exact s.raiseBits_enables _ _
  | release s => exact s.release_frame.2.1
  | unbindSlot s k => exact State.enables_congr (s.unbindSlot_frame k).1
  | station | bound | freed | bindSlot | missing => exact State.enables_congr rfl

theorem asrun_prefix (h : Pooled s t) : s.asrun <+: t.asrun := by
  induction h with
  | trans _ _ h k => exact h.trans k
  | fault s st c id cart t => rw [s.reportFault_asrun]
  | gap s st => rw [State.raiseStation, State.raiseBits_asrun]
  | release s => exact s.release_frame.2.2
  | unbindSlot s k => rw [(s.unbindSlot_frame k).2.1]
  | refl | station | bound | freed | bindSlot | missing => exact List.prefix_refl _

theorem fixed (h : Pooled s t) : t.fixed = s.fixed := by
  induction h with
  | trans _ _ h k => exact k.trans h
  | fault => exact Within.reportFault.fixed
  | gap => exact Within.raiseStation.fixed
  | release => exact Within.release.fixed
  | unbindSlot => exact Within.unbindSlot.fixed
  | refl | station | bound | freed | bindSlot | missing => rfl

theorem opening (h : Pooled s t) : t.opening = s.opening := by
  have := h.fixed
  simp only [State.fixed, Fixed.mk.injEq] at this
  tauto

theorem house (h : Pooled s t) : t.house = s.house := (Fixed.fields h.fixed).1

theorem media (h : Pooled s t) : t.media = s.media := (Fixed.fields h.fixed).2.1

/-! ## What they leave of stations and players -/

theorem frame (h : Pooled s t) (st : StationId) : (t.station st).frame = (s.station st).frame := by
  induction h with
  | refl => rfl
  | trans _ _ h k => exact k.trans h
  | station s u x hf =>
    by_cases hu : u = st
    · subst hu
      rw [State.setStation_station, hf]
    · rw [State.setStation_station_ne _ _ hu]
  | fault s u c id cart t =>
    by_cases hu : u = st
    · subst hu
      rw [State.reportFault_station]
      rfl
    · rw [State.reportFault_station_ne _ hu]
  | gap s u => rw [State.raiseStation, State.raiseBits_station]
  | release s => rw [State.station_congr s.release_stations]
  | unbindSlot s k => rw [State.station_congr (s.unbindSlot_frame k).2.2.2.2.1]
  | bound | freed | bindSlot | missing => rfl

theorem lists (h : Pooled s t) (st : StationId) :
    (t.station st).list.map Entry.frame = (s.station st).list.map Entry.frame := by
  induction h with
  | refl => rfl
  | trans _ _ h k => exact k.trans h
  | station s u x hf hl =>
    by_cases hu : u = st
    · subst hu
      rw [State.setStation_station, hl]
    · rw [State.setStation_station_ne _ _ hu]
  | fault s u c id cart t =>
    by_cases hu : u = st
    · subst hu
      rw [State.reportFault_station]
    · rw [State.reportFault_station_ne _ hu]
  | gap s u => rw [State.raiseStation, State.raiseBits_station]
  | release s => rw [State.station_congr s.release_stations]
  | unbindSlot s k => rw [State.station_congr (s.unbindSlot_frame k).2.2.2.2.1]
  | bound | freed | bindSlot | missing => rfl

theorem beds (h : Pooled s t) : t.beds = s.beds := by
  induction h with
  | trans _ _ h k => exact k.trans h
  | fault s u c id cart t => exact s.reportFault_beds u c id cart t
  | gap s u => exact s.raiseBits_beds _ _
  | release s => exact s.release_beds
  | unbindSlot s k => exact (s.unbindSlot_frame k).2.2.2.2.2.2.1
  | refl | station | bound | freed | bindSlot | missing => rfl

end Pooled

/-! ## What they leave of fault records -/

/-- What a fault record keeps of its first fault (R187). -/
def FaultRecord.first (f : FaultRecord) : FaultCause × Nat × Nat × Nat := (f.cause, f.entryId, f.cart, f.time)

theorem faultAfter_first (f : Option FaultRecord) (c : FaultCause) (id cart t : Nat) :
    (faultAfter f c id cart t).first = (f.map FaultRecord.first).getD (c, id, cart, t) := by cases f <;> rfl

/-- A fault that stands stays the first one. -/
theorem State.reportFault_first {s : State} {u : StationId} {f : FaultRecord} (h : (s.station u).fault = some f)
    (st : StationId) (c : FaultCause) (id cart t : Nat) :
    ∃ g, ((s.reportFault st c id cart t).station u).fault = some g ∧ g.first = f.first := by
  by_cases hu : st = u
  · subst hu
    rw [State.reportFault_station]
    exact ⟨_, rfl, by rw [faultAfter_first, h]; rfl⟩
  · rw [State.reportFault_station_ne _ hu]
    exact ⟨f, h, rfl⟩

theorem Pooled.fault_first {s t : State} (h : Pooled s t) {st : StationId} {f : FaultRecord}
    (hf : (s.station st).fault = some f) : ∃ g, (t.station st).fault = some g ∧ g.first = f.first := by
  induction h generalizing f with
  | trans _ _ h k =>
    obtain ⟨g, hg, hgf⟩ := h hf
    obtain ⟨g', hg', hg'g⟩ := k hg
    exact ⟨g', hg', hg'g.trans hgf⟩
  | station s u x _ _ hx =>
    by_cases hu : u = st
    · subst hu
      rw [State.setStation_station]
      exact ⟨f, hx.trans hf, rfl⟩
    · rw [State.setStation_station_ne _ _ hu]
      exact ⟨f, hf, rfl⟩
  | fault s u c id cart t => exact State.reportFault_first hf u c id cart t
  | gap s u =>
    rw [State.raiseStation, State.raiseBits_station]
    exact ⟨f, hf, rfl⟩
  | release s =>
    rw [State.station_congr s.release_stations]
    exact ⟨f, hf, rfl⟩
  | unbindSlot s k =>
    rw [State.station_congr (s.unbindSlot_frame k).2.2.2.2.1]
    exact ⟨f, hf, rfl⟩
  | refl | bound | freed | bindSlot | missing => exact ⟨f, hf, rfl⟩

/-! ## What they leave of the log, at the beginning of a period -/

/-- The records held back that are not of a spot gone missing. -/
def State.heldBut (s : State) : List Record := (s.recordsHeld.map Prod.snd).filter fun r => r.outcome != .missing

theorem placeRecord_missing {i : Nat} {r : Record} (hr : r.outcome = .missing) (l : List (Option Nat × Record)) :
    ((placeRecord i r l).map Prod.snd).filter (fun r => r.outcome != .missing) =
      (l.map Prod.snd).filter fun r => r.outcome != .missing := by
  induction l with
  | nil => simp [placeRecord, hr]
  | cons x l ih =>
    unfold placeRecord
    split
    · simp [hr]
    · simp only [List.map_cons, List.filter_cons, ih]

theorem placeRecord_ne_nil (i : Nat) (r : Record) (l : List (Option Nat × Record)) : placeRecord i r l ≠ [] := by
  cases l with
  | nil => simp [placeRecord]
  | cons x l =>
    unfold placeRecord
    split <;> simp

theorem Pooled.log {s t : State} (h : Pooled s t) (ho : s.opening = true) :
    t.log = s.log ∧ t.heldBut = s.heldBut ∧ (s.recordsHeld ≠ [] → t.recordsHeld ≠ []) := by
  induction h with
  | trans h1 _ h k =>
    obtain ⟨hl, hh, hn⟩ := h ho
    obtain ⟨kl, kh, kn⟩ := k (h1.opening.trans ho)
    exact ⟨kl.trans hl, kh.trans hh, kn ∘ hn⟩
  | fault s u c id cart t =>
    have hl : (s.reportFault u c id cart t).log = s.log := by
      unfold State.reportFault
      split
      · simp [State.log, State.raiseStation]
      · rfl
    exact ⟨hl, by rw [State.heldBut, State.reportFault_recordsHeld, State.heldBut],
      by rw [State.reportFault_recordsHeld]; exact fun x => x⟩
  | gap s u =>
    have hr := s.raiseBits_recordsHeld (stationSet u) StationCond.breakGap.mask
    exact ⟨by simp [State.log, State.raiseStation], by rw [State.heldBut, State.raiseStation, hr, State.heldBut],
      by rw [State.raiseStation, hr]; exact id⟩
  | release s =>
    rw [State.release_opening ho]
    exact ⟨rfl, rfl, id⟩
  | unbindSlot s k =>
    obtain ⟨-, -, hl, hr, -⟩ := s.unbindSlot_frame k
    exact ⟨hl, by rw [State.heldBut, hr, State.heldBut], by rw [hr]; exact id⟩
  | missing s i r hr => exact ⟨rfl, placeRecord_missing hr _, fun _ => placeRecord_ne_nil _ _ _⟩
  | refl | station | bound | freed | bindSlot => exact ⟨rfl, rfl, id⟩

end Sys2Proof.Machine
end

section
/-!
PROOFS. `Moved keep shut s t`: `t` has come from `s` by operations on run lists, players, records and station
conditions, as the close of a period and the actions of taken requests make them. Where `keep` stands, the moment a
station entered FALLBACK stands too, and where `shut` stands no bed player is touched.
-/

namespace Sys2Proof.Machine

/-- What such operations leave of a station. -/
structure Station.SameSettings (keep : Bool) (x y : Station) : Prop where
  cfg : y.cfg = x.cfg
  offset : y.offset = x.offset
  clips : y.clips = x.clips
  mode : y.mode = x.mode
  leftMode : y.leftMode = x.leftMode
  stayStart : keep = true → y.stayStart = x.stayStart

theorem Station.SameSettings.refl (keep : Bool) (x : Station) : Station.SameSettings keep x x :=
  ⟨rfl, rfl, rfl, rfl, rfl, fun _ => rfl⟩

theorem Station.SameSettings.trans {keep : Bool} {x y z : Station} (h : Station.SameSettings keep x y)
    (k : Station.SameSettings keep y z) : Station.SameSettings keep x z :=
  ⟨k.cfg.trans h.cfg, k.offset.trans h.offset, k.clips.trans h.clips, k.mode.trans h.mode, k.leftMode.trans h.leftMode,
    fun hk => (k.stayStart hk).trans (h.stayStart hk)⟩

/-- The operations of a period's close and of the actions, composed. -/
inductive Moved (keep shut : Bool) : State → State → Prop
  | pool {s t : State} : Pooled s t → Moved keep shut s t
  | trans {s t u : State} : Moved keep shut s t → Moved keep shut t u → Moved keep shut s u
  | station (s : State) (st : StationId) (x : Station) :
      Station.SameSettings keep (s.station st) x ∧ x.fault = (s.station st).fault →
      Moved keep shut s (s.setStation st x)
  | deck (s : State) (d : DeckId) (x : Deck) : Moved keep shut s (s.setDeck d x)
  | bed (s : State) (st : StationId) (x : Bed) : shut = false → Moved keep shut s (s.setBed st x)
  | raise (s : State) (st : StationId) (c : StationCond) : Moved keep shut s (s.raiseStation st c)
  | drop (s : State) (st : StationId) (m : Byte) : Moved keep shut s (s.dropBits (stationSet st) m)
  | record (s : State) (r : Record) : Moved keep shut s (s.record r)
  | breakRecord (s : State) (i : Nat) (r : Record) : Moved keep shut s (s.breakRecord i r)
  | logHeld (s : State) : Moved keep shut s s.logHeld

namespace Moved

variable {keep shut : Bool} {s t : State}

theorem refl (s : State) : Moved keep shut s s := pool (Pooled.refl s)

theorem ite {u : State} {b : Prop} [Decidable b] (h : Moved keep shut s t) (k : Moved keep shut s u) :
    Moved keep shut s (if b then t else u) := by
  split
  · exact h
  · exact k

theorem forEach {α : Type} {xs : List α} {f : α → State → State} (h : ∀ x t, Moved keep shut t (f x t)) :
    Moved keep shut s (Machine.forEach xs f s) := by
  unfold Machine.forEach
  induction xs generalizing s with
  | nil => exact refl _
  | cons x xs ih => exact (h x s).trans ih

theorem modStation {st : StationId} {f : Station → Station} (h : ∀ x, Station.SameSettings keep x (f x) ∧ (f x).fault = x.fault) :
    Moved keep shut s (s.modStation st f) := station s st _ (h _)

theorem modEntry {st : StationId} {id : Nat} {f : Entry → Entry} : Moved keep shut s (s.modEntry st id f) :=
  station s st _ ⟨⟨rfl, rfl, rfl, rfl, rfl, fun _ => rfl⟩, rfl⟩

theorem modBreak {st : StationId} {id : Nat} {f : BreakData → BreakData} : Moved keep shut s (s.modBreak st id f) := modEntry

theorem modSpot {st : StationId} {id i : Nat} {f : Spot → Spot} : Moved keep shut s (s.modSpot st id i f) := modEntry

theorem modPlayer {d : DeckId} {f : Player → Player} : Moved keep shut s (s.modPlayer d f) := deck _ _ _

theorem modBedPlayer {st : StationId} {f : Player → Player} : Moved keep false s (s.modBedPlayer st f) := bed _ _ _ rfl

theorem markDirty {st : StationId} : Moved keep shut s (s.markDirty st) := pool Pooled.markDirty

theorem withdraw {st : StationId} {p : Target → Bool} : Moved keep shut s (s.withdraw st p) := pool Pooled.withdraw

theorem freeServed {v : Served} : Moved keep shut s (s.freeServed v) := pool Pooled.freeServed

theorem requestDeck {st : StationId} {g : Target} {slot : Nat} {lp : Bool} {n : Nat} :
    Moved keep shut s (s.requestDeck st g slot lp n) := pool Pooled.requestDeck

theorem settlePool : Moved keep shut s s.settlePool := pool Pooled.settlePool

theorem reportFault {st : StationId} {c : FaultCause} {id cart n : Nat} : Moved keep shut s (s.reportFault st c id cart n) :=
  pool (Pooled.fault _ _ _ _ _ _)

/-! ## Run lists -/

theorem evalLow {st : StationId} : Moved keep shut s (s.evalLow st) := by
  have h (b : Bool) : Moved keep shut s (s.modStation st fun y => { y with lowRel := b }) :=
    modStation fun _ => ⟨⟨rfl, rfl, rfl, rfl, rfl, fun _ => rfl⟩, rfl⟩
  unfold State.evalLow
  simp only
  split
  · exact (h _).trans (raise _ _ _)
  · split
    · exact (h _).trans (drop _ _ _)
    · exact h _

theorem removeEntry {st : StationId} {id : Nat} : Moved keep shut s (s.removeEntry st id) := by
  unfold State.removeEntry
  simp only
  refine trans (modStation ?_) evalLow
  exact fun _ => ⟨⟨rfl, rfl, rfl, rfl, rfl, fun _ => rfl⟩, rfl⟩

theorem dropEntry {st : StationId} {e : Entry} : Moved keep shut s (s.dropEntry st e) := by
  unfold State.dropEntry
  simp only
  exact (withdraw.trans removeEntry).trans (forEach fun _ _ => freeServed)

theorem withdrawTake {st : StationId} : Moved keep shut s (s.withdrawTake st) := by
  unfold State.withdrawTake
  split
  · exact refl _
  · refine trans (modStation ?_) modEntry
    exact fun _ => ⟨⟨rfl, rfl, rfl, rfl, rfl, fun _ => rfl⟩, rfl⟩

theorem dropTake {st : StationId} : Moved keep shut s (s.dropTake st) := by
  unfold State.dropTake
  split
  · exact refl _
  · exact withdrawTake.trans (raise _ _ _)

theorem skipEntry {st : StationId} {e : Entry} : Moved keep shut s (s.skipEntry st e) := (record _ _).trans dropEntry

theorem skipAhead {st : StationId} {id : Nat} : Moved keep shut s (s.skipAhead st id) := by
  unfold State.skipAhead
  simp only
  split
  · exact forEach fun _ _ => skipEntry
  · exact refl _

theorem entryTooLate {st : StationId} {e : Entry} : Moved keep shut s (s.entryTooLate st e) := by
  unfold State.entryTooLate
  simp only
  exact ((record _ _).trans reportFault).trans dropEntry

theorem judgeTooLate {st : StationId} : Moved keep shut s (s.judgeTooLate st) := by
  unfold State.judgeTooLate
  split
  · exact refl _
  · exact forEach fun _ _ => entryTooLate

/-! ## Cuts -/

theorem setCutMark {d : DeckId} : Moved keep shut s (s.setCutMark d) := by
  unfold State.setCutMark
  split
  · exact modEntry
  · exact modSpot
  · exact deck _ _ _
  · exact refl _

theorem cutDeck {n : Nat} {d : DeckId} : Moved keep shut s (s.cutDeck n d) := by
  unfold State.cutDeck
  split
  · exact refl _
  · split
    · exact refl _
    · exact modPlayer.trans setCutMark

theorem cutSounding {st : StationId} {n : Nat} : Moved keep shut s (s.cutSounding st n) := forEach fun _ _ => cutDeck

theorem cutBed {st : StationId} {n : Nat} : Moved keep false s (s.cutBed st n) := by
  unfold State.cutBed
  split
  · exact refl _
  · split
    · exact refl _
    · exact modBedPlayer

/-! ## Ends of play -/

theorem endTarget {st : StationId} {d : DeckId} {c : EndCause} : Moved keep shut s (s.endTarget st d c) := by
  unfold State.endTarget
  simp only
  split
  · exact refl _
  · split
    · exact refl _
    · exact (record _ _).trans removeEntry
  · split
    · exact refl _
    · split
      · exact refl _
      · exact (breakRecord _ _ _).trans modSpot
  · split
    · exact refl _
    · exact (breakRecord _ _ _).trans modBreak
  · exact breakRecord _ _ _
  · exact breakRecord _ _ _

theorem opDeckEnd {d : DeckId} : Moved keep shut s (s.opDeckEnd d) := by
  unfold State.opDeckEnd
  split
  · exact (endTarget.trans (pool Pooled.freeDeck)).trans (pool (Pooled.release _))
  · exact refl _

theorem bedUnbind {st : StationId} : Moved keep false s (s.bedUnbind st) := by
  unfold State.bedUnbind
  simp only
  split
  · exact modBedPlayer
  · exact modBedPlayer.trans (pool (Pooled.unbindSlot _ _))

theorem bedTryBind {st : StationId} : Moved keep false s (s.bedTryBind st) := by
  unfold State.bedTryBind
  split
  · split
    · exact refl _
    · exact modBedPlayer.trans (pool (Pooled.bindSlot _ _))
  · exact refl _

theorem opBedEnd {st : StationId} : Moved keep false s (s.opBedEnd st) := by
  unfold State.opBedEnd
  split
  · exact refl _
  · simp only
    refine trans ((record _ _).trans bedUnbind) ?_
      (t := (s.record (s.bedPlayed st (s.endTimeOf st (s.bed st).player))).bedUnbind st)
    refine trans ?_ bedTryBind
    split
    · exact bed _ _ _ rfl
    · exact refl _

/-! ## Breaks -/

theorem spotSkipped {st : StationId} {e : Entry} {b : BreakData} {i : Nat} : Moved keep shut s (s.spotSkipped st e b i) := by
  unfold State.spotSkipped
  split
  · exact refl _
  · exact record _ _

theorem skipBreak {st : StationId} {e : Entry} {b : BreakData} : Moved keep shut s (s.skipBreak st e b) :=
  (forEach fun _ _ => spotSkipped).trans dropEntry

theorem skipPastBreaks {st : StationId} : Moved keep shut s (s.skipPastBreaks st) := by
  refine forEach fun e t => ?_
  split
  · exact refl _
  · exact skipBreak

theorem trailDeck {st : StationId} {d : DeckId} : Moved keep shut s (s.trailDeck st d) := by
  unfold State.trailDeck
  split
  · split
    · exact refl _
    · split
      · exact refl _
      · exact deck _ _ _
  · split
    · exact refl _
    · exact deck _ _ _
  · exact refl _

theorem dropSpot {st : StationId} {id i : Nat} : Moved keep shut s (State.dropSpot st id i s) := by
  unfold State.dropSpot
  split
  · exact refl _
  · split
    · exact refl _
    · split
      · simp only
        exact (modSpot.trans withdraw).trans ((breakRecord _ _ _).trans freeServed)
      · exact refl _

theorem dropFill {st : StationId} {e : Entry} {b : BreakData} {early : Bool} : Moved keep shut s (s.dropFill st e b early) := by
  unfold State.dropFill
  split
  · simp only
    have h : Moved keep shut s (((s.modBreak st e.id fun b' => { b' with fillState := .done, fillServed := .none }).withdraw st
        fun t => t == .fill e.id).freeServed b.fillServed) := modBreak.trans (withdraw.trans freeServed)
    split
    · exact h.trans (raise _ _ _)
    · exact h
  · exact refl _

theorem closeBreak {st : StationId} {e : Entry} {b : BreakData} {early : Bool} :
    Moved keep shut s (s.closeBreak st e b early) := by
  unfold State.closeBreak
  simp only
  refine withdraw.trans (trans (trans (trans (forEach ?_) (forEach ?_)) (forEach ?_)) (dropFill.trans removeEntry))
  · exact fun _ _ => cutDeck.trans trailDeck
  · exact fun _ _ => dropSpot
  · intro d t
    refine trans (ite ?_ ?_) trailDeck
    · exact cutDeck
    · exact refl _

theorem closeEarly {st : StationId} : Moved keep shut s (s.closeEarly st) := by
  unfold State.closeEarly
  split
  · exact refl _
  · exact closeBreak

/-! ## The actions -/

theorem standDown {st : StationId} : Moved keep shut s (s.standDown st) := by
  unfold State.standDown
  simp only
  refine trans (withdraw.trans (modStation ?_)) (forEach fun _ _ => freeServed)
  exact fun _ => ⟨⟨rfl, rfl, rfl, rfl, rfl, fun _ => rfl⟩, rfl⟩

theorem resetSilence {st : StationId} : Moved keep shut s (s.resetSilence st) :=
  modStation fun _ => ⟨⟨rfl, rfl, rfl, rfl, rfl, fun _ => rfl⟩, rfl⟩

theorem raiseDropped {st : StationId} {b : Bool} : Moved keep shut s (s.raiseDropped st b) := by
  cases b
  · exact refl _
  · exact raise _ _ _

theorem bedLeave {st : StationId} : Moved false false s (s.bedLeave st) := by
  unfold State.bedLeave
  simp only
  refine trans ((bed _ _ _ rfl).trans (modStation ?_)) (cutBed.trans bedTryBind)
  exact fun _ => ⟨⟨rfl, rfl, rfl, rfl, rfl, fun h => absurd h Bool.false_ne_true⟩, rfl⟩

theorem actIdle {st : StationId} {f d : Bool} : Moved false false s (s.actIdle st f d) := by
  unfold State.actIdle
  simp only
  refine trans ?_ (standDown.trans markDirty)
  refine trans ?_ (closeEarly.trans cutSounding)
  have h (t : State) : Moved false false t (if f then t.bedLeave st else t) := ite bedLeave (refl _)
  refine trans ?_ (h _)
  refine trans (ite ?_ ?_) (modStation ?_)
  · exact resetSilence.trans raiseDropped
  · exact (resetSilence.trans raiseDropped).trans dropTake
  · exact fun _ => ⟨⟨rfl, rfl, rfl, rfl, rfl, fun _ => rfl⟩, rfl⟩

theorem actFallback {st : StationId} {d : Bool} : Moved false false s (s.actFallback st d) := by
  unfold State.actFallback
  simp only
  refine trans ?_ ((bed _ _ _ rfl).trans ((raise _ _ _).trans markDirty))
  refine trans ?_ (closeEarly.trans (cutSounding.trans standDown))
  refine trans (ite ?_ ?_) (modStation ?_)
  · exact resetSilence.trans raiseDropped
  · exact (resetSilence.trans raiseDropped).trans dropTake
  · exact fun _ => ⟨⟨rfl, rfl, rfl, rfl, rfl, fun h => absurd h Bool.false_ne_true⟩, rfl⟩

theorem actManual {st : StationId} : Moved keep shut s (s.actManual st) := by
  unfold State.actManual
  simp only
  have h : Moved keep shut s ((s.resetSilence st).markDirty st) := resetSilence.trans markDirty
  split
  · exact h
  · split
    · refine h.trans (trans modEntry (modStation ?_))
      exact fun _ => ⟨⟨rfl, rfl, rfl, rfl, rfl, fun _ => rfl⟩, rfl⟩
    · exact h

theorem actLeaveIdle {st : StationId} : Moved keep shut s (s.actLeaveIdle st) :=
  ((resetSilence.trans skipPastBreaks).trans judgeTooLate).trans markDirty

theorem requestTaken {st : StationId} {id : Nat} : Moved keep shut s (s.requestTaken st id) := by
  unfold State.requestTaken
  split
  · exact refl _
  · split
    · exact refl _
    · split
      · exact refl _
      · exact requestDeck

theorem resumeTake {st : StationId} : Moved keep shut s (s.resumeTake st) := by
  unfold State.resumeTake
  split
  · exact refl _
  · split
    · exact refl _
    · rename_i e _
      simp only
      have h : Moved keep shut s ((s.modStation st fun x => { x with take := x.take <|> some ⟨e.id, s.stationTime st⟩ }).cutSounding
          st (s.station st).cfg.stopFade) := by
        refine trans (modStation ?_) cutSounding
        exact fun _ => ⟨⟨rfl, rfl, rfl, rfl, rfl, fun _ => rfl⟩, rfl⟩
      exact ite (h.trans requestTaken) h

theorem actResume {st : StationId} {m : Mode} : Moved false false s (s.actResume st m) := by
  unfold State.actResume
  simp only
  have h : Moved false false s (((s.resetSilence st).bedLeave st).markDirty st) := (resetSilence.trans bedLeave).trans markDirty
  refine ite h (h.trans ?_)
  exact ((skipPastBreaks.trans judgeTooLate).trans markDirty).trans (settlePool.trans resumeTake)

theorem actStop {st : StationId} {a : Bool} : Moved keep shut s (s.actStop st a) := by
  unfold State.actStop
  simp only
  have h (t : State) : Moved keep shut t (if a then t.actManual st else t) := ite actManual (refl _)
  exact (trans (ite (refl _) withdrawTake) cutSounding).trans (h _)

theorem actTake {st : StationId} {id : Nat} : Moved keep shut s (s.actTake st id) := by
  unfold State.actTake
  simp only
  have h : Moved keep shut s ((s.skipAhead st ((s.station st).skipsTo id)).cutSounding st (s.station st).cfg.stopFade) :=
    skipAhead.trans cutSounding
  refine ite (h.trans (trans (trans modEntry (modStation ?_)) requestTaken)) h
  exact fun _ => ⟨⟨rfl, rfl, rfl, rfl, rfl, fun _ => rfl⟩, rfl⟩

theorem act {st : StationId} {d : Deferred} : Moved false false s (s.act st d) := by
  cases d
  · exact actIdle
  · exact actFallback
  · exact actManual
  · exact resetSilence.trans markDirty
  · exact actLeaveIdle
  · exact actResume
  · exact actStop
  · exact actTake
  · exact cutSounding
  · exact markDirty

/-! ## What they leave -/

theorem sameSettings (h : Moved keep shut s t) (st : StationId) :
    Station.SameSettings keep (s.station st) (t.station st) := by
  have of_eq {x y : Station} (h : y = x) : Station.SameSettings keep x y := h ▸ Station.SameSettings.refl keep x
  induction h with
  | pool h =>
    have hf := h.frame st
    exact ⟨(congrArg Station.cfg hf :), (congrArg Station.offset hf :), (congrArg Station.clips hf :),
      (congrArg Station.mode hf :), (congrArg Station.leftMode hf :), fun _ => (congrArg Station.stayStart hf :)⟩
  | trans _ _ h k => exact h.trans k
  | station s u x h =>
    by_cases hu : u = st
    · subst hu
      rw [State.setStation_station]
      exact h.1
    · exact of_eq (State.setStation_station_ne _ _ hu)
  | deck | bed | drop | breakRecord => exact of_eq rfl
  | raise => exact of_eq (State.raiseBits_station _ _ _ _)
  | record s r => exact of_eq (State.station_congr (s.record_stations r) st)
  | logHeld s => exact of_eq (State.station_congr (s.logWhile_stations _) st)

theorem fixed (h : Moved keep shut s t) : t.fixed = s.fixed := by
  induction h with
  | pool h => exact h.fixed
  | trans _ _ h k => exact k.trans h
  | station | deck | bed | drop | breakRecord => rfl
  | raise => exact Within.raiseStation.fixed
  | record => exact Within.record.fixed
  | logHeld => exact Within.logHeld.fixed

theorem enables (h : Moved keep shut s t) : t.enables = s.enables := by
  induction h with
  | pool h => exact h.enables
  | trans _ _ h k => exact k.trans h
  | station | deck | bed | breakRecord => exact State.enables_congr rfl
  | drop s st m =>
    funext i
    simp only [State.enables, State.dropBits]
    by_cases hi : stationSet st = i
    · subst hi
      rw [State.setCond_cond]
      rfl
    · rw [State.setCond_cond_ne _ _ hi]
  | raise s st c => exact s.raiseBits_enables _ _
  | record s r =>
    unfold State.record
    split
    · exact (s.addRecord_frame r).2.1
    · exact State.enables_congr rfl
  | logHeld s => exact (s.logWhile_frame _).2.1

theorem deviceMarks (h : Moved keep shut s t) : t.marks.1 = s.marks.1 := by
  induction h with
  | pool h => exact congrArg Prod.fst h.marks
  | trans _ _ h k => exact k.trans h
  | station | deck | bed | breakRecord => exact congrArg Prod.fst (State.marks_congr rfl)
  | drop s st m =>
    simp only [State.marks, State.dropBits]
    rw [State.setCond_cond_ne _ _ (stationSet_ne_deviceSet st)]
  | raise s st c =>
    simp only [State.marks, State.raiseStation]
    rw [State.raiseBits_cond_ne _ _ (stationSet_ne_deviceSet st)]
  | record s r =>
    unfold State.record
    split
    · exact congrArg Prod.fst (s.addRecord_frame r).1
    · exact congrArg Prod.fst (State.marks_congr rfl)
  | logHeld s => exact congrArg Prod.fst (s.logWhile_frame _).1

theorem asrun_prefix (h : Moved keep shut s t) : s.asrun <+: t.asrun := by
  induction h with
  | pool h => exact h.asrun_prefix
  | trans _ _ h k => exact h.trans k
  | station | deck | bed | breakRecord | drop => exact List.prefix_refl _
  | raise s st c => rw [State.raiseStation, State.raiseBits_asrun]
  | record s r =>
    unfold State.record
    split
    · exact (s.addRecord_frame r).2.2
    · exact List.prefix_refl _
  | logHeld s => exact (s.logWhile_frame _).2.2

theorem beds (h : Moved keep true s t) : t.beds = s.beds := by
  generalize hs : true = shut at h
  induction h with
  | pool h => exact h.beds
  | trans _ _ h k => exact k.trans h
  | bed _ _ _ hf => cases hs.trans hf
  | raise s st c => exact s.raiseBits_beds _ _
  | record s r => exact s.record_beds r
  | logHeld s => exact s.logWhile_beds _
  | station | deck | drop | breakRecord => rfl

/-- What a station's fault record names first stays (R187). -/
theorem fault_first (h : Moved keep shut s t) {st : StationId} {f : FaultRecord} (hf : (s.station st).fault = some f) :
    ∃ g : FaultRecord, (t.station st).fault = some g ∧ g.first = f.first := by
  induction h generalizing f with
  | pool h => exact h.fault_first hf
  | trans _ _ h k =>
    obtain ⟨g, hg, hgf⟩ := h hf
    obtain ⟨y, hy, hyg⟩ := k hg
    exact ⟨y, hy, hyg.trans hgf⟩
  | station s u x h =>
    refine ⟨f, ?_, rfl⟩
    by_cases hu : u = st
    · subst hu
      rw [State.setStation_station]
      exact h.2.trans hf
    · rw [State.setStation_station_ne _ _ hu]
      exact hf
  | raise s u c => exact ⟨f, by rw [State.raiseStation, State.raiseBits_station]; exact hf, rfl⟩
  | record s r => exact ⟨f, by rw [State.station_congr (s.record_stations r) st]; exact hf, rfl⟩
  | logHeld s => exact ⟨f, by rw [State.station_congr (t := s.logHeld) (s.logWhile_stations _) st]; exact hf, rfl⟩
  | deck | bed | drop | breakRecord => exact ⟨f, hf, rfl⟩

end Moved

end Sys2Proof.Machine
end

section
/-!
PROOFS. The boundary between two sample periods: what lasts through the close of a period and through the actions of
taken requests, and the statements about the ends of periods and the switches of the reference.
-/

namespace Sys2Proof.Machine

/-- What the close of a period and the actions of the next one leave as it is. -/
structure Lasts (s t : State) : Prop where
  media : t.media = s.media
  port : t.port = s.port
  claim : t.claim = s.claim
  handler : t.handler = s.handler
  queue : t.queue = s.queue
  ref : t.ref = s.ref
  house : t.house = s.house
  start : t.periodStart = s.periodStart
  opening : t.opening = s.opening
  settings : ∀ st : StationId, (t.station st).cfg = (s.station st).cfg ∧ (t.station st).offset = (s.station st).offset ∧
    (t.station st).clips = (s.station st).clips
  links : ∀ l : LinkId, (t.link l).mode = (s.link l).mode ∧ (t.link l).active = (s.link l).active ∧
    (t.link l).mirror = (s.link l).mirror ∧ (t.link l).assigns = (s.link l).assigns
  asrun : s.asrun <+: t.asrun
  enables : t.enables = s.enables
  marks : t.marks.1 = s.marks.1

namespace Lasts

variable {s t u : State}

theorem refl (s : State) : Lasts s s :=
  ⟨rfl, rfl, rfl, rfl, rfl, rfl, rfl, rfl, rfl, fun _ => ⟨rfl, rfl, rfl⟩, fun _ => ⟨rfl, rfl, rfl, rfl⟩, List.prefix_refl _,
    rfl, rfl⟩

theorem trans (h : Lasts s t) (k : Lasts t u) : Lasts s u where
  media := k.media.trans h.media
  port := k.port.trans h.port
  claim := k.claim.trans h.claim
  handler := k.handler.trans h.handler
  queue := k.queue.trans h.queue
  ref := k.ref.trans h.ref
  house := k.house.trans h.house
  start := k.start.trans h.start
  opening := k.opening.trans h.opening
  settings st :=
    have ⟨h1, h2, h3⟩ := h.settings st
    have ⟨k1, k2, k3⟩ := k.settings st
    ⟨k1.trans h1, k2.trans h2, k3.trans h3⟩
  links l :=
    have ⟨h1, h2, h3, h4⟩ := h.links l
    have ⟨k1, k2, k3, k4⟩ := k.links l
    ⟨k1.trans h1, k2.trans h2, k3.trans h3, k4.trans h4⟩
  asrun := h.asrun.trans k.asrun
  enables := k.enables.trans h.enables
  marks := k.marks.trans h.marks

theorem forEach {α : Type} {xs : List α} {f : α → State → State} (h : ∀ x t, Lasts t (f x t)) :
    Lasts s (Machine.forEach xs f s) := by
  unfold Machine.forEach
  induction xs generalizing s with
  | nil => exact refl _
  | cons x xs ih => exact (h x s).trans ih

theorem ite {b : Prop} [Decidable b] (h : Lasts s t) (k : Lasts s u) : Lasts s (if b then t else u) := by
  split
  · exact h
  · exact k

/-- The reference controller may be set on both sides. -/
theorem setRef (h : Lasts s t) (r : RefControl) : Lasts { s with ref := r } { t with ref := r } :=
  ⟨h.media, h.port, h.claim, h.handler, h.queue, rfl, h.house, h.start, h.opening, h.settings, h.links, h.asrun, h.enables,
    h.marks⟩

theorem of_moved {keep shut : Bool} (h : Moved keep shut s t) : Lasts s t where
  media := (congrArg Fixed.media h.fixed :)
  port := (congrArg Fixed.port h.fixed :)
  claim := (congrArg Fixed.claim h.fixed :)
  handler := (congrArg Fixed.handler h.fixed :)
  queue := (congrArg Fixed.queue h.fixed :)
  ref := (congrArg Fixed.ref h.fixed :)
  house := (congrArg Fixed.house h.fixed :)
  start := (congrArg Fixed.periodStart h.fixed :)
  opening := (congrArg Fixed.opening h.fixed :)
  settings st := ⟨(h.sameSettings st).cfg, (h.sameSettings st).offset, (h.sameSettings st).clips⟩
  links l := by
    rw [State.link_congr (congrArg Fixed.linkA h.fixed :) (congrArg Fixed.linkB h.fixed :) l]
    exact ⟨rfl, rfl, rfl, rfl⟩
  asrun := h.asrun_prefix
  enables := h.enables
  marks := h.deviceMarks

/-! ## The close of a period -/

theorem defer (s : State) (st : StationId) (d : Deferred) : Lasts s (s.defer st d) :=
  { refl s with }

theorem modStation {st : StationId} {f : Station → Station}
    (h : ∀ x, (f x).cfg = x.cfg ∧ (f x).offset = x.offset ∧ (f x).clips = x.clips) : Lasts s (s.modStation st f) :=
  { refl s with
    settings := fun u => by
      by_cases hu : st = u
      · subst hu
        rw [State.modStation_station]
        exact h _
      · rw [State.modStation_station_ne _ _ hu]
        exact ⟨rfl, rfl, rfl⟩ }

theorem silenceOrder {st : StationId} : Lasts s (s.silenceOrder st) := by
  unfold State.silenceOrder
  simp only
  refine ite (modStation fun _ => ⟨rfl, rfl, rfl⟩) (trans ?_ (defer _ _ _))
  refine trans (of_moved (keep := true) (shut := true) (Moved.reportFault.trans Moved.withdrawTake)) (modStation ?_)
  exact fun _ => ⟨rfl, rfl, rfl⟩

/-- A device condition that is neither REF_SWITCHED nor REF_FAIL. -/
theorem raiseDevice (s : State) {c : DeviceCond} (h : c.mask &&& 0x0C = 0) : Lasts s (s.raiseDevice c) where
  media := State.raiseBits_media _ _ _
  port := State.raiseBits_port _ _ _
  claim := (congrArg State.claim (s.raiseBits_unsent deviceSet c.mask) :)
  handler := (congrArg State.handler (s.raiseBits_unsent deviceSet c.mask) :)
  queue := (congrArg State.queue (s.raiseBits_unsent deviceSet c.mask) :)
  ref := State.raiseBits_ref _ _ _
  house := State.raiseBits_house _ _ _
  start := (congrArg State.periodStart (s.raiseBits_unsent deviceSet c.mask) :)
  opening := State.raiseBits_opening _ _ _
  settings st := by
    rw [State.raiseDevice, State.raiseBits_station]
    exact ⟨rfl, rfl, rfl⟩
  links l := by
    rw [State.raiseDevice, State.raiseBits_link]
    exact ⟨rfl, rfl, rfl, rfl⟩
  asrun := by rw [State.raiseDevice, State.raiseBits_asrun]
  enables := s.raiseBits_enables _ _
  marks := congrArg Prod.fst (s.raiseDevice_marks h)

theorem setLink (s : State) {l : LinkId} {x : AirLink} (h : x.mode = (s.link l).mode ∧ x.active = (s.link l).active ∧
    x.mirror = (s.link l).mirror ∧ x.assigns = (s.link l).assigns) : Lasts s (s.setLink l x) := by
  have hl (k : LinkId) : ((s.setLink l x).link k).mode = (s.link k).mode ∧
      ((s.setLink l x).link k).active = (s.link k).active ∧ ((s.setLink l x).link k).mirror = (s.link k).mirror ∧
      ((s.setLink l x).link k).assigns = (s.link k).assigns := by
    by_cases hk : k = l
    · subst hk
      rw [State.setLink_link]
      exact h
    · rw [(OnLink.setLink l s x).link_ne hk]
      exact ⟨rfl, rfl, rfl, rfl⟩
  cases l <;> exact { refl s with links := hl }

theorem loseIfDue (s : State) (l : LinkId) (now : Nat) : Lasts s (s.loseIfDue l now) := by
  unfold State.loseIfDue
  split
  · unfold State.loseLink
    refine trans (setLink s ?_) (raiseDevice _ ?_)
    · exact ⟨rfl, rfl, rfl, rfl⟩
    · decide
  · exact refl s

theorem rxBoundary (s : State) : Lasts s s.rxBoundary := by
  unfold State.rxBoundary
  split
  · unfold State.discardMessage
    refine trans ?_ (raiseDevice _ (c := .badMessage) (by decide))
    exact { refl s with }
  · split
    · exact refl s
    · exact { refl s with }

end Lasts

/-- The ends of play of a period's close, with the records held back behind them. -/
theorem State.endsOfPlay_moved (keep : Bool) (s : State) : Moved keep false s (State.settlePool (forEach allStations
    (fun st acc => acc.opBedEnd st) (forEach allDecks (fun d acc => acc.opDeckEnd d) s))).logHeld := by
  refine Moved.trans (Moved.trans (Moved.trans (Moved.forEach ?_) (Moved.forEach ?_)) Moved.settlePool) (Moved.logHeld _)
  · exact fun _ _ => Moved.opDeckEnd
  · exact fun _ _ => Moved.opBedEnd

/-- The close of a period ends the measurement of a target that has timed out, and leaves what lasts. -/
theorem Lasts.closePeriod (s : State) (now : Nat) :
    Lasts { s with ref := s.ref.closed now } (s.closePeriod now) := by
  unfold State.closePeriod
  simp only
  refine Lasts.trans ?_ (Lasts.rxBoundary _)
  have hends := Lasts.of_moved (State.endsOfPlay_moved true s)
  generalize (State.settlePool _).logHeld = t at hends ⊢
  have h := ((hends.trans (Lasts.forEach (xs := allStations) fun st x => Lasts.silenceOrder (s := x) (st := st))).trans
    (Lasts.loseIfDue _ .a now)).trans (Lasts.loseIfDue _ .b now)
  generalize State.loseIfDue _ .b now = u at h ⊢
  have hr := h.ref
  rw [RefControl.closed, hr]
  split
  · exact h.setRef _
  · exact h

/-! ## The next period -/

/-- Each action, with the re-evaluations it sets off, leaves what lasts; and behind them all none waits. -/
theorem deferredLoop_lasts (n : Nat) (s : State) : Lasts s (deferredLoop n s) ∧
    (s.deferred.length ≤ n → (deferredLoop n s).deferred = []) := by
  induction n generalizing s with
  | zero => exact ⟨Lasts.refl s, fun h => List.length_eq_zero_iff.mp (Nat.le_zero.mp h)⟩
  | succ n ih =>
    rw [deferredLoop]
    split
    next h => exact ⟨Lasts.refl s, fun _ => h⟩
    next st d rest h =>
      have hm : Moved false false { s with deferred := rest } (State.settlePool (State.act { s with deferred := rest } st d)) :=
        Moved.act.trans Moved.settlePool
      have hd := (congrArg Fixed.deferred hm.fixed :)
      have hl := Lasts.of_moved hm
      generalize State.settlePool _ = u at hd hl ⊢
      have hd' : u.deferred = rest := hd
      refine ⟨Lasts.trans (Lasts.trans (t := { s with deferred := rest }) { Lasts.refl s with } hl) (ih u).1,
        fun hle => (ih u).2 ?_⟩
      rw [h] at hle
      rw [hd']
      exact Nat.le_of_succ_le_succ hle

theorem State.runDeferred_lasts (s : State) : Lasts s s.runDeferred ∧ s.runDeferred.deferred = [] :=
  have h := deferredLoop_lasts s.deferred.length s
  ⟨h.1, h.2 (Nat.le_refl _)⟩

theorem State.openPeriod_station (s : State) (now : Nat) (st : StationId) :
    (s.openPeriod now).station st = { s.station st with acted := false, lateHead := false } := by
  simp [State.openPeriod, State.station]

/-- A boundary of a part at rest ends the period and begins the next; the reference stands, but for a measurement that
has timed out. -/
theorem State.boundary_next {s : State} (ho : s.opening = false) (len : Nat) :
    NextPeriod s (s.boundary len) len ∧ (s.boundary len).ref = s.ref.closed (s.periodStart + len) ∧
      (s.boundary len).marks.1 = s.marks.1 := by
  unfold State.boundary
  rw [State.settle_atRest ho]
  have hc := Lasts.closePeriod s (s.periodStart + len)
  generalize s.closePeriod (s.periodStart + len) = c at hc ⊢
  obtain ⟨hr, hd⟩ := (c.openPeriod (s.periodStart + len)).runDeferred_lasts
  generalize (c.openPeriod (s.periodStart + len)).runDeferred = t at hr hd ⊢
  refine ⟨⟨?_, hr.start, hr.opening, hd, hr.media.trans hc.media, hr.port.trans hc.port, hr.claim.trans hc.claim,
    hr.handler.trans hc.handler, hr.queue.trans hc.queue, fun st => ?_, fun l => ?_, ?_, fun i => ?_⟩,
    hr.ref.trans hc.ref, hr.marks.trans hc.marks⟩
  · exact hr.house.trans (congrArg (· + 1) hc.house)
  · obtain ⟨h1, h2, h3⟩ := hc.settings st
    obtain ⟨k1, k2, k3⟩ := hr.settings st
    rw [State.openPeriod_station] at k1 k2 k3
    exact ⟨k1.trans h1, k2.trans h2, k3.trans h3⟩
  · obtain ⟨h1, h2, h3, h4⟩ := hc.links l
    obtain ⟨k1, k2, k3, k4⟩ := hr.links l
    exact ⟨k1.trans h1, k2.trans h2, k3.trans h3, k4.trans h4⟩
  · exact hc.asrun.trans hr.asrun
  · exact (congrFun hr.enables i).trans (congrFun hc.enables i)

namespace NextPeriod

variable {s t u : State} {len : Nat}

/-- The reference may be set behind the boundary. -/
theorem setRef (h : NextPeriod s t len) (r : RefControl) : NextPeriod s { t with ref := r } len := { h with }

/-- What precedes the boundary may differ in the reference alone. -/
theorem ofRef {r : RefControl} (h : NextPeriod { s with ref := r } t len) : NextPeriod s t len := { h with }

theorem watch (h : NextPeriod s t len) : NextPeriod s t.watch len := by
  rw [State.watch_eq]
  exact h.setRef _

theorem onLink {l : LinkId} (h : NextPeriod s t len) (k : OnLink l t u) (hm : (u.link l).mode = (t.link l).mode ∧
    (u.link l).active = (t.link l).active ∧ (u.link l).mirror = (t.link l).mirror ∧
    (u.link l).assigns = (t.link l).assigns) : NextPeriod s u len where
  house := k.house.trans h.house
  start := k.periodStart.trans h.start
  opening := k.opening.trans h.opening
  deferred := k.deferred.trans h.deferred
  media := k.media.trans h.media
  port := k.port.trans h.port
  claim := k.claim.trans h.claim
  handler := k.handler.trans h.handler
  queue := k.queue.trans h.queue
  settings st := by
    rw [State.station_congr k.stations st]
    exact h.settings st
  links j := by
    by_cases hj : j = l
    · subst hj
      obtain ⟨h1, h2, h3, h4⟩ := h.links j
      obtain ⟨m1, m2, m3, m4⟩ := hm
      exact ⟨m1.trans h1, m2.trans h2, m3.trans h3, m4.trans h4⟩
    · rw [k.link_ne hj]
      exact h.links j
  asrun := by
    rw [k.asrun]
    exact h.asrun
  enabled i := by
    refine Eq.trans ?_ (h.enabled i)
    by_cases hi : i = deviceSet
    · rw [hi]
      exact k.enabled
    · rw [k.conds i hi]

theorem raiseDevice (h : NextPeriod s t len) (c : DeviceCond) : NextPeriod s (t.raiseDevice c) len := by
  refine h.onLink (OnLink.raiseDevice .a t c) ?_
  rw [State.raiseDevice_link]
  exact ⟨rfl, rfl, rfl, rfl⟩

theorem dropStore (h : NextPeriod s t len) (src : Source) : NextPeriod s (t.dropStore src) len := by
  cases src with
  | internal => exact h
  | word => exact h
  | link l =>
    refine h.onLink (OnLink.modFraming l t _) ?_
    rw [show (t.dropStore (.link l)).link l = _ from State.setLink_link _ _ _]
    exact ⟨rfl, rfl, rfl, rfl⟩

end NextPeriod

/-! ## Switches to INTERNAL and completed locks -/

theorem RefControl.closed_fresh {r : RefControl} {now : Nat} (h : r.lastEdge = some now) : r.closed now = r := by
  refine if_neg fun ht => ?_
  rw [RefControl.timedOut, h, Option.any_some, Bool.and_eq_true, decide_eq_true_eq] at ht
  exact absurd ht.2 (Nat.not_lt.mpr (Nat.le_add_right _ _))

theorem RefControl.closed_untargeted {r : RefControl} {now : Nat} (h : r.judgedTarget = none) : r.closed now = r := by
  refine if_neg fun ht => ?_
  rw [RefControl.timedOut, h] at ht
  cases ht

/-- A timed-out measurement leaves everything of the controller but its progress and its edge. -/
theorem RefControl.closed_eq (r : RefControl) (now : Nat) :
    ∃ n e, r.closed now = { r with progress := n, lastEdge := e } := by
  unfold RefControl.closed
  split
  · exact ⟨_, _, rfl⟩
  · exact ⟨_, _, rfl⟩

/-- A completed lock's target counts for no request. -/
theorem RefControl.judgedTarget_completed {r : RefControl} {b : Bridge} (hb : r.bridging = some b)
    (ht : r.target = some b.source) (hp : r.progress = 64) : r.judgedTarget = none := by
  have hc : r.completed b = true := by
    rw [RefControl.completed, ht, hp, beq_self_eq_true]
    rfl
  simp only [RefControl.judgedTarget, hb, hc, if_true]

/-- A switch to INTERNAL raises REF_SWITCHED and leaves REF_FAIL (R158). -/
theorem State.switchInternal_next {s : State} (ho : s.opening = false) (len : Nat) :
    NextPeriod s (s.switchInternal len) len ∧
      (s.switchInternal len).ref = { s.ref.closed (s.periodStart + len) with switchFrom := none, miss := 0 } ∧
      ((s.switchInternal len).cond deviceSet).pending &&& 0x04 = 0x04 ∧
      ((s.switchInternal len).cond deviceSet).pending &&& 0x08 = (s.cond deviceSet).pending &&& 0x08 := by
  obtain ⟨hn, hr, hm⟩ := State.boundary_next ho len
  unfold State.switchInternal
  generalize s.boundary len = u at hn hr hm ⊢
  refine ⟨(hn.setRef _).raiseDevice _, ?_, State.raiseDevice_pending _ .refSwitched, ?_⟩
  · rw [State.raiseDevice, State.raiseBits_ref, hr]
  · rw [State.cond_raiseDevice, CondSet.raise_pending_off _ (by decide)]
    have h08 (x : Byte) : x &&& 0x08 = (x &&& 0x0C) &&& 0x08 := by
      rw [BitVec.and_assoc]
      rfl
    have hu : (u.cond deviceSet).pending &&& 0x0C = (s.cond deviceSet).pending &&& 0x0C := hm
    rw [h08, h08 (s.cond deviceSet).pending, ← hu]
    rfl

/-- The switch that a completed lock makes at the end of its bridging period (R157). -/
structure Switched (s t : State) (src : Source) (len misses : Nat) : Prop where
  next : NextPeriod s t len
  current : t.ref.current = src
  target : t.ref.target = none
  progress : t.ref.progress = 0
  miss : t.ref.miss = misses
  fallen : t.ref.fallen = false
  bridging : t.ref.bridging = none
  reported : (t.cond deviceSet).pending &&& 0x04 = 0x04

theorem State.endBridging_switched {s : State} {b : Bridge} (ho : s.opening = false) (hb : s.ref.bridging = some b)
    (hw : s.ref.switchFrom = none) (ht : s.ref.target = some b.source) (hp : s.ref.progress = 64)
    (hf : s.ref.fallen = true → b.origin = .autoReturn) (len : Nat) (missed : Bool) :
    Switched s (s.endBridging b len missed) b.source len (if missed then 1 else 0) ∧
      s.endBridging b len missed =
        (State.raiseDevice (State.dropStore { s.boundary len with ref := s.ref.bridged b missed } b.source)
          .refSwitched) := by
  obtain ⟨hn, hr, -⟩ := State.boundary_next ho len
  rw [RefControl.closed_untargeted (RefControl.judgedTarget_completed hb ht hp)] at hr
  have hc : s.ref.completed b = true := by
    rw [RefControl.completed, ht, hp, beq_self_eq_true]
    rfl
  have hfall : (s.ref.bridged b missed).fallen = false := by
    simp only [RefControl.bridged, hc, if_true, hw, Option.isSome_none, Bool.false_eq_true, if_false, RefControl.noTarget]
    cases h : s.ref.fallen with
    | false => rfl
    | true => rw [hf h]; rfl
  have hmiss : (s.ref.bridged b missed).miss = if missed then 1 else 0 := by
    simp only [RefControl.bridged, hc, if_true, hw, Option.isSome_none, Bool.false_eq_true, if_false]
  have hcur : (s.ref.bridged b missed).current = b.source := by
    rw [RefControl.bridged_current, hw]
    rfl
  have htar : (s.ref.bridged b missed).target = none := by rw [RefControl.bridged_target, if_pos hc]
  have hprog : (s.ref.bridged b missed).progress = 0 := by rw [RefControl.bridged_progress, if_pos hc]
  have hbr := RefControl.bridged_bridging s.ref b missed
  unfold State.endBridging
  simp only
  generalize s.boundary len = u at hn hr ⊢
  rw [hr, hw]
  generalize s.ref.bridged b missed = r at hfall hmiss hcur htar hprog hbr ⊢
  have hnext := ((hn.setRef r).dropStore b.source).raiseDevice .refSwitched
  have hdrop : (State.dropStore { u with ref := r } b.source).ref = r := by
    unfold State.dropStore
    split
    · exact (OnLink.modFraming _ _ _).ref
    · rfl
    · rfl
  simp only [Option.isSome_none, Bool.false_eq_true, if_false]
  generalize State.dropStore { u with ref := r } b.source = v at hnext hdrop ⊢
  have hv : (v.raiseDevice .refSwitched).ref = r := (State.raiseBits_ref _ _ _).trans hdrop
  have hoff : State.watch (v.raiseDevice .refSwitched) = v.raiseDevice .refSwitched :=
    State.watch_off (.inl (by rw [hv]; exact hfall))
  rw [hoff]
  refine ⟨⟨hnext, ?_, ?_, ?_, ?_, ?_, ?_, State.raiseDevice_pending v .refSwitched⟩, rfl⟩ <;> rw [hv]
  · exact hcur
  · exact htar
  · exact hprog
  · exact hmiss
  · exact hfall
  · exact hbr

end Sys2Proof.Machine
end

section
/-!
PROOFS. How sample periods end: edges of the current source, missed windows, locks and switches.
-/

namespace Sys2Proof.Machine

theorem inWindow_eq_true {p : Phase} : inWindow p = true ↔ 990000 ≤ p ∧ p ≤ 1010000 := by
  rw [inWindow, Bool.and_eq_true, decide_eq_true_eq, decide_eq_true_eq]
  exact Iff.rfl

theorem State.following_of {s : State} (hb : s.ref.bridging = none) (hw : s.ref.switchFrom = none)
    (hc : s.ref.current ≠ .internal) : s.following = true := by
  rw [State.following, hb, hw]
  simpa using hc

theorem RefControl.pacing_current {r : RefControl} (h : r.switchFrom = none) : r.pacing = r.current := by
  rw [RefControl.pacing, h]
  rfl

theorem RefControl.pacing_old {r : RefControl} {old : Source} (h : r.switchFrom = some old) : r.pacing = old := by
  rw [RefControl.pacing, h]
  rfl

/-! ## Edges of the source that paces the periods -/

/-- An edge in the window, of a source that is not the target, ends the period (R153, R158). -/
theorem State.refEdge_accepted {s : State} {p : Phase} (hb : s.ref.bridging = none) (ht : s.ref.target ≠ some s.ref.pacing)
    (hi : s.ref.pacing ≠ .internal) (hp : inWindow p = true) : s.refEdge s.ref.pacing p = s.acceptEdge p := by
  unfold State.refEdge
  rw [hb]
  simp only [if_neg ht]
  exact if_pos ⟨trivial, hi, hp, hb, trivial⟩

/-- An edge outside the window does nothing (R153). -/
theorem State.refEdge_outside {s : State} {p : Phase} (hb : s.ref.bridging = none) (ht : s.ref.target ≠ some s.ref.pacing)
    (hp : inWindow p = false) : s.refEdge s.ref.pacing p = s := by
  unfold State.refEdge
  rw [hb]
  simp only [if_neg ht]
  exact if_neg fun h => by rw [hp] at h; exact Bool.false_ne_true h.2.2.1

/-- An edge of an old source that is target again is judged as the target's and ends the period (R155, R156). -/
theorem State.refEdge_both {s : State} {p : Phase} {r : RefControl} (hb : s.ref.bridging = none)
    (ht : s.ref.target = some s.ref.pacing) (hi : s.ref.pacing ≠ .internal) (hp : inWindow p = true)
    (hr : s.ref.judgeEdge (s.periodStart + p) = r) (hlt : r.progress < 64) (hrb : r.bridging = none) :
    s.refEdge s.ref.pacing p = State.acceptEdge { s with ref := r } p := by
  unfold State.refEdge
  rw [hb]
  simp only [if_pos ht, State.edgeOfTarget_short hr hlt]
  exact if_pos ⟨trivial, hi, hp, hrb, trivial⟩

theorem State.acceptEdge_following {s : State} {p : Phase} (hw : s.ref.switchFrom = none) :
    s.acceptEdge p = { s.boundary p with ref := { (s.boundary p).ref with miss := 0 } } := by
  unfold State.acceptEdge
  rw [hw]
  rfl

theorem State.acceptEdge_waiting {s : State} {p : Phase} {old : Source} (hw : s.ref.switchFrom = some old) :
    s.acceptEdge p = s.switchInternal p := by
  unfold State.acceptEdge
  rw [hw]
  rfl

theorem State.acceptEdge_next {s : State} {p : Phase} (ho : s.opening = false) (hw : s.ref.switchFrom = none) :
    NextPeriod s (s.acceptEdge p) p ∧ (s.acceptEdge p).ref = { s.ref.closed (s.periodStart + p) with miss := 0 } := by
  obtain ⟨hn, hr, -⟩ := State.boundary_next ho p
  rw [State.acceptEdge_following hw]
  generalize s.boundary p = u at hn hr ⊢
  exact ⟨hn.setRef _, congrArg (fun r : RefControl => { r with miss := 0 }) hr⟩

/-! ## Locks -/

/-- An edge that completes the lock begins the bridging period, and ends it where half the period has passed (R157). -/
theorem State.edgeOfTarget_locks {s : State} {src : Source} {p : Phase} {r : RefControl}
    (hr : s.ref.judgeEdge (s.periodStart + p) = r) (h : 64 ≤ r.progress) :
    s.edgeOfTarget src p = if Config.halfPeriod ≤ p
      then State.endBridging { s with ref := { r with bridging := some ⟨src, r.origin, s.periodStart + p⟩ } }
        ⟨src, r.origin, s.periodStart + p⟩ p false
      else { s with ref := { r with bridging := some ⟨src, r.origin, s.periodStart + p⟩ } } := by
  subst hr
  exact if_neg (Nat.not_lt.mpr h)

theorem Bridge.endsAt_eq_true {b : Bridge} {now : Nat} :
    b.endsAt now = true ↔ b.lockAt + 990000 ≤ now ∧ now ≤ b.lockAt + 1010000 := by
  rw [Bridge.endsAt, Bool.and_eq_true, decide_eq_true_eq, decide_eq_true_eq]
  exact Iff.rfl

/-- An edge in the window behind the lock edge ends the bridging period (R157). -/
theorem State.refEdge_bridging {s : State} {b : Bridge} {p : Phase} (hb : s.ref.bridging = some b)
    (ht : s.ref.target = some b.source) (hp : s.ref.progress = 64) (he : b.endsAt (s.periodStart + p) = true) :
    s.refEdge b.source p = s.endBridging b p false := by
  have hj : s.bridgeEdge b.source p = s := if_neg (by
    rw [RefControl.judgedTarget_completed hb ht hp]
    exact Option.some_ne_none _ ∘ Eq.symm)
  unfold State.refEdge
  rw [hb]
  simp only [if_true, he, hj]

/-! ## Missed windows -/

/-- The controller that has lost its reference, ahead of the auto-return watch (R154). -/
def RefControl.lost (r : RefControl) : RefControl := { r.noTarget with current := .internal, miss := 0, fallen := true }

theorem State.missPeriod_counts {s : State} (ho : s.opening = false) (hm : s.ref.miss < 3) :
    NextPeriod s s.missPeriod 1010000 ∧
      s.missPeriod.ref = { s.ref.closed (s.periodStart + 1010000) with miss := s.ref.miss + 1 } := by
  obtain ⟨hn, hr, -⟩ := State.boundary_next ho 1010000
  unfold State.missPeriod
  rw [Config.windowClose_eq]
  simp only
  generalize s.boundary 1010000 = u at hn hr ⊢
  have hmiss : u.ref.miss = s.ref.miss := by
    obtain ⟨n, e, h⟩ := s.ref.closed_eq (s.periodStart + 1010000)
    rw [hr, h]
  rw [if_pos (show u.ref.miss + 1 < Config.lossMisses by rw [hmiss]; exact Nat.succ_lt_succ hm)]
  exact ⟨hn.setRef _, by rw [hmiss, hr]⟩

/-- The fourth missed window loses the reference (R154), ahead of the auto-return watch (R160). -/
theorem State.missPeriod_loses {s : State} (ho : s.opening = false) (hm : s.ref.miss = 3) :
    ∃ u : State, s.missPeriod = u.watch ∧ NextPeriod s u 1010000 ∧
      (∃ n e, u.ref = RefControl.lost { s.ref with progress := n, lastEdge := e }) ∧
      (u.cond deviceSet).pending &&& 0x08 = 0x08 := by
  obtain ⟨hn, hr, -⟩ := State.boundary_next ho 1010000
  unfold State.missPeriod
  rw [Config.windowClose_eq]
  simp only
  generalize s.boundary 1010000 = u at hn hr ⊢
  obtain ⟨n, e, h⟩ := s.ref.closed_eq (s.periodStart + 1010000)
  have hmiss : u.ref.miss = 3 := by rw [hr, h, ← hm]
  rw [if_neg (show ¬ u.ref.miss + 1 < Config.lossMisses by rw [hmiss]; decide)]
  refine ⟨_, rfl, (hn.setRef _).raiseDevice _, ⟨n, e, ?_⟩, State.raiseDevice_pending _ .refFail⟩
  rw [State.raiseDevice, State.raiseBits_ref, hr, h]
  rfl

theorem State.watchable_internal (s : State) : s.watchable .internal = false := rfl

theorem State.watch_ref_fields (s : State) : s.watch.ref.current = s.ref.current ∧ s.watch.ref.miss = s.ref.miss ∧
    s.watch.ref.fallen = s.ref.fallen ∧ (s.ref.progress = 0 → s.watch.ref.progress = 0) ∧
    s.watch.ref.preferred = s.ref.preferred ∧ s.watch.ref.autoReturn = s.ref.autoReturn := by
  unfold State.watch
  split
  · exact ⟨rfl, rfl, rfl, fun _ => rfl, rfl, rfl⟩
  · exact ⟨rfl, rfl, rfl, id, rfl, rfl⟩

end Sys2Proof.Machine

namespace Sys2Proof
open Machine

/-- Settles O34: the ends of periods, by what paces them, and the lost reference with the watch behind it. -/
theorem periodsEnd : Obligations.PeriodsEnd := by
  unfold Obligations.PeriodsEnd
  intro s hs hb hw
  have hpace := RefControl.pacing_current hw
  refine ⟨fun hi => ?_, fun hi => ?_⟩
  · obtain ⟨hn, hr, -⟩ := State.boundary_next hs.2 1000000
    exact ⟨_, exec_internalPeriodEnd hs hb (hpace.trans hi), hn, hr⟩
  · have hfollow := State.following_of hb hw hi
    have hedge (p : Phase) : exec (.refEdgeAccepted p) s = .next (s.refEdge s.ref.pacing p) := by
      refine (hs.event fun x => if x.following then x.refEdge x.ref.current p else x).trans (congrArg _ ?_)
      rw [hpace]
      exact if_pos hfollow
    have hmiss : exec .refWindowMiss s = .next s.missPeriod :=
      (hs.event fun x => if x.following then x.missPeriod else x).trans (congrArg _ (if_pos hfollow))
    refine ⟨fun p ht h1 h2 => ?_, fun p ht hout => ?_, fun hm => ?_, fun hm => ?_⟩
    · rw [← hpace] at ht hi
      obtain ⟨hn, hr⟩ := State.acceptEdge_next (p := p) hs.2 hw
      exact ⟨_, (hedge p).trans (congrArg _ (State.refEdge_accepted hb ht hi (inWindow_eq_true.mpr ⟨h1, h2⟩))), hn, hr⟩
    · rw [← hpace] at ht
      refine (hedge p).trans (congrArg _ (State.refEdge_outside hb ht (Bool.eq_false_iff.mpr fun h => ?_)))
      obtain ⟨h1, h2⟩ := inWindow_eq_true.mp h
      exact hout.elim (Nat.not_lt.mpr h1) (Nat.not_lt.mpr h2)
    · obtain ⟨hn, hr⟩ := State.missPeriod_counts hs.2 hm
      exact ⟨_, hmiss, hn, hr⟩
    · obtain ⟨u, hu, hn, ⟨n, e, hr⟩, hc⟩ := State.missPeriod_loses hs.2 hm
      have hf := u.watch_ref_fields
      rw [hr] at hf
      obtain ⟨hcur, hms, hfall, hprog, hpref, haut⟩ := hf
      have hoff (h : s.ref.autoReturn = false ∨ u.watchable s.ref.preferred = false) : u.watch.ref.target = none := by
        rw [State.watch_off (.inr (h.imp (fun h => by rw [hr]; exact h) fun h => .inl (by rw [hr]; exact h))), hr]
        rfl
      have hon {src : Source} (ha : s.ref.autoReturn = true) (hp : s.ref.preferred = src) (h : u.watchable src = true) :
          u.watch.ref.target = some src ∧ u.watch.ref.origin = .autoReturn := by
        rw [State.watch_ref_on hr hp rfl ha h rfl]
        exact ⟨rfl, rfl⟩
      have hwatch : u.watch.cond deviceSet = u.cond deviceSet := by rw [State.watch_eq]; rfl
      refine ⟨_, hmiss.trans (congrArg _ hu), hn.watch, hcur, hms, hfall, hprog rfl, hpref, haut, ?_, fun h => hoff (.inl h),
        fun ha hp => hon ha hp rfl, fun hp => hoff (.inr (by rw [hp]; rfl)), fun l ha hp => ⟨fun h1 h2 => ?_, fun h => ?_⟩⟩
      · rw [hwatch]
        exact hc
      · obtain ⟨hmode, hact, -, -⟩ := hn.links l
        exact hon ha hp (State.watchable_link.mpr ⟨hact.trans h2, hmode.trans h1⟩)
      · refine hoff (.inr (Bool.eq_false_iff.mpr fun hwt => h ?_))
        rw [hp] at hwt
        exact (hn.links l).1.symm.trans (State.watchable_link.mp hwt).2

/-- Settles O36: the lock edge begins the bridging period, or ends it at once. -/
theorem lockCompleted : Obligations.LockCompleted := by
  unfold Obligations.LockCompleted
  intro s src p t hs hb hw ht hc h63 hl h1 h2
  have hedge : exec (.targetEdge p) s = .next (s.edgeOfTarget src p) := by
    rw [exec_targetEdge hs hb ht, State.refEdge_target hb ht (by rw [RefControl.pacing_current hw]; exact hc)]
  have hj : s.ref.judgeEdge (s.periodStart + p) =
      { s.ref with progress := 64, lastEdge := some (s.periodStart + p) } := by
    rw [RefControl.judgeEdge_good hl h1 h2, h63]
  refine ⟨fun hp => ?_, fun hp hf => ?_⟩
  · rw [hedge, State.edgeOfTarget_locks hj (Nat.le_refl 64), if_neg (show ¬ Config.halfPeriod ≤ p from Nat.not_le.mpr hp)]
  · rw [hedge, State.edgeOfTarget_locks hj (Nat.le_refl 64), if_pos (show Config.halfPeriod ≤ p from hp)]
    obtain ⟨h, -⟩ := State.endBridging_switched (b := ⟨src, s.ref.origin, s.periodStart + p⟩) (s := { s with
      ref := { s.ref with
        progress := 64
        lastEdge := some (s.periodStart + p)
        bridging := some ⟨src, s.ref.origin, s.periodStart + p⟩ } }) hs.2 rfl hw ht rfl hf p false
    exact ⟨_, rfl, h.next.ofRef, h.current, h.target, h.progress, h.miss, h.fallen, h.bridging, h.reported⟩

/-- Settles O37: bridging periods, and switches to INTERNAL at the old source's boundary. -/
theorem switchesMade : Obligations.SwitchesMade := by
  unfold Obligations.SwitchesMade
  refine ⟨fun s b hs hb hw ht hp hf => ?_, fun s old hs hb hw hi => ?_⟩
  · have hexec (e : Option Phase) : exec (.bridgingEnd e) s = .next (match e with
        | some p => if b.endsAt (s.periodStart + p) then s.refEdge b.source p else s
        | none => s.endBridging b (b.lockAt + Config.windowClose - s.periodStart) true) := by
      refine (hs.event fun x => match x.ref.bridging with
        | none => x
        | some b =>
          match e with
          | some p => if b.endsAt (x.periodStart + p) then x.refEdge b.source p else x
          | none => x.endBridging b (b.lockAt + Config.windowClose - x.periodStart) true).trans (congrArg _ ?_)
      simp only [hb]
    refine ⟨fun p h1 h2 => ?_, ?_⟩
    · obtain ⟨h, -⟩ := State.endBridging_switched hs.2 hb hw ht hp hf p false
      refine ⟨_, (hexec (some p)).trans (congrArg _ ((if_pos (Bridge.endsAt_eq_true.mpr ⟨h1, h2⟩)).trans
        (State.refEdge_bridging hb ht hp (Bridge.endsAt_eq_true.mpr ⟨h1, h2⟩)))), h.next, h.current, h.target,
        h.progress, h.miss, h.fallen, h.bridging, h.reported⟩
    · obtain ⟨h, -⟩ := State.endBridging_switched hs.2 hb hw ht hp hf (b.lockAt + 1010000 - s.periodStart) true
      exact ⟨_, hexec none, h.next, h.current, h.target, h.progress, h.miss, h.fallen, h.bridging, h.reported⟩
  · have hpace := RefControl.pacing_old hw
    have hwaits : s.switchWaits = true := by
      rw [State.switchWaits, hb, hw, Option.any_some]
      simpa using hi
    have hexec (e : Option Phase) : exec (.refSwitchInternal e) s = .next (match e with
        | some p => if inWindow p then s.refEdge s.ref.pacing p else s
        | none => s.switchInternal Config.windowClose) := by
      refine (hs.event fun x => if x.switchWaits then
          match e with
          | some p => if inWindow p then x.refEdge x.ref.pacing p else x
          | none => x.switchInternal Config.windowClose
        else x).trans (congrArg _ (if_pos hwaits))
    have hpi : s.ref.pacing ≠ .internal := by rw [hpace]; exact hi
    refine ⟨fun p h1 h2 ht => ?_, fun p last h1 h2 ht hl hg1 hg2 hlt => ?_, ?_⟩
    · rw [← hpace] at ht
      have hin := inWindow_eq_true.mpr ⟨h1, h2⟩
      obtain ⟨hn, hr, hc4, hc8⟩ := State.switchInternal_next hs.2 p
      refine ⟨_, (hexec (some p)).trans (congrArg _ ((if_pos hin).trans
        ((State.refEdge_accepted hb ht hpi hin).trans (State.acceptEdge_waiting hw)))), hn, hr, hc4, hc8⟩
    · rw [← hpace] at ht
      have hin := inWindow_eq_true.mpr ⟨h1, h2⟩
      have hj := RefControl.judgeEdge_good hl hg1 hg2
      obtain ⟨hn, hr, hc4, -⟩ := State.switchInternal_next (s := { s with ref := { s.ref with
        progress := s.ref.progress + 1, lastEdge := some (s.periodStart + p) } }) hs.2 p
      rw [RefControl.closed_fresh rfl] at hr
      refine ⟨_, (hexec (some p)).trans (congrArg _ ((if_pos hin).trans ((State.refEdge_both hb ht hpi hin hj
        (Nat.succ_lt_succ hlt) hb).trans (State.acceptEdge_waiting hw)))), hn.ofRef, hr, hc4⟩
    · obtain ⟨hn, hr, hc4, hc8⟩ := State.switchInternal_next hs.2 1010000
      exact ⟨_, hexec none, hn, hr, hc4, hc8⟩

end Sys2Proof
end

section
/-!
PROOFS. What leaves a run list unaired: the records that are made of it, what becomes of the lists, and what no waiting
request means for it.
-/

namespace Sys2Proof.Machine

/-! ## No request waits -/

/-- No request for a deck waits anywhere. -/
def State.Unasked (s : State) : Prop := ∀ u : StationId, (s.station u).requests = []

theorem State.arbitrate_unasked {s : State} (h : s.Unasked) : s.arbitrate = s := by
  have hn : s.waitingRequests = 0 := by
    simp only [State.waitingRequests, h _, List.length_nil]
    rfl
  rw [State.arbitrate, hn]
  rfl

/-- Where no request waits a deck that goes FREE is unbound, and nothing more (R38). -/
theorem State.freeDeck_unasked {s : State} {d : DeckId} {st : StationId} (h : s.Unasked) (hd : (s.deck d).station = some st) :
    s.freeDeck d = State.markDirty
      (match (s.deck d).player.slot with
      | none => s.setDeck d ⟨(s.deck d).player.freed, none, none⟩
      | some k => (s.setDeck d ⟨(s.deck d).player.freed, none, none⟩).unbindSlot k) st := by
  unfold State.freeDeck
  rw [hd]
  refine State.arbitrate_unasked fun u => ?_
  rw [State.markDirty]
  have hs (t : State) (ht : t.stations = s.stations) :
      ((t.modStation st fun x => { x with dirty := true }).station u).requests = [] := by
    by_cases hu : st = u
    · subst hu
      rw [State.modStation_station, State.station_congr ht]
      exact h st
    · rw [State.modStation_station_ne _ _ hu, State.station_congr ht]
      exact h u
  refine hs _ ?_
  split
  · rfl
  · rw [(State.unbindSlot_frame _ _).2.2.2.2.1]
    rfl

/-- What stands of the log, the faults and BREAK_GAP while no request waits. -/
structure Calmed (s t : State) : Prop where
  unasked : t.Unasked
  held : t.recordsHeld = s.recordsHeld
  log : t.log = s.log
  faults : ∀ u : StationId, (t.station u).fault = (s.station u).fault
  gaps : ∀ u : StationId, (t.cond (stationSet u)).pending &&& 0x04 = (s.cond (stationSet u)).pending &&& 0x04

/-- Where no request waits, none is made, and neither a record nor a fault nor BREAK_GAP is. -/
def Calm (s t : State) : Prop := s.Unasked → Calmed s t

namespace Calm

variable {s t u : State}

theorem refl (s : State) : Calm s s := fun h => ⟨h, rfl, rfl, fun _ => rfl, fun _ => rfl⟩

theorem trans (h : Calm s t) (k : Calm t u) : Calm s u := fun hs =>
  have h := h hs
  have k := k h.unasked
  ⟨k.unasked, k.held.trans h.held, k.log.trans h.log, fun v => (k.faults v).trans (h.faults v),
    fun v => (k.gaps v).trans (h.gaps v)⟩

theorem ite {b : Prop} [Decidable b] (h : Calm s t) (k : Calm s u) : Calm s (if b then t else u) := by
  split
  · exact h
  · exact k

theorem forEach {α : Type} {xs : List α} {f : α → State → State} (h : ∀ x t, Calm t (f x t)) :
    Calm s (Machine.forEach xs f s) := by
  unfold Machine.forEach
  induction xs generalizing s with
  | nil => exact refl _
  | cons x xs ih => exact (h x s).trans ih

/-- A change of no station, record or condition. -/
theorem still (hs : t.stations = s.stations) (hc : t.conds = s.conds) (hl : t.log = s.log)
    (hh : t.recordsHeld = s.recordsHeld) : Calm s t := fun h =>
  ⟨fun u => by rw [State.station_congr hs]; exact h u, hh, hl, fun u => by rw [State.station_congr hs],
    fun u => by rw [State.cond_congr hc]⟩

theorem setStation {st : StationId} {x : Station} (h : (s.station st).requests = [] → x.requests = [])
    (hf : x.fault = (s.station st).fault) : Calm s (s.setStation st x) := fun hs =>
  ⟨fun u => by
      by_cases hu : st = u
      · subst hu
        rw [State.setStation_station]
        exact h (hs st)
      · rw [State.setStation_station_ne _ _ hu]
        exact hs u, rfl, rfl,
    fun u => by
      by_cases hu : st = u
      · subst hu
        rw [State.setStation_station]
        exact hf
      · rw [State.setStation_station_ne _ _ hu],
    fun _ => rfl⟩

theorem modStation {st : StationId} {f : Station → Station} (h : ∀ x, (f x).requests = x.requests ∧ (f x).fault = x.fault) :
    Calm s (s.modStation st f) := setStation (fun hr => (h _).1.trans hr) (h _).2

theorem modEntry {st : StationId} {id : Nat} {f : Entry → Entry} : Calm s (s.modEntry st id f) :=
  modStation fun _ => ⟨rfl, rfl⟩

theorem modBreak {st : StationId} {id : Nat} {f : BreakData → BreakData} : Calm s (s.modBreak st id f) := modEntry

theorem modSpot {st : StationId} {id i : Nat} {f : Spot → Spot} : Calm s (s.modSpot st id i f) := modEntry

theorem markDirty {st : StationId} : Calm s (s.markDirty st) := modStation fun _ => ⟨rfl, rfl⟩

theorem withdraw {st : StationId} {p : Target → Bool} : Calm s (s.withdraw st p) :=
  setStation (fun h => congrArg (List.filter fun r : DeckRequest => !p r.target) h) rfl

theorem setDeck {d : DeckId} {x : Deck} : Calm s (s.setDeck d x) := still rfl rfl rfl rfl

theorem modPlayer {d : DeckId} {f : Player → Player} : Calm s (s.modPlayer d f) := setDeck

theorem freeDeck {d : DeckId} : Calm s (s.freeDeck d) := fun h => by
  have he : Calm s s := refl s
  cases hd : (s.deck d).station with
  | none =>
    have : s.freeDeck d = s := by
      unfold State.freeDeck
      rw [hd]
    rw [this]
    exact he h
  | some st =>
    rw [State.freeDeck_unasked h hd]
    refine trans ?_ markDirty h
    split
    · exact setDeck
    · refine setDeck.trans ?_ (t := s.setDeck d ⟨(s.deck d).player.freed, none, none⟩)
      obtain ⟨hc, -, hl, hh, hs, -⟩ := (s.setDeck d ⟨(s.deck d).player.freed, none, none⟩).unbindSlot_frame _
      exact still hs hc hl hh

theorem freeServed {v : Served} : Calm s (s.freeServed v) := by
  cases v
  · exact refl _
  · exact refl _
  · exact freeDeck

/-- A station condition but BREAK_GAP. -/
theorem raiseStation {st : StationId} {c : StationCond} (h : c.mask &&& 0x04 = 0) : Calm s (s.raiseStation st c) := fun hs =>
  ⟨fun u => by rw [State.raiseStation, State.raiseBits_station]; exact hs u, s.raiseBits_recordsHeld _ _,
    by simp [State.log, State.raiseStation], fun u => by rw [State.raiseStation, State.raiseBits_station],
    fun u => by
      by_cases hu : stationSet st = stationSet u
      · rw [State.raiseStation, ← hu, State.raiseBits_cond, CondSet.raise_pending_off _ h]
      · rw [State.raiseStation, State.raiseBits_cond_ne _ _ hu]⟩

theorem dropBits {st : StationId} {m : Byte} (h : ~~~m &&& 0x04 = 0x04) : Calm s (s.dropBits (stationSet st) m) := fun hs =>
  ⟨hs, rfl, rfl, fun _ => rfl, fun u => by
    by_cases hu : stationSet st = stationSet u
    · rw [State.dropBits, ← hu, State.setCond_cond]
      show (s.cond (stationSet st)).pending &&& ~~~m &&& 0x04 = _
      rw [BitVec.and_assoc, h]
    · rw [State.dropBits, State.setCond_cond_ne _ _ hu]⟩

theorem evalLow {st : StationId} : Calm s (s.evalLow st) := by
  have h (b : Bool) : Calm s (s.modStation st fun y => { y with lowRel := b }) := modStation fun _ => ⟨rfl, rfl⟩
  unfold State.evalLow
  simp only
  split
  · exact (h _).trans (raiseStation (by decide))
  · split
    · exact (h _).trans (dropBits (by decide))
    · exact h _

theorem removeEntry {st : StationId} {id : Nat} : Calm s (s.removeEntry st id) := by
  unfold State.removeEntry
  simp only
  refine trans (modStation ?_) evalLow
  exact fun _ => ⟨rfl, rfl⟩

theorem dropEntry {st : StationId} {e : Entry} : Calm s (s.dropEntry st e) := by
  unfold State.dropEntry
  simp only
  exact (withdraw.trans removeEntry).trans (forEach fun _ _ => freeServed)

end Calm

/-! ## Records of what does not air -/

theorem Within.opening {s t : State} (h : Within s t) : t.opening = s.opening := (congrArg Fixed.opening h.fixed :)

theorem Within.stationTime {s t : State} (h : Within s t) (st : StationId) : t.stationTime st = s.stationTime st := by
  have hh : t.house = s.house := (Fixed.fields h.fixed).1
  rw [State.stationTime, State.stationTime, hh, h.offset st]

/-- What `Record.gist` tells of a record. -/
abbrev Gist := Outcome × StationId × Nat × Option Nat × Nat × Option Nat × Nat × Nat × Nat × Option Int

/-- The gists of the records of one outcome made so far. -/
def State.gists (s : State) (o : Outcome) : List Gist := (s.records.filter fun r => r.outcome == o).map Record.gist

/-- From `s` to `t`, at the beginning of a period, up to `n` records are made that go behind the others, those of
outcome `o` with the gists `gs`. -/
structure Makes (o : Outcome) (n : Nat) (gs : List Gist) (s t : State) : Prop where
  opening : t.opening = s.opening
  takes : ∀ k, s.LogTakes (n + k) → t.LogTakes k
  asrun : s.asrun <+: t.asrun
  gists : s.LogTakes n → t.gists o = s.gists o ++ gs
  unheld : s.recordsHeld = [] → s.Unasked → t.recordsHeld = [] ∧ t.Unasked

theorem State.LogTakes.mono {s : State} {m n : Nat} (h : s.LogTakes n) (hm : m ≤ n) : s.LogTakes m :=
  ⟨le_trans (Nat.add_le_add_left hm _) h.1, h.2.1, lt_of_le_of_lt (Nat.add_le_add_left hm _) h.2.2⟩

theorem State.logTakes_congr {s t : State} (h : t.log = s.log) {n : Nat} (k : s.LogTakes n) : t.LogTakes n := by
  simp only [State.log, Prod.mk.injEq] at h
  obtain ⟨ha, hn, hw⟩ := h
  rw [State.LogTakes, ha, hn, hw]
  exact k

namespace Makes

variable {o : Outcome} {n m : Nat} {gs hs : List Gist} {s t u : State}

theorem trans (h : Makes o n gs s t) (k : Makes o m hs t u) : Makes o (n + m) (gs ++ hs) s u where
  opening := k.opening.trans h.opening
  takes j hj := k.takes j (h.takes (m + j) (by rwa [Nat.add_assoc] at hj))
  asrun := h.asrun.trans k.asrun
  gists ht := by
    rw [k.gists (h.takes m ht), h.gists (ht.mono (Nat.le_add_right _ _)), List.append_assoc]
  unheld h1 h2 :=
    have h := h.unheld h1 h2
    k.unheld h.1 h.2

/-- Behind what makes no record. -/
theorem andStill (h : Makes o n gs s t) (k : Makes o 0 [] t u) : Makes o n gs s u := by
  have := h.trans k
  rwa [Nat.add_zero, List.append_nil] at this

theorem stillThen (h : Makes o 0 [] s t) (k : Makes o n gs t u) : Makes o n gs s u := by
  have := h.trans k
  rwa [Nat.zero_add, List.nil_append] at this

/-- What leaves the log and the records held back but for those of spots gone missing. -/
theorem of_log (ho : o ≠ .missing) (hop : t.opening = s.opening) (hl : t.log = s.log) (hh : t.heldBut = s.heldBut)
    (hc : s.Unasked → t.Unasked ∧ t.recordsHeld = s.recordsHeld) : Makes o 0 [] s t where
  opening := hop
  takes k hk := State.logTakes_congr hl (by rwa [Nat.zero_add] at hk)
  asrun := by
    simp only [State.log, Prod.mk.injEq] at hl
    rw [hl.1]
  gists _ := by
    have hb (x : State) : (x.recordsHeld.map Prod.snd).filter (fun r => r.outcome == o) =
        x.heldBut.filter fun r => r.outcome == o := by
      rw [State.heldBut, List.filter_filter]
      refine List.filter_congr fun r _ => ?_
      by_cases hr : r.outcome = o
      · simp [hr, ho]
      · simp [hr]
    simp only [State.log, Prod.mk.injEq] at hl
    simp only [State.gists, State.records, List.filter_append, hb, hl.1, hh, List.append_nil]
  unheld h1 h2 := ⟨(hc h2).2.trans h1, (hc h2).1⟩

theorem of_calm (ho : o ≠ .missing) (h : Pooled s t) (c : Calm s t) (hop : s.opening = true) : Makes o 0 [] s t := by
  obtain ⟨hl, hh, -⟩ := h.log hop
  exact of_log ho h.opening hl hh fun hs => ⟨(c hs).unasked, (c hs).held⟩

/-- What touches no record. -/
theorem still (ho : o ≠ .missing) (hop : t.opening = s.opening) (hl : t.log = s.log) (hh : t.recordsHeld = s.recordsHeld)
    (hr : ∀ v : StationId, (t.station v).requests = (s.station v).requests) : Makes o 0 [] s t :=
  of_log ho hop hl (by rw [State.heldBut, hh, State.heldBut]) fun hs => ⟨fun v => (hr v).trans (hs v), hh⟩

theorem refl (ho : o ≠ .missing) (s : State) : Makes o 0 [] s s := still ho rfl rfl rfl fun _ => rfl

theorem removeEntry (ho : o ≠ .missing) {st : StationId} {id : Nat} : Makes o 0 [] s (s.removeEntry st id) := by
  have hr (v : StationId) : ((s.removeEntry st id).station v).requests = (s.station v).requests := by
    unfold State.removeEntry
    simp only
    by_cases hv : v = st
    · subst hv
      rw [State.evalLow_station, State.modStation_station]
    · rw [State.evalLow_station_ne _ hv, State.modStation_station_ne _ _ (Ne.symm hv)]
  refine still ho Within.removeEntry.opening ?_ ?_ hr
  · unfold State.removeEntry
    exact (congrArg State.log (State.evalLow_unsent _ st) :)
  · exact State.evalLow_recordsHeld _ _

theorem withdraw (ho : o ≠ .missing) (hop : s.opening = true) {st : StationId} {p : Target → Bool} :
    Makes o 0 [] s (s.withdraw st p) := of_calm ho Pooled.withdraw Calm.withdraw hop

theorem freeServed (ho : o ≠ .missing) (hop : s.opening = true) {v : Served} : Makes o 0 [] s (s.freeServed v) :=
  of_calm ho Pooled.freeServed Calm.freeServed hop

/-- A record made, behind the records held back where there are some (R185). -/
theorem record {r : Record} (hr : r.outcome = o) : Makes o 1 [r.gist] s (s.record r) where
  opening := Within.record.opening
  takes k hk := by
    by_cases hh : s.recordsHeld = []
    · rw [State.record_of_none s r hh]
      exact (State.LogTakes.addRecord (n := k) (by rwa [Nat.add_comm] at hk) r).2.1
    · rw [State.record_of_held s r hh]
      exact State.LogTakes.mono (s := s) hk (Nat.le_add_left _ _)
  asrun := by
    by_cases hh : s.recordsHeld = []
    · rw [State.record_of_none s r hh]
      exact (s.addRecord_frame r).2.2
    · rw [State.record_of_held s r hh]
  gists ht := by
    subst hr
    by_cases hh : s.recordsHeld = []
    · have ha := (State.LogTakes.addRecord (n := 0) ht r).2.2.1
      rw [State.record_of_none s r hh, State.gists, State.records, ha, State.addRecord_recordsHeld, hh, State.gists,
        State.records, hh]
      simp [List.filter_append, Record.gist]
    · rw [State.record_of_held s r hh]
      simp [State.gists, State.records, List.filter_append]
  unheld h1 h2 := by
    rw [State.record_of_none s r h1, State.addRecord_recordsHeld]
    exact ⟨h1, fun u => by rw [State.station_congr (s.addRecord_stations r)]; exact h2 u⟩

/-- One record after another, of what stands in a list. -/
theorem forEach {α : Type} {xs : List α} {f : α → State → State} {g : α → Gist} {P : State → Prop} (hP : P s)
    (ho : o ≠ .missing) (h : ∀ x ∈ xs, ∀ t, P t → P (f x t) ∧ Makes o 1 [g x] t (f x t)) :
    P (Machine.forEach xs f s) ∧ Makes o xs.length (xs.map g) s (Machine.forEach xs f s) := by
  unfold Machine.forEach
  induction xs generalizing s with
  | nil => exact ⟨hP, refl ho s⟩
  | cons x xs ih =>
    obtain ⟨hx, hm⟩ := h x List.mem_cons_self s hP
    obtain ⟨hrest, hms⟩ := ih hx fun y hy => h y (List.mem_cons_of_mem _ hy)
    refine ⟨hrest, ?_⟩
    have := hm.trans hms
    rw [List.length_cons, Nat.add_comm]
    exact this

/-- A run of operations that make no record of the outcome. -/
theorem forEachStill {α : Type} {xs : List α} {f : α → State → State} (hs : s.opening = true) (ho : o ≠ .missing)
    (h : ∀ x t, t.opening = true → Makes o 0 [] t (f x t)) : Makes o 0 [] s (Machine.forEach xs f s) := by
  unfold Machine.forEach
  induction xs generalizing s with
  | nil => exact refl ho s
  | cons x xs ih => exact (h x s hs).andStill (ih ((h x s hs).opening.trans hs))

theorem dropEntry (ho : o ≠ .missing) (hop : s.opening = true) {st : StationId} {e : Entry} :
    Makes o 0 [] s (s.dropEntry st e) := by
  unfold State.dropEntry
  simp only
  have h : Makes o 0 [] s ((s.withdraw st (Target.belongs e.id)).removeEntry st e.id) :=
    (withdraw ho hop).andStill (removeEntry ho)
  exact h.andStill (forEachStill (h.opening.trans hop) ho fun _ _ ht => freeServed ho ht)

theorem reportFault (ho : o ≠ .missing) {st : StationId} {c : FaultCause} {id cart n : Nat} :
    Makes o 0 [] s (s.reportFault st c id cart n) := by
  refine still ho Within.reportFault.opening ?_ (State.reportFault_recordsHeld _ _ _ _ _ _) fun v => ?_
  · unfold State.reportFault
    split
    · simp [State.log, State.raiseStation]
    · rfl
  · by_cases hv : st = v
    · subst hv
      rw [State.reportFault_station]
    · rw [State.reportFault_station_ne _ hv]

end Makes

/-! ## Entries that leave a list -/

/-- The entries of a station as no re-evaluation writes them. -/
def State.frames (s : State) (st : StationId) : List Entry := (s.station st).list.map Entry.frame

theorem State.frames_congr {s t : State} (h : t.stations = s.stations) (st : StationId) : t.frames st = s.frames st := by
  rw [State.frames, State.frames, State.station_congr h]

/-- From `s` to `t` the entries of the station with one of the ids leave its list, and no other entry does. -/
structure Drops (st : StationId) (ids : List Nat) (s t : State) : Prop where
  own : t.frames st = (s.frames st).filter fun y => !ids.contains y.id
  others : ∀ u : StationId, u ≠ st → t.frames u = s.frames u

namespace Drops

variable {st : StationId} {ids js : List Nat} {s t u : State}

theorem trans (h : Drops st ids s t) (k : Drops st js t u) : Drops st (ids ++ js) s u where
  own := by
    rw [k.own, h.own, List.filter_filter]
    refine List.filter_congr fun y _ => ?_
    simp only [List.contains_append, Bool.not_or, Bool.and_comm]
  others v hv := (k.others v hv).trans (h.others v hv)

theorem still (h : ∀ u, t.frames u = s.frames u) : Drops st [] s t :=
  ⟨by rw [h st]; simp, fun u _ => h u⟩

theorem refl (s : State) : Drops st [] s s := still fun _ => rfl

theorem of_pooled (h : Pooled s t) : Drops st [] s t := still h.lists

theorem record {r : Record} : Drops st [] s (s.record r) := still (State.frames_congr (s.record_stations r))

theorem andStill (h : Drops st ids s t) (k : Drops st [] t u) : Drops st ids s u := by
  have := h.trans k
  rwa [List.append_nil] at this

theorem modStation {v : StationId} {f : Station → Station} (h : ∀ x, (f x).list = x.list) :
    Drops st [] s (s.modStation v f) := still fun u => by
  by_cases hu : v = u
  · subst hu
    rw [State.frames, State.modStation_station, h, State.frames]
  · rw [State.frames, State.modStation_station_ne _ _ hu, State.frames]

theorem removeEntry {id : Nat} : Drops st [id] s (s.removeEntry st id) := by
  have h (u : StationId) : (s.removeEntry st id).frames u =
      if u = st then (s.frames st).filter (fun y => y.id != id) else s.frames u := by
    unfold State.removeEntry State.frames
    simp only
    split
    next hu =>
      subst hu
      rw [State.evalLow_station, State.modStation_station, List.filter_map]
      rfl
    next hu => rw [State.evalLow_station_ne _ hu, State.modStation_station_ne _ _ (Ne.symm hu)]
  refine ⟨?_, fun u hu => (h u).trans (if_neg hu)⟩
  rw [h st, if_pos rfl]
  refine List.filter_congr fun y _ => ?_
  simp only [List.contains_cons, List.contains_nil, Bool.or_false, bne]

theorem dropEntry {e : Entry} : Drops st [e.id] s (s.dropEntry st e) := by
  unfold State.dropEntry
  simp only
  have h : Drops st [e.id] s ((s.withdraw st (Target.belongs e.id)).removeEntry st e.id) :=
    (of_pooled Pooled.withdraw).trans removeEntry
  exact h.andStill (of_pooled (Pooled.forEach fun _ _ => Pooled.freeServed))

theorem forEach {xs : List Entry} {f : Entry → State → State} (h : ∀ e t, Drops st [e.id] t (f e t)) :
    Drops st (xs.map Entry.id) s (Machine.forEach xs f s) := by
  unfold Machine.forEach
  induction xs generalizing s with
  | nil => exact refl s
  | cons x xs ih => exact (h x s).trans ih

end Drops

/-- The entries that a test does not pick stay, in a list without repeated ids. -/
theorem frames_kept {l : List Entry} (hl : (l.map Entry.id).Nodup) (p : Entry → Bool) :
    (l.map Entry.frame).filter (fun y => !((l.filter p).map Entry.id).contains y.id) =
      (l.filter fun e => !p e).map Entry.frame := by
  rw [List.filter_map]
  refine congrArg _ (List.filter_congr fun e he => ?_)
  show (!((l.filter p).map Entry.id).contains e.id) = !p e
  rw [Bool.not_inj_iff, Bool.eq_iff_iff, List.contains_iff_mem, List.mem_map]
  constructor
  · rintro ⟨x, hx, hxe⟩
    obtain ⟨hxl, hp⟩ := List.mem_filter.mp hx
    rwa [id_injOn hl hxl he hxe] at hp
  · exact fun hp => ⟨e, List.mem_filter.mpr ⟨he, hp⟩, rfl⟩

/-! ## Items beyond the late tolerance -/

theorem State.entryTooLate_makes {s : State} (ho : s.opening = true) (st : StationId) (e : Entry) :
    Makes .tooLate 1 [(.tooLate, st, e.id, none, e.cart, some e.dueTime, s.stationTime st, s.stationTime st, 0,
      some ((s.stationTime st : Int) - (e.dueTime : Int)))] s (s.entryTooLate st e) := by
  unfold State.entryTooLate
  simp only
  have h := (Makes.record (s := s) (o := .tooLate) (r := entryDisposed st e (s.disposalUsed st (s.current st e))
    (some e.dueTime) (s.stationTime st) .tooLate (some ((s.stationTime st : Int) - (e.dueTime : Int)))) rfl).andStill
    (Makes.reportFault (by decide) (st := st) (c := .tooLate) (id := e.id) (cart := e.cart) (n := s.stationTime st))
  exact h.andStill (Makes.dropEntry (by decide) (h.opening.trans ho))

theorem State.entryTooLate_drops {s : State} {st : StationId} {e : Entry} :
    Drops st [e.id] s (s.entryTooLate st e) := by
  unfold State.entryTooLate
  exact (Drops.record.trans (Drops.of_pooled (Pooled.fault _ _ _ _ _ _))).trans Drops.dropEntry

/-- The first item that leaves fills an empty fault record (R98, R187). -/
theorem State.entryTooLate_fault {s : State} {st : StationId} {e : Entry} (h : (s.station st).fault = none) :
    ∃ g, ((s.entryTooLate st e).station st).fault = some g ∧ g.first = (.tooLate, e.id, e.cart, s.stationTime st) := by
  unfold State.entryTooLate
  simp only
  generalize hr : s.record _ = u
  have hu : (u.station st).fault = none := by
    rw [← hr, State.station_congr (s.record_stations _)]
    exact h
  have hf : ((u.reportFault st .tooLate e.id e.cart (s.stationTime st)).station st).fault =
      some (faultAfter none .tooLate e.id e.cart (s.stationTime st)) := by
    rw [State.reportFault_station, hu]
  obtain ⟨g, hg, hgf⟩ := (Moved.dropEntry (keep := true) (shut := true) (st := st) (e := e)).fault_first hf
  exact ⟨g, hg, hgf⟩

end Sys2Proof.Machine

namespace Sys2Proof
open Machine

/-- Settles O46: one item after another leaves, each with its record, and the first of them with the fault. -/
theorem lateItemsLeave : Obligations.LateItemsLeave := by
  unfold Obligations.LateItemsLeave
  intro s st hin hl ha
  have hop := hin.2.1
  have hj : s.judgeTooLate st = forEach ((s.station st).list.filter fun e => s.isTooLate st e)
      (fun e acc => acc.entryTooLate st e) s := if_neg (by rw [ha]; decide)
  have hlate : s.opTooLate st = s.judgeTooLate st ∨
      s.opTooLate st = (s.judgeTooLate st).modStation st fun x => { x with lateHead := true } := by
    unfold State.opTooLate
    split
    · exact .inr rfl
    · exact .inl rfl
  have hmoved : Moved true true s (s.opTooLate st) := by
    rcases hlate with h | h
    · rw [h]
      exact Moved.judgeTooLate
    · rw [h]
      exact Moved.judgeTooLate.trans (Moved.modStation fun _ => ⟨⟨rfl, rfl, rfl, rfl, rfl, fun _ => rfl⟩, rfl⟩)
  have hdrops : Drops st (((s.station st).list.filter fun e => s.isTooLate st e).map Entry.id) s (s.opTooLate st) := by
    have h : Drops st (((s.station st).list.filter fun e => s.isTooLate st e).map Entry.id) s (s.judgeTooLate st) := by
      rw [hj]
      exact Drops.forEach fun e t => State.entryTooLate_drops
    rcases hlate with hq | hq <;> rw [hq]
    · exact h
    · exact h.andStill (Drops.modStation fun _ => rfl)
  refine ⟨s.opTooLate st, hin.event fun y => y.opTooLate st, hdrops.own.trans (frames_kept (hl.nodup st) _), ?_, ?_, ?_,
    hdrops.others, hmoved.beds, (Fixed.fields hmoved.fixed).2.1, (Fixed.fields hmoved.fixed).1⟩
  · intro e he hf
    obtain ⟨rest, hrest⟩ : ∃ rest, (s.station st).list.filter (fun e => s.isTooLate st e) = e :: rest :=
      List.head?_eq_some_iff.mp (List.head?_filter.trans he)
    obtain ⟨g, hg, hgf⟩ := State.entryTooLate_fault (e := e) hf
    have hlast : Moved true true (s.entryTooLate st e) (s.opTooLate st) := by
      have h : Moved true true (s.entryTooLate st e) (s.judgeTooLate st) := by
        rw [hj, hrest]
        exact Moved.forEach fun _ _ => Moved.entryTooLate
      rcases hlate with hq | hq <;> rw [hq]
      · exact h
      · exact h.trans (Moved.modStation fun _ => ⟨⟨rfl, rfl, rfl, rfl, rfl, fun _ => rfl⟩, rfl⟩)
    obtain ⟨y, hy, hyg⟩ := hlast.fault_first hg
    rw [hy]
    exact congrArg some (hyg.trans hgf)
  · intro late hlt htakes
    subst hlt
    obtain ⟨-, hmakes⟩ := Makes.forEach (P := fun t => t.opening = true ∧ t.stationTime st = s.stationTime st)
      (f := fun e acc => State.entryTooLate acc st e) (o := .tooLate)
      (xs := (s.station st).list.filter fun e => s.isTooLate st e) ⟨hop, rfl⟩ (by decide) fun e _ t ht => by
        have hw : Within t (t.entryTooLate st e) := Within.entryTooLate
        have hm := State.entryTooLate_makes ht.1 st e
        rw [ht.2] at hm
        exact ⟨⟨hw.opening.trans ht.1, (hw.stationTime st).trans ht.2⟩, hm⟩
    rw [← hj] at hmakes
    have hlift {n : Nat} {gs : List Gist} (h : Makes .tooLate n gs s (s.judgeTooLate st)) :
        Makes .tooLate n gs s (s.opTooLate st) := by
      rcases hlate with hq | hq <;> rw [hq]
      · exact h
      · refine h.andStill (Makes.still (by decide) rfl rfl rfl fun v => ?_)
        by_cases hv : st = v
        · subst hv
          rw [State.modStation_station]
        · rw [State.modStation_station_ne _ _ hv]
    have hm := hlift hmakes
    exact ⟨hm.asrun, fun h1 h2 => (hm.unheld h1 h2).1, hm.gists htakes⟩
  · intro hnone
    have hempty : (s.station st).list.filter (fun e => s.isTooLate st e) = [] :=
      List.filter_eq_nil_iff.mpr fun e he => by rw [hnone e he]; decide
    have hstay : s.judgeTooLate st = s := by
      rw [hj, hempty]
      rfl
    unfold State.opTooLate
    rw [if_neg ?_, hstay]
    rintro ⟨-, h⟩
    obtain ⟨e, he, ht⟩ := Option.any_eq_true _ _ |>.mp h
    rw [hnone e (List.mem_filter.mp (List.mem_of_head? he)).1] at ht
    cases ht

end Sys2Proof
end

section
/-!
PROOFS. Cuts: what a cut makes of a deck's ramp, and what it leaves. Then the pre-fade, which cuts, and skips what
stands ahead of the hard entry.
-/

namespace Sys2Proof.Machine

/-! ## A player cut -/

/-- A player behind a cut over `n` periods (R94). -/
def Player.cutOver (p : Player) (n : Nat) : Player :=
  if p.sounds = false ∨ p.ramp.endsWithin n = true then p else p.faded n

theorem Player.faded_sounds (p : Player) (n : Nat) : (p.faded n).sounds = p.sounds := by
  unfold Player.faded Player.sounds
  cases p.state <;> rfl

theorem Player.cutOver_sounds (p : Player) (n : Nat) : (p.cutOver n).sounds = p.sounds := by
  unfold Player.cutOver
  split
  · rfl
  · exact p.faded_sounds n

theorem Player.cutOver_buffer (p : Player) (n : Nat) : (p.cutOver n).buffer = p.buffer := by
  unfold Player.cutOver
  split <;> rfl

theorem Ramp.endsWithin_iff {r : Ramp} {n : Nat} : r.endsWithin n = true ↔ r.target = 0 ∧ r.length - r.progress ≤ n := by
  simp [Ramp.endsWithin]

theorem Player.cutOver_ramp {p : Player} (h : p.sounds = true) (n : Nat) : (p.cutOver n).ramp = p.ramp.cutOver n := by
  unfold Player.cutOver Ramp.cutOver
  by_cases he : p.ramp.endsWithin n = true
  · rw [if_pos (.inr he), if_pos (Ramp.endsWithin_iff.mp he)]
  · rw [if_neg (by simp [h, he]), if_neg (fun hr => he (Ramp.endsWithin_iff.mpr hr))]
    rfl

theorem Ramp.cutOver_target (r : Ramp) (n : Nat) : (r.cutOver n).target = 0 := by
  unfold Ramp.cutOver
  split
  next h => exact h.1
  · rfl

/-- A second cut of the same length finds the first. -/
theorem Player.cutOver_cutOver (p : Player) (n : Nat) : (p.cutOver n).cutOver n = p.cutOver n := by
  by_cases h : p.sounds = false ∨ p.ramp.endsWithin n = true
  · have hp : p.cutOver n = p := if_pos h
    rw [hp, hp]
  · have hp : p.cutOver n = p.faded n := if_neg h
    rw [hp]
    exact if_pos (.inr (Ramp.endsWithin_iff.mpr ⟨rfl, Nat.sub_le _ _⟩))

/-! ## What a cut leaves -/

/-- A change of one element that a map does not see. -/
theorem map_modify_of_same {α β : Type} {f : α → α} {g : α → β} (h : ∀ x, g (f x) = g x) (l : List α) (i : Nat) :
    (l.modify i f).map g = l.map g := by
  apply List.ext_getElem?
  intro n
  rw [List.getElem?_map, List.getElem?_map, List.getElem?_modify, Option.map_eq_map, Option.map_map]
  refine congrArg (fun k => Option.map k l[n]?) (funext fun x => ?_)
  show g (if i = n then f x else x) = g x
  split
  · exact h x
  · rfl

/-- A spot but for its cut mark. -/
def Spot.uncut (p : Spot) : Spot := { p with cut := false }

/-- An entry but for its cut marks. -/
def Entry.uncut (e : Entry) : Entry :=
  { e with
    cut := false
    body :=
      match e.body with
      | .item c => .item c
      | .brk b => .brk { b with spots := b.spots.map Spot.uncut } }

/-- From `s` to `t` decks are cut: their players' fades, and the cut marks of what they serve. -/
structure Cuts (s t : State) : Prop where
  rest : { t with stations := s.stations, decks := s.decks } = s
  station : ∀ u : StationId, { t.station u with list := [] } = { s.station u with list := [] }
  lists : ∀ u : StationId, (t.station u).list.map Entry.uncut = (s.station u).list.map Entry.uncut
  held : ∀ d : DeckId, (t.deck d).station = (s.deck d).station

namespace Cuts

variable {s t u : State}

theorem refl (s : State) : Cuts s s := ⟨rfl, fun _ => rfl, fun _ => rfl, fun _ => rfl⟩

theorem trans (h : Cuts s t) (k : Cuts t u) : Cuts s u where
  rest := by
    have hk := k.rest
    have hh := h.rest
    have := congrArg (fun x : State => { x with stations := s.stations, decks := s.decks }) hk
    exact this.trans hh
  station v := (k.station v).trans (h.station v)
  lists v := (k.lists v).trans (h.lists v)
  held d := (k.held d).trans (h.held d)

theorem forEach {α : Type} {xs : List α} {f : α → State → State} (h : ∀ x t, Cuts t (f x t)) :
    Cuts s (Machine.forEach xs f s) := by
  unfold Machine.forEach
  induction xs generalizing s with
  | nil => exact refl _
  | cons x xs ih => exact (h x s).trans ih

theorem setDeck {d : DeckId} {x : Deck} (h : x.station = (s.deck d).station) : Cuts s (s.setDeck d x) where
  rest := rfl
  station _ := rfl
  lists _ := rfl
  held c := by
    by_cases hc : d = c
    · subst hc
      rw [State.setDeck_deck]
      exact h
    · rw [State.setDeck_deck_ne _ _ hc]

theorem modEntry {st : StationId} {id : Nat} {f : Entry → Entry} (h : ∀ e, (f e).uncut = e.uncut) :
    Cuts s (s.modEntry st id f) where
  rest := rfl
  station v := by
    rw [State.modEntry]
    by_cases hv : st = v
    · subst hv
      rw [State.modStation_station]
    · rw [State.modStation_station_ne _ _ hv]
  lists v := by
    rw [State.modEntry]
    by_cases hv : st = v
    · subst hv
      rw [State.modStation_station, List.map_map]
      refine List.map_congr_left fun e _ => ?_
      show (if e.id = id then f e else e).uncut = e.uncut
      split
      · exact h e
      · rfl
    · rw [State.modStation_station_ne _ _ hv]
  held _ := rfl

theorem setCutMark {d : DeckId} : Cuts s (s.setCutMark d) := by
  unfold State.setCutMark
  split
  · exact modEntry fun _ => rfl
  · refine modEntry fun e => ?_
    cases hb : e.body with
    | item c => rfl
    | brk b =>
      simp only [Entry.uncut, hb]
      exact congrArg (fun l => { e with cut := false, body := .brk { b with spots := l } })
        (map_modify_of_same (f := fun p : Spot => { p with cut := true }) (g := Spot.uncut) (fun _ => rfl) b.spots _)
  · exact setDeck rfl
  · exact refl _

theorem cutDeck {n : Nat} {d : DeckId} : Cuts s (s.cutDeck n d) := by
  unfold State.cutDeck
  split
  · exact refl _
  · split
    · exact refl _
    · exact trans (t := s.modPlayer d fun p => p.faded n) (setDeck rfl) setCutMark

theorem cutSounding {st : StationId} {n : Nat} : Cuts s (s.cutSounding st n) := forEach fun _ _ => cutDeck

/-! ### Fields -/

theorem fixed (h : Cuts s t) : t.fixed = s.fixed := (congrArg State.fixed h.rest :)
theorem conds (h : Cuts s t) : t.conds = s.conds := (congrArg State.conds h.rest :)
theorem beds (h : Cuts s t) : t.beds = s.beds := (congrArg State.beds h.rest :)
theorem dir (h : Cuts s t) : t.dir = s.dir := (congrArg State.dir h.rest :)
theorem log (h : Cuts s t) : t.log = s.log := (congrArg State.log h.rest :)
theorem asrun (h : Cuts s t) : t.asrun = s.asrun := (congrArg State.asrun h.rest :)
theorem recordsHeld (h : Cuts s t) : t.recordsHeld = s.recordsHeld := (congrArg State.recordsHeld h.rest :)
theorem media (h : Cuts s t) : t.media = s.media := (congrArg State.media h.rest :)
theorem house (h : Cuts s t) : t.house = s.house := (congrArg State.house h.rest :)
theorem opening (h : Cuts s t) : t.opening = s.opening := (congrArg State.opening h.rest :)
theorem take (h : Cuts s t) (v : StationId) : (t.station v).take = (s.station v).take :=
  (congrArg Station.take (h.station v) :)
theorem preFade (h : Cuts s t) (v : StationId) : (t.station v).preFade = (s.station v).preFade :=
  (congrArg Station.preFade (h.station v) :)
theorem requests (h : Cuts s t) (v : StationId) : (t.station v).requests = (s.station v).requests :=
  (congrArg Station.requests (h.station v) :)

/-- What the cut marks do not show in is the same in both lists. -/
theorem listsBut {α : Type} (h : Cuts s t) (v : StationId) {f : Entry → α} (hf : ∀ e, f e.uncut = f e) :
    (t.station v).list.map f = (s.station v).list.map f := by
  have hcongr (l : List Entry) : l.map f = (l.map Entry.uncut).map f := by
    rw [List.map_map]
    exact List.map_congr_left fun e _ => (hf e).symm
  rw [hcongr, h.lists v, ← hcongr]

end Cuts

/-! ## Decks -/

theorem State.setCutMark_player (s : State) (d c : DeckId) : ((s.setCutMark d).deck c).player = (s.deck c).player := by
  unfold State.setCutMark
  split
  · rfl
  · rfl
  · by_cases hc : d = c
    · subst hc
      rw [State.setDeck_deck]
    · rw [State.setDeck_deck_ne _ _ hc]
  · rfl

theorem State.setCutMark_deck_ne (s : State) {d c : DeckId} (h : d ≠ c) : (s.setCutMark d).deck c = s.deck c := by
  unfold State.setCutMark
  split
  · rfl
  · rfl
  · exact State.setDeck_deck_ne _ _ h
  · rfl

theorem State.cutDeck_player (s : State) (n : Nat) (d : DeckId) :
    ((s.cutDeck n d).deck d).player = (s.deck d).player.cutOver n := by
  unfold State.cutDeck Player.cutOver
  cases hs : (s.deck d).player.sounds with
  | false => rfl
  | true =>
    by_cases he : (s.deck d).player.ramp.endsWithin n = true
    · simp [he]
    · simp only [he, Bool.not_true, Bool.false_eq_true, if_false, or_self, Bool.true_eq_false]
      rw [State.setCutMark_player, State.modPlayer_deck]

theorem State.cutDeck_deck_ne (s : State) (n : Nat) {d c : DeckId} (h : d ≠ c) : (s.cutDeck n d).deck c = s.deck c := by
  unfold State.cutDeck
  split
  · rfl
  · split
    · rfl
    · rw [State.setCutMark_deck_ne _ h, State.modPlayer_deck_ne _ _ h]

/-- A cut of several decks: each is cut once, however often it is named, and no other is touched. -/
theorem State.cutDecks_deck (s : State) (n : Nat) (ds : List DeckId) (c : DeckId) :
    (c ∉ ds → (forEach ds (fun d acc => acc.cutDeck n d) s).deck c = s.deck c) ∧
      (c ∈ ds → ((forEach ds (fun d acc => acc.cutDeck n d) s).deck c).player = (s.deck c).player.cutOver n) := by
  unfold forEach
  induction ds generalizing s with
  | nil => exact ⟨fun _ => rfl, fun h => absurd h List.not_mem_nil⟩
  | cons d ds ih =>
    obtain ⟨hout, hin⟩ := ih (s.cutDeck n d)
    simp only [List.foldl_cons, List.mem_cons, not_or]
    refine ⟨fun ⟨hd, hc⟩ => (hout hc).trans (s.cutDeck_deck_ne n (Ne.symm hd)), fun h => ?_⟩
    by_cases hc : c ∈ ds
    · rw [hin hc]
      by_cases hd : d = c
      · subst hd
        rw [State.cutDeck_player, Player.cutOver_cutOver]
      · rw [s.cutDeck_deck_ne n hd]
    · obtain rfl : c = d := h.resolve_right hc
      rw [hout hc, State.cutDeck_player]

theorem State.cutSounding_deck_out {s : State} {st : StationId} {n : Nat} {c : DeckId}
    (h : c ∉ (s.station st).soundingDecks) : (s.cutSounding st n).deck c = s.deck c := (s.cutDecks_deck n _ c).1 h

theorem State.cutSounding_player {s : State} {st : StationId} {n : Nat} {c : DeckId}
    (h : c ∈ (s.station st).soundingDecks) : ((s.cutSounding st n).deck c).player = (s.deck c).player.cutOver n :=
  (s.cutDecks_deck n _ c).2 h

end Sys2Proof.Machine
end

section
/-!
PROOFS. The pre-fade: its moment, what it drops and cuts, and the entries it skips.
-/

namespace Sys2Proof.Machine

/-! ## Changes of one entry -/

theorem State.modStation_modStation (s : State) (st : StationId) (f g : Station → Station) :
    (s.modStation st f).modStation st g = s.modStation st fun x => g (f x) := by
  unfold State.modStation
  rw [State.setStation_station]
  simp [State.setStation]

/-- What a change of an entry does not show in is the same in the list. -/
theorem State.modEntry_listsBut {α : Type} {f : Entry → α} {g : Entry → Entry} (h : ∀ e, f (g e) = f e) (s : State)
    (st u : StationId) (id : Nat) : ((s.modEntry st id g).station u).list.map f = (s.station u).list.map f := by
  rw [State.modEntry]
  by_cases hu : st = u
  · subst hu
    rw [State.modStation_station, List.map_map]
    refine List.map_congr_left fun e _ => ?_
    show f (if e.id = id then g e else e) = f e
    split
    · exact h e
    · rfl
  · rw [State.modStation_station_ne _ _ hu]

theorem Entry.returned_eq (e : Entry) : e.returned = e ∨ e.state = .pending ∧
    (e.returned = { e with state := .armed } ∨ e.returned = { e with state := .waiting }) := by
  unfold Entry.returned
  split
  next h =>
    refine .inr ⟨h, ?_⟩
    cases e.served
    · exact .inr rfl
    · exact .inr rfl
    · exact .inl rfl
  · exact .inl rfl

/-- The deck of an entry that is ON_AIR or ENDING (R94). -/
def Entry.soundingDeck (e : Entry) : Option DeckId := if e.notStarted then none else e.served.deckNo

theorem Station.soundingDecks_eq (x : Station) : x.soundingDecks = x.list.filterMap Entry.soundingDeck := by
  refine List.filterMap_congr fun e _ => ?_
  unfold Entry.soundingDeck Entry.notStarted
  cases e.state <;> cases e.served <;> rfl

/-- What places an entry among the others, and its cart. -/
def Entry.place (e : Entry) : Nat × Nat × Bool := (e.id, e.cart, e.notStarted)

theorem Entry.returned_place (e : Entry) : e.returned.place = e.place := by
  rcases e.returned_eq with h | ⟨hp, h | h⟩ <;> rw [h]
  all_goals
    show (e.id, e.cart, true) = (e.id, e.cart, e.state.notStarted)
    rw [hp]
    rfl

theorem Entry.returned_soundingDeck (e : Entry) : e.returned.soundingDeck = e.soundingDeck := by
  rcases e.returned_eq with h | ⟨hp, h | h⟩ <;> rw [h]
  all_goals
    unfold Entry.soundingDeck Entry.notStarted
    rw [hp]
    rfl

/-! ## A take dropped -/

theorem State.withdrawTake_take (s : State) (st : StationId) : ((s.withdrawTake st).station st).take = none := by
  cases h : (s.station st).take with
  | none => rw [State.withdrawTake_none h, h]
  | some k =>
    rw [State.withdrawTake_some h, State.modEntry, State.modStation_modStation, State.modStation_station]

theorem State.withdrawTake_preFade (s : State) (st u : StationId) :
    ((s.withdrawTake st).station u).preFade = (s.station u).preFade := by
  cases h : (s.station st).take with
  | none => rw [State.withdrawTake_none h]
  | some k =>
    rw [State.withdrawTake_some h, State.modEntry, State.modStation_modStation]
    by_cases hu : st = u
    · subst hu
      rw [State.modStation_station]
    · rw [State.modStation_station_ne _ _ hu]

theorem State.withdrawTake_listsBut {α : Type} {f : Entry → α} (h : ∀ e, f e.returned = f e) (s : State)
    (st u : StationId) : ((s.withdrawTake st).station u).list.map f = (s.station u).list.map f := by
  cases ht : (s.station st).take with
  | none => rw [State.withdrawTake_none ht]
  | some k =>
    rw [State.withdrawTake_some ht, State.modEntry_listsBut h]
    by_cases hu : st = u
    · subst hu
      rw [State.modStation_station]
    · rw [State.modStation_station_ne _ _ hu]

theorem State.withdrawTake_decks (s : State) (st : StationId) : (s.withdrawTake st).decks = s.decks := by
  cases h : (s.station st).take with
  | none => rw [State.withdrawTake_none h]
  | some k => rw [State.withdrawTake_some h]; rfl

theorem State.dropTake_none {s : State} {st : StationId} (h : (s.station st).take = none) : s.dropTake st = s := by
  simp only [State.dropTake, h]

theorem State.dropTake_some {s : State} {st : StationId} {k : PendingTake} (h : (s.station st).take = some k) :
    s.dropTake st = (s.withdrawTake st).raiseStation st .takeDropped := by
  simp only [State.dropTake, h]

theorem State.dropTake_stations (s : State) (st : StationId) : (s.dropTake st).stations = (s.withdrawTake st).stations := by
  cases h : (s.station st).take with
  | none => rw [State.dropTake_none h, State.withdrawTake_none h]
  | some k => rw [State.dropTake_some h, State.raiseStation, State.raiseBits_stations]

theorem State.dropTake_decks (s : State) (st : StationId) : (s.dropTake st).decks = s.decks := by
  cases h : (s.station st).take with
  | none => rw [State.dropTake_none h]
  | some k => rw [State.dropTake_some h, State.raiseStation, State.raiseBits_decks, State.withdrawTake_decks]

theorem Makes.dropTake {o : Outcome} {s : State} (ho : o ≠ .missing) {st : StationId} : Makes o 0 [] s (s.dropTake st) := by
  refine Makes.still ho Within.dropTake.opening ?_ ?_ fun v => ?_
  · cases h : (s.station st).take with
    | none => rw [State.dropTake_none h]
    | some k =>
      rw [State.dropTake_some h, State.withdrawTake_some h]
      exact (congrArg State.log (State.raiseBits_unsent _ _ _) :)
  · cases h : (s.station st).take with
    | none => rw [State.dropTake_none h]
    | some k =>
      rw [State.dropTake_some h, State.withdrawTake_some h]
      exact State.raiseBits_recordsHeld _ _ _
  · rw [State.station_congr (s.dropTake_stations st)]
    cases h : (s.station st).take with
    | none => rw [State.withdrawTake_none h]
    | some k =>
      rw [State.withdrawTake_some h, State.modEntry, State.modStation_modStation]
      by_cases hv : st = v
      · subst hv
        rw [State.modStation_station]
      · rw [State.modStation_station_ne _ _ hv]

theorem Makes.of_cuts {o : Outcome} {s t : State} (ho : o ≠ .missing) (h : Cuts s t) : Makes o 0 [] s t :=
  Makes.still ho h.opening h.log h.recordsHeld h.requests

/-! ## Entries skipped -/

/-- The record a skipped entry makes (R96, R100, R184). -/
def Entry.skipGist (st : StationId) (now : Nat) (e : Entry) : Gist :=
  (.skipped, st, e.id, none, e.cart, none, now, now, 0, none)

theorem State.skipAhead_eq {s : State} {st : StationId} {e : Entry} (h : e ∈ (s.station st).waitingList) :
    s.skipAhead st e.id = forEach ((s.station st).waitingList.takeWhile fun x => x.id != e.id)
      (fun x acc => acc.skipEntry st x) s := by
  unfold State.skipAhead
  exact if_pos (List.any_eq_true.mpr ⟨e, h, by simp⟩)

theorem State.skipAhead_makes {s : State} {st : StationId} {e : Entry} (ho : s.opening = true)
    (h : e ∈ (s.station st).waitingList) : Makes .skipped
      ((s.station st).waitingList.takeWhile fun x => x.id != e.id).length
      (((s.station st).waitingList.takeWhile fun x => x.id != e.id).map (Entry.skipGist st (s.stationTime st)))
      s (s.skipAhead st e.id) := by
  rw [State.skipAhead_eq h]
  refine (Makes.forEach (P := fun t => t.opening = true ∧ t.stationTime st = s.stationTime st) ⟨ho, rfl⟩ (by decide)
    fun x _ t ht => ?_).2
  have hw : Within t (t.skipEntry st x) := Within.skipEntry
  have hm : Makes .skipped 1 [x.skipGist st (t.stationTime st)] t (t.skipEntry st x) :=
    (Makes.record (o := .skipped) (r := entryDisposed st x (t.disposalUsed st (t.current st x)) none (t.stationTime st)
      .skipped none) rfl).andStill (Makes.dropEntry (by decide) (Within.record.opening.trans ht.1))
  rw [ht.2] at hm
  exact ⟨⟨hw.opening.trans ht.1, (hw.stationTime st).trans ht.2⟩, hm⟩

theorem State.skipAhead_drops {s : State} {st : StationId} {e : Entry} (h : e ∈ (s.station st).waitingList) :
    Drops st (((s.station st).waitingList.takeWhile fun x => x.id != e.id).map Entry.id) s (s.skipAhead st e.id) := by
  rw [State.skipAhead_eq h]
  exact Drops.forEach fun x t => Drops.record.trans Drops.dropEntry

theorem Entry.frame_notStarted (e : Entry) : e.frame.notStarted = e.notStarted := by
  unfold Entry.frame Entry.notStarted
  cases e.state <;> rfl

/-- With what stands ahead of an entry gone, the entry is the first that has not started. -/
theorem State.skipAhead_head {s : State} {st : StationId} {e : Entry} (hl : ((s.station st).list.map Entry.id).Nodup)
    (h : e ∈ (s.station st).waitingList) :
    ∃ y : Entry, ((s.skipAhead st e.id).station st).waitingList.head? = some y ∧ y.frame = e.frame := by
  have hd := (State.skipAhead_drops h).own
  generalize hw : (s.station st).waitingList = w at h hd
  have hsplit := List.takeWhile_append_dropWhile (p := fun x : Entry => x.id != e.id) (l := w)
  have hids : ∀ y ∈ w.takeWhile (fun x => x.id != e.id), y.id ≠ e.id := fun y hy => by
    simpa using List.mem_takeWhile_imp hy
  have hfind : w.find? (fun y => !((w.takeWhile fun x => x.id != e.id).map Entry.id).contains y.id) = some e := by
    obtain ⟨x, rest, hx⟩ : ∃ x rest, w.dropWhile (fun x => x.id != e.id) = x :: rest :=
      List.exists_cons_of_ne_nil fun hnil => by
        rw [hnil, List.append_nil] at hsplit
        exact hids e (by rw [hsplit]; exact h) rfl
    have hxid : x.id = e.id := by
      have := List.head_dropWhile_not (fun x : Entry => x.id != e.id) (l := w)
        (by rw [hx]; exact List.cons_ne_nil _ _)
      simpa [hx] using this
    have hxe : x = e := by
      have hxw : x ∈ w := by
        rw [← hsplit]
        exact List.mem_append_right _ (by rw [hx]; exact List.mem_cons_self)
      rw [← hw] at hxw h
      exact id_injOn hl (List.mem_filter.mp hxw).1 (List.mem_filter.mp h).1 hxid
    subst hxe
    rw [List.find?_eq_some_iff_append]
    refine ⟨?_, _, rest, (hx ▸ hsplit).symm, fun y hy => ?_⟩
    · simpa using fun z hz hzx => hids z hz hzx
    · simpa using ⟨y, hy, rfl⟩
  have hmap : (((s.skipAhead st e.id).station st).waitingList.map Entry.frame).head? = some e.frame := by
    have hfilter (l : List Entry) : (l.filter Entry.notStarted).map Entry.frame = (l.map Entry.frame).filter
        Entry.notStarted := by
      rw [List.filter_map]
      exact congrArg _ (List.filter_congr fun x _ => x.frame_notStarted.symm)
    rw [Station.waitingList, hfilter]
    rw [State.frames] at hd
    have hfirst : (s.station st).list.find? (fun y => y.notStarted &&
        !((w.takeWhile fun x => x.id != e.id).map Entry.id).contains y.id) = some e := by
      have hall : ((s.station st).list.filter Entry.notStarted).find? _ = some e := (congrArg (List.find? _) hw).trans hfind
      simpa only [List.find?_filter, Bool.decide_and, Bool.decide_eq_true] using hall
    rw [hd, List.filter_filter, State.frames, List.filter_map, List.head?_map, List.head?_filter]
    refine congrArg (Option.map Entry.frame) (Eq.trans (congrArg (fun p => List.find? p _) (funext fun x => ?_)) hfirst)
    show (x.frame.notStarted && _) = _
    rw [x.frame_notStarted]
    rfl
  rw [List.head?_map, Option.map_eq_some_iff] at hmap
  obtain ⟨y, hy, hf⟩ := hmap
  exact ⟨y, hy, hf⟩

/-! ## The pre-fade's parts -/

/-- The station with the pre-fade recorded and its hard entry committed (R96 step 1). -/
def State.preFading (s : State) (st : StationId) (e : Entry) : State :=
  s.modStation st fun x =>
    { x with
      preFade := some ⟨e.id, e.dueTime⟩
      list := x.list.map fun y => if y.id = e.id then { y with preFaded := true } else y }

theorem State.beginPreFade_eq (s : State) (st : StationId) (e : Entry) : s.beginPreFade st e = s.preFading st e := by
  rw [State.beginPreFade, State.modEntry, State.modStation_modStation]
  rfl

/-- What neither a commitment nor a return to WAITING or ARMED shows in. -/
theorem State.preFading_listsBut {α : Type} {f : Entry → α} (h : ∀ e : Entry, f { e with preFaded := true } = f e)
    (s : State) (st u : StationId) (e : Entry) :
    ((s.preFading st e).station u).list.map f = (s.station u).list.map f := by
  by_cases hu : st = u
  · subst hu
    rw [State.preFading, State.modStation_station, List.map_map]
    refine List.map_congr_left fun y _ => ?_
    show f (if y.id = e.id then { y with preFaded := true } else y) = f y
    split
    · exact h y
    · rfl
  · rw [State.preFading, State.modStation_station_ne _ _ hu]

/-- The pre-fade's moment (R95, R118). -/
theorem State.preFadeDue_some {s : State} {st : StationId} {e : Entry} (ha : (s.station st).airs = true)
    (hp : (s.station st).preFade = none) (hb : (s.station st).onAirBreak = none) (hd : (s.station st).acted = false)
    (he : (s.station st).hardEntry = some e) (hend : e.isBreak = true → s.stationTime st < e.endTime)
    (ht : e.dueTime ≤ s.stationTime st ∨
      e.dueTime ≤ s.stationTime st + (s.station st).cfg.hardFade ∧ e.state = .armed) : s.preFadeDue st = some e := by
  unfold State.preFadeDue
  simp only [ha, hp, hb, hd, he, Bool.not_true, Option.isSome_none, Bool.or_self, Bool.false_eq_true, if_false]
  rw [if_neg fun h => absurd (hend h.1) (Nat.not_lt.mpr h.2), if_pos ht]

theorem State.preFadeLength_eq (s : State) (st : StationId) (e : Entry) : s.preFadeLength st e =
    if s.stationTime st < e.dueTime then e.dueTime - s.stationTime st
    else if (s.station st).cfg.hardFade = 0 ∧ s.stationTime st = e.dueTime ∧ (e.isBreak = false ∨ e.state = .armed) then 0
    else (s.station st).cfg.stopFade := by
  have h : s.hardCut st e = true ↔
      (s.station st).cfg.hardFade = 0 ∧ s.stationTime st = e.dueTime ∧ (e.isBreak = false ∨ e.state = .armed) := by
    simp [State.hardCut, and_assoc]
  unfold State.preFadeLength
  simp only [h]

/-- The state of a pre-fade ahead of its skips (R95, R96). -/
def State.preFadeCut (s : State) (st : StationId) (e : Entry) (n : Nat) : State :=
  State.cutSounding (State.dropTake (s.preFading st e) st) st n

theorem State.opPreFade_some {s : State} {st : StationId} {e : Entry} (h : s.preFadeDue st = some e) :
    s.opPreFade st = (s.preFadeCut st e (s.preFadeLength st e)).skipAhead st e.id := by
  simp only [State.opPreFade, h, State.beginPreFade_eq]
  rfl

section

variable (s : State) (st : StationId) (e : Entry) (n : Nat)

theorem State.preFadeCut_cuts : Cuts (State.dropTake (s.preFading st e) st) (s.preFadeCut st e n) := Cuts.cutSounding

theorem State.preFadeCut_listsBut {α : Type} {f : Entry → α} (hc : ∀ e, f e.uncut = f e)
    (hr : ∀ e, f e.returned = f e) : ((s.preFadeCut st e n).station st).list.map f =
      ((s.preFading st e).station st).list.map f := by
  rw [(s.preFadeCut_cuts st e n).listsBut st hc, State.station_congr (State.dropTake_stations _ st),
    State.withdrawTake_listsBut hr]

theorem State.preFadeCut_place : ((s.preFadeCut st e n).station st).list.map Entry.place =
    (s.station st).list.map Entry.place := by
  rw [s.preFadeCut_listsBut st e n (fun y => ?_) Entry.returned_place, State.preFading_listsBut fun _ => rfl]
  cases hb : y.body <;> simp only [Entry.place, Entry.uncut, Entry.cart, Entry.notStarted, hb]

theorem State.preFadeCut_soundingDecks : ((State.dropTake (s.preFading st e) st).station st).soundingDecks =
    (s.station st).soundingDecks := by
  have hcongr (l : List Entry) : l.filterMap Entry.soundingDeck = (l.map Entry.soundingDeck).filterMap id := by
    rw [List.filterMap_map]
    rfl
  rw [Station.soundingDecks_eq, hcongr, State.station_congr (State.dropTake_stations _ st),
    State.withdrawTake_listsBut Entry.returned_soundingDeck, State.preFading_listsBut (fun _ => rfl), ← hcongr,
    Station.soundingDecks_eq]

theorem State.preFadeCut_deck (d : DeckId) : (State.dropTake (s.preFading st e) st).deck d = s.deck d := by
  unfold State.deck
  rw [State.dropTake_decks]
  rfl

theorem State.preFadeCut_makes : Makes .skipped 0 [] s (s.preFadeCut st e n) := by
  have h1 : Makes .skipped 0 [] s (s.preFading st e) := by
    refine Makes.still (by decide) rfl rfl rfl fun v => ?_
    by_cases hv : st = v
    · subst hv
      rw [State.preFading, State.modStation_station]
    · rw [State.preFading, State.modStation_station_ne _ _ hv]
  exact (h1.andStill (Makes.dropTake (by decide))).andStill (Makes.of_cuts (by decide) (s.preFadeCut_cuts st e n))

theorem State.preFadeCut_time : (s.preFadeCut st e n).stationTime st = s.stationTime st := by
  have hw : Within (s.preFading st e) (s.preFadeCut st e n) := Within.dropTake.trans Within.cutSounding
  rw [hw.stationTime st]
  unfold State.stationTime State.preFading
  rw [State.modStation_station]
  rfl

end

/-- What has not started, by what places it. -/
theorem waitingList_place {x y : Station} (h : x.list.map Entry.place = y.list.map Entry.place) :
    x.waitingList.map Entry.place = y.waitingList.map Entry.place := by
  have hf (l : List Entry) : (l.filter Entry.notStarted).map Entry.place = (l.map Entry.place).filter (·.2.2) := by
    rw [List.filter_map]
    rfl
  rw [Station.waitingList, hf, h, ← hf, Station.waitingList]

/-- What stands ahead of an id, by what places it. -/
theorem ahead_place {l m : List Entry} (h : l.map Entry.place = m.map Entry.place) (id : Nat) :
    (l.takeWhile fun x => x.id != id).map Entry.place = (m.takeWhile fun x => x.id != id).map Entry.place := by
  have hf (l : List Entry) : (l.takeWhile fun x => x.id != id).map Entry.place =
      (l.map Entry.place).takeWhile (·.1 != id) := by
    rw [List.takeWhile_map]
    rfl
  rw [hf, h, ← hf]

theorem skipGist_place {l m : List Entry} (h : l.map Entry.place = m.map Entry.place) (st : StationId) (now : Nat) :
    l.length = m.length ∧ l.map (Entry.skipGist st now) = m.map (Entry.skipGist st now) := by
  have hf (l : List Entry) : l.map (Entry.skipGist st now) = (l.map Entry.place).map fun p =>
      ((.skipped, st, p.1, none, p.2.1, none, now, now, 0, none) : Gist) := by
    rw [List.map_map]
    rfl
  exact ⟨by simpa using congrArg List.length h, by rw [hf, h, ← hf]⟩

/-- The hard entry stands in the list of the pre-fade, committed. -/
theorem State.preFadeCut_hard {s : State} {st : StationId} {e : Entry} (he : (s.station st).hardEntry = some e) (n : Nat) :
    ∃ y ∈ ((s.preFadeCut st e n).station st).waitingList, y.id = e.id ∧ y.preFaded = true := by
  have hm := List.mem_filter.mp (List.mem_of_find?_eq_some he)
  have hc : ((s.preFadeCut st e n).station st).list.map (fun y => (y.id, y.notStarted, y.preFaded)) =
      ((s.preFading st e).station st).list.map fun y => (y.id, y.notStarted, y.preFaded) := by
    refine s.preFadeCut_listsBut st e n (fun _ => rfl) fun y => ?_
    have hp := y.returned_place
    simp only [Entry.place, Prod.mk.injEq] at hp
    rw [hp.1, hp.2.2, Entry.returned_preFaded]
  have hin : (e.id, true, true) ∈ ((s.preFading st e).station st).list.map fun y => (y.id, y.notStarted, y.preFaded) := by
    rw [State.preFading, State.modStation_station, List.map_map]
    refine List.mem_map.mpr ⟨e, hm.1, ?_⟩
    refine (congrArg (fun y : Entry => (y.id, y.notStarted, y.preFaded)) (if_pos rfl)).trans ?_
    exact congrArg (fun b => (e.id, b, true)) hm.2
  rw [← hc] at hin
  obtain ⟨y, hy, hyp⟩ := List.mem_map.mp hin
  simp only [Prod.mk.injEq] at hyp
  obtain ⟨hid, hns, hpf⟩ := hyp
  exact ⟨y, List.mem_filter.mpr ⟨hy, hns⟩, hid, hpf⟩

end Sys2Proof.Machine

namespace Sys2Proof
open Machine

/-- Settles O44: the parts of the pre-fade, and the arm horizon. -/
theorem preFadeAndHorizon : Obligations.PreFadeAndHorizon := by
  unfold Obligations.PreFadeAndHorizon
  refine ⟨fun s st e hin ha hp hb hd he hend ht u hu => ?_, fun s st hin => ⟨fun e he ht => ?_, fun hno => ?_⟩⟩
  · have hdue := State.preFadeDue_some ha hp hb hd he hend ht
    have hu' : u = s.preFadeCut st e (s.preFadeLength st e) := by rw [hu, s.preFadeLength_eq st e]; rfl
    have hexec : exec (.preFade st) s = .next (u.skipAhead st e.id).settlePool := by
      rw [hu', ← State.opPreFade_some hdue]
      exact hin.event fun y => y.opPreFade st
    generalize s.preFadeLength st e = n at hu'
    clear hu
    subst hu'
    have hcuts := s.preFadeCut_cuts st e n
    obtain ⟨y, hy, hyid, hyp⟩ := State.preFadeCut_hard he n
    refine ⟨hexec, ?_, ?_, fun hk => ?_, fun d hout => ?_, fun d hsd => ?_, fun ahead hah htakes => ?_, fun hl => ?_⟩
    · rw [hcuts.take, State.station_congr (State.dropTake_stations _ st), State.withdrawTake_take]
    · rw [hcuts.preFade, State.station_congr (State.dropTake_stations _ st), State.withdrawTake_preFade, State.preFading,
        State.modStation_station]
    · obtain ⟨k, hk⟩ := Option.isSome_iff_exists.mp hk
      have hk' : ((s.preFading st e).station st).take = some k := by
        rw [State.preFading, State.modStation_station]
        exact hk
      rw [State.cond_congr hcuts.conds, State.dropTake_some hk', State.raiseStation, State.raiseBits_cond]
      exact CondSet.raise_pending_and _ _
    · rw [← s.preFadeCut_soundingDecks st e] at hout
      exact (State.cutSounding_deck_out hout).trans (s.preFadeCut_deck st e d)
    · rw [← s.preFadeCut_soundingDecks st e] at hsd
      have hpl := State.cutSounding_player (n := n) hsd
      rw [s.preFadeCut_deck st e d] at hpl
      refine ⟨(congrArg Player.buffer hpl).trans (Player.cutOver_buffer _ _), fun hs => ?_⟩
      rw [show ((s.preFadeCut st e n).deck d).player.ramp = _ from congrArg Player.ramp hpl, Player.cutOver_ramp hs]
      exact Ramp.cutOver_target _ _
    · have hplaces := ahead_place (waitingList_place (s.preFadeCut_place st e n)) e.id
      obtain ⟨hlen, hgist⟩ := skipGist_place hplaces st (s.stationTime st)
      rw [← hyid] at hlen hgist
      have hskip := State.skipAhead_makes ((s.preFadeCut_makes st e n).opening.trans hin.2.1) hy
      rw [hlen, s.preFadeCut_time st e n, hgist, hyid, ← hah] at hskip
      have hm := (s.preFadeCut_makes st e n).stillThen hskip
      exact ⟨hm.asrun, fun h1 h2 => (hm.unheld h1 h2).1, hm.gists htakes⟩
    · have hnodup : (((s.preFadeCut st e n).station st).list.map Entry.id).Nodup := by
        have h1 (l : List Entry) : l.map Entry.id = (l.map Entry.place).map Prod.fst := by
          rw [List.map_map]
          rfl
        rw [h1, s.preFadeCut_place st e n, ← h1]
        exact hl.nodup st
      obtain ⟨z, hz, hzf⟩ := State.skipAhead_head hnodup hy
      rw [hyid] at hz
      have hzp : z.preFaded = true := (congrArg Entry.preFaded hzf).trans hyp
      refine ⟨z, hz, (congrArg Entry.id hzf).trans hyid, hzp, ?_⟩
      have hzn : z.notStarted = true := (List.mem_filter.mp (List.mem_of_head? hz)).2
      rw [Station.isCommitted, hzn, hzp]
      exact Bool.or_true _
  · refine (hin.event fun y => y.opHorizon st).trans (congrArg (fun t => Host.Outcome.next (State.settlePool t)) (if_pos ?_))
    rw [State.horizonReached, he, Option.any_some, beq_iff_eq]
    exact ht
  · refine (hin.event fun y => y.opHorizon st).trans (congrArg (fun t => Host.Outcome.next (State.settlePool t)) (if_neg ?_))
    rw [State.horizonReached]
    cases he : (s.station st).hardEntry with
    | none => exact Bool.false_ne_true
    | some e =>
      rw [Option.any_some, beq_iff_eq]
      exact hno e he

end Sys2Proof
end

section
/-!
PROOFS. A due entry that cannot start: PENDING, with a request of it made anew, or MISSING.
-/

namespace Sys2Proof.Machine

/-! ## The grant arbiter with no deck to give -/

theorem State.arbitrate_full {s : State} (h : ∀ d : DeckId, (s.deck d).player.state ≠ .free) : s.arbitrate = s := by
  have hf : s.freeDeckNo = none := List.find?_eq_none.mpr fun d _ => by simpa using h d
  have hone : s.arbitrateOnce = none := by
    unfold State.arbitrateOnce
    rw [hf]
  unfold State.arbitrate
  cases s.waitingRequests with
  | zero => rfl
  | succ n =>
    rw [arbitrateLoop, hone]

theorem State.requestDeck_capped {s : State} {st : StationId} (h : s.belowCap st = false) (g : Target) (slot : Nat)
    (lp : Bool) (n : Nat) : s.requestDeck st g slot lp n = s := if_pos (by rw [h]; rfl)

theorem State.setWaiting_decks (s : State) (st : StationId) (g : Target) : (s.setWaiting st g).decks = s.decks := by
  cases g <;> rfl

theorem State.setWaiting_deck (s : State) (st : StationId) (g : Target) (d : DeckId) :
    (s.setWaiting st g).deck d = s.deck d := by cases g <;> rfl

/-- Below the cap and with no deck FREE a request waits (R25, R26). -/
theorem State.requestDeck_waits {s : State} {st : StationId} (hc : s.belowCap st = true)
    (hf : ∀ d : DeckId, (s.deck d).player.state ≠ .free) (g : Target) (slot : Nat) (lp : Bool) (n : Nat) :
    s.requestDeck st g slot lp n = (s.modStation st fun x =>
      { x with requests := x.requests ++ [⟨g, slot, lp, s.requestKey st n⟩] }).setWaiting st g := by
  refine (if_neg (by rw [hc]; decide)).trans (State.arbitrate_full fun d => ?_)
  rw [State.setWaiting_deck]
  exact hf d

/-! ## Keys -/

/-- The key of a time foreseen is its house time (R25, R149). -/
theorem State.requestKey_stationTime {s : State} {st : StationId} (h : s.stationTime st ≠ 281474976710655) :
    s.requestKey st (s.stationTime st) = s.house.toNat := by
  refine (if_neg h).trans ?_
  rw [State.stationTime, BitVec.ofNat_toNat, BitVec.setWidth_eq, BitVec.add_sub_cancel]

/-! ## Entries found by their ids -/

theorem State.modEntry_find (s : State) (st : StationId) (id j : Nat) {f : Entry → Entry} (h : ∀ e, (f e).id = e.id) :
    ((s.modEntry st id f).station st).find j =
      ((s.station st).find j).map fun e => if e.id = id then f e else e := by
  rw [State.modEntry, State.modStation_station]
  exact find?_mapIf h

theorem Station.find_id {x : Station} {id : Nat} {e : Entry} (h : x.find id = some e) : e.id = id := by
  simpa using List.find?_some h

theorem State.modEntry_find_own {s : State} {st : StationId} {id : Nat} {e : Entry} {f : Entry → Entry}
    (h : ∀ e, (f e).id = e.id) (he : (s.station st).find id = some e) :
    ((s.modEntry st id f).station st).find id = some (f e) := by
  rw [State.modEntry_find _ _ _ _ h, he, Option.map_some, if_pos (Station.find_id he)]

/-! ## PENDING -/

theorem State.entryPending_own {s : State} {st : StationId} {e : Entry} :
    ((s.modEntry st e.id fun y => { y with state := .pending }).modStation st fun x =>
      { x with due := x.due <|> some (s.dueFor st e), dirty := true }) = s.modStation st fun x =>
      { x with
        list := x.list.map fun y => if y.id = e.id then { y with state := .pending } else y
        due := x.due <|> some (s.dueFor st e)
        dirty := true } := State.modStation_modStation _ _ _ _

/-- The PENDING entry ahead of its request made anew (R90). -/
def State.entryDue (s : State) (st : StationId) (e : Entry) : State :=
  s.modStation st fun x =>
    { x with
      list := x.list.map fun y => if y.id = e.id then { y with state := .pending } else y
      due := x.due <|> some (s.dueFor st e)
      dirty := true }

theorem State.entryPending_eq (s : State) (st : StationId) (e : Entry) : s.entryPending st e =
    if e.state = .pending then s.entryDue st e else (s.entryDue st e).remakeRequest st (.item e.id) := by
  unfold State.entryPending
  simp only [State.entryPending_own]
  rfl

theorem State.remakeRequest_none {s : State} {st : StationId} {g : Target}
    (h : ∀ q ∈ (s.station st).requests, q.target ≠ g) : s.remakeRequest st g = s := by
  have hf : ((s.station st).requests.find? fun r => r.target == g) = none :=
    List.find?_eq_none.mpr fun q hq => by simpa using h q hq
  simp only [State.remakeRequest, hf]

theorem State.entryDue_find {s : State} {st : StationId} {e : Entry} (h : (s.station st).find e.id = some e) :
    ((s.entryDue st e).station st).find e.id = some { e with state := .pending } := by
  rw [State.entryDue, State.modStation_station]
  refine (find?_mapIf (f := fun y : Entry => { y with state := .pending }) fun _ => rfl).trans ?_
  rw [show (s.station st).list.find? (fun y => y.id == e.id) = some e from h, Option.map_some, if_pos rfl]

/-- A waiting request made anew, with no deck to give, keeps its slot and joins the queue behind the others under the
key of now (R90). -/
theorem State.remakeRequest_waits {s : State} {st : StationId} {g : Target} {q : DeckRequest}
    (hq : (s.station st).requests.find? (fun r => r.target == g) = some q) (hc : s.Capped)
    (hf : ∀ d : DeckId, (s.deck d).player.state ≠ .free) (ht : s.stationTime st ≠ 281474976710655) :
    s.remakeRequest st g = State.setWaiting (s.modStation st fun x =>
      { x with requests := x.requests.erase q ++ [{ q with key := s.house.toNat }] }) st g := by
  have hg : q.target = g := by simpa using List.find?_some hq
  have hmem := List.mem_of_find?_eq_some hq
  have hcap : (s.modStation st fun x => { x with requests := x.requests.erase q }).belowCap st = true := by
    have hload : (s.held st).length + (s.station st).requests.length ≤ 4 := hc st
    have hlen := List.length_erase_of_mem hmem
    have hpos := List.length_pos_of_mem hmem
    rw [State.belowCap, decide_eq_true_eq, State.modStation_station]
    show (s.held st).length + ((s.station st).requests.erase q).length < 4
    omega
  have htime : (s.modStation st fun x => { x with requests := x.requests.erase q }).stationTime st = s.stationTime st := by
    rw [State.stationTime, State.modStation_station]
    rfl
  unfold State.remakeRequest
  rw [hq]
  show State.requestDeck _ st g q.slot q.looping (s.stationTime st) = _
  rw [State.requestDeck_waits hcap hf, ← htime, State.requestKey_stationTime (by rw [htime]; exact ht),
    State.modStation_modStation]
  subst hg
  rfl

/-! ## MISSING -/

theorem State.removeEntry_station (s : State) (st : StationId) (id : Nat) : ∃ b : Bool,
    (s.removeEntry st id).station st =
      { s.station st with
        list := (s.station st).list.filter fun e => e.id != id
        take := if (s.station st).take.any fun tk => tk.target == id then none else (s.station st).take
        preFade := if (s.station st).preFade.any fun p => p.id == id then none else (s.station st).preFade
        due := (s.station st).dueBut id
        dirty := true
        lowRel := b } := by
  unfold State.removeEntry
  simp only
  rw [State.evalLow_station, State.modStation_station]
  exact ⟨_, rfl⟩

/-- What serves an item is its own. -/
theorem Entry.serving_of_item {e : Entry} (h : e.isBreak = false) : e.serving = [e.served] := by
  cases hb : e.body with
  | item c => simp only [Entry.serving, hb]
  | brk b => simp only [Entry.isBreak, hb, Bool.true_eq_false] at h

/-- An item that nothing serves leaves its list with its requests (R70). -/
theorem State.dropEntry_unserved {s : State} {st : StationId} {e : Entry} (hb : (s.current st e).isBreak = false)
    (hv : (s.current st e).served = .none) :
    s.dropEntry st e = (s.withdraw st (Target.belongs e.id)).removeEntry st e.id := by
  have hs : (s.current st e).serving = [.none] := by
    rw [Entry.serving_of_item hb, hv]
  unfold State.dropEntry
  rw [hs]
  rfl

theorem State.removeEntry_find (s : State) (st : StationId) (id : Nat) : ((s.removeEntry st id).station st).find id = none := by
  obtain ⟨b, h⟩ := s.removeEntry_station st id
  rw [h, Station.find, List.find?_eq_none]
  intro x hx
  have := (List.mem_filter.mp hx).2
  simpa using this

/-- A due entry that is MISSING, ahead of its leaving: its record, its fault, and the take whose target it is dropped
(R91, R97, R102). -/
def State.missingMade (s : State) (st : StationId) (e : Entry) : State :=
  let u := (s.record (entryDisposed st e none e.scheduled (s.stationTime st) .missing none)).reportFault st .missing e.id
    e.cart (s.stationTime st)
  if (s.station st).take.any fun tk => tk.target == e.id then u.dropTake st else u

theorem State.entryMissing_eq (s : State) (st : StationId) (e : Entry) : s.entryMissing st e =
    ((s.missingMade st e).dropEntry st e).modStation st fun x => { x with acted := true } := rfl

theorem State.dropBits_marks (s : State) (st : StationId) {m : Byte} (h : ~~~m &&& 0x10 = 0x10) :
    (s.dropBits (stationSet st) m).marks = s.marks := by
  refine Prod.ext ?_ (funext fun u => ?_)
  · simp only [State.marks, State.dropBits]
    rw [State.setCond_cond_ne _ _ (stationSet_ne_deviceSet st)]
  · simp only [State.marks, State.dropBits]
    by_cases hu : stationSet st = stationSet u
    · rw [← hu, State.setCond_cond]
      exact (BitVec.and_assoc _ _ _).trans (congrArg _ h)
    · rw [State.setCond_cond_ne _ _ hu]

theorem State.evalLow_marks (s : State) (st : StationId) : (s.evalLow st).marks = s.marks := by
  have hm (b : Bool) : (s.modStation st fun y => { y with lowRel := b }).marks = s.marks := State.marks_congr rfl
  unfold State.evalLow
  simp only
  split
  · rw [State.raiseStation_marks _ _ (by decide), hm]
  · split
    · rw [State.dropBits_marks _ _ (by decide), hm]
    · exact hm _

theorem State.removeEntry_marks (s : State) (st : StationId) (id : Nat) : (s.removeEntry st id).marks = s.marks :=
  (State.evalLow_marks _ st).trans (State.marks_congr rfl)

theorem State.record_marks (s : State) (r : Record) : (s.record r).marks = s.marks := by
  unfold State.record
  split
  · exact (s.addRecord_frame r).1
  · exact State.marks_congr rfl

theorem Entry.returned_id (e : Entry) : e.returned.id = e.id := congrArg Prod.fst e.returned_place

theorem State.withdrawTake_fault (s : State) (st u : StationId) :
    ((s.withdrawTake st).station u).fault = (s.station u).fault := by
  cases h : (s.station st).take with
  | none => rw [State.withdrawTake_none h]
  | some k =>
    rw [State.withdrawTake_some h, State.modEntry, State.modStation_modStation]
    by_cases hu : st = u
    · subst hu
      rw [State.modStation_station]
    · rw [State.modStation_station_ne _ _ hu]

theorem State.withdrawTake_find {s : State} {st : StationId} {id : Nat} {e : Entry}
    (he : (s.station st).find id = some e) : ∃ y, ((s.withdrawTake st).station st).find id = some y ∧
      (y = e ∨ y = e.returned) := by
  cases h : (s.station st).take with
  | none => exact ⟨e, by rw [State.withdrawTake_none h]; exact he, .inl rfl⟩
  | some k =>
    have hfind : ((s.modStation st fun x =>
        { x with take := none, due := x.dueBut k.target, dirty := true }).station st).find id = some e := by
      rw [State.modStation_station]
      exact he
    rw [State.withdrawTake_some h, State.modEntry_find _ _ _ _ Entry.returned_id, hfind]
    refine ⟨_, rfl, ?_⟩
    by_cases hk : e.id = k.target
    · exact .inr (if_pos hk)
    · exact .inl (if_neg hk)

section Missing

variable {s : State} {st : StationId} {e : Entry}

theorem State.missingMade_decks : (s.missingMade st e).decks = s.decks := by
  unfold State.missingMade
  simp only
  split
  · rw [State.dropTake_decks, State.reportFault_decks, State.record_decks]
  · rw [State.reportFault_decks, State.record_decks]

theorem State.missingMade_fault : ((s.missingMade st e).station st).fault =
    some (faultAfter (s.station st).fault .missing e.id e.cart (s.stationTime st)) := by
  unfold State.missingMade
  simp only
  split
  · rw [State.station_congr (State.dropTake_stations _ st), State.withdrawTake_fault, State.reportFault_station,
      State.station_congr (s.record_stations _)]
  · rw [State.reportFault_station, State.station_congr (s.record_stations _)]

/-- What the record, the fault and the take dropped leave of the log is the record's. -/
theorem State.missingMade_log :
    (s.missingMade st e).log = (s.record (entryDisposed st e none e.scheduled (s.stationTime st) .missing none)).log ∧
    (s.missingMade st e).recordsHeld =
      (s.record (entryDisposed st e none e.scheduled (s.stationTime st) .missing none)).recordsHeld := by
  have hfault (u : State) : (u.reportFault st .missing e.id e.cart (s.stationTime st)).log = u.log := by
    unfold State.reportFault
    split
    · simp [State.log, State.raiseStation]
    · rfl
  have hdrop (u : State) : (u.dropTake st).log = u.log ∧ (u.dropTake st).recordsHeld = u.recordsHeld := by
    cases h : (u.station st).take with
    | none => rw [State.dropTake_none h]; exact ⟨rfl, rfl⟩
    | some k =>
      rw [State.dropTake_some h, State.withdrawTake_some h]
      exact ⟨(congrArg State.log (State.raiseBits_unsent _ _ _) :), State.raiseBits_recordsHeld _ _ _⟩
  unfold State.missingMade
  simp only
  split
  · rw [(hdrop _).1, (hdrop _).2, hfault, State.reportFault_recordsHeld]
    exact ⟨rfl, rfl⟩
  · rw [hfault, State.reportFault_recordsHeld]
    exact ⟨rfl, rfl⟩

theorem State.missingMade_find (he : (s.station st).find e.id = some e) :
    ∃ y, ((s.missingMade st e).station st).find e.id = some y ∧ (y = e ∨ y = e.returned) := by
  have hu : (((s.record (entryDisposed st e none e.scheduled (s.stationTime st) .missing none)).reportFault st .missing
      e.id e.cart (s.stationTime st)).station st).find e.id = some e := by
    rw [State.reportFault_station, State.station_congr (s.record_stations _)]
    exact he
  unfold State.missingMade
  simp only
  split
  · rw [State.station_congr (State.dropTake_stations _ st)]
    exact State.withdrawTake_find hu
  · exact ⟨e, hu, .inl rfl⟩

/-- The take is dropped where the entry is its target, and stands where it is not; the other entries stand. -/
theorem State.missingMade_take :
    (∀ k : PendingTake, (s.station st).take = some k →
      (k.target = e.id → ((s.missingMade st e).station st).take = none ∧ (s.missingMade st e).marks.2 st = 0x10) ∧
      (k.target ≠ e.id → ((s.missingMade st e).station st).take = some k ∧
        (s.missingMade st e).marks.2 st = s.marks.2 st)) ∧
    ((s.missingMade st e).station st).list.filter (fun y => y.id != e.id) =
      (s.station st).list.filter fun y => y.id != e.id := by
  unfold State.missingMade
  simp only
  generalize hu : (s.record (entryDisposed st e none e.scheduled (s.stationTime st) .missing none)).reportFault st .missing
      e.id e.cart (s.stationTime st) = u
  have hx : u.station st = { s.station st with
      fault := some (faultAfter (s.station st).fault .missing e.id e.cart (s.stationTime st)) } := by
    rw [← hu, State.reportFault_station, State.station_congr (s.record_stations _)]
  have hm : u.marks = s.marks := by
    rw [← hu, (State.reportFault_frame _ _ _ _ _ _).1, State.record_marks]
  have hlist : (u.station st).list = (s.station st).list := by rw [hx]
  have htake : (u.station st).take = (s.station st).take := by rw [hx]
  constructor
  · intro k hk
    rw [hk, Option.any_some]
    constructor
    · intro ht
      rw [if_pos (by rw [ht]; exact beq_self_eq_true _)]
      refine ⟨by rw [State.station_congr (State.dropTake_stations u st), State.withdrawTake_take], ?_⟩
      rw [State.dropTake_some (htake.trans hk)]
      simp only [State.marks, State.raiseStation]
      rw [State.raiseBits_cond]
      exact CondSet.raise_pending_and _ _
    · intro ht
      rw [if_neg (by simpa using ht), htake, hk, hm]
      exact ⟨rfl, rfl⟩
  · split
    next h =>
      obtain ⟨k, hk, hke⟩ := Option.any_eq_true _ _ |>.mp h
      rw [State.station_congr (State.dropTake_stations u st), State.withdrawTake_some (htake.trans hk), State.modEntry,
        State.modStation_modStation, State.modStation_station]
      show ((u.station st).list.map fun y => if y.id = k.target then y.returned else y).filter _ = _
      rw [beq_iff_eq.mp hke, hlist, List.filter_map]
      have hid (y : Entry) : (if y.id = e.id then y.returned else y).id = y.id := by
        split
        · exact Entry.returned_id y
        · rfl
      have hp : ((fun y : Entry => y.id != e.id) ∘ fun y => if y.id = e.id then y.returned else y) =
          fun y => y.id != e.id := funext fun y => congrArg (· != e.id) (hid y)
      rw [hp]
      refine (List.map_congr_left fun y hy => if_neg ?_).trans (List.map_id _)
      simpa using (List.mem_filter.mp hy).2
    · rw [hlist]

theorem Moved.entryMissing : Moved true true s (s.entryMissing st e) := by
  rw [State.entryMissing_eq]
  refine Moved.trans (Moved.trans ?_ Moved.dropEntry) (Moved.modStation ?_)
  · unfold State.missingMade
    exact Moved.ite (((Moved.record _ _).trans Moved.reportFault).trans Moved.dropTake)
      ((Moved.record _ _).trans Moved.reportFault)
  · exact fun _ => ⟨⟨rfl, rfl, rfl, rfl, rfl, fun _ => rfl⟩, rfl⟩

/-- Of an item that nothing serves the station is as its record, its fault and its leaving make it. -/
theorem State.entryMissing_station (hd : (s.missingMade st e).dropEntry st e =
    ((s.missingMade st e).withdraw st (Target.belongs e.id)).removeEntry st e.id) :
    ((s.entryMissing st e).station st).find e.id = none ∧
    ((s.entryMissing st e).station st).list = ((s.missingMade st e).station st).list.filter (fun y => y.id != e.id) ∧
    ((s.entryMissing st e).station st).take = (if ((s.missingMade st e).station st).take.any fun tk => tk.target == e.id
      then none else ((s.missingMade st e).station st).take) ∧
    ((s.entryMissing st e).station st).fault = ((s.missingMade st e).station st).fault ∧
    ((s.entryMissing st e).station st).dirty = true ∧ (s.entryMissing st e).decks = (s.missingMade st e).decks ∧
    (s.entryMissing st e).log = (s.missingMade st e).log ∧
    (s.entryMissing st e).recordsHeld = (s.missingMade st e).recordsHeld ∧
    (s.entryMissing st e).marks = (s.missingMade st e).marks := by
  rw [State.entryMissing_eq, hd]
  generalize s.missingMade st e = u
  obtain ⟨b, hx⟩ := (u.withdraw st (Target.belongs e.id)).removeEntry_station st e.id
  have hw : (u.withdraw st (Target.belongs e.id)).station st = _ := State.modStation_station _ _ _
  rw [hw] at hx
  refine ⟨?_, ?_, ?_, ?_, ?_, ?_, ?_, ?_, ?_⟩
  · rw [State.modStation_station]
    exact State.removeEntry_find _ st e.id
  · rw [State.modStation_station, hx]
  · rw [State.modStation_station, hx]
  · rw [State.modStation_station, hx]
  · rw [State.modStation_station, hx]
  · exact State.evalLow_decks _ st
  · exact (congrArg State.log (State.evalLow_unsent _ st) :)
  · exact State.evalLow_recordsHeld _ st
  · exact (State.marks_congr rfl).trans ((State.removeEntry_marks _ st e.id).trans (State.marks_congr rfl))

end Missing

end Sys2Proof.Machine

namespace Sys2Proof
open Machine

/-- Settles O43: PENDING with its request as it was, with its request made anew, and MISSING. -/
theorem dueWithoutDeck : Obligations.DueWithoutDeck := by
  unfold Obligations.DueWithoutDeck
  intro s st e run hin hl hfirst hdue hdeck hrun
  obtain ⟨-, -, -, -, hbrk, hmem, hns⟩ := State.firstItem_some hfirst
  have he : (s.station st).find e.id = some e := find?_of_mem (hl.nodup st) hmem
  have hjudge : s.opJudgeFirst st = s.judgeDue st e := by
    simp only [State.opJudgeFirst, hfirst, hdue, if_true, hdeck]
  have hruns : run (s.judgeDue st e) := by
    rcases hrun with ⟨hp, hk, hn, rfl⟩ | ⟨-, rfl⟩
    · refine (hin.event fun y => y.opHardDue st).trans ?_
      rw [State.opHardDue_judge hp hfirst hk hn, hjudge]
    · exact hjudge
  have hpend : e.startKind = .hard → e.state ≠ .pending := by
    rcases hrun with ⟨-, -, hn, -⟩ | ⟨hk, -⟩
    · exact fun _ => hn
    · exact fun h => absurd h hk
  have hmoment : s.dueFor st e = ⟨if e.startKind = .hard then e.dueTime else s.stationTime st, s.house⟩ := rfl
  refine ⟨fun hnone hfound => ?_, fun q hv hn hq hcap hfull htime => ?_, fun hv hnone => ?_⟩
  · have ht : s.judgeDue st e = s.entryDue st e := by
      have hnot : ¬ (e.served = .none ∧ (s.lookup st e.cart).isNone = true ∧
          (e.startKind = .hard → e.state ≠ .pending)) := by
        rintro ⟨h1, h2, -⟩
        rcases hfound with h | h
        · rw [Option.isNone_iff_eq_none.mp h2] at h
          cases h
        · exact h h1
      rw [State.judgeDue, if_neg hnot, State.entryPending_eq]
      split
      · rfl
      · refine State.remakeRequest_none fun q hq => hnone q ?_
        rwa [State.entryDue, State.modStation_station] at hq
    refine ⟨_, hruns, ?_⟩
    rw [ht]
    have hx : (s.entryDue st e).station st = _ := State.modStation_station _ _ _
    refine ⟨State.entryDue_find he, fun hd => ?_, fun m hd => ?_, (congrArg Station.requests hx :),
      (congrArg Station.take hx :),
      rfl, rfl, rfl, rfl, rfl, fun u hu => State.modStation_station_ne _ _ (Ne.symm hu)⟩
    · rw [hx]
      simp only [hd, hmoment, HOrElse.hOrElse, OrElse.orElse, Option.orElse]
    · rw [hx]
      simp only [hd, HOrElse.hOrElse, OrElse.orElse, Option.orElse]
  · have hx : (s.entryDue st e).station st = _ := State.modStation_station _ _ _
    have ht : s.judgeDue st e = (s.entryDue st e).remakeRequest st (.item e.id) := by
      rw [State.judgeDue, if_neg (fun h => by rw [hv] at h; exact Served.noConfusion h.1), State.entryPending_eq, if_neg hn]
    have hq' : ((s.entryDue st e).station st).requests.find? (fun x => x.target == .item e.id) = some q := by
      rw [hx]
      exact hq
    have hcap' : (s.entryDue st e).Capped := fun u => by
      have hreq : ((s.entryDue st e).station u).requests = (s.station u).requests := by
        by_cases hu : st = u
        · subst hu
          rw [hx]
        · rw [State.entryDue, State.modStation_station_ne _ _ hu]
      show ((s.entryDue st e).held u).length + ((s.entryDue st e).station u).requests.length ≤ 4
      rw [hreq]
      exact hcap u
    have htime' : (s.entryDue st e).stationTime st = s.stationTime st := by
      rw [State.stationTime, hx]
      rfl
    rw [State.remakeRequest_waits hq' hcap' hfull (by rw [htime']; exact htime)] at ht
    refine ⟨_, hruns, ?_⟩
    rw [ht]
    refine ⟨?_, ?_, rfl, rfl, rfl, rfl⟩
    · refine (State.modEntry_find_own (e := { e with state := .pending })
        (f := fun y : Entry => { y with served := .waiting }) (fun _ => rfl) ?_).trans ?_
      · rw [State.modStation_station]
        exact State.entryDue_find he
      · rw [← hv]
    · rw [State.setWaiting, State.modEntry, State.modStation_modStation, State.modStation_station, hx]
      rfl
  · have ht : s.judgeDue st e = s.entryMissing st e := if_pos ⟨hv, by rw [hnone]; rfl, hpend⟩
    obtain ⟨y, hy, hye⟩ := State.missingMade_find he
    have hcur : (s.missingMade st e).current st e = y := by rw [State.current, hy, Option.getD_some]
    have hyb : y.isBreak = false ∧ y.served = .none := by
      rcases hye with rfl | rfl
      · exact ⟨hbrk, hv⟩
      · rcases e.returned_eq with h | ⟨-, h | h⟩ <;> rw [h] <;> exact ⟨hbrk, hv⟩
    have hdrop := State.dropEntry_unserved (s := s.missingMade st e) (st := st) (e := e) (by rw [hcur]; exact hyb.1)
      (by rw [hcur]; exact hyb.2)
    have hmoved : Moved true true s (s.entryMissing st e) := Moved.entryMissing
    obtain ⟨hfind, hlist, htake, hfault, hdirty, hdecks, hlog, hheld, hmarks⟩ := State.entryMissing_station hdrop
    obtain ⟨htk, hother⟩ := State.missingMade_take (s := s) (st := st) (e := e)
    obtain ⟨hmlog, hmheld⟩ := State.missingMade_log (s := s) (st := st) (e := e)
    refine ⟨_, hruns, ?_⟩
    rw [ht]
    refine ⟨hfind, by rw [hlist, hother], fun r hr => ⟨fun h1 h2 => ?_, fun h1 => ?_⟩, fun hf => ?_, fun k hk => ?_, hdirty,
      hdecks.trans State.missingMade_decks, hmoved.beds, (Fixed.fields hmoved.fixed).2.1⟩
    · rw [State.record_of_none s _ h1] at hmlog
      have h : (s.entryMissing st e).asrun = _ := (congrArg Prod.fst (hlog.trans hmlog) :)
      rw [h, hr]
      exact State.addRecord_accepted h2 _
    · rw [State.record_of_held s _ h1] at hmlog hmheld
      refine ⟨(congrArg Prod.fst (hlog.trans hmlog) :), ?_⟩
      rw [hheld, hmheld, hr]
      rfl
    · rw [hfault, State.missingMade_fault, hf]
      rfl
    · obtain ⟨hown, hoth⟩ := htk k hk
      refine ⟨fun hke => ?_, fun hke => ?_⟩
      · obtain ⟨h1, h2⟩ := hown hke
        refine ⟨by rw [htake, h1]; rfl, ?_⟩
        exact (congrArg (fun m => m.2 st) hmarks).trans h2
      · obtain ⟨h1, h2⟩ := hoth hke
        refine ⟨by rw [htake, h1, Option.any_some, if_neg (by simpa using hke)], ?_⟩
        exact (congrArg (fun m => m.2 st) hmarks).trans h2

end Sys2Proof
end

section
/-!
PROOFS. Ends of play: the records they make and their places, what becomes of the deck, the entry and the bed.
-/

namespace Sys2Proof.Machine

/-! ## A deck set free while no request waits -/

/-- What a deck that goes FREE leaves, where no request waits. -/
structure Freed (d : DeckId) (st : StationId) (s t : State) : Prop where
  deck : t.deck d = ⟨(s.deck d).player.freed, none, none⟩
  decks : ∀ q : DeckId, q ≠ d → t.deck q = s.deck q
  own : t.station st = { s.station st with dirty := true }
  others : ∀ u : StationId, u ≠ st → t.station u = s.station u
  beds : t.beds = s.beds
  conds : t.conds = s.conds
  log : t.log = s.log
  held : t.recordsHeld = s.recordsHeld
  fixed : t.fixed = s.fixed

theorem State.freeDeck_freed {s : State} {d : DeckId} {st : StationId} (h : s.Unasked)
    (hd : (s.deck d).station = some st) : Freed d st s (s.freeDeck d) := by
  rw [State.freeDeck_unasked h hd]
  have hset : Freed d st s ((s.setDeck d ⟨(s.deck d).player.freed, none, none⟩).markDirty st) :=
    ⟨State.setDeck_deck _ _ _, fun q hq => State.setDeck_deck_ne _ _ (Ne.symm hq), State.modStation_station _ _ _,
      fun u hu => State.modStation_station_ne _ _ (Ne.symm hu), rfl, rfl, rfl, rfl, rfl⟩
  cases (s.deck d).player.slot with
  | none => exact hset
  | some k =>
    simp only
    generalize hv : s.setDeck d ⟨(s.deck d).player.freed, none, none⟩ = v at hset
    obtain ⟨hc, -, hl, hh, hs, hdk, hb, hf⟩ := v.unbindSlot_frame k
    generalize v.unbindSlot k = w at hc hl hh hs hdk hb hf
    have hdeck (q : DeckId) : w.deck q = v.deck q := congrArg (fun x : Vector Deck 16 => x[q]) hdk
    refine ⟨(hdeck d).trans hset.deck, fun q hq => (hdeck q).trans (hset.decks q hq), ?_, fun u hu => ?_,
      hb.trans hset.beds, hc.trans hset.conds, hl.trans hset.log, hh.trans hset.held, hf.trans hset.fixed⟩
    · rw [← hset.own, State.markDirty, State.markDirty, State.modStation_station, State.modStation_station,
        State.station_congr hs]
    · rw [← hset.others u hu, State.markDirty, State.markDirty, State.modStation_station_ne _ _ (Ne.symm hu),
        State.modStation_station_ne _ _ (Ne.symm hu), State.station_congr hs]

/-- Nothing a deck's end of play is judged by changes as its target is ended. -/
structure Ended (st : StationId) (s t : State) : Prop where
  unasked : t.Unasked
  decks : t.decks = s.decks
  beds : t.beds = s.beds
  others : ∀ u : StationId, u ≠ st → t.station u = s.station u
  media : t.media = s.media
  house : t.house = s.house

/-- An end of play, from what it makes of the target (R37). -/
theorem exec_deckEndOfPlay {s u : State} {d : DeckId} {st : StationId} {c : EndCause} (hs : s.AtRest)
    (he : (s.deck d).player.ended = some c) (hd : (s.deck d).station = some st) (hu : s.endTarget st d c = u)
    (h : Ended st s u) :
    ∃ t : State, exec (.deckEndOfPlay d) s = .next t.release.settlePool ∧ Freed d st u t ∧
      (t.deck d).player.state = .free ∧ (t.deck d).station = none ∧ (∀ q : DeckId, q ≠ d → t.deck q = s.deck q) ∧
      t.beds = s.beds ∧ t.media = s.media ∧ t.house = s.house ∧ ∀ v : StationId, v ≠ st → t.station v = s.station v := by
  have hdeck (q : DeckId) : u.deck q = s.deck q := congrArg (fun x : Vector Deck 16 => x[q]) h.decks
  have hexec : exec (.deckEndOfPlay d) s = .next (u.freeDeck d).release.settlePool := by
    refine (hs.event fun x => (x.opDeckEnd d).settlePool).trans (congrArg (fun t => Host.Outcome.next (State.settlePool t)) ?_)
    unfold State.opDeckEnd
    rw [he, hd, ← hu]
  have hf := State.freeDeck_freed h.unasked ((congrArg Deck.station (hdeck d)).trans hd)
  obtain ⟨hhouse, hmedia, -⟩ := Fixed.fields hf.fixed
  refine ⟨_, hexec, hf, ?_, ?_, fun q hq => (hf.decks q hq).trans (hdeck q), hf.beds.trans h.beds, hmedia.trans h.media,
    hhouse.trans h.house, fun v hv => (hf.others v hv).trans (h.others v hv)⟩
  · rw [hf.deck]
    rfl
  · rw [hf.deck]

/-! ## Records in their place -/

/-- The places of the records of the break of `r` (R132). -/
def breakPlaces (r : Record) (l : List (Option Nat × Record)) : List Nat :=
  l.filterMap fun x => if x.2.station = r.station ∧ x.2.entryId = r.entryId then x.1 else none

theorem breakPlaces_cons (r : Record) (x : Option Nat × Record) (l : List (Option Nat × Record)) :
    breakPlaces r (x :: l) = (if x.2.station = r.station ∧ x.2.entryId = r.entryId then x.1.toList else []) ++
      breakPlaces r l := by
  unfold breakPlaces
  rw [List.filterMap_cons]
  split_ifs
  · cases x.1 <;> rfl
  · rfl

/-- The places of a break's records keep their order (R132). -/
theorem placeRecord_sorted (i : Nat) (r : Record) (l : List (Option Nat × Record))
    (h : (breakPlaces r l).Pairwise (· ≤ ·)) : (breakPlaces r (placeRecord i r l)).Pairwise (· ≤ ·) := by
  induction l with
  | nil => simp [placeRecord, breakPlaces]
  | cons x l ih =>
    unfold placeRecord
    split
    next hx =>
      obtain ⟨h1, h2, h3⟩ := hx
      obtain ⟨k, hk, hik⟩ := Option.any_eq_true _ _ |>.mp h3
      have hik := of_decide_eq_true hik
      rw [breakPlaces_cons, if_pos ⟨rfl, rfl⟩]
      refine List.pairwise_cons.mpr ⟨fun m hm => ?_, h⟩
      rw [breakPlaces_cons, if_pos ⟨h1, h2⟩, hk] at h hm
      rcases List.mem_cons.mp hm with rfl | hm
      · exact Nat.le_of_lt hik
      · exact Nat.le_of_lt (lt_of_lt_of_le hik (List.rel_of_pairwise_cons h hm))
    next hx =>
      rw [breakPlaces_cons] at h ⊢
      by_cases hb : x.2.station = r.station ∧ x.2.entryId = r.entryId
      · rw [if_pos hb] at h ⊢
        cases hk : x.1 with
        | none =>
          rw [hk] at h
          exact ih h
        | some k =>
          rw [hk] at h
          have hki : k ≤ i := by
            by_contra hlt
            exact hx ⟨hb.1, hb.2, by rw [hk]; exact decide_eq_true (Nat.not_le.mp hlt)⟩
          obtain ⟨hle, hrest⟩ := List.pairwise_cons.mp h
          refine List.pairwise_cons.mpr ⟨fun m hm => ?_, ih hrest⟩
          obtain ⟨y, hy, hym⟩ := List.mem_filterMap.mp hm
          rcases List.mem_cons.mp ((placeRecord_perm i r l).mem_iff.mp hy) with rfl | hyl
          · rw [if_pos ⟨rfl, rfl⟩] at hym
            exact (Option.some.inj hym) ▸ hki
          · exact hle m (List.mem_filterMap.mpr ⟨y, hyl, hym⟩)
      · rw [if_neg hb] at h ⊢
        exact ih h

/-! ## What an end of play makes of its target -/

section Targets

variable {s : State} {d : DeckId} {st : StationId} {c : EndCause} {e : Entry} {b : BreakData}

theorem State.endTarget_item (ht : (s.deck d).target = some (.item e.id)) (he : (s.station st).find e.id = some e) :
    s.endTarget st d c = (s.record (s.itemPlayed st e d (s.endTimeOf st (s.deck d).player) (itemOutcome c e.cut))).removeEntry
      st e.id := by
  simp only [State.endTarget, ht, he]

theorem State.breakOf_brk (he : (s.station st).find e.id = some e) (hb : e.body = .brk b) :
    s.breakOf st e.id = some (e, b) := by
  simp only [State.breakOf, he, hb]

theorem State.endTarget_spot {i : Nat} {p : Spot} (ht : (s.deck d).target = some (.spot e.id i))
    (he : (s.station st).find e.id = some e) (hb : e.body = .brk b) (hp : b.spots[i]? = some p) :
    s.endTarget st d c = (s.breakRecord i (s.spotPlayed st e b i p d (s.endTimeOf st (s.deck d).player)
      (spotOutcome p.cut))).modSpot st e.id i fun q => { q with state := .done, served := .none } := by
  simp only [State.endTarget, ht, State.breakOf_brk he hb, hp]

theorem State.endTarget_fill (ht : (s.deck d).target = some (.fill e.id)) (he : (s.station st).find e.id = some e)
    (hb : e.body = .brk b) : s.endTarget st d c =
      (s.breakRecord b.spots.length (s.fillPlayed st e b d (s.endTimeOf st (s.deck d).player))).modBreak st e.id
        fun b' => { b' with fillState := .done, fillServed := .none } := by
  simp only [State.endTarget, ht, State.breakOf_brk he hb]

theorem State.endTarget_trail {tr : Trail} {fill : Bool}
    (ht : (s.deck d).target = some (if fill = true then .trailFill tr else .trailSpot tr)) :
    s.endTarget st d c = s.breakRecord tr.index (s.trailPlayed st tr d (s.endTimeOf st (s.deck d).player)
      (if fill = true then .fill else if tr.cut = true then .cut else .complete)) := by
  cases fill
  · simp only [State.endTarget, ht, Bool.false_eq_true, if_false, spotOutcome]
  · simp only [State.endTarget, ht, if_true]

theorem State.modBreak_find_own {f : BreakData → BreakData} (he : (s.station st).find e.id = some e)
    (hb : e.body = .brk b) :
    ((s.modBreak st e.id f).station st).find e.id = some { e with body := .brk (f b) } := by
  rw [State.modBreak, State.modEntry_find_own (fun y => ?_) he]
  · rw [hb]
  · split <;> rfl

theorem State.removeEntry_station_ne (s : State) {u : StationId} (id : Nat) (h : u ≠ st) :
    (s.removeEntry st id).station u = s.station u := by
  unfold State.removeEntry
  simp only
  rw [State.evalLow_station_ne _ h, State.modStation_station_ne _ _ (Ne.symm h)]

theorem State.unasked_congr {t : State} (h : t.stations = s.stations) (hs : s.Unasked) : t.Unasked := fun u => by
  rw [State.station_congr h]
  exact hs u

theorem Ended.of_moved {u : State} (hu : u.Unasked) (hd : u.decks = s.decks)
    (ho : ∀ v : StationId, v ≠ st → u.station v = s.station v) (hm : Moved true true s u) : Ended st s u :=
  ⟨hu, hd, hm.beds, ho, (Fixed.fields hm.fixed).2.1, (Fixed.fields hm.fixed).1⟩

/-- A spot or fill ended behind its record. -/
theorem Ended.modBreak {i id : Nat} {r : Record} {f : BreakData → BreakData} (hs : s.Unasked) :
    Ended st s ((s.breakRecord i r).modBreak st id f) :=
  .of_moved (Calm.modBreak (s := s.breakRecord i r) hs).unasked rfl
    (fun _ hv => State.modStation_station_ne (s.breakRecord i r) _ (Ne.symm hv))
    ((Moved.breakRecord s i r).trans Moved.modBreak)

/-- An item's entry gone behind its record. -/
theorem Ended.removeEntry {id : Nat} {r : Record} (hs : s.Unasked) : Ended st s ((s.record r).removeEntry st id) :=
  .of_moved (Calm.removeEntry (State.unasked_congr (s.record_stations r) hs)).unasked
    ((State.evalLow_decks _ st).trans (s.record_decks r))
    (fun _ hv => ((s.record r).removeEntry_station_ne id hv).trans (State.station_congr (s.record_stations r) _))
    ((Moved.record s r).trans Moved.removeEntry)

theorem Freed.find {u t : State} (h : Freed d st u t) (id : Nat) : (t.station st).find id = (u.station st).find id := by
  rw [h.own]
  rfl

theorem Freed.asrun {u t : State} (h : Freed d st u t) : t.asrun = u.asrun := (congrArg Prod.fst h.log :)

end Targets

theorem itemOutcome_eq (c : EndCause) (cut : Bool) :
    itemOutcome c cut = if c = .faded ∧ cut = true then .cut else .complete := by
  cases c <;> cases cut <;> rfl

/-! ## Bed players -/

/-- A bed that is EMPTY and spent is not bound anew (R43). -/
theorem State.bedTryBind_spent {s : State} {st : StationId} (h : (s.bed st).spent = true) : s.bedTryBind st = s :=
  if_neg fun hb => by rw [h] at hb; exact Bool.noConfusion hb.2

/-- What a binding of a bed player leaves. -/
structure BedOnly (st : StationId) (s t : State) : Prop where
  decks : t.decks = s.decks
  stations : t.stations = s.stations
  others : ∀ u : StationId, u ≠ st → t.bed u = s.bed u
  wanted : (t.bed st).airWanted = (s.bed st).airWanted
  asrun : t.asrun = s.asrun
  held : t.recordsHeld = s.recordsHeld
  media : t.media = s.media

theorem BedOnly.trans {st : StationId} {s t u : State} (h : BedOnly st s t) (k : BedOnly st t u) : BedOnly st s u :=
  ⟨k.decks.trans h.decks, k.stations.trans h.stations, fun v hv => (k.others v hv).trans (h.others v hv),
    k.wanted.trans h.wanted, k.asrun.trans h.asrun, k.held.trans h.held, k.media.trans h.media⟩

theorem BedOnly.setBed {st : StationId} {s : State} {x : Bed} (h : x.airWanted = (s.bed st).airWanted) :
    BedOnly st s (s.setBed st x) :=
  ⟨rfl, rfl, fun u hu => State.setBed_bed_ne _ _ (Ne.symm hu), by rw [State.setBed_bed]; exact h, rfl, rfl, rfl⟩

theorem BedOnly.bedTryBind {st : StationId} {s : State} : BedOnly st s (s.bedTryBind st) := by
  have hr : BedOnly st s s := ⟨rfl, rfl, fun _ _ => rfl, rfl, rfl, rfl, rfl⟩
  unfold State.bedTryBind
  split
  · split
    · exact hr
    · next e _ =>
      have hb : BedOnly st s (s.modBedPlayer st fun p => p.bound e true) := BedOnly.setBed rfl
      exact ⟨hb.decks, hb.stations, hb.others, hb.wanted, hb.asrun, hb.held, hb.media⟩
  · exact hr

theorem BedOnly.bedUnbind {st : StationId} {s : State} : BedOnly st s (s.bedUnbind st) ∧
    ((s.bedUnbind st).bed st).player.state = .free := by
  have hb : BedOnly st s (s.modBedPlayer st fun p => { p.freed with buffer := [] }) := BedOnly.setBed rfl
  have hfree : ((s.modBedPlayer st fun p => { p.freed with buffer := [] }).bed st).player.state = .free := by
    rw [State.modBedPlayer_bed]
    rfl
  unfold State.bedUnbind
  simp only
  generalize (s.modBedPlayer st fun p => { p.freed with buffer := [] }) = v at hb hfree ⊢
  split
  · exact ⟨hb, hfree⟩
  · next k _ =>
    obtain ⟨-, ha, -, hh, hs, hd, hbd, hf⟩ := v.unbindSlot_frame k
    have hbed (u : StationId) : (v.unbindSlot k).bed u = v.bed u := congrArg (fun x : Vector Bed 6 => x[u]) hbd
    refine ⟨hb.trans ⟨hd, hs, fun u _ => hbed u, by rw [hbed], ha, hh, (Fixed.fields hf).2.1⟩, ?_⟩
    rw [hbed]
    exact hfree

/-- A record that the log accepts goes behind all others. -/
theorem State.record_records {s : State} (h : s.logAccepts = true) (r : Record) :
    (∃ n, (s.record r).records = s.records ++ [{ r with seq := n }]) ∧
      (s.recordsHeld = [] → (s.record r).recordsHeld = []) := by
  by_cases hh : s.recordsHeld = []
  · rw [State.record_of_none s r hh]
    refine ⟨⟨s.nextSeq, ?_⟩, fun _ => by rw [State.addRecord_recordsHeld, hh]⟩
    rw [State.records, State.addRecord_accepted h, State.addRecord_recordsHeld, State.records, hh]
    simp
  · rw [State.record_of_held s r hh]
    exact ⟨⟨r.seq, by simp [State.records]⟩, fun h => absurd h hh⟩

/-- The end of a bed player's play: its record, and a bed that is spent by it or bound anew (R43, R145). -/
theorem State.opBedEnd_ended {s : State} {st : StationId} {c : EndCause} (hc : (s.bed st).player.ended = some c) :
    ∃ t : State, s.opBedEnd st = t ∧
      BedOnly st (s.record (s.bedPlayed st (s.endTimeOf st (s.bed st).player))) t ∧
      (c = .trimOut → (s.station st).mode = .fallback → (t.bed st).spent = true ∧ (t.bed st).player.state = .free) := by
  refine ⟨_, rfl, ?_, fun h1 h2 => ?_⟩
  · unfold State.opBedEnd
    rw [hc]
    simp only
    obtain ⟨hon, -⟩ := BedOnly.bedUnbind (st := st)
      (s := s.record (s.bedPlayed st (s.endTimeOf st (s.bed st).player)))
    refine hon.trans (BedOnly.trans ?_ BedOnly.bedTryBind)
    split
    · exact BedOnly.setBed rfl
    · exact ⟨rfl, rfl, fun _ _ => rfl, rfl, rfl, rfl, rfl⟩
  · unfold State.opBedEnd
    rw [hc]
    simp only
    obtain ⟨-, hfree⟩ := BedOnly.bedUnbind (st := st)
      (s := s.record (s.bedPlayed st (s.endTimeOf st (s.bed st).player)))
    rw [if_pos ⟨h1, h2⟩]
    generalize (s.record (s.bedPlayed st (s.endTimeOf st (s.bed st).player))).bedUnbind st = v at hfree ⊢
    have hspent : ((v.setBed st { v.bed st with spent := true }).bed st).spent = true := by rw [State.setBed_bed]
    rw [State.bedTryBind_spent hspent, State.setBed_bed]
    exact ⟨rfl, hfree⟩

end Sys2Proof.Machine

namespace Sys2Proof
open Machine

/-- Settles O51: ends of play target by target, the places of records, and beds. -/
theorem playsEnd : Obligations.PlaysEnd := by
  unfold Obligations.PlaysEnd
  refine ⟨fun s d st c e hs hl hq he hd ht hf => ?_, fun s d st c hs hl hq he hd => ⟨fun e b i p ht hf hb hp => ?_,
    fun e b ht hf hb => ?_, fun tr fill ht => ?_⟩, fun i r l places hpl => ?_, fun s st c hs hc => ?_,
    fun s st y hin hp hw hy => ?_⟩
  · have hu := State.endTarget_item (c := c) ht hf
    obtain ⟨t, hexec, hfr, hfree, hst, hdk, hbd, hmd, hhs, hoth⟩ := exec_deckEndOfPlay hs he hd hu (Ended.removeEntry hq)
    refine ⟨t, hexec, hfree, hst, (hfr.find e.id).trans (State.removeEntry_find _ st e.id), fun r hr => ?_, hdk, hbd, hmd,
      hhs, hoth⟩
    have hplayed : s.itemPlayed st e d (s.endTimeOf st (s.deck d).player) (itemOutcome c e.cut) = r := by
      rw [hr, itemOutcome_eq]
      rfl
    rw [hplayed] at hfr
    have hlog : t.log = (s.record r).log := hfr.log.trans (congrArg State.log (State.evalLow_unsent _ st) :)
    have hheld : t.recordsHeld = (s.record r).recordsHeld := hfr.held.trans (State.evalLow_recordsHeld _ st)
    refine ⟨fun h1 h2 => ?_, fun h1 => ?_⟩
    · rw [State.record_of_none s r h1] at hlog hheld
      rw [State.addRecord_recordsHeld] at hheld
      exact ⟨(congrArg Prod.fst hlog :).trans (State.addRecord_accepted h2 r), hheld.trans h1⟩
    · rw [State.record_of_held s r h1] at hlog hheld
      exact ⟨(congrArg Prod.fst hlog :), hheld⟩
  · have hu := State.endTarget_spot (c := c) ht hf hb hp
    obtain ⟨t, hexec, hfr, hfree, hst, hdk, hbd, hmd, hhs, hoth⟩ := exec_deckEndOfPlay hs he hd hu (Ended.modBreak hq)
    exact ⟨t, hexec, hfree, hst, (hfr.find e.id).trans (State.modBreak_find_own (s := s.breakRecord i _) hf hb), hfr.held,
      hfr.asrun, hdk, hbd, hmd, hhs, hoth⟩
  · have hu := State.endTarget_fill (c := c) ht hf hb
    obtain ⟨t, hexec, hfr, hfree, hst, hdk, hbd, hmd, hhs, hoth⟩ := exec_deckEndOfPlay hs he hd hu (Ended.modBreak hq)
    exact ⟨t, hexec, hfree, hst, (hfr.find e.id).trans (State.modBreak_find_own (s := s.breakRecord b.spots.length _) hf hb),
      hfr.held, hfr.asrun, hdk, hbd, hmd, hhs, hoth⟩
  · have hu := State.endTarget_trail (c := c) (st := st) ht
    obtain ⟨t, hexec, hfr, hfree, hst, hdk, hbd, hmd, hhs, hoth⟩ := exec_deckEndOfPlay hs he hd hu
      (.of_moved hq rfl (fun _ _ => rfl) (Moved.breakRecord s _ _))
    exact ⟨t, hexec, hfree, hst, (congrArg Station.list hfr.own :), hfr.held, hfr.asrun, hdk, hbd, hmd, hhs, hoth⟩
  · subst hpl
    exact ⟨placeRecord_perm i r l, placeRecord_sorted i r l, fun h => placeRecord_last fun x hx h1 h2 k hk =>
      h k (List.mem_filterMap.mpr ⟨x, hx, by rw [if_pos ⟨h1, h2⟩, hk]⟩)⟩
  · obtain ⟨t, ht, hon, hspent⟩ := State.opBedEnd_ended hc
    refine ⟨t, (hs.event fun x => x.opBedEnd st).trans (congrArg _ ht), hspent, ?_, fun hacc => ?_,
      hon.decks.trans (s.record_decks _), hon.stations.trans (s.record_stations _),
      hon.media.trans (Fixed.fields Within.record.fixed).2.1, fun u hu => ?_⟩
    · rw [hon.wanted, State.bed, s.record_beds]
      rfl
    · obtain ⟨⟨n, hrec⟩, hnone⟩ := State.record_records hacc (s.bedPlayed st (s.endTimeOf st (s.bed st).player))
      have hrecs : t.records = s.records ++ [{ s.bedPlayed st (s.endTimeOf st (s.bed st).player) with seq := n }] := by
        rw [← hrec, State.records, hon.asrun, hon.held]
        rfl
      rw [hrecs]
      exact ⟨List.take_left, by rw [List.drop_left]; rfl, fun h => hon.held.trans (hnone h)⟩
    · rw [hon.others u hu, State.bed, s.record_beds]
      rfl
  · refine (hin.event fun x => x.opBedStart st).trans (congrArg (fun t => Host.Outcome.next (State.settlePool t)) ?_)
    refine (if_pos ⟨hp, hw⟩).trans ?_
    rw [hy]
    rfl

end Sys2Proof
end

section
/-!
PROOFS. The close of a break over a deck that serves the break's spot while its target names another entry of the list:
the cut marks the entry the target names.
-/

namespace Sys2Proof.Machine

/-! ## The stray deck -/

/-- The spot on the air, served by deck 3. -/
def straySpot : Spot :=
  { Spot.fresh (8, 1) with plan := .included, state := .onAir, served := .deck 3 }

/-- Its break, ON_AIR as entry 2, due at 1,000 with 48,000 periods to run. -/
def strayBreak : BreakData :=
  { duration := 48000, spots := [straySpot], fillCart := none, join := some 1000, gap := 0, fillUsed := none,
    fillPlanned := none, fillServed := .none, fillState := .none, fillStart := 0, fillResolved := false,
    fillDue := false }

def strayEntry : Entry :=
  { id := 2, startKind := .hard, due := some 1000, level := none, fadeIn := none, fadeOut := none, state := .onAir,
    served := .none, lateness := none, startTime := 0, cut := false, preFaded := false, body := .brk strayBreak }

/-- A WAITING entry behind the break. -/
def bystander : Entry :=
  { id := 9, startKind := .take, due := none, level := none, fadeIn := none, fadeOut := none, state := .waiting,
    served := .none, lateness := none, startTime := 0, cut := false, preFaded := false, body := .item 7 }

/-- The period in which that break ends, deck 3 playing with the bystander as its target. -/
def strayDeck : State :=
  let s := State.reset.modStation 0 fun x => { x with mode := .auto, list := [strayEntry, bystander] }
  { s.setDeck 3 ⟨{ Player.reset with state := .playing, ramp := ⟨32768, 32768, 0, 0⟩ }, some 0, some (.item 9)⟩ with
    opening := true
    house := 49000 }

theorem strayDeck_inOpening : strayDeck.InOpening := by decide +kernel

theorem strayDeck_listsKept : strayDeck.ListsKept := by decide +kernel

theorem strayDeck_breakEnds :
    (strayDeck.station 0).onAirBreak = some (strayEntry, strayBreak) ∧
      strayEntry.endTime ≤ strayDeck.stationTime 0 := by
  decide +kernel

/-- The close leaves the bystander, and marks it as cut. -/
theorem strayDeck_closed :
    ((strayDeck.opBreakClose 0).station 0).list.map (fun y => y.frame.cut) = [true] ∧
      ((strayDeck.station 0).list.filter fun y => y.id != strayEntry.id).map (fun y => y.frame.cut) = [false] := by
  decide +kernel

end Sys2Proof.Machine

namespace Sys2Proof

open Machine

/-- Refutes O50: in a state whose deck for the spot on the air has another entry of the list as its target, the cut of
the close marks that entry, and so the entries that stay are not as they were (`strayDeck`). -/
theorem not_breakCloses : ¬ Obligations.BreakCloses := by
  unfold Obligations.BreakCloses
  intro h
  obtain ⟨hair, hend⟩ := strayDeck_breakEnds
  obtain ⟨t, hexec, -, hlist, -⟩ :=
    h strayDeck 0 strayEntry strayBreak strayDeck_inOpening strayDeck_listsKept hair hend
  have hrun : exec (.breakClose 0) strayDeck = .next (strayDeck.opBreakClose 0).settlePool :=
    strayDeck_inOpening.event fun y => y.opBreakClose 0
  have hsame : t.settlePool = (strayDeck.opBreakClose 0).settlePool :=
    Host.Outcome.next.inj (hexec.symm.trans hrun)
  have hframes : (t.station 0).list.map Entry.frame = ((strayDeck.opBreakClose 0).station 0).list.map Entry.frame :=
    calc (t.station 0).list.map Entry.frame
        = (t.settlePool.station 0).list.map Entry.frame := (Pooled.settlePool.lists 0).symm
      _ = ((strayDeck.opBreakClose 0).settlePool.station 0).list.map Entry.frame := by rw [hsame]
      _ = ((strayDeck.opBreakClose 0).station 0).list.map Entry.frame := Pooled.settlePool.lists 0
  have hcut := congrArg (List.map Entry.cut) (hframes.symm.trans hlist)
  rw [List.map_map, List.map_map] at hcut
  obtain ⟨hafter, hbefore⟩ := strayDeck_closed
  have hne : [true] = [false] := hafter.symm.trans (hcut.trans hbefore)
  exact absurd hne (by decide)

end Sys2Proof
end

section
/-!
PROOFS. An entry that no waiting request names: no operation of the deck pool tells it anything.
-/

namespace Sys2Proof.Machine

/-- No waiting request of the station names the entry. -/
def State.Unclaimed (s : State) (st : StationId) (id : Nat) : Prop :=
  ∀ r ∈ (s.station st).requests, r.target.belongs id = false

theorem State.withdraw_unclaimed (s : State) (st : StationId) (id : Nat) :
    (s.withdraw st (Target.belongs id)).Unclaimed st id := fun r hr => by
  rw [State.withdraw, State.modStation_station] at hr
  simpa using (List.mem_filter.mp hr).2

/-- An entry that no waiting request names stands as it was, and none comes to name it. -/
def Beside (st : StationId) (id : Nat) (s t : State) : Prop :=
  s.Unclaimed st id → t.Unclaimed st id ∧ (t.station st).find id = (s.station st).find id

namespace Beside

variable {st : StationId} {id : Nat} {s t u : State}

theorem refl (s : State) : Beside st id s s := fun h => ⟨h, rfl⟩

theorem trans (h : Beside st id s t) (k : Beside st id t u) : Beside st id s u := fun hs =>
  have h := h hs
  have k := k h.1
  ⟨k.1, k.2.trans h.2⟩

theorem still (h : t.station st = s.station st) : Beside st id s t := fun hs => by
  rw [State.Unclaimed, h]
  exact ⟨hs, rfl⟩

theorem of_stations (h : t.stations = s.stations) : Beside st id s t := still (State.station_congr h st)

theorem forEach {α : Type} {xs : List α} {f : α → State → State} (h : ∀ x t, Beside st id t (f x t)) :
    Beside st id s (Machine.forEach xs f s) := by
  unfold Machine.forEach
  induction xs generalizing s with
  | nil => exact refl _
  | cons x xs ih => exact (h x s).trans ih

theorem modStation {v : StationId} {f : Station → Station} (hr : ∀ x, ∀ r ∈ (f x).requests, r ∈ x.requests)
    (hl : ∀ x, (f x).list = x.list) : Beside st id s (s.modStation v f) := by
  by_cases hv : v = st
  · subst hv
    intro hs
    rw [State.Unclaimed, State.modStation_station, Station.find, hl]
    exact ⟨fun r h => hs r (hr _ r h), rfl⟩
  · exact still (State.modStation_station_ne s _ hv)

theorem markDirty {v : StationId} : Beside st id s (s.markDirty v) := modStation (fun _ _ h => h) fun _ => rfl

theorem withdraw {v : StationId} {p : Target → Bool} : Beside st id s (s.withdraw v p) :=
  modStation (fun _ _ h => (List.mem_filter.mp h).1) fun _ => rfl

/-- Another entry is written. -/
theorem modEntry {v : StationId} {j : Nat} {f : Entry → Entry} (hf : ∀ e, (f e).id = e.id) (h : v = st → j ≠ id) :
    Beside st id s (s.modEntry v j f) := by
  by_cases hv : v = st
  · subst hv
    refine fun hs => ⟨?_, ?_⟩
    · rw [State.Unclaimed, State.modEntry, State.modStation_station]
      exact hs
    · rw [State.modEntry_find s v j id hf]
      cases he : (s.station v).find id with
      | none => rfl
      | some e => exact congrArg some (if_neg fun hj => h rfl (hj.symm.trans (Station.find_id he)))
  · exact still (State.modStation_station_ne s _ hv)

theorem modBreak {v : StationId} {j : Nat} {f : BreakData → BreakData} (h : v = st → j ≠ id) :
    Beside st id s (s.modBreak v j f) := modEntry (fun e => by split <;> rfl) h

theorem modSpot {v : StationId} {j i : Nat} {f : Spot → Spot} (h : v = st → j ≠ id) :
    Beside st id s (s.modSpot v j i f) := modBreak h

theorem reportFault {v : StationId} {c : FaultCause} {j cart n : Nat} : Beside st id s (s.reportFault v c j cart n) := by
  by_cases hv : v = st
  · subst hv
    intro hs
    rw [State.Unclaimed, State.reportFault_station]
    exact ⟨hs, rfl⟩
  · exact still (State.reportFault_station_ne s hv c j cart n)

theorem raiseStation {v : StationId} {c : StationCond} : Beside st id s (s.raiseStation v c) :=
  still (State.raiseBits_station s _ _ st)

theorem evalLow {v : StationId} : Beside st id s (s.evalLow v) := by
  by_cases hv : v = st
  · subst hv
    intro hs
    rw [State.Unclaimed, State.evalLow_station]
    exact ⟨hs, rfl⟩
  · exact still (State.evalLow_station_ne s (Ne.symm hv))

/-! ## The deck pool -/

theorem setWaiting {v : StationId} {g : Target} (h : v = st → g.belongs id = false) :
    Beside st id s (s.setWaiting v g) := by
  cases g with
  | item j => exact modEntry (fun _ => rfl) fun hv => by simpa [Target.belongs] using h hv
  | spot j i => exact modSpot fun hv => by simpa [Target.belongs] using h hv
  | fill j => exact modBreak fun hv => by simpa [Target.belongs] using h hv
  | trailSpot => exact refl _
  | trailFill => exact refl _

theorem setGranted {v : StationId} {d : DeckId} {g : Target} (h : v = st → g.belongs id = false) :
    Beside st id s (s.setGranted v d g) := by
  cases g with
  | item j => exact modEntry (fun _ => rfl) fun hv => by simpa [Target.belongs] using h hv
  | spot j i =>
    have hne : v = st → j ≠ id := fun hv => by simpa [Target.belongs] using h hv
    exact (modSpot hne).trans (modEntry (fun _ => rfl) hne)
  | fill j =>
    have hne : v = st → j ≠ id := fun hv => by simpa [Target.belongs] using h hv
    exact (modBreak hne).trans (modEntry (fun _ => rfl) hne)
  | trailSpot => exact refl _
  | trailFill => exact refl _

theorem fillAbsent {v : StationId} {j : Nat} (h : v = st → j ≠ id) : Beside st id s (s.fillAbsent v j) :=
  (modBreak h).trans raiseStation

theorem breakRelease {i : Nat} {r : Record} : Beside st id s (s.breakRecord i r).release :=
  of_stations (State.release_stations _)

theorem spotMissing {v : StationId} {e : Entry} {b : BreakData} {i : Nat} {p : Spot} (h : v = st → e.id ≠ id) :
    Beside st id s (s.spotMissing v e b i p) := by
  unfold State.spotMissing
  simp only
  exact ((modBreak h).trans breakRelease).trans (reportFault.trans markDirty)

theorem erase {v : StationId} {r : DeckRequest} :
    Beside st id s (s.modStation v fun x => { x with requests := x.requests.erase r, dirty := true }) :=
  modStation (fun _ _ h => List.mem_of_mem_erase h) fun _ => rfl

theorem deadRequest {v : StationId} {r : DeckRequest} (h : v = st → r.target.belongs id = false) :
    Beside st id s (s.deadRequest v r) := by
  unfold State.deadRequest
  simp only
  refine trans (erase (v := v) (r := r)) ?_
  split
  next j hj => exact modEntry (fun _ => rfl) fun hv => by simpa [Target.belongs, hj] using h hv
  next j i hj =>
    have hne : v = st → j ≠ id := fun hv => by simpa [Target.belongs, hj] using h hv
    split
    · exact refl _
    next e he =>
      have hid : e.id = j := Station.find_id he
      split
      · exact refl _
      · split
        · exact refl _
        · split
          · exact spotMissing fun hv => by rw [hid]; exact hne hv
          · exact modSpot hne
  next j hj => exact fillAbsent fun hv => by simpa [Target.belongs, hj] using h hv
  · exact refl _
  · exact refl _

theorem bound {d : DeckId} {x : Deck} {slot : Nat} : Beside st id s ((s.setDeck d x).bindSlot slot) := of_stations rfl

theorem grant {v : StationId} {r : DeckRequest} {d : DeckId} {x : DirEntry} (h : v = st → r.target.belongs id = false) :
    Beside st id s (s.grant v r d x) := by
  unfold State.grant
  exact (erase.trans bound).trans (setGranted h)

theorem arbitrateOnce (h : s.arbitrateOnce = some t) : Beside st id s t := fun hs => by
  unfold State.arbitrateOnce at h
  split at h
  next d v r _ hb =>
    have hr : v = st → r.target.belongs id = false := fun hv => hs r (hv ▸ bestRequest_mem hb)
    have hg (x : DirEntry) : Beside st id s (s.grant v r d x) := grant hr
    split at h
    next x _ =>
      obtain rfl := Option.some.inj h
      split
      · exact hg x hs
      · exact deadRequest hr hs
    next =>
      obtain rfl := Option.some.inj h
      exact deadRequest hr hs
  next => cases h

theorem arbitrate : Beside st id s s.arbitrate := by
  unfold State.arbitrate
  generalize s.waitingRequests = n
  induction n generalizing s with
  | zero => exact refl _
  | succ n ih =>
    unfold arbitrateLoop
    split
    · exact refl _
    next h => exact (arbitrateOnce h).trans ih

theorem freeDeck {d : DeckId} : Beside st id s (s.freeDeck d) := by
  unfold State.freeDeck
  split
  · exact refl _
  · refine trans ?_ (markDirty.trans arbitrate)
    split
    · exact of_stations rfl
    · exact of_stations (State.unbindSlot_frame _ _).2.2.2.2.1

theorem freeServed {v : Served} : Beside st id s (s.freeServed v) := by
  cases v
  · exact refl _
  · exact refl _
  · exact freeDeck

/-- A request made for another entry. -/
theorem requestDeck {v : StationId} {g : Target} {slot : Nat} {lp : Bool} {n : Nat} (h : v = st → g.belongs id = false) :
    Beside st id s (s.requestDeck v g slot lp n) := by
  unfold State.requestDeck
  split
  · exact refl _
  · refine trans (fun hs => ?_) ((setWaiting h).trans arbitrate)
    by_cases hv : v = st
    · subst hv
      rw [State.Unclaimed, State.modStation_station]
      refine ⟨fun r hr => ?_, rfl⟩
      rcases List.mem_append.mp hr with hr | hr
      · exact hs r hr
      · rw [List.mem_singleton.mp hr]
        exact h rfl
    · exact still (State.modStation_station_ne s _ hv) hs

end Beside

/-! ## A break found by its id -/

theorem State.breakOf_of_find {s : State} {st : StationId} {e : Entry} {b : BreakData} {id : Nat}
    (h : (s.station st).find id = some { e with body := .brk b }) :
    s.breakOf st id = some ({ e with body := .brk b }, b) := by
  simp only [State.breakOf, h]

theorem State.modBreak_find_of {s : State} {st : StationId} {e : Entry} {b : BreakData} {id : Nat} {f : BreakData → BreakData}
    (h : (s.station st).find id = some { e with body := .brk b }) :
    ((s.modBreak st id f).station st).find id = some { e with body := .brk (f b) } := by
  have hid := Station.find_id h
  dsimp only at hid
  subst hid
  exact State.modBreak_find_own (e := { e with body := .brk b }) h rfl

theorem State.modEntry_unclaimed {s : State} {st : StationId} {id j : Nat} {f : Entry → Entry} (h : s.Unclaimed st id) :
    (s.modEntry st j f).Unclaimed st id := by
  rw [State.Unclaimed, State.modEntry, State.modStation_station]
  exact h

end Sys2Proof.Machine
end

section
/-!
PROOFS. The start of a break: its final plan, the spots that do not air, and what is left of the run list; and a break
skipped.
-/

namespace Sys2Proof.Machine

theorem forEach_range_succ (n : Nat) (f : Nat → State → State) (s : State) :
    forEach (List.range (n + 1)) f s = f n (forEach (List.range n) f s) := by
  rw [forEach, List.range_succ, List.foldl_append]
  rfl

/-! ## The final plan -/

/-- A spot whose waiting request is withdrawn (R115). -/
def Spot.unrequested (p : Spot) : Spot := { p with served := p.served.withdrawn }

theorem planSpot_unrequested (d sum : Nat) (p : Spot) (q : Option Planned) :
    planSpot d sum p.unrequested q = ((planSpot d sum p q).1.unrequested, (planSpot d sum p q).2) := by
  unfold planSpot
  split
  · rfl
  · split
    · rfl
    · split <;> rfl

theorem planWalk_unrequested (d sum : Nat) (l : List Spot) (found : List (Option Planned)) :
    planWalk d sum ((l.map Spot.unrequested).zip found) =
      ((planWalk d sum (l.zip found)).1.map Spot.unrequested, (planWalk d sum (l.zip found)).2) := by
  induction l generalizing sum found with
  | nil => rfl
  | cons p l ih =>
    cases found with
    | nil => rfl
    | cons q found =>
      rw [List.map_cons, List.zip_cons_cons, List.zip_cons_cons, planWalk_cons, planWalk_cons, planSpot_unrequested]
      simp only [ih, List.map_cons]

theorem planSpot_place (d sum : Nat) (p : Spot) (q : Option Planned) :
    ((planSpot d sum p q).1.cart, (planSpot d sum p q).1.ref) = (p.cart, p.ref) := by
  unfold planSpot
  split
  · rfl
  · split
    · rfl
    · split <;> rfl

theorem planWalk_places (d sum : Nat) (l : List Spot) (found : List (Option Planned)) (h : found.length = l.length) :
    (planWalk d sum (l.zip found)).1.map (fun p => (p.cart, p.ref)) = l.map fun p => (p.cart, p.ref) := by
  induction l generalizing sum found with
  | nil => rfl
  | cons p l ih =>
    cases found with
    | nil => cases h
    | cons q found =>
      rw [List.zip_cons_cons, planWalk_cons, List.map_cons, List.map_cons, planSpot_place,
        ih _ _ (Nat.succ.inj h)]

/-- A starting break's data: the final plan, its waiting requests withdrawn, joined now (R113, R115, R120). -/
def State.startedBreak (s : State) (st : StationId) (e : Entry) (b : BreakData) : BreakData :=
  let q := b.planned e.dueTime (s.stationTime st) (b.spots.map (s.finalFound st))
  { b with
    spots := q.spots.map Spot.unrequested
    gap := q.gap
    join := some (s.stationTime st)
    fillServed := b.fillServed.withdrawn }

theorem State.withdraw_stationTime (s : State) (st : StationId) (p : Target → Bool) :
    (s.withdraw st p).stationTime st = s.stationTime st := by
  rw [State.stationTime, State.withdraw, State.modStation_station]
  rfl

theorem State.finalFound_unrequested (s : State) (st : StationId) (id : Nat) (p : Spot) :
    (s.withdraw st (Target.belongs id)).finalFound st p.unrequested = s.finalFound st p := by
  unfold State.finalFound Spot.unrequested
  cases p.served <;> rfl

/-- The break as it goes on air: planned for good, the entry on air ENDING (R120). -/
def State.brokenIn (s : State) (st : StationId) (e : Entry) (b : BreakData) : State :=
  let c := s.startedBreak st e b
  ((s.withdraw st (Target.belongs e.id)).modBreak st e.id fun x =>
    { x with spots := c.spots, gap := c.gap, join := c.join, fillServed := c.fillServed }).breakOnAir st e

theorem State.startBreak_eq (s : State) (st : StationId) (e : Entry) (b : BreakData) :
    s.startBreak st e b = ((((forEach (List.range (s.startedBreak st e b).spots.length)
      (fun i acc => acc.disposeAtStart st e.id i) (s.brokenIn st e b)).releaseArmedFill st e.id).resolveIfDue st
        e.id).evalLow st) := by
  have hfound : (b.spots.map Spot.unrequested).map ((s.withdraw st (Target.belongs e.id)).finalFound st) =
      b.spots.map (s.finalFound st) := by
    rw [List.map_map]
    exact List.map_congr_left fun p _ => s.finalFound_unrequested st e.id p
  have hplan : ({ b with spots := b.spots.map Spot.unrequested, fillServed := b.fillServed.withdrawn } :
      BreakData).planned e.dueTime (s.stationTime st)
        ((b.spots.map Spot.unrequested).map ((s.withdraw st (Target.belongs e.id)).finalFound st)) =
      { s.startedBreak st e b with join := b.join } := by
    rw [hfound, State.startedBreak, BreakData.planned, planWalk_unrequested]
    rfl
  have hb : ({ ({ b with spots := b.spots.map Spot.unrequested, fillServed := b.fillServed.withdrawn } :
      BreakData).planned e.dueTime (s.stationTime st)
        ((b.spots.map Spot.unrequested).map ((s.withdraw st (Target.belongs e.id)).finalFound st)) with
      join := some (s.stationTime st) } : BreakData) = s.startedBreak st e b := by
    rw [hplan]
    rfl
  unfold State.brokenIn
  simp only [← hb]
  rfl

/-! ## The break goes on air -/

/-- The entry of a break ON_AIR from now (R120). -/
def State.airedEntry (s : State) (st : StationId) (e : Entry) : Entry :=
  { e with
    state := .onAir
    lateness := some ((s.stationTime st : Int) - (e.dueTime : Int))
    startTime := s.stationTime st }

theorem State.hardBreak_some {s : State} {st : StationId} {e : Entry} {b : BreakData} (h : s.hardBreak st = some (e, b)) :
    e ∈ (s.station st).list ∧ e.notStarted = true ∧ e.body = .brk b := by
  unfold State.hardBreak at h
  simp only at h
  split at h
  · cases h
  split at h
  · cases h
  next x hx =>
    split at h
    · cases h
    next c hc =>
      simp only [Option.some.injEq, Prod.mk.injEq] at h
      obtain ⟨rfl, rfl⟩ := h
      obtain ⟨hm, hn⟩ := List.mem_filter.mp (List.mem_of_find?_eq_some hx)
      exact ⟨hm, hn, hc⟩

theorem Station.onAir_mapped {x y : Station} {f : Entry → Entry} (hl : y.list = x.list.map f)
    (hf : ∀ e, (f e).state = e.state) : y.onAir = x.onAir.map f := by
  rw [Station.onAir, hl, List.find?_map, Station.onAir]
  refine congrArg (Option.map f) (congrArg (fun p => List.find? p x.list) (funext fun e => ?_))
  exact congrArg (· == EntryState.onAir) (hf e)

section OnAir

variable {s : State} {st : StationId} {e : Entry} {b : BreakData}

/-- The state in which the starting break's plan stands. -/
def State.planFinal (s : State) (st : StationId) (e : Entry) (b : BreakData) : State :=
  let c := s.startedBreak st e b
  (s.withdraw st (Target.belongs e.id)).modBreak st e.id fun x =>
    { x with spots := c.spots, gap := c.gap, join := c.join, fillServed := c.fillServed }

theorem State.planFinal_find (he : (s.station st).find e.id = some e) (hb : e.body = .brk b) :
    ((s.planFinal st e b).station st).find e.id = some { e with body := .brk (s.startedBreak st e b) } := by
  have hw : ((s.withdraw st (Target.belongs e.id)).station st).find e.id = some e := by
    rw [State.withdraw, State.modStation_station]
    exact he
  exact State.modBreak_find_own hw hb

theorem State.planFinal_unclaimed : (s.planFinal st e b).Unclaimed st e.id :=
  State.modEntry_unclaimed (State.withdraw_unclaimed s st e.id)

theorem State.planFinal_list : ∃ g : Entry → Entry, (∀ y, (g y).id = y.id ∧ (g y).state = y.state) ∧
    ((s.planFinal st e b).station st).list = (s.station st).list.map g := by
  refine ⟨fun y => if y.id = e.id then
      (match y.body with
      | .item _ => y
      | .brk c => { y with body := .brk { c with
          spots := (s.startedBreak st e b).spots, gap := (s.startedBreak st e b).gap
          join := (s.startedBreak st e b).join, fillServed := (s.startedBreak st e b).fillServed } }) else y,
    fun y => ?_, ?_⟩
  · simp only
    split
    · split <;> exact ⟨rfl, rfl⟩
    · exact ⟨rfl, rfl⟩
  · unfold State.planFinal State.modBreak State.modEntry State.withdraw
    rw [State.modStation_modStation, State.modStation_station] <;> rfl

/-- The state with the starting break's predecessor ENDING. -/
def State.ending (s : State) (st : StationId) : State :=
  match (s.station st).onAir with
  | none => s
  | some x => s.modEntry st x.id fun y => { y with state := .ending }

theorem State.breakOnAir_eq (s : State) (st : StationId) (e : Entry) : s.breakOnAir st e =
    ((s.ending st).modEntry st e.id fun y =>
      { y with
        state := .onAir
        lateness := some ((s.stationTime st : Int) - (e.dueTime : Int))
        startTime := s.stationTime st }).modStation st fun x =>
      { x with preFade := none, due := none, acted := true, dirty := true } := rfl

theorem State.planFinal_time : (s.planFinal st e b).stationTime st = s.stationTime st := by
  have h : (s.planFinal st e b).stationTime st = (s.withdraw st (Target.belongs e.id)).stationTime st := by
    rw [State.stationTime, State.planFinal, State.modBreak, State.modEntry, State.modStation_station]
    rfl
  exact h.trans (s.withdraw_stationTime st _)

/-- With another entry on air, an entry stands as it was while that one is made ENDING. -/
theorem State.ending_station (hl : ((s.station st).list.map Entry.id).Nodup)
    (hne : ∀ x : Entry, (s.station st).onAir = some x → x.id ≠ e.id) :
    Beside st e.id s (s.ending st) ∧
    ((s.ending st).station st).list.map Entry.id = (s.station st).list.map Entry.id ∧
    ∀ x : Entry, (s.station st).onAir = some x →
      (((s.ending st).station st).find x.id).map Entry.state = some .ending := by
  cases hx : (s.station st).onAir with
  | none =>
    have hu : s.ending st = s := by simp only [State.ending, hx]
    rw [hu]
    exact ⟨Beside.refl _, rfl, fun _ h => by cases h⟩
  | some x =>
    have hu : s.ending st = s.modEntry st x.id fun z => { z with state := .ending } := by
      simp only [State.ending, hx]
    have hid (z : Entry) : ({ z with state := .ending } : Entry).id = z.id := rfl
    rw [hu]
    refine ⟨Beside.modEntry hid fun _ => hne x hx, State.modEntry_listsBut hid s st st x.id, fun z hz => ?_⟩
    obtain rfl := Option.some.inj hz
    rw [State.modEntry_find_own hid (find?_of_mem hl (Station.onAir_some hx).1)]
    rfl

/-- The break as it goes on air: its entry, who was on air, and the rest of its station. -/
theorem State.brokenIn_station (hl : ((s.station st).list.map Entry.id).Nodup) (hh : e ∈ (s.station st).list)
    (hn : e.notStarted = true) (hb : e.body = .brk b) :
    (s.brokenIn st e b).Unclaimed st e.id ∧
    ((s.brokenIn st e b).station st).find e.id =
      some { s.airedEntry st e with body := .brk (s.startedBreak st e b) } ∧
    (∀ x : Entry, (s.station st).onAir = some x →
      (((s.brokenIn st e b).station st).find x.id).map Entry.state = some .ending) ∧
    ((s.brokenIn st e b).station st).preFade = none ∧ ((s.brokenIn st e b).station st).due = none ∧
    ((s.brokenIn st e b).station st).list.map Entry.id = (s.station st).list.map Entry.id := by
  have hne : ∀ x : Entry, (s.station st).onAir = some x → x.id ≠ e.id := fun x hx hid => by
    obtain ⟨hm, hair⟩ := Station.onAir_some hx
    rw [id_injOn hl hm hh hid] at hair
    rw [Entry.notStarted, hair] at hn
    cases hn
  have hfind : ((s.planFinal st e b).station st).find e.id = some { e with body := .brk (s.startedBreak st e b) } :=
    State.planFinal_find (find?_of_mem hl hh) hb
  have hun : (s.planFinal st e b).Unclaimed st e.id := State.planFinal_unclaimed
  have htime : (s.planFinal st e b).stationTime st = s.stationTime st := State.planFinal_time
  obtain ⟨g, hg, hlist⟩ := @State.planFinal_list s st e b
  have hair := Station.onAir_mapped hlist fun y => (hg y).2
  have hids : ((s.planFinal st e b).station st).list.map Entry.id = (s.station st).list.map Entry.id := by
    rw [hlist, List.map_map]
    exact List.map_congr_left fun y _ => (hg y).1
  have heq : s.brokenIn st e b = (s.planFinal st e b).breakOnAir st e := rfl
  rw [heq, State.breakOnAir_eq, htime]
  generalize s.planFinal st e b = u at *
  obtain ⟨hbes, hids', hending⟩ := State.ending_station (s := u) (st := st) (e := e) (by rw [hids]; exact hl)
    fun x hx hid => by
      rw [hair] at hx
      obtain ⟨y, hy, rfl⟩ := Option.map_eq_some_iff.mp hx
      exact hne y hy ((hg y).1.symm.trans hid)
  obtain ⟨hun', hfind'⟩ := hbes hun
  generalize u.ending st = v at hun' hfind' hids' hending
  have hf : ∀ y : Entry, ({ y with
      state := .onAir, lateness := some ((s.stationTime st : Int) - (e.dueTime : Int)), startTime := s.stationTime st } :
        Entry).id = y.id := fun _ => rfl
  have hown := State.modEntry_find_own hf (hfind'.trans hfind)
  have hother (j : Nat) (hj : j ≠ e.id) := State.modEntry_find v st e.id j hf
  have hidsv := State.modEntry_listsBut hf v st st e.id
  have hunv := State.modEntry_unclaimed (j := e.id) (f := fun y : Entry => { y with
      state := .onAir, lateness := some ((s.stationTime st : Int) - (e.dueTime : Int)), startTime := s.stationTime st }) hun'
  refine ⟨?_, ?_, fun x hx => ?_, ?_, ?_, ?_⟩
  · rw [State.Unclaimed, State.modStation_station]
    exact hunv
  · rw [State.modStation_station]
    exact hown
  · rw [State.modStation_station]
    have hxe := hne x hx
    have hx' := hending (g x) (by rw [hair, hx]; rfl)
    rw [(hg x).1] at hx'
    refine (congrArg (Option.map Entry.state) (hother x.id hxe)).trans ?_
    cases hy : (v.station st).find x.id with
    | none => rw [hy] at hx'; cases hx'
    | some y =>
      rw [hy] at hx'
      rw [Option.map_some, if_neg fun h => hxe ((Station.find_id hy).symm.trans h)]
      exact hx'
  · rw [State.modStation_station]
  · rw [State.modStation_station]
  · rw [State.modStation_station]
    exact (hidsv.trans hids').trans hids

end OnAir

end Sys2Proof.Machine
end

section
/-!
PROOFS. The spots that the final plan of a starting break does not include.
-/

namespace Sys2Proof.Machine

/-- A change of one member is what it makes of that member. -/
theorem modify_congr_at {α : Type} {l : List α} {n : Nat} {x : α} {f g : α → α} (hx : l[n]? = some x) (h : f x = g x) :
    l.modify n f = l.modify n g :=
  List.ext_getElem? fun i => by
    rw [List.getElem?_modify, List.getElem?_modify]
    by_cases hi : n = i
    · subst hi
      simp [hx, h]
    · simp [hi]

/-- A spot as the start of its break leaves it: DONE where the plan does not include it (R120). -/
def Spot.disposed (p : Spot) : Spot :=
  if (startOutcome p.plan).isSome then { p with state := .done, served := .none } else p

/-- A break whose first spots the start has judged. -/
def BreakData.disposedTo (b : BreakData) (n : Nat) : BreakData :=
  { b with spots := b.spots.mapIdx fun i p => if i < n then p.disposed else p }

theorem BreakData.disposedTo_zero (b : BreakData) : b.disposedTo 0 = b := by
  have h : b.spots.mapIdx (fun i p => if i < 0 then p.disposed else p) = b.spots :=
    List.ext_getElem? fun i => by simp
  rw [BreakData.disposedTo, h]

theorem BreakData.disposedTo_all (b : BreakData) :
    b.disposedTo b.spots.length = { b with spots := b.spots.map Spot.disposed } := by
  have h : b.spots.mapIdx (fun i p => if i < b.spots.length then p.disposed else p) = b.spots.map Spot.disposed :=
    List.ext_getElem (by simp) fun i h1 h2 => by
      rw [List.getElem_mapIdx, if_pos (by simpa using h1), List.getElem_map]
  rw [BreakData.disposedTo, h]

theorem BreakData.disposedTo_getElem? (b : BreakData) (n : Nat) : (b.disposedTo n).spots[n]? = b.spots[n]? := by
  simp [BreakData.disposedTo]

theorem BreakData.disposedTo_succ (b : BreakData) (n : Nat) : b.disposedTo (n + 1) =
    { b.disposedTo n with spots := (b.disposedTo n).spots.modify n Spot.disposed } := by
  have h : b.spots.mapIdx (fun i p => if i < n + 1 then p.disposed else p) =
      (b.spots.mapIdx fun i p => if i < n then p.disposed else p).modify n Spot.disposed :=
    List.ext_getElem? fun i => by
      rw [List.getElem?_modify, List.getElem?_mapIdx, List.getElem?_mapIdx]
      cases b.spots[i]? with
      | none => simp
      | some p =>
        rcases Nat.lt_trichotomy i n with hi | rfl | hi
        · simp [hi, Nat.lt_succ_of_lt hi, hi.ne']
        · simp
        · simp [hi.ne, Nat.not_lt.mpr hi.le, Nat.not_lt.mpr hi]
  rw [BreakData.disposedTo, h]
  rfl

/-- The record of a spot that does not air (R120, R133), behind those held back. -/
def disposalRecord (st : StationId) (id due now : Nat) (x : Spot × Nat) : Option (Option Nat × Record) :=
  (startOutcome x.1.plan).map fun o => (some x.2,
    { seq := 0, station := st, entryId := id, spotRef := some x.1.ref, cart := x.1.cart,
      used := x.1.planned.map fun y => ⟨y.owner, y.category⟩, scheduled := some due, startTime := now, endTime := now,
      aired := 0, outcome := o, stalls := 0, mediaErrors := 0, lateness := none })

/-- The records of a break's first spots that do not air. -/
def disposalRecords (st : StationId) (y : Entry) (c : BreakData) (now n : Nat) : List (Option Nat × Record) :=
  (c.spots.zipIdx.take n).filterMap (disposalRecord st y.id y.dueTime now)

theorem disposalRecords_succ {st : StationId} {y : Entry} {c : BreakData} {now n : Nat} {p : Spot}
    (hp : c.spots[n]? = some p) : disposalRecords st y c now (n + 1) =
      disposalRecords st y c now n ++ (disposalRecord st y.id y.dueTime now (p, n)).toList := by
  have h : c.spots.zipIdx[n]? = some (p, n) := by rw [List.getElem?_zipIdx, hp]; simp
  rw [disposalRecords, List.take_add_one, h, List.filterMap_append]
  refine congrArg _ ?_
  simp only [Option.toList, List.filterMap_cons, List.filterMap_nil]
  cases disposalRecord st y.id y.dueTime now (p, n) <;> rfl

theorem disposalRecords_place {st : StationId} {y : Entry} {c : BreakData} {now n : Nat} {x : Option Nat × Record}
    (hx : x ∈ disposalRecords st y c now n) {k : Nat} (hk : x.1 = some k) : k ≤ n := by
  obtain ⟨z, hz, hzx⟩ := List.mem_filterMap.mp hx
  obtain ⟨i, hi, hiz⟩ := List.mem_iff_getElem.mp hz
  obtain ⟨o, -, ho⟩ := Option.map_eq_some_iff.mp hzx
  have hzi : z.2 = i := by rw [← hiz]; simp
  rw [← ho] at hk
  have hzk : z.2 = k := Option.some.inj hk
  have hin : i < n := lt_of_lt_of_le hi (List.length_take_le _ _)
  omega

theorem State.stationTime_of_frame {s t : State} {st : StationId} (hh : t.house = s.house)
    (hf : (t.station st).frame = (s.station st).frame) : t.stationTime st = s.stationTime st := by
  have ho : (t.station st).offset = (s.station st).offset := (congrArg Station.offset hf :)
  rw [State.stationTime, State.stationTime, hh, ho]

/-- What the judging of its first `n` spots has made of a break on air. -/
structure Disposed (st : StationId) (y : Entry) (c : BreakData) (n : Nat) (s t : State) : Prop where
  unclaimed : t.Unclaimed st y.id
  find : (t.station st).find y.id = some { y with body := .brk (c.disposedTo n) }
  time : t.stationTime st = s.stationTime st
  moved : Moved true true s t
  frames : Drops st [] s t
  frame : (t.station st).frame = (s.station st).frame
  log : s.Unasked → t.Unasked ∧ t.asrun = s.asrun ∧
    ((∀ x ∈ s.recordsHeld, x.2.station ≠ st ∨ x.2.entryId ≠ y.id) →
      t.recordsHeld = s.recordsHeld ++ disposalRecords st y c (s.stationTime st) n)

/-- A spot that does not air, its record made. -/
def State.spotDone (s : State) (st : StationId) (id i : Nat) (r : Record) : State :=
  (s.modSpot st id i fun q => { q with state := .done, served := .none }).breakRecord i r

theorem State.disposeAtStart_eq {s : State} {st : StationId} {y : Entry} {c : BreakData} {n : Nat} {p : Spot} {o : Outcome}
    (hf : (s.station st).find y.id = some { y with body := .brk c }) (hp : c.spots[n]? = some p)
    (ho : startOutcome p.plan = some o) : s.disposeAtStart st y.id n = State.freeServed
      (if o = .missing then (s.spotDone st y.id n (spotDisposed st { y with body := .brk c } c n p
          (p.planned.map Planned.used) (s.stationTime st) o)).reportFault st .missing y.id p.cart (s.stationTime st)
        else s.spotDone st y.id n (spotDisposed st { y with body := .brk c } c n p (p.planned.map Planned.used)
          (s.stationTime st) o)) p.served := by
  unfold State.disposeAtStart
  simp only [State.breakOf_of_find hf, hp, ho]
  rfl

theorem State.disposeAtStart_same {s : State} {st : StationId} {y : Entry} {c : BreakData} {n : Nat} {p : Spot}
    (hf : (s.station st).find y.id = some { y with body := .brk c }) (hp : c.spots[n]? = some p)
    (ho : startOutcome p.plan = none) : s.disposeAtStart st y.id n = s := by
  unfold State.disposeAtStart
  simp only [State.breakOf_of_find hf, hp, ho]

theorem startOutcome_included {l : Plan} {o : Outcome} (h : startOutcome l = some o) : l ≠ .included := by
  rintro rfl
  cases h

/-- The end of one spot's disposal: neither fault nor freed deck tells the break or the log anything. -/
theorem State.spotFreed (s : State) {st : StationId} {id cart now : Nat} {o : Outcome} {v : Served} :
    let t := State.freeServed (if o = .missing then s.reportFault st .missing id cart now else s) v
    Pooled s t ∧ Beside st id s t ∧ (s.Unasked → t.Unasked ∧ t.asrun = s.asrun ∧ t.recordsHeld = s.recordsHeld) := by
  intro t
  have hcalm (u : State) (hu : u.Unasked) : (u.freeServed v).Unasked ∧ (u.freeServed v).asrun = u.asrun ∧
      (u.freeServed v).recordsHeld = u.recordsHeld := by
    have h := Calm.freeServed (v := v) hu
    exact ⟨h.unasked, (congrArg Prod.fst h.log :), h.held⟩
  by_cases ho : o = .missing
  · have ht : t = (s.reportFault st .missing id cart now).freeServed v := congrArg (State.freeServed · v) (if_pos ho)
    rw [ht]
    refine ⟨(Pooled.fault s st .missing id cart now).trans Pooled.freeServed, Beside.reportFault.trans Beside.freeServed,
      fun hs => ?_⟩
    have hu : (s.reportFault st .missing id cart now).Unasked := fun u => by
      by_cases hv : st = u
      · subst hv
        rw [State.reportFault_station]
        exact hs st
      · rw [State.reportFault_station_ne _ hv]
        exact hs u
    obtain ⟨h1, h2, h3⟩ := hcalm _ hu
    exact ⟨h1, h2.trans (State.reportFault_asrun _ _ _ _ _ _), h3.trans (State.reportFault_recordsHeld _ _ _ _ _ _)⟩
  · have ht : t = s.freeServed v := congrArg (State.freeServed · v) (if_neg ho)
    rw [ht]
    exact ⟨Pooled.freeServed, Beside.freeServed, hcalm s⟩

theorem Disposed.zero {st : StationId} {y : Entry} {c : BreakData} {s : State} (hu : s.Unclaimed st y.id)
    (hf : (s.station st).find y.id = some { y with body := .brk c }) : Disposed st y c 0 s s where
  unclaimed := hu
  find := by rw [BreakData.disposedTo_zero]; exact hf
  time := rfl
  moved := .refl s
  frames := .refl s
  frame := rfl
  log h := ⟨h, rfl, fun _ => (List.append_nil _).symm⟩

theorem Disposed.succ {st : StationId} {y : Entry} {c : BreakData} {n : Nat} {s t : State} (h : Disposed st y c n s t)
    {p : Spot} (hp : c.spots[n]? = some p) : Disposed st y c (n + 1) s (t.disposeAtStart st y.id n) := by
  have hpn : (c.disposedTo n).spots[n]? = some p := by rw [BreakData.disposedTo_getElem?, hp]
  cases ho : startOutcome p.plan with
  | none =>
    have hsame : c.disposedTo (n + 1) = c.disposedTo n := by
      have hd : p.disposed = p := if_neg (by rw [ho]; exact Bool.false_ne_true)
      have hm : (c.disposedTo n).spots.modify n Spot.disposed = (c.disposedTo n).spots :=
        (modify_congr_at hpn (g := id) hd).trans (List.modify_id n _)
      rw [BreakData.disposedTo_succ, hm]
    have hnone : disposalRecords st y c (s.stationTime st) (n + 1) = disposalRecords st y c (s.stationTime st) n := by
      rw [disposalRecords_succ hp, disposalRecord, ho]
      exact List.append_nil _
    rw [State.disposeAtStart_same h.find hpn ho]
    exact ⟨h.unclaimed, by rw [hsame]; exact h.find, h.time, h.moved, h.frames, h.frame, by rw [hnone]; exact h.log⟩
  | some o =>
    rw [State.disposeAtStart_eq h.find hpn ho]
    generalize hr : spotDisposed st { y with body := .brk (c.disposedTo n) } (c.disposedTo n) n p
      (p.planned.map Planned.used) (t.stationTime st) o = r
    have hrec : disposalRecord st y.id y.dueTime (s.stationTime st) (p, n) = some (some n, r) := by
      rw [disposalRecord, ho, ← hr, spotDisposed, BreakData.spotSchedule, if_neg fun hc => startOutcome_included ho hc.2,
        h.time]
      rfl
    obtain ⟨hpool, hbes, hlog⟩ := State.spotFreed (t.spotDone st y.id n r) (st := st) (id := y.id) (cart := p.cart)
      (now := t.stationTime st) (o := o) (v := p.served)
    have hmoved : Moved true true t (t.spotDone st y.id n r) := Moved.modSpot.trans (Moved.breakRecord _ n r)
    have hmark : Pooled t (t.modSpot st y.id n fun q => { q with state := .done, served := .none }) :=
      Pooled.modSpot fun _ => ⟨rfl, rfl⟩
    have hframes : Drops st [] t (t.spotDone st y.id n r) := Drops.still hmark.lists
    have hframe : ((t.spotDone st y.id n r).station st).frame = (t.station st).frame := hmark.frame st
    have hun : (t.spotDone st y.id n r).Unclaimed st y.id := State.modEntry_unclaimed h.unclaimed
    have hfind : ((t.spotDone st y.id n r).station st).find y.id =
        some { y with body := .brk (c.disposedTo (n + 1)) } := by
      have hd : (c.disposedTo n).spots.modify n Spot.disposed =
          (c.disposedTo n).spots.modify n fun q => { q with state := .done, served := .none } :=
        modify_congr_at hpn (if_pos (by rw [ho]; rfl))
      rw [BreakData.disposedTo_succ, hd]
      exact State.modBreak_find_of h.find
    obtain ⟨hun', hfind'⟩ := hbes hun
    have hall : Moved true true s _ := (h.moved.trans hmoved).trans (.pool hpool)
    refine ⟨hun', hfind'.trans hfind, ?_, hall, (h.frames.andStill hframes).andStill (Drops.of_pooled hpool),
      (hpool.frame st).trans (hframe.trans h.frame), fun hs => ?_⟩
    · exact State.stationTime_of_frame (Fixed.fields hall.fixed).1 ((hpool.frame st).trans (hframe.trans h.frame))
    · obtain ⟨hu, ha, hh⟩ := h.log hs
      have hu2 : (t.spotDone st y.id n r).Unasked := (Calm.modSpot hu).unasked
      obtain ⟨hu3, ha3, hh3⟩ := hlog hu2
      refine ⟨hu3, ha3.trans ha, fun hheld => hh3.trans ?_⟩
      have hplace : (t.spotDone st y.id n r).recordsHeld = placeRecord n r t.recordsHeld := rfl
      rw [hplace, hh hheld, disposalRecords_succ hp, hrec, placeRecord_last, List.append_assoc]
      · rfl
      · intro x hx h1 h2 k hk
        rw [← hr] at h1 h2
        rcases List.mem_append.mp hx with hx | hx
        · exact absurd (hheld x hx) (by rintro (h | h); exacts [h h1, h h2])
        · exact disposalRecords_place hx hk

/-- All spots judged (R120). -/
theorem State.disposed {st : StationId} {y : Entry} {c : BreakData} {s : State} (hu : s.Unclaimed st y.id)
    (hf : (s.station st).find y.id = some { y with body := .brk c }) : Disposed st y c c.spots.length s
      (forEach (List.range c.spots.length) (fun i acc => acc.disposeAtStart st y.id i) s) := by
  have h (n : Nat) (hn : n ≤ c.spots.length) : Disposed st y c n s
      (forEach (List.range n) (fun i acc => acc.disposeAtStart st y.id i) s) := by
    induction n with
    | zero => exact .zero hu hf
    | succ n ih =>
      rw [forEach_range_succ]
      exact (ih (Nat.le_of_succ_le hn)).succ (List.getElem?_eq_getElem hn)
  exact h _ le_rfl

end Sys2Proof.Machine
end

section
/-!
PROOFS. The fill at the start of its break; a break started, and a break skipped.
-/

namespace Sys2Proof.Machine

/-! ## What makes no record -/

/-- Where no request waits, none is made, and no record is. -/
def Mute (s t : State) : Prop := s.Unasked → t.Unasked ∧ t.asrun = s.asrun ∧ t.recordsHeld = s.recordsHeld

namespace Mute

variable {s t u : State}

theorem refl (s : State) : Mute s s := fun h => ⟨h, rfl, rfl⟩

theorem trans (h : Mute s t) (k : Mute t u) : Mute s u := fun hs =>
  have h := h hs
  have k := k h.1
  ⟨k.1, k.2.1.trans h.2.1, k.2.2.trans h.2.2⟩

theorem of_calm (h : Calm s t) : Mute s t := fun hs => ⟨(h hs).unasked, (congrArg Prod.fst (h hs).log :), (h hs).held⟩

theorem raiseStation {st : StationId} {c : StationCond} : Mute s (s.raiseStation st c) := fun hs =>
  ⟨fun u => by rw [State.raiseStation, State.raiseBits_station]; exact hs u, State.raiseBits_asrun _ _ _,
    State.raiseBits_recordsHeld _ _ _⟩

theorem fillAbsent {st : StationId} {id : Nat} : Mute s (s.fillAbsent st id) := (of_calm Calm.modBreak).trans raiseStation

end Mute

/-! ## The fill -/

/-- What is made of a break's fill leaves the rest of its data. -/
def BreakData.SameSpots (c d : BreakData) : Prop :=
  d.spots = c.spots ∧ d.gap = c.gap ∧ d.join = c.join ∧ d.duration = c.duration

/-- From `s` to `t` the fill of a break alone is told something. -/
structure Refilled (st : StationId) (y : Entry) (c d : BreakData) (s t : State) : Prop where
  unclaimed : t.Unclaimed st y.id
  find : (t.station st).find y.id = some { y with body := .brk d }
  same : c.SameSpots d
  pooled : Pooled s t
  mute : Mute s t

section Fill

variable {s t : State} {st : StationId} {y : Entry} {c : BreakData}

theorem Refilled.refl (hu : s.Unclaimed st y.id) (hf : (s.station st).find y.id = some { y with body := .brk c }) :
    Refilled st y c c s s := ⟨hu, hf, ⟨rfl, rfl, rfl, rfl⟩, .refl s, .refl s⟩

/-- The fill's data written. -/
theorem Refilled.modBreak (hu : s.Unclaimed st y.id)
    (hf : (s.station st).find y.id = some { y with body := .brk c }) {f : BreakData → BreakData}
    (hs : c.SameSpots (f c)) (hfr : ∀ x, (f x).frame = x.frame) :
    Refilled st y c (f c) s (s.modBreak st y.id f) :=
  ⟨State.modEntry_unclaimed hu, State.modBreak_find_of hf, hs, Pooled.modBreak hfr, .of_calm Calm.modBreak⟩

theorem Refilled.then {d : BreakData} {u : State} (h : Refilled st y c d s t) (hb : Beside st y.id t u) (hp : Pooled t u)
    (hm : Mute t u) : Refilled st y c d s u :=
  have hb := hb h.unclaimed
  ⟨hb.1, hb.2.trans h.find, h.same, h.pooled.trans hp, h.mute.trans hm⟩

/-- With a gap of 0 the fill is NONE unless it is ABSENT (R120). -/
theorem State.releaseArmedFill_refilled (hu : s.Unclaimed st y.id)
    (hf : (s.station st).find y.id = some { y with body := .brk c }) :
    ∃ d, Refilled st y c d s (s.releaseArmedFill st y.id) ∧
      (c.gap = 0 → c.fillState ≠ .absent → d.fillState = .none ∧ d.fillServed = .none) := by
  unfold State.releaseArmedFill
  simp only [State.breakOf_of_find hf]
  split
  next h =>
    have hm := Refilled.modBreak hu hf (f := fun x => { x with fillState := .none, fillServed := .none })
      ⟨rfl, rfl, rfl, rfl⟩ fun _ => rfl
    exact ⟨_, hm.then Beside.freeServed Pooled.freeServed (.of_calm Calm.freeServed), fun _ _ => ⟨rfl, rfl⟩⟩
  next h => exact ⟨c, .refl hu hf, fun h1 h2 => absurd ⟨h1, h2⟩ h⟩

theorem State.fillAbsent_refilled (hu : s.Unclaimed st y.id)
    (hf : (s.station st).find y.id = some { y with body := .brk c }) {f : BreakData → BreakData}
    (hs : c.SameSpots (f c)) (hfr : ∀ x, (f x).frame = x.frame) :
    ∃ d, Refilled st y c d s ((s.modBreak st y.id f).fillAbsent st y.id) := by
  have h1 := Refilled.modBreak hu hf hs hfr
  have h2 := Refilled.modBreak h1.unclaimed h1.find (f := fun x => { x with fillState := .absent, fillServed := .none })
    ⟨rfl, rfl, rfl, rfl⟩ fun _ => rfl
  obtain ⟨h1s, h1g, h1j, h1d⟩ := hs
  have h12 : Refilled st y c _ s _ :=
    ⟨h2.unclaimed, h2.find, ⟨h1s, h1g, h1j, h1d⟩, h1.pooled.trans h2.pooled, h1.mute.trans h2.mute⟩
  exact ⟨_, h12.then (u := (s.modBreak st y.id f).fillAbsent st y.id) Beside.raiseStation (Pooled.gap _ _)
    Mute.raiseStation⟩

/-- The resolution of a fill, which a gap of 0 does not call for (R125). -/
theorem State.resolveIfDue_refilled (hu : s.Unclaimed st y.id)
    (hf : (s.station st).find y.id = some { y with body := .brk c }) :
    ∃ d, Refilled st y c d s (s.resolveIfDue st y.id) ∧ (c.gap = 0 → d = c) := by
  unfold State.resolveIfDue
  simp only [State.breakOf_of_find hf]
  split
  next h =>
    have hgap : ∀ d : BreakData, c.gap = 0 → d = c := fun _ hg => absurd h.2.1 (by rw [hg]; exact lt_irrefl 0)
    have habsent {f : BreakData → BreakData} (hs : c.SameSpots (f c)) (hfr : ∀ x, (f x).frame = x.frame) :
        ∃ d, Refilled st y c d s ((s.modBreak st y.id f).fillAbsent st y.id) ∧ (c.gap = 0 → d = c) :=
      (State.fillAbsent_refilled hu hf hs hfr).imp fun d hd => ⟨hd, hgap d⟩
    unfold State.resolveFill
    split
    · exact habsent ⟨rfl, rfl, rfl, rfl⟩ fun _ => rfl
    · split
      · exact habsent ⟨rfl, rfl, rfl, rfl⟩ fun _ => rfl
      · split
        · exact ⟨_, Refilled.modBreak hu hf ⟨rfl, rfl, rfl, rfl⟩ fun _ => rfl, hgap _⟩
        · exact habsent ⟨rfl, rfl, rfl, rfl⟩ fun _ => rfl
  · exact ⟨c, .refl hu hf, fun _ => rfl⟩

end Fill

/-! ## A break started -/

section Started

variable {s : State} {st : StationId} {e : Entry} {b : BreakData}

theorem Moved.breakOnAir : Moved true true s (s.breakOnAir st e) := by
  rw [State.breakOnAir_eq]
  have hend : Moved true true s (s.ending st) := by
    unfold State.ending
    split
    · exact .refl s
    · exact Moved.modEntry
  refine (hend.trans Moved.modEntry).trans (Moved.modStation ?_)
  exact fun _ => ⟨⟨rfl, rfl, rfl, rfl, rfl, fun _ => rfl⟩, rfl⟩

theorem Calm.breakOnAir : Calm s (s.breakOnAir st e) := by
  rw [State.breakOnAir_eq]
  have hend : Calm s (s.ending st) := by
    unfold State.ending
    split
    · exact .refl s
    · exact Calm.modEntry
  refine (hend.trans Calm.modEntry).trans (Calm.modStation ?_)
  exact fun _ => ⟨rfl, rfl⟩

theorem State.brokenIn_moved : Moved true true s (s.brokenIn st e b) :=
  (Moved.withdraw.trans Moved.modBreak).trans Moved.breakOnAir

theorem State.brokenIn_mute : Mute s (s.brokenIn st e b) :=
  .of_calm ((Calm.withdraw.trans Calm.modBreak).trans Calm.breakOnAir)

theorem State.brokenIn_held : (s.brokenIn st e b).recordsHeld = s.recordsHeld := by
  unfold State.brokenIn
  simp only [State.breakOnAir_eq]
  have hend (u : State) : (u.ending st).recordsHeld = u.recordsHeld := by
    unfold State.ending
    split <;> rfl
  exact hend _

/-- The final plan's judgement is never open (R113). -/
theorem planWalk_judged {d sum : Nat} {l : List (Spot × Option Planned)} {i : Nat} {p : Spot}
    (h : (planWalk d sum l).1[i]? = some p) : p.plan ≠ .included → (startOutcome p.plan).isSome = true := by
  rw [planWalk_getElem?] at h
  obtain ⟨x, -, rfl⟩ := Option.map_eq_some_iff.mp h
  obtain ⟨-, -, -, hcases, -⟩ := planSpot_judged d (sum + (((planWalk d sum l).1.take i).map Spot.includedLength).sum) x.1 x.2
  intro hni
  rcases hcases with h | h | h | h
  · rw [h]; rfl
  · rw [h]; rfl
  · exact absurd h hni
  · rw [h]; rfl

/-- What stands of the lists' frames stands of who is found in them. -/
theorem State.find_frames {t : State} (h : t.frames st = s.frames st) (j : Nat) :
    ((t.station st).find j).map Entry.frame = ((s.station st).find j).map Entry.frame := by
  have hf (x : Station) : (x.find j).map Entry.frame = (x.list.map Entry.frame).find? fun y => y.id == j := by
    rw [List.find?_map]
    rfl
  rw [hf, hf]
  exact congrArg _ h

theorem Entry.frame_ending (y : Entry) : y.frame.state = .ending ↔ y.state = .ending := by
  have h : y.frame.state = if y.state.notStarted = true then (if y.state = .pending then .pending else .waiting)
      else y.state := rfl
  rw [h]
  generalize y.state = x
  cases x <;> decide

theorem State.find_ending {t : State} (h : t.frames st = s.frames st) {j : Nat}
    (hs : ((s.station st).find j).map Entry.state = some .ending) :
    ((t.station st).find j).map Entry.state = some .ending := by
  have hf := State.find_frames h j
  obtain ⟨x, hx, hxe⟩ := Option.map_eq_some_iff.mp hs
  rw [hx, Option.map_some] at hf
  obtain ⟨y, hy, hyx⟩ := Option.map_eq_some_iff.mp hf
  rw [hy, Option.map_some, (Entry.frame_ending y).mp (by rw [hyx]; exact (Entry.frame_ending x).mpr hxe)]

theorem State.frames_ids {t : State} (h : t.frames st = s.frames st) :
    (t.station st).list.map Entry.id = (s.station st).list.map Entry.id := by
  have hi (x : State) : (x.station st).list.map Entry.id = (x.frames st).map Entry.id := by
    rw [State.frames, List.map_map]
    rfl
  rw [hi, h, ← hi]

/-- What the start of a break makes of its station and the log. -/
structure Started (st : StationId) (e : Entry) (c d : BreakData) (s t : State) : Prop where
  find : (t.station st).find e.id = some { s.airedEntry st e with body := .brk d }
  same : ({ c with spots := c.spots.map Spot.disposed } : BreakData).SameSpots d
  fill : c.gap = 0 → c.fillState ≠ .absent → d.fillState = .none ∧ d.fillServed = .none
  ending : ∀ x : Entry, (s.station st).onAir = some x →
    ((t.station st).find x.id).map Entry.state = some .ending
  preFade : (t.station st).preFade = none
  due : (t.station st).due = none
  ids : (t.station st).list.map Entry.id = (s.station st).list.map Entry.id
  moved : Moved true true s t
  log : s.Unasked → t.asrun = s.asrun ∧ ((∀ x ∈ s.recordsHeld, x.2.station ≠ st ∨ x.2.entryId ≠ e.id) →
    t.recordsHeld = s.recordsHeld ++ disposalRecords st (s.airedEntry st e) c (s.stationTime st) c.spots.length)

theorem State.startBreak_started (hl : ((s.station st).list.map Entry.id).Nodup) (hh : e ∈ (s.station st).list)
    (hn : e.notStarted = true) (hb : e.body = .brk b) :
    ∃ d, Started st e (s.startedBreak st e b) d s (s.startBreak st e b) := by
  rw [State.startBreak_eq]
  obtain ⟨hun, hfind, hend, hpre, hdue, hids⟩ := State.brokenIn_station (b := b) hl hh hn hb
  have hmv := @State.brokenIn_moved s st e b
  have hmute := @State.brokenIn_mute s st e b
  have htime : (s.brokenIn st e b).stationTime st = s.stationTime st := by
    rw [State.stationTime, State.stationTime, (Fixed.fields hmv.fixed).1, (hmv.sameSettings st).offset]
  have hheld := @State.brokenIn_held s st e b
  generalize s.startedBreak st e b = c at *
  generalize s.brokenIn st e b = v at *
  have hd := State.disposed (y := s.airedEntry st e) hun hfind
  have hid : (s.airedEntry st e).id = e.id := rfl
  rw [hid] at hd
  generalize forEach (List.range c.spots.length) (fun i acc => acc.disposeAtStart st e.id i) v = w at *
  have hwf := hd.find
  rw [BreakData.disposedTo_all] at hwf
  obtain ⟨d1, hr1, hfill⟩ := State.releaseArmedFill_refilled hd.unclaimed hwf
  obtain ⟨d2, hr2, hsame⟩ := State.resolveIfDue_refilled hr1.unclaimed hr1.find
  rw [hid] at hr1 hr2
  generalize w.releaseArmedFill st e.id = w1 at *
  generalize w1.resolveIfDue st e.id = w2 at *
  have hp : Pooled w w2 := hr1.pooled.trans hr2.pooled
  have hframes : (w2.evalLow st).frames st = v.frames st := by
    rw [State.frames, State.evalLow_station]
    exact (hp.lists st).trans (hd.frames.own.trans (by simp))
  have hframe : (w2.station st).frame = (v.station st).frame := (hp.frame st).trans hd.frame
  obtain ⟨h1s, h1g, h1j, h1d⟩ := hr1.same
  obtain ⟨h2s, h2g, h2j, h2d⟩ := hr2.same
  refine ⟨d2, ?_, ⟨h2s.trans h1s, h2g.trans h1g, h2j.trans h1j, h2d.trans h1d⟩, fun h1 h2 => ?_,
    fun x hx => State.find_ending hframes (hend x hx), ?_, ?_, (State.frames_ids hframes).trans hids,
    ((hmv.trans hd.moved).trans (.pool hp)).trans Moved.evalLow, fun hs => ?_⟩
  · rw [State.evalLow_station]
    exact hr2.find
  · rw [hsame (h1g.trans h1)]
    exact hfill h1 h2
  · rw [State.evalLow_station]
    exact (congrArg Station.preFade hframe :).trans hpre
  · rw [State.evalLow_station]
    exact (congrArg Station.due hframe :).trans hdue
  · obtain ⟨hv, hva, hvh⟩ := hmute hs
    obtain ⟨hw, hwa, hwh⟩ := hd.log hv
    obtain ⟨-, h2a, h2h⟩ := (hr1.mute.trans hr2.mute) hw
    rw [State.evalLow_asrun, State.evalLow_recordsHeld]
    refine ⟨h2a.trans (hwa.trans hva), fun hheld' => h2h.trans ?_⟩
    rw [hwh (by rw [hheld]; exact hheld'), hheld, htime]

end Started

end Sys2Proof.Machine
end

section
/-!
PROOFS. The statement about the start of a break, and about one skipped.
-/

namespace Sys2Proof.Machine

section Start

variable {s : State} {st : StationId} {e : Entry} {b : BreakData}

theorem State.opBreakStart_eq (hh : s.hardBreak st = some (e, b)) (hp : s.preFadeDue st = none)
    (ht : e.dueTime ≤ s.stationTime st) (hend : s.stationTime st < e.endTime) :
    s.opBreakStart st = s.startBreak st e b := by
  unfold State.opBreakStart
  rw [State.opPreFade_none hp]
  simp only [hh]
  exact if_pos ⟨ht, hend⟩

theorem State.opBreakSkip_eq (hh : s.hardBreak st = some (e, b)) (hend : e.endTime ≤ s.stationTime st) :
    s.opBreakSkip st = s.skipBreak st e b := by
  simp only [State.opBreakSkip, State.breakPast, hh, if_pos hend]

/-- What a record of something aired or not tells, of what its gist tells. -/
def Gist.airing (g : Gist) : Outcome × StationId × Nat × Option Nat × Nat × Nat × Nat × Nat :=
  (g.1, g.2.1, g.2.2.1, g.2.2.2.1, g.2.2.2.2.1, g.2.2.2.2.2.2.1, g.2.2.2.2.2.2.2.1, g.2.2.2.2.2.2.2.2.1)

/-- The gist of the record of a spot of a skipped break (R119). -/
def BreakData.skipGist (b : BreakData) (st : StationId) (e : Entry) (now i : Nat) : Gist :=
  (.skipped, st, e.id, b.spots[i]?.map Spot.ref, (b.spots[i]?.map Spot.cart).getD 0,
    b.spots[i]?.map (b.spotSchedule e.dueTime i), now, now, 0, none)

theorem State.skipSpots_makes (ho : s.opening = true) : Makes .skipped b.spots.length
    ((List.range b.spots.length).map (b.skipGist st e (s.stationTime st))) s
    (forEach b.indices (fun i acc => acc.spotSkipped st e b i) s) := by
  have h := (Makes.forEach (o := .skipped) (s := s) (xs := b.indices) (f := fun i acc => acc.spotSkipped st e b i)
    (g := b.skipGist st e (s.stationTime st))
    (P := fun t => t.opening = true ∧ t.stationTime st = s.stationTime st) ⟨ho, rfl⟩ (by decide) fun i hi t ht => ?_).2
  · rwa [BreakData.indices, List.length_range] at h
  · have hlt : i < b.spots.length := List.mem_range.mp hi
    have hw : Within t (t.spotSkipped st e b i) := Within.spotSkipped
    refine ⟨⟨hw.opening.trans ht.1, (hw.stationTime st).trans ht.2⟩, ?_⟩
    have heq : t.spotSkipped st e b i = t.record (spotDisposed st e b i b.spots[i]
        (b.spots[i].planned.map Planned.used) (t.stationTime st) .skipped) := by
      simp only [State.spotSkipped, List.getElem?_eq_getElem hlt]
    have hg : b.skipGist st e (s.stationTime st) i = (spotDisposed st e b i b.spots[i]
        (b.spots[i].planned.map Planned.used) (t.stationTime st) .skipped).gist := by
      rw [BreakData.skipGist, List.getElem?_eq_getElem hlt, ht.2]
      rfl
    rw [heq, hg]
    exact Makes.record rfl

theorem State.skipBreak_makes (ho : s.opening = true) : Makes .skipped b.spots.length
    ((List.range b.spots.length).map (b.skipGist st e (s.stationTime st))) s (s.skipBreak st e b) :=
  have h := State.skipSpots_makes ho
  h.andStill (Makes.dropEntry (by decide) (h.opening.trans ho))

theorem State.spotSkipped_stations (i : Nat) : (s.spotSkipped st e b i).stations = s.stations := by
  unfold State.spotSkipped
  split
  · rfl
  · exact s.record_stations _

theorem State.skipSpots_stations :
    (forEach b.indices (fun i acc => acc.spotSkipped st e b i) s).stations = s.stations := by
  unfold forEach
  induction b.indices generalizing s with
  | nil => rfl
  | cons i l ih => exact ih.trans (State.spotSkipped_stations i)

theorem State.skipBreak_frames : (s.skipBreak st e b).frames st = (s.frames st).filter fun y => y.id != e.id := by
  have h := (Drops.dropEntry (s := forEach b.indices (fun i acc => acc.spotSkipped st e b i) s) (st := st) (e := e)).own
  rw [State.frames_congr State.skipSpots_stations] at h
  refine h.trans (List.filter_congr fun y _ => ?_)
  simp only [List.contains_cons, List.contains_nil, Bool.or_false, bne]

theorem BreakData.skipGist_airings (now : Nat) :
    ((List.range b.spots.length).map (b.skipGist st e now)).map Gist.airing = b.spots.map fun p =>
      (.skipped, st, e.id, some p.ref, p.cart, now, now, 0) := by
  rw [List.map_map]
  refine List.ext_getElem (by simp) fun i h1 h2 => ?_
  have hi : i < b.spots.length := by simpa using h2
  simp [Gist.airing, BreakData.skipGist, hi]

theorem records_airing (l : List Record) : l.map Record.airing = (l.map Record.gist).map Gist.airing := by
  rw [List.map_map]
  rfl

end Start

theorem Spot.disposed_place (p : Spot) : (p.disposed.cart, p.disposed.ref) = (p.cart, p.ref) ∧
    (p.disposed.plan, p.disposed.planned) = (p.plan, p.planned) := by
  unfold Spot.disposed
  split <;> exact ⟨rfl, rfl⟩

theorem disposalRecords_unrequested (st : StationId) (y : Entry) (c : BreakData) (l : List Spot) (now : Nat)
    (h : c.spots = l.map Spot.unrequested) : disposalRecords st y c now c.spots.length =
      l.zipIdx.filterMap (disposalRecord st y.id y.dueTime now) := by
  rw [disposalRecords, h, List.take_of_length_le (by simp), List.zipIdx_map, List.filterMap_map]
  rfl

end Sys2Proof.Machine

namespace Sys2Proof
open Machine

/-- Settles O48: the start spot by spot, and the skip record by record. -/
theorem breakStarts : Obligations.BreakStarts := by
  unfold Obligations.BreakStarts
  intro s st e b hin hl hh
  obtain ⟨hm, hn, hb⟩ := State.hardBreak_some hh
  refine ⟨fun hp ht hend => ?_, fun hend => ?_⟩
  · have hexec : exec (.breakStart st) s = .next (s.startBreak st e b).settlePool := by
      rw [← State.opBreakStart_eq hh hp ht hend]
      exact hin.event fun y => y.opBreakStart st
    obtain ⟨d, hstart⟩ := State.startBreak_started (hl.nodup st) hm hn hb
    obtain ⟨hspots, hgap, hjoin, hdur⟩ := hstart.same
    refine ⟨_, hexec, ⟨_, hstart.find, rfl, rfl, rfl, d, rfl, hjoin, hdur, ?_, fun q hq => ⟨?_, ?_, fun i p x hp' hx => ?_, ?_⟩⟩,
      fun q hq hr hheld => ?_, hstart.ending, hstart.preFade, hstart.due, hstart.ids, hstart.moved.beds,
      (Fixed.fields hstart.moved.fixed).2.1, (Fixed.fields hstart.moved.fixed).1⟩
    · rw [hspots]
      show ((s.startedBreak st e b).spots.map Spot.disposed).map _ = _
      rw [List.map_map, State.startedBreak, List.map_map]
      refine Eq.trans (List.map_congr_left fun p _ => ?_) (planWalk_places _ _ b.spots _ (by simp))
      exact (Spot.disposed_place p.unrequested).1
    · rw [hgap, hq]
      rfl
    · rw [hspots, hq]
      show ((s.startedBreak st e b).spots.map Spot.disposed).map _ = _
      rw [List.map_map, State.startedBreak, List.map_map]
      exact List.map_congr_left fun p _ => (Spot.disposed_place p.unrequested).2
    · have hxs : x = p.unrequested.disposed := by
        rw [hspots] at hx
        have hq' : (s.startedBreak st e b).spots = q.spots.map Spot.unrequested := by rw [hq]; rfl
        change ((s.startedBreak st e b).spots.map Spot.disposed)[i]? = some x at hx
        rw [hq', List.map_map, List.getElem?_map, hp'] at hx
        exact (Option.some.inj hx).symm
      refine ⟨fun hi => ?_, fun hi => ?_⟩
      · have hd : p.unrequested.disposed = p.unrequested := if_neg (by
          rw [show p.unrequested.plan = .included from hi]
          exact Bool.false_ne_true)
        rw [hxs, hd]
        exact ⟨rfl, rfl⟩
      · rw [hq] at hp'
        have hd : p.unrequested.disposed = { p.unrequested with state := .done, served := .none } :=
          if_pos (planWalk_judged hp' hi)
        rw [hxs, hd]
        exact ⟨rfl, rfl⟩
    · intro hg hf
      exact hstart.fill (by rw [hq] at hg; exact hg) hf
    · obtain ⟨ha, hrec⟩ := hstart.log hr
      refine ⟨ha, (hrec hheld).trans (congrArg _ ?_)⟩
      have hq' : (s.startedBreak st e b).spots = q.spots.map Spot.unrequested := by rw [hq]; rfl
      exact disposalRecords_unrequested st (s.airedEntry st e) _ _ _ hq'
  · have hexec : exec (.breakSkip st) s = .next (s.skipBreak st e b).settlePool := by
      rw [← State.opBreakSkip_eq hh hend]
      exact hin.event fun y => y.opBreakSkip st
    have hmake := State.skipBreak_makes (st := st) (e := e) (b := b) hin.2.1
    have hmoved : Moved true true s (s.skipBreak st e b) := Moved.skipBreak
    refine ⟨_, hexec, ?_, fun ht => ⟨hmake.asrun, fun h1 h2 => (hmake.unheld h1 h2).1, ?_⟩, fun hr => ?_, hmoved.beds,
      (Fixed.fields hmoved.fixed).2.1, (Fixed.fields hmoved.fixed).1⟩
    · refine State.skipBreak_frames.trans ?_
      rw [State.frames, List.filter_map]
      rfl
    · have hg := hmake.gists ht
      rw [State.gists, State.gists] at hg
      rw [records_airing, hg, List.map_append, BreakData.skipGist_airings, ← records_airing]
    · have hst : (forEach b.indices (fun i acc => acc.spotSkipped st e b i) s).Unasked :=
        State.unasked_congr State.skipSpots_stations hr
      have hf := ((Calm.dropEntry (st := st) (e := e)) hst).faults st
      rw [State.station_congr State.skipSpots_stations] at hf
      exact hf

end Sys2Proof
end

section
/-!
PROOFS. A request for a deck where no other waits: granted at once with the lowest FREE deck, or waiting.
-/

namespace Sys2Proof.Machine

/-! ## The choice among one request -/

theorem State.bestRequest_none {s : State} : s.bestRequest = none ↔ s.Unasked :=
  (foldl_bestRequest s allStations allStations_sorted).1.trans ⟨fun h u => h u (mem_allStations u), fun h u _ => h u⟩

theorem State.arbitrateLoop_unasked {s : State} (h : s.Unasked) (n : Nat) : arbitrateLoop n s = s := by
  have hone : s.arbitrateOnce = none := by
    unfold State.arbitrateOnce
    rw [State.bestRequest_none.mpr h]
    split
    next heq => cases heq
    · rfl
  cases n with
  | zero => rfl
  | succ n => rw [arbitrateLoop, hone]

/-- One request waits, of one station. -/
def State.AskedOnce (s : State) (st : StationId) (r : DeckRequest) : Prop :=
  (s.station st).requests = [r] ∧ ∀ u : StationId, u ≠ st → (s.station u).requests = []

theorem State.AskedOnce.best {s : State} {st : StationId} {r : DeckRequest} (h : s.AskedOnce st r) :
    s.bestRequest = some (st, r) := by
  cases hb : s.bestRequest with
  | none =>
    have := State.bestRequest_none.mp hb st
    rw [h.1] at this
    cases this
  | some x =>
    obtain ⟨u, q⟩ := x
    have hq := bestRequest_mem hb
    by_cases hu : u = st
    · subst hu
      rw [h.1] at hq
      rw [List.mem_singleton.mp hq]
    · rw [h.2 u hu] at hq
      cases hq

theorem State.AskedOnce.waiting {s : State} {st : StationId} {r : DeckRequest} (h : s.AskedOnce st r) :
    ∃ n, s.waitingRequests = n + 1 := by
  have hm : (s.station st).requests.length ∈ allStations.map fun u => (s.station u).requests.length :=
    List.mem_map.mpr ⟨st, mem_allStations st, rfl⟩
  have hle := List.le_sum_of_mem hm
  rw [h.1] at hle
  exact ⟨s.waitingRequests - 1, (Nat.sub_add_cancel hle).symm⟩

/-- A lone request whose entry is READY gets the lowest FREE deck (R26, R27). -/
theorem State.arbitrate_once {s : State} {st : StationId} {r : DeckRequest} {d : DeckId} {x : DirEntry}
    (h : s.AskedOnce st r) (hd : s.freeDeckNo = some d) (hx : s.entryAt r.slot = some x) (hr : x.state = .ready)
    (hg : (s.grant st r d x).Unasked) : s.arbitrate = s.grant st r d x := by
  have hone : s.arbitrateOnce = some (s.grant st r d x) := by
    unfold State.arbitrateOnce
    rw [hd, h.best]
    simp only [hx, hr, if_true]
  obtain ⟨n, hn⟩ := h.waiting
  rw [State.arbitrate, hn, arbitrateLoop, hone]
  exact State.arbitrateLoop_unasked hg n

/-! ## What a target is told -/

/-- What a target is told writes lists alone. -/
theorem State.setWaiting_requests (s : State) (st u : StationId) (g : Target) :
    ((s.setWaiting st g).station u).requests = (s.station u).requests := by
  have h (id : Nat) (f : Entry → Entry) : ((s.modEntry st id f).station u).requests = (s.station u).requests := by
    by_cases hu : st = u
    · subst hu
      rw [State.modEntry, State.modStation_station]
    · rw [State.modEntry, State.modStation_station_ne _ _ hu]
  cases g
  · exact h _ _
  · exact h _ _
  · exact h _ _
  · rfl
  · rfl

theorem State.setGranted_requests (s : State) (st u : StationId) (d : DeckId) (g : Target) :
    ((s.setGranted st d g).station u).requests = (s.station u).requests := by
  have h (t : State) (id : Nat) (f : Entry → Entry) : ((t.modEntry st id f).station u).requests = (t.station u).requests := by
    by_cases hu : st = u
    · subst hu
      rw [State.modEntry, State.modStation_station]
    · rw [State.modEntry, State.modStation_station_ne _ _ hu]
  cases g
  · exact h _ _ _
  · exact (h _ _ _).trans (h _ _ _)
  · exact (h _ _ _).trans (h _ _ _)
  · rfl
  · rfl

theorem State.setWaiting_rest (s : State) (st : StationId) (g : Target) : (s.setWaiting st g).decks = s.decks ∧
    (s.setWaiting st g).dir = s.dir ∧ (s.setWaiting st g).conds = s.conds := by cases g <;> exact ⟨rfl, rfl, rfl⟩

theorem State.setGranted_rest (s : State) (st : StationId) (d : DeckId) (g : Target) :
    (s.setGranted st d g).decks = s.decks ∧ (s.setGranted st d g).dir = s.dir ∧
      (s.setGranted st d g).conds = s.conds := by cases g <;> exact ⟨rfl, rfl, rfl⟩

/-- What an entry, a spot or a fill looks like under a request that waits, and under a grant. -/
def Entry.awaits (e : Entry) : Target → Entry
  | .item _ => { e with served := .waiting }
  | .spot _ i =>
    match e.body with
    | .item _ => e
    | .brk b => { e with body := .brk { b with spots := b.spots.modify i fun p => { p with served := .waiting } } }
  | .fill _ =>
    match e.body with
    | .item _ => e
    | .brk b => { e with body := .brk { b with fillServed := .waiting } }
  | .trailSpot _ => e
  | .trailFill _ => e

def Entry.granted (e : Entry) (d : DeckId) : Target → Entry
  | .item _ => { e with served := .deck d, state := e.state.armedBy }
  | .spot _ i =>
    match e.body with
    | .item _ => { e with state := e.state.armedBy }
    | .brk b =>
      { e with
        state := e.state.armedBy
        body := .brk { b with
          spots := b.spots.modify i fun p => { p with served := .deck d, state := p.state.armedBy } } }
  | .fill _ =>
    match e.body with
    | .item _ => { e with state := e.state.armedBy }
    | .brk b =>
      { e with
        state := e.state.armedBy
        body := .brk { b with fillServed := .deck d, fillState := b.fillState.armedBy } }
  | .trailSpot _ => e
  | .trailFill _ => e

theorem State.setWaiting_find {s : State} {st : StationId} {g : Target} {e : Entry} (hg : g.belongs e.id = true)
    (he : (s.station st).find e.id = some e) :
    ((s.setWaiting st g).station st).find e.id = some (e.awaits g) := by
  cases g with
  | item id =>
    obtain rfl : id = e.id := by simpa [Target.belongs] using hg
    exact State.modEntry_find_own (f := fun y : Entry => { y with served := .waiting }) (fun _ => rfl) he
  | spot id i =>
    obtain rfl : id = e.id := by simpa [Target.belongs] using hg
    refine (State.modEntry_find_own (fun y => ?_) he).trans rfl
    split <;> rfl
  | fill id =>
    obtain rfl : id = e.id := by simpa [Target.belongs] using hg
    refine (State.modEntry_find_own (fun y => ?_) he).trans rfl
    split <;> rfl
  | trailSpot => cases hg
  | trailFill => cases hg

theorem State.setGranted_find {s : State} {st : StationId} {d : DeckId} {g : Target} {e : Entry}
    (hg : g.belongs e.id = true) (he : (s.station st).find e.id = some e) :
    ((s.setGranted st d g).station st).find e.id = some (e.granted d g) := by
  have harm {t : State} {y : Entry} (hy : (t.station st).find e.id = some y) :
      ((t.modEntry st e.id fun z => { z with state := z.state.armedBy }).station st).find e.id =
        some { y with state := y.state.armedBy } := by
    have hid := Station.find_id hy
    rw [← hid] at hy ⊢
    exact State.modEntry_find_own (f := fun z : Entry => { z with state := z.state.armedBy }) (fun _ => rfl) hy
  cases g with
  | item id =>
    obtain rfl : id = e.id := by simpa [Target.belongs] using hg
    exact State.modEntry_find_own (f := fun y : Entry => { y with served := .deck d, state := y.state.armedBy })
      (fun _ => rfl) he
  | spot id i =>
    obtain rfl : id = e.id := by simpa [Target.belongs] using hg
    refine (harm (State.modEntry_find_own (fun y => ?_) he)).trans ?_
    · split <;> rfl
    · unfold Entry.granted
      dsimp only
      split <;> simp only [*]
  | fill id =>
    obtain rfl : id = e.id := by simpa [Target.belongs] using hg
    refine (harm (State.modEntry_find_own (fun y => ?_) he)).trans ?_
    · split <;> rfl
    · unfold Entry.granted
      dsimp only
      split <;> simp only [*]
  | trailSpot => cases hg
  | trailFill => cases hg

/-! ## A lone request -/

/-- A request that a station makes, told to its target. -/
def State.asking (s : State) (st : StationId) (r : DeckRequest) : State :=
  (s.modStation st fun x => { x with requests := x.requests ++ [r] }).setWaiting st r.target

section Lone

variable {s : State} {st : StationId} {r : DeckRequest} {e : Entry}

theorem State.asking_once (h : s.Unasked) : (s.asking st r).AskedOnce st r := by
  refine ⟨?_, fun u hu => ?_⟩
  · rw [State.asking, State.setWaiting_requests, State.modStation_station]
    show (s.station st).requests ++ [r] = [r]
    rw [h st]
    rfl
  · rw [State.asking, State.setWaiting_requests, State.modStation_station_ne _ _ (Ne.symm hu)]
    exact h u

theorem State.asking_rest : (s.asking st r).decks = s.decks ∧ (s.asking st r).dir = s.dir ∧
    (s.asking st r).conds = s.conds := State.setWaiting_rest _ st r.target

theorem State.asking_find (hg : r.target.belongs e.id = true) (he : (s.station st).find e.id = some e) :
    ((s.asking st r).station st).find e.id = some (e.awaits r.target) :=
  State.setWaiting_find (s := s.modStation st fun x => { x with requests := x.requests ++ [r] }) hg
    (by rw [State.modStation_station]; exact he)

/-- What a grant makes of the deck, the pool and the target's entry. -/
structure Granted (st : StationId) (r : DeckRequest) (d : DeckId) (x : DirEntry) (s t : State) : Prop where
  own : t.deck d = ⟨(s.deck d).player.bound x r.looping, some st, some r.target⟩
  others : ∀ q : DeckId, q ≠ d → t.deck q = s.deck q
  unasked : t.Unasked
  dir : t.dir = s.dir.map fun e => if e.slot = x.slot then { e with bindings := e.bindings + 1 } else e
  conds : t.conds = s.conds

theorem State.grant_granted {d : DeckId} {x : DirEntry} (h : s.AskedOnce st r) : Granted st r d x s (s.grant st r d x) := by
  unfold State.grant
  simp only
  generalize hu : (((s.modStation st fun y => { y with requests := y.requests.erase r, dirty := true }).setDeck d
    ⟨(s.deck d).player.bound x r.looping, some st, some r.target⟩).bindSlot x.slot) = u
  obtain ⟨hdk, hdir, hcond⟩ := State.setGranted_rest u st d r.target
  have hdeck (q : DeckId) : (u.setGranted st d r.target).deck q = u.deck q := State.deck_congr hdk q
  refine ⟨?_, fun q hq => ?_, fun v => ?_, ?_, ?_⟩
  · rw [hdeck, ← hu]
    exact State.setDeck_deck _ d _
  · rw [hdeck, ← hu]
    exact State.setDeck_deck_ne (s.modStation st fun y => { y with requests := y.requests.erase r, dirty := true })
      _ (Ne.symm hq)
  · rw [State.setGranted_requests, ← hu]
    show ((s.modStation st fun y => { y with requests := y.requests.erase r, dirty := true }).station v).requests = []
    by_cases hv : st = v
    · subst hv
      rw [State.modStation_station]
      show (s.station st).requests.erase r = []
      rw [h.1]
      simp
    · rw [State.modStation_station_ne _ _ hv]
      exact h.2 v (Ne.symm hv)
  · rw [hdir, ← hu]
    rfl
  · rw [hcond, ← hu]
    rfl

theorem State.grant_find {d : DeckId} {x : DirEntry} (hg : r.target.belongs e.id = true)
    (he : (s.station st).find e.id = some e) :
    ((s.grant st r d x).station st).find e.id = some (e.granted d r.target) := by
  unfold State.grant
  simp only
  refine State.setGranted_find hg ?_
  show ((s.modStation st fun y => { y with requests := y.requests.erase r, dirty := true }).station st).find e.id = some e
  rw [State.modStation_station]
  exact he

theorem Entry.awaits_id (e : Entry) (g : Target) : (e.awaits g).id = e.id := by
  unfold Entry.awaits
  split
  · rfl
  · split <;> rfl
  · split <;> rfl
  · rfl
  · rfl

/-- A grant overwrites that a request has waited. -/
theorem Entry.awaits_granted (e : Entry) (d : DeckId) (g : Target) : (e.awaits g).granted d g = e.granted d g := by
  cases g with
  | item => rfl
  | spot id i =>
    cases hb : e.body with
    | item => simp [Entry.awaits, Entry.granted, hb]
    | brk b => simp [Entry.awaits, Entry.granted, hb, List.modify_modify_eq, Function.comp_def]
  | fill id =>
    cases hb : e.body with
    | item => simp [Entry.awaits, Entry.granted, hb]
    | brk b => simp [Entry.awaits, Entry.granted, hb]
  | trailSpot => rfl
  | trailFill => rfl

section Asked

variable {g : Target} {slot n : Nat} {lp : Bool}

theorem State.requestDeck_asking (hc : s.belowCap st = true) :
    s.requestDeck st g slot lp n = (s.asking st ⟨g, slot, lp, s.requestKey st n⟩).arbitrate :=
  if_neg (by rw [hc]; decide)

/-- Below the cap, with no other request waiting and a deck FREE, a request is granted as it is made (R25 to R27). -/
theorem State.requestDeck_granted {d : DeckId} {x : DirEntry} (hc : s.belowCap st = true) (hu : s.Unasked)
    (hd : (s.deck d).player.state = .free) (hmin : ∀ q : DeckId, q < d → (s.deck q).player.state ≠ .free)
    (hx : s.entryAt slot = some x) (hr : x.state = .ready) (hg : g.belongs e.id = true)
    (he : (s.station st).find e.id = some e) :
    Granted st ⟨g, slot, lp, s.requestKey st n⟩ d x s (s.requestDeck st g slot lp n) ∧
    ((s.requestDeck st g slot lp n).station st).find e.id = some (e.granted d g) := by
  have honce := State.asking_once (st := st) (r := ⟨g, slot, lp, s.requestKey st n⟩) hu
  have hfind := State.asking_find (r := ⟨g, slot, lp, s.requestKey st n⟩) hg he
  obtain ⟨hdk, hdir, hcond⟩ := @State.asking_rest s st ⟨g, slot, lp, s.requestKey st n⟩
  rw [State.requestDeck_asking hc]
  generalize s.asking st ⟨g, slot, lp, s.requestKey st n⟩ = t at honce hfind hdk hdir hcond
  have hdeck (q : DeckId) : t.deck q = s.deck q := State.deck_congr hdk q
  have hgr : Granted st ⟨g, slot, lp, s.requestKey st n⟩ d x t (t.grant st _ d x) := State.grant_granted honce
  have harb := State.arbitrate_once honce (State.freeDeckNo_eq_some.mpr ⟨by rw [hdeck]; exact hd,
    fun q hq => by rw [hdeck]; exact hmin q hq⟩) (x := x) (by rw [State.entryAt, hdir]; exact hx) hr hgr.unasked
  rw [harb]
  refine ⟨⟨by rw [hgr.own, hdeck], fun q hq => by rw [hgr.others q hq, hdeck], hgr.unasked, by rw [hgr.dir, hdir],
    hgr.conds.trans hcond⟩, ?_⟩
  have hid := e.awaits_id g
  have := State.grant_find (d := d) (x := x) (r := ⟨g, slot, lp, s.requestKey st n⟩) (e := e.awaits g)
    (by rw [hid]; exact hg) (by rw [hid]; exact hfind)
  rw [hid] at this
  exact this.trans (congrArg some (e.awaits_granted d g))

/-- With no deck FREE it waits (R26). -/
theorem State.requestDeck_waiting (hc : s.belowCap st = true) (hu : s.Unasked)
    (hf : ∀ d : DeckId, (s.deck d).player.state ≠ .free) (hg : g.belongs e.id = true)
    (he : (s.station st).find e.id = some e) :
    (s.requestDeck st g slot lp n).decks = s.decks ∧ (s.requestDeck st g slot lp n).conds = s.conds ∧
    ((s.requestDeck st g slot lp n).station st).requests = [⟨g, slot, lp, s.requestKey st n⟩] ∧
    ((s.requestDeck st g slot lp n).station st).find e.id = some (e.awaits g) := by
  have heq : s.requestDeck st g slot lp n = s.asking st ⟨g, slot, lp, s.requestKey st n⟩ :=
    State.requestDeck_waits hc hf g slot lp n
  obtain ⟨hdk, -, hcond⟩ := @State.asking_rest s st ⟨g, slot, lp, s.requestKey st n⟩
  rw [heq]
  exact ⟨hdk, hcond, (State.asking_once hu).1, State.asking_find hg he⟩

end Asked

end Lone

end Sys2Proof.Machine
end

section
/-!
PROOFS. The candidates of a re-evaluation, their expected starts, and how an item arms.
-/

namespace Sys2Proof.Machine

/-! ## Candidates -/

section Candidates

variable {s : State} {st : StationId} {e : Entry}

theorem State.horizonEntry_some : s.horizonEntry st = some e ↔
    (s.station st).hardEntry = some e ∧ e.dueTime ≤ s.stationTime st + (s.station st).cfg.armHorizon := by
  unfold State.horizonEntry
  split
  next h => simp [h]
  next x h =>
    rw [h]
    split
    next ht => exact ⟨fun hx => by obtain rfl := Option.some.inj hx; exact ⟨rfl, ht⟩, fun hx => hx.1⟩
    next ht => exact ⟨fun hx => (by cases hx), fun hx => by obtain rfl := Option.some.inj hx.1; exact absurd hx.2 ht⟩

/-- The first two entries not started, by their ids. -/
def State.nextTwo (s : State) (st : StationId) : List Nat := ((s.station st).waitingList.take 2).map Entry.id

theorem State.candidates_none (h : s.horizonEntry st = none) : s.candidates st = s.nextTwo st := by
  simp only [State.candidates, h]
  rfl

theorem State.candidates_some (h : s.horizonEntry st = some e) :
    s.candidates st = e.id :: (s.nextTwo st).filter fun i => i != e.id := by
  simp only [State.candidates, h]
  rfl

theorem State.nextTwo_nodup (hl : ((s.station st).list.map Entry.id).Nodup) : (s.nextTwo st).Nodup :=
  (((List.take_sublist 2 _).trans List.filter_sublist).map Entry.id).nodup hl

theorem State.nextTwo_length : (s.nextTwo st).length ≤ 2 := by
  rw [State.nextTwo, List.length_map]
  exact List.length_take_le _ _

theorem State.candidates_short : (s.candidates st).length ≤ 3 := by
  cases h : s.horizonEntry st with
  | none =>
    rw [State.candidates_none h]
    exact Nat.le_succ_of_le State.nextTwo_length
  | some e =>
    rw [State.candidates_some h, List.length_cons]
    exact Nat.succ_le_succ ((List.length_filter_le _ _).trans State.nextTwo_length)

theorem State.candidates_nodup (hl : ((s.station st).list.map Entry.id).Nodup) : (s.candidates st).Nodup := by
  cases h : s.horizonEntry st with
  | none =>
    rw [State.candidates_none h]
    exact State.nextTwo_nodup hl
  | some e =>
    rw [State.candidates_some h]
    exact List.nodup_cons.mpr ⟨fun hm => by simpa using (List.mem_filter.mp hm).2, (State.nextTwo_nodup hl).filter _⟩

theorem State.mem_nextTwo (hl : ((s.station st).list.map Entry.id).Nodup) (he : e ∈ (s.station st).list) :
    e.id ∈ s.nextTwo st ↔ e ∈ (s.station st).waitingList.take 2 := by
  refine ⟨fun hm => ?_, fun hm => List.mem_map.mpr ⟨e, hm, rfl⟩⟩
  obtain ⟨x, hx, hid⟩ := List.mem_map.mp hm
  rwa [id_injOn hl he (List.mem_filter.mp (List.mem_of_mem_take hx)).1 hid.symm]

theorem State.mem_candidates (hl : ((s.station st).list.map Entry.id).Nodup) (he : e ∈ (s.station st).list) :
    e.id ∈ s.candidates st ↔ e ∈ (s.station st).waitingList.take 2 ∨ s.horizonEntry st = some e := by
  cases h : s.horizonEntry st with
  | none =>
    rw [State.candidates_none h, State.mem_nextTwo hl he]
    exact ⟨.inl, fun h => h.elim id fun h => by cases h⟩
  | some x =>
    have hx : x ∈ (s.station st).list := (List.mem_filter.mp (List.mem_of_find?_eq_some (State.horizonEntry_some.mp h).1)).1
    rw [State.candidates_some h, List.mem_cons, List.mem_filter, State.mem_nextTwo hl he]
    constructor
    · rintro (hid | ⟨hm, -⟩)
      · exact .inr (congrArg some (id_injOn hl hx he hid.symm))
      · exact .inl hm
    · rintro (hm | hxe)
      · by_cases hid : e.id = x.id
        · exact .inl hid
        · exact .inr ⟨hm, by simpa using hid⟩
      · exact .inl (congrArg Entry.id (Option.some.inj hxe).symm)

theorem State.candidates_clean : (s.modStation st fun x => { x with dirty := false }).candidates st = s.candidates st := by
  unfold State.candidates State.horizonEntry State.stationTime
  rw [State.modStation_station]
  rfl

theorem State.reevaluate_idle (h : (s.station st).airs = false) :
    s.reevaluate st = s.setStation st { s.station st with dirty := false } := by
  refine if_pos ?_
  rw [State.modStation_station]
  exact congrArg not h

theorem State.reevaluate_unbroken (h : (s.station st).airs = true) (hb : (s.station st).onAirBreak = none) :
    s.reevaluate st = (s.candidates st).foldl (fun acc id => State.armOne st id acc)
      (s.setStation st { s.station st with dirty := false }) := by
  have hserve : (s.modStation st fun x => { x with dirty := false }).serveBreak st =
      s.modStation st fun x => { x with dirty := false } := by
    have hn : ((s.modStation st fun x => { x with dirty := false }).station st).onAirBreak = none := by
      rw [State.modStation_station]
      exact hb
    simp only [State.serveBreak, hn]
  refine (if_neg ?_).trans ?_
  · rw [State.modStation_station]
    exact fun hc => by
      rw [show Station.airs { s.station st with dirty := false } = true from h] at hc
      cases hc
  · rw [hserve, State.candidates_clean]
    rfl

end Candidates

/-! ## Expected starts -/

section Expected

variable {s : State} {st : StationId} {e : Entry}

theorem State.expectedStart_hard (h : e.startKind = .hard) : s.expectedStart st e = e.dueTime := if_pos h

theorem State.expectedStart_pending (h : e.startKind ≠ .hard) (hp : e.state = .pending) :
    s.expectedStart st e = s.stationTime st := (if_neg h).trans (if_pos hp)

theorem State.expectedStart_first (h : e.startKind ≠ .hard) (hp : e.state ≠ .pending)
    (hm : (s.station st).mode = .auto) (hk : e.startKind = .segue ∨ e.startKind = .follow)
    (hh : (s.station st).waitingList.head? = some e) : s.expectedStart st e = s.expectedFirst st e.startKind :=
  (if_neg h).trans ((if_neg hp).trans (if_pos ⟨hm, hk, by rw [hh]; exact beq_self_eq_true _⟩))

theorem State.expectedStart_unforeseen (hl : ((s.station st).list.map Entry.id).Nodup) (he : e ∈ (s.station st).list)
    (h : e.startKind ≠ .hard) (hp : e.state ≠ .pending)
    (hn : (s.station st).mode ≠ .auto ∨ e.startKind = .take ∨ (s.station st).waitingList.head? ≠ some e) :
    s.expectedStart st e = Config.unforeseen := by
  refine (if_neg h).trans ((if_neg hp).trans (if_neg ?_))
  rintro ⟨hm, hk, hh⟩
  rcases hn with hn | hn | hn
  · exact hn hm
  · rw [hn] at hk
    rcases hk with hk | hk <;> cases hk
  · obtain ⟨x, hx, hid⟩ := Option.any_eq_true _ _ |>.mp hh
    have hxl : x ∈ (s.station st).list := (List.mem_filter.mp (List.mem_of_head? hx)).1
    rw [id_injOn hl hxl he (beq_iff_eq.mp hid)] at hx
    exact hn hx

theorem endPoint_eq (y : DirEntry) (k : StartKind) :
    endPoint y k = if k = .segue ∧ y.category ≠ .spot then y.segue.getD y.trimOut else y.trimOut := by
  unfold endPoint
  split
  next g hg =>
    by_cases hc : y.category = .spot
    · rw [if_pos hc, if_neg fun h => h.2 hc]
    · rw [if_neg hc, if_pos ⟨rfl, hc⟩, hg]
      rfl
  next hno =>
    split
    next hs =>
      obtain ⟨rfl, -⟩ := hs
      cases hg : y.segue with
      | none => rfl
      | some g => exact absurd hg (hno g rfl)
    · rfl

theorem State.requestKey_unforeseen : s.requestKey st Config.unforeseen = Config.unforeseen := if_pos rfl

theorem State.requestKey_foreseen {v : Nat} (h : v < 281474976710655) : s.requestKey st v =
    (v + 281474976710656 - (s.station st).offset.toNat) % 281474976710656 := by
  have hne : v ≠ Config.unforeseen := Nat.ne_of_lt h
  refine (if_neg hne).trans ?_
  have ho := (s.station st).offset.isLt
  rw [BitVec.toNat_sub, BitVec.toNat_ofNat, Nat.mod_eq_of_lt (Nat.lt_succ_of_lt h)]
  omega

end Expected

end Sys2Proof.Machine
end

section
/-!
PROOFS. How a break arms: its provisional plan, its first spot or its fill; and a request that is dead.
-/

namespace Sys2Proof.Machine

/-! ## What a changed break leaves -/

section ModBreak

variable {s : State} {st : StationId} {id : Nat} {f g : Entry → Entry}

theorem State.modEntry_unasked (h : s.Unasked) : (s.modEntry st id f).Unasked := (Calm.modEntry h).unasked

theorem State.modEntry_requests (u : StationId) : ((s.modEntry st id f).station u).requests = (s.station u).requests := by
  by_cases hu : st = u
  · subst hu
    rw [State.modEntry, State.modStation_station]
  · rw [State.modEntry, State.modStation_station_ne _ _ hu]

theorem State.modEntry_belowCap : (s.modEntry st id f).belowCap st = s.belowCap st := by
  unfold State.belowCap
  rw [State.modEntry_requests]
  rfl

theorem State.modEntry_requestKey (n : Nat) : (s.modEntry st id f).requestKey st n = s.requestKey st n := by
  unfold State.requestKey
  rw [State.modEntry, State.modStation_station]

theorem State.modEntry_cfg : ((s.modEntry st id f).station st).cfg = (s.station st).cfg := by
  rw [State.modEntry, State.modStation_station]

theorem State.modEntry_stationTime : (s.modEntry st id f).stationTime st = s.stationTime st := by
  unfold State.stationTime
  rw [State.modEntry, State.modStation_station]
  rfl

/-- What is made of the one entry with an id is all that is made. -/
theorem State.modEntry_own_congr {e : Entry} (hl : ((s.station st).list.map Entry.id).Nodup)
    (he : (s.station st).find e.id = some e) (h : f e = g e) : s.modEntry st e.id f = s.modEntry st e.id g := by
  unfold State.modEntry State.modStation
  refine congrArg (fun l => s.setStation st { s.station st with list := l }) (List.map_congr_left fun y hy => ?_)
  by_cases hid : y.id = e.id
  · rw [if_pos hid, if_pos hid, id_injOn hl hy (List.mem_of_find?_eq_some he) hid, h]
  · rw [if_neg hid, if_neg hid]

end ModBreak

/-! ## The fill's resolution -/

theorem BreakData.nextSpot_none {b : BreakData} : b.nextSpot = none ↔ b.spots.any Spot.remains = false := by
  unfold BreakData.nextSpot
  constructor
  · intro h
    split at h
    next hf =>
      rw [List.findIdx?_eq_none_iff] at hf
      exact List.any_eq_false.mpr fun x hx => by simpa using hf x hx
    next i hf =>
      obtain ⟨hlt, -⟩ := List.findIdx?_eq_some_iff_getElem.mp hf
      rw [List.getElem?_eq_getElem hlt] at h
      cases h
  · intro h
    have hf : b.spots.findIdx? Spot.remains = none :=
      List.findIdx?_eq_none_iff.mpr fun x hx => by simpa using (List.any_eq_false.mp h) x hx
    rw [hf]

theorem BreakData.nextSpot_some {b : BreakData} {i : Nat} {p : Spot} (h : b.nextSpot = some (i, p)) :
    b.spots[i]? = some p ∧ p.remains = true := by
  unfold BreakData.nextSpot at h
  split at h
  · cases h
  next j hf =>
    obtain ⟨hlt, hr, -⟩ := List.findIdx?_eq_some_iff_getElem.mp hf
    rw [List.getElem?_eq_getElem hlt] at h
    obtain ⟨rfl, rfl⟩ := Prod.mk.inj (Option.some.inj h)
    exact ⟨List.getElem?_eq_getElem hlt, hr⟩

/-- The data of a break whose fill is resolved with an entry (R125). -/
def BreakData.filled (b : BreakData) (c : Nat) (x : DirEntry) : BreakData :=
  { b with fillResolved := true, fillUsed := some c, fillPlanned := some x.planned, fillState := .waiting }

section Fill

variable {s : State} {st : StationId} {id : Nat} {b : BreakData}

theorem State.resolveFill_bed {c : Nat} {x : DirEntry} (hc : (b.fillCart <|> (s.station st).cfg.fillCart) = some c)
    (hx : s.lookup st c = some x) (hb : x.category = .bed) :
    s.resolveFill st id b = s.modBreak st id fun y => y.filled c x := by
  unfold State.resolveFill
  rw [hc]
  simp only [hx, hb, if_true]
  rfl

/-- The resolution with no entry to take: the cart noted, and the fill ABSENT (R125, R127). -/
def BreakData.unfilled (u : Option Nat) (b : BreakData) : BreakData :=
  { b with fillResolved := true, fillUsed := u, fillState := .absent, fillServed := .none }

theorem State.resolveFill_absent (h : ∀ (c : Nat) (x : DirEntry), (b.fillCart <|> (s.station st).cfg.fillCart) = some c →
    s.lookup st c = some x → x.category ≠ .bed) :
    ∃ f : BreakData → BreakData, s.resolveFill st id b = (s.modBreak st id f).fillAbsent st id ∧
      ∀ y, ∃ u, f y = { y with fillResolved := true, fillUsed := u } := by
  unfold State.resolveFill
  split
  · exact ⟨_, rfl, fun y => ⟨y.fillUsed, rfl⟩⟩
  next c hc =>
    split
    · exact ⟨_, rfl, fun _ => ⟨some c, rfl⟩⟩
    next x hx =>
      rw [if_neg (h c x hc hx)]
      exact ⟨_, rfl, fun _ => ⟨some c, rfl⟩⟩

theorem State.plannedReady_of {x : DirEntry} (h : s.entryAt x.slot = some x) (hr : x.state = .ready) :
    s.plannedReady x.planned = true :=
  List.any_eq_true.mpr ⟨x, List.mem_of_find?_eq_some h, by simp [DirEntry.planned, hr]⟩

/-- An entry that a lookup finds is READY (R4). -/
theorem State.lookup_ready {c : Nat} {x : DirEntry} (h : s.lookup st c = some x) : x.state = .ready := by
  have hk {o : Option StationId} {x : DirEntry} (hx : s.keyed c o (· == .ready) = some x) : x.state = .ready := by
    have := List.find?_some hx
    simp only [Bool.and_eq_true, beq_iff_eq] at this
    exact this.2
  unfold State.lookup at h
  split at h
  next y hy => exact hk (hy.trans h)
  next => exact hk h

theorem State.requestFill_asks {q : Planned} {n : Nat} (hf : b.fillState = .waiting) (hv : b.fillServed = .none)
    (hc : s.belowCap st = true) (hq : b.fillPlanned = some q) (hr : s.plannedReady q = true) :
    s.requestFill st id b n = s.requestDeck st (.fill id) q.slot true n := by
  refine (if_pos ⟨.inl hf, hv, hc⟩).trans ?_
  rw [hq]
  exact if_pos hr

theorem State.requestFill_still {n : Nat} (h : b.fillState ≠ .waiting ∧ b.fillState ≠ .pending ∨ b.fillServed ≠ .none ∨
    s.belowCap st = false) : s.requestFill st id b n = s := by
  refine if_neg ?_
  rintro ⟨hf, hv, hc⟩
  rcases h with ⟨h1, h2⟩ | h | h
  · exact hf.elim h1 h2
  · exact h hv
  · rw [h] at hc
    cases hc

theorem State.resolveIfDue_eq {e : Entry} (hb : s.breakOf st id = some (e, b)) (hn : b.nextSpot = none) (hg : 0 < b.gap)
    (hr : b.fillResolved = false) : s.resolveIfDue st id = s.resolveFill st id b := by
  unfold State.resolveIfDue
  rw [hb]
  exact if_pos ⟨by rw [hn]; rfl, hg, hr⟩

theorem State.resolveIfDue_still {e : Entry} (hb : s.breakOf st id = some (e, b))
    (h : b.nextSpot.isSome = true ∨ b.gap = 0 ∨ b.fillResolved = true) : s.resolveIfDue st id = s := by
  unfold State.resolveIfDue
  rw [hb]
  refine if_neg ?_
  rintro ⟨h1, h2, h3⟩
  rcases h with h | h | h
  · rw [Option.isNone_iff_eq_none.mp h1] at h
    cases h
  · exact h2.ne' h
  · rw [h] at h3
    cases h3

end Fill

/-- A fill that cannot be had: what is told of its break, and BREAK_GAP (R127). -/
theorem State.unfilled_made {s : State} {st : StationId} {y : Entry} {b : BreakData} {f : BreakData → BreakData}
    (hy : (s.station st).find y.id = some { y with body := .brk b })
    (hf : ∀ z, ∃ u, f z = { z with fillResolved := true, fillUsed := u }) :
    let t := (s.modBreak st y.id f).fillAbsent st y.id
    (∃ u, (t.station st).find y.id = some { y with body := .brk (b.unfilled u) }) ∧ t.decks = s.decks ∧
    (∀ v : StationId, (t.station v).requests = (s.station v).requests) ∧
    (t.cond (stationSet st)).pending = (s.cond (stationSet st)).pending ||| 0x04 := by
  intro t
  obtain ⟨u, hu⟩ := hf b
  have ht : t.stations = ((s.modBreak st y.id f).modBreak st y.id fun x =>
      { x with fillState := .absent, fillServed := .none }).stations := State.raiseBits_stations _ _ _
  refine ⟨⟨u, ?_⟩, State.raiseBits_decks _ _ _, fun v => ?_, ?_⟩
  · rw [State.station_congr ht, State.modBreak_find_of (State.modBreak_find_of hy), hu]
    rfl
  · rw [State.station_congr ht]
    exact (State.modEntry_requests v).trans (State.modEntry_requests v)
  · exact congrArg CondSet.pending (State.raiseBits_cond
      ((s.modBreak st y.id f).modBreak st y.id fun x => { x with fillState := .absent, fillServed := .none }) _ _)

end Sys2Proof.Machine
end

section
/-!
PROOFS. The arming of a break, and the statement about arming.
-/

namespace Sys2Proof.Machine

section Arm

variable {s : State} {st : StationId} {e : Entry} {b pl : BreakData}

theorem State.armBreak_still (h : e.state ≠ .waiting ∨ b.unserved = false) : s.armBreak st e b = s := if_pos h

/-- The state in which a break's provisional plan stands (R114). -/
def State.planStored (s : State) (st : StationId) (e : Entry) (pl : BreakData) : State := s.modBreak st e.id fun _ => pl

theorem State.planStored_eq (hl : ((s.station st).list.map Entry.id).Nodup) (he : (s.station st).find e.id = some e)
    (hb : e.body = .brk b) (hpl : pl = s.planProvisional st e b) :
    (s.modBreak st e.id fun x => s.planProvisional st e x) = s.planStored st e pl := by
  refine State.modEntry_own_congr hl he ?_
  rw [hb, hpl]

theorem State.armBreak_spot (hl : ((s.station st).list.map Entry.id).Nodup) (he : (s.station st).find e.id = some e)
    (hb : e.body = .brk b) (hpl : pl = s.planProvisional st e b) (hw : e.state = .waiting) (hu : b.unserved = true)
    {i : Nat} {p : Spot} (hn : pl.nextSpot = some (i, p)) :
    (p.planned = none → s.armBreak st e b = s.planStored st e pl) ∧
    ∀ q, p.planned = some q → s.armBreak st e b =
      (s.planStored st e pl).requestDeck st (.spot e.id i) q.slot false e.dueTime := by
  have hgo : ¬ (e.state ≠ .waiting ∨ b.unserved = false) := by rw [hw, hu]; simp
  refine ⟨fun hq => (if_neg hgo).trans ?_, fun q hq => (if_neg hgo).trans ?_⟩
  · rw [State.planStored_eq hl he hb hpl]
    simp only [← hpl, hn, hq]
  · rw [State.planStored_eq hl he hb hpl]
    simp only [← hpl, hn, hq]

theorem State.armBreak_fill (hl : ((s.station st).list.map Entry.id).Nodup) (he : (s.station st).find e.id = some e)
    (hb : e.body = .brk b) (hpl : pl = s.planProvisional st e b) (hw : e.state = .waiting) (hu : b.unserved = true)
    (hn : pl.nextSpot = none) {t : State} (ht : t = (s.planStored st e pl).resolveIfDue st e.id) {y : Entry}
    {c : BreakData} (hc : t.breakOf st e.id = some (y, c)) (hg : 0 < c.gap) :
    s.armBreak st e b = t.requestFill st e.id c e.dueTime := by
  refine (if_neg (by rw [hw, hu]; simp)).trans ?_
  rw [State.planStored_eq hl he hb hpl]
  simp only [← hpl, hn, ← ht, hc, if_pos hg]

theorem State.planStored_find (he : (s.station st).find e.id = some e) (hb : e.body = .brk b) :
    ((s.planStored st e pl).station st).find e.id = some { e with body := .brk pl } :=
  State.modBreak_find_own he hb

theorem BreakData.unserved_fill (h : b.unserved = true) : b.fillServed = .none := by
  have := (Bool.and_eq_true _ _ ▸ h :).2
  exact beq_iff_eq.mp this

/-- The grant of an item's deck (R27, R78). -/
theorem State.armItem_eq {cart : Nat} {x : DirEntry} (hv : e.served = .none) (hx : s.lookup st cart = some x) :
    s.armItem st e cart = s.requestDeck st (.item e.id) x.slot false (s.expectedStart st e) := by
  refine (if_neg (fun h => h hv)).trans ?_
  rw [hx]

theorem State.armItem_still {cart : Nat}
    (h : e.served ≠ .none ∨ s.lookup st cart = none ∨ s.belowCap st = false) : s.armItem st e cart = s := by
  unfold State.armItem
  split
  · rfl
  next hv =>
    split
    · rfl
    next x hx =>
      rcases h with h | h | h
      · exact absurd h hv
      · rw [h] at hx
        cases hx
      · exact State.requestDeck_capped h _ _ _ _

theorem Granted.bindings {r : DeckRequest} {d : DeckId} {x y : DirEntry} {t : State} (h : Granted st r d x s t)
    (hx : s.entryAt x.slot = some x) (hy : t.entryAt x.slot = some y) : y.bindings = x.bindings + 1 := by
  have hf : ((fun z : DirEntry => z.slot == x.slot) ∘ fun z => if z.slot = x.slot then
      { z with bindings := z.bindings + 1 } else z) = fun z => z.slot == x.slot := by
    funext z
    simp only [Function.comp]
    split <;> rfl
  rw [State.entryAt, h.dir, List.find?_map, hf] at hy
  rw [State.entryAt] at hx
  rw [hx, Option.map_some, if_pos rfl] at hy
  exact congrArg DirEntry.bindings (Option.some.inj hy).symm

/-- A dead request of a spot whose break is not on air leaves the spot WAITING (R117). -/
theorem State.deadRequest_spot {r : DeckRequest} {i : Nat} (hl : ((s.station st).list.map Entry.id).Nodup)
    (hr : r.target = .spot e.id i) (he : (s.station st).find e.id = some e) (hb : e.body = .brk b)
    (hn : e.state ≠ .onAir) : s.deadRequest st r = s.setStation st { s.station st with
      requests := (s.station st).requests.erase r
      dirty := true
      list := (s.station st).list.map fun y => if y.id = e.id then
        { e with body := .brk { b with
          spots := b.spots.modify i fun q => { q with served := .none, state := .waiting } } } else y } := by
  have hown : ∀ y ∈ (s.station st).list, y.id = e.id → y = e := fun y hy hid =>
    id_injOn hl hy (List.mem_of_find?_eq_some he) hid
  have hs : ((s.modStation st fun x => { x with requests := x.requests.erase r, dirty := true }).station st).find e.id =
      some e := by
    rw [State.modStation_station]
    exact he
  unfold State.deadRequest
  simp only [hr, hs, hb]
  split
  next hp =>
    refine congrArg (fun l => s.setStation st { s.station st with
      requests := (s.station st).requests.erase r, dirty := true, list := l }) ?_
    have hsame : b.spots.modify i (fun q => { q with served := .none, state := .waiting }) = b.spots :=
      List.modify_eq_self (List.getElem?_eq_none_iff.mp hp)
    refine ((List.map_congr_left fun y hy => ?_).trans (List.map_id _)).symm
    split
    next hid =>
      rw [hsame, ← hb, hown y hy hid]
      rfl
    · rfl
  next p hp =>
    rw [if_neg hn]
    rw [State.modSpot, State.modBreak, State.modEntry, State.modStation_modStation]
    refine congrArg (fun l => s.setStation st { s.station st with
      requests := (s.station st).requests.erase r, dirty := true, list := l }) (List.map_congr_left fun y hy => ?_)
    split
    next hid =>
      rw [hown y hy hid, hb]
    · rfl

end Arm

end Sys2Proof.Machine
end

section
/-!
PROOFS. The statement about arming, assembled.
-/

namespace Sys2Proof.Machine

section Arm

variable {s : State} {st : StationId} {e : Entry} {b pl : BreakData}

/-- What stands of the pool behind a provisional plan. -/
theorem State.planStored_rest : (s.planStored st e pl).decks = s.decks ∧ (s.planStored st e pl).conds = s.conds ∧
    (s.planStored st e pl).belowCap st = s.belowCap st ∧
    (∀ n, (s.planStored st e pl).requestKey st n = s.requestKey st n) ∧
    (∀ k, (s.planStored st e pl).entryAt k = s.entryAt k) ∧
    (∀ c, (s.planStored st e pl).lookup st c = s.lookup st c) ∧
    ((s.planStored st e pl).station st).cfg = (s.station st).cfg ∧ (s.Unasked → (s.planStored st e pl).Unasked) :=
  ⟨rfl, rfl, State.modEntry_belowCap, State.modEntry_requestKey, fun _ => rfl, fun _ => rfl, State.modEntry_cfg,
    State.modEntry_unasked⟩

theorem State.entryAt_slot {k : Nat} {x : DirEntry} (h : s.entryAt k = some x) : x.slot = k := by
  simpa using List.find?_some h

/-- The fill of an arming break, its entry found (R114, R125): the plan resolved asks for a deck. -/
theorem State.armBreak_filled (hl : ((s.station st).list.map Entry.id).Nodup) (he : (s.station st).find e.id = some e)
    (hb : e.body = .brk b) (hpl : pl = s.planProvisional st e b) (hw : e.state = .waiting) (hu : b.unserved = true)
    (hn : pl.nextSpot = none) (hg : 0 < pl.gap) (hr : b.fillResolved = false) (hc : s.belowCap st = true) {c : Nat}
    {x : DirEntry} (hcart : (b.fillCart <|> (s.station st).cfg.fillCart) = some c) (hx : s.lookup st c = some x)
    (hat : s.entryAt x.slot = some x) (hbed : x.category = .bed) :
    s.armBreak st e b = (s.planStored st e (pl.filled c x)).requestDeck st (.fill e.id) x.slot true e.dueTime := by
  have hown := State.planStored_find (pl := pl) he hb
  have hplr : pl.fillResolved = false := by rw [hpl]; exact hr
  have hplc : (pl.fillCart <|> ((s.planStored st e pl).station st).cfg.fillCart) = some c := by
    rw [(@State.planStored_rest s st e pl).2.2.2.2.2.2.1, hpl]
    exact hcart
  have hres : (s.planStored st e pl).resolveIfDue st e.id = s.planStored st e (pl.filled c x) := by
    rw [State.resolveIfDue_eq (State.breakOf_of_find hown) hn hg hplr, State.resolveFill_bed hplc hx hbed]
    rw [State.planStored, State.modBreak, State.modBreak, State.modEntry, State.modEntry, State.modStation_modStation]
    refine congrArg (fun l => s.setStation st { s.station st with list := l }) ?_
    rw [List.map_map]
    refine List.map_congr_left fun y hy => ?_
    by_cases hid : y.id = e.id
    · have hye : y = e := id_injOn hl hy (List.mem_of_find?_eq_some he) hid
      subst hye
      simp [hb]
    · simp [hid]
  rw [State.armBreak_fill hl he hb hpl hw hu hn hres.symm
    (State.breakOf_of_find (State.planStored_find (pl := pl.filled c x) he hb)) hg]
  refine State.requestFill_asks (q := x.planned) rfl ?_ ?_ rfl ?_
  · show pl.fillServed = .none
    rw [hpl]
    exact BreakData.unserved_fill (b := b) hu
  · exact State.modEntry_belowCap.trans hc
  · exact State.plannedReady_of (s := s.planStored st e (pl.filled c x)) hat (State.lookup_ready hx)

/-- The fill of an arming break that finds no entry (R127). -/
theorem State.armBreak_unfilled (hl : ((s.station st).list.map Entry.id).Nodup) (he : (s.station st).find e.id = some e)
    (hb : e.body = .brk b) (hpl : pl = s.planProvisional st e b) (hw : e.state = .waiting) (hu : b.unserved = true)
    (hn : pl.nextSpot = none) (hg : 0 < pl.gap) (hr : b.fillResolved = false)
    (hno : ∀ (c : Nat) (x : DirEntry), (b.fillCart <|> (s.station st).cfg.fillCart) = some c →
      s.lookup st c = some x → x.category ≠ .bed) :
    (∃ u, ((s.armBreak st e b).station st).find e.id = some { e with body := .brk (pl.unfilled u) }) ∧
    (s.armBreak st e b).decks = s.decks ∧
    (∀ v : StationId, ((s.armBreak st e b).station v).requests = (s.station v).requests) ∧
    ((s.armBreak st e b).cond (stationSet st)).pending = (s.cond (stationSet st)).pending ||| 0x04 := by
  have hown := State.planStored_find (pl := pl) he hb
  have hplr : pl.fillResolved = false := by rw [hpl]; exact hr
  have hplc : pl.fillCart = b.fillCart := by rw [hpl]; rfl
  obtain ⟨f, hf, hfy⟩ := State.resolveFill_absent (s := s.planStored st e pl) (st := st) (id := e.id) (b := pl)
    fun c x hc => hno c x (by rw [← hplc, ← (@State.planStored_rest s st e pl).2.2.2.2.2.2.1]; exact hc)
  obtain ⟨⟨u, hfind⟩, hdk, hreq, hcond⟩ := State.unfilled_made (y := e) hown hfy
  rw [← hf, ← State.resolveIfDue_eq (State.breakOf_of_find hown) hn hg hplr] at hfind hdk hreq hcond
  have harm : s.armBreak st e b = (s.planStored st e pl).resolveIfDue st e.id := by
    rw [State.armBreak_fill hl he hb hpl hw hu hn rfl (State.breakOf_of_find hfind) hg]
    exact State.requestFill_still (.inl ⟨fun h => (by cases h), fun h => by cases h⟩)
  rw [harm]
  exact ⟨⟨u, hfind⟩, hdk, fun v => (hreq v).trans (State.modEntry_requests v), hcond⟩

end Arm

end Sys2Proof.Machine
namespace Sys2Proof
open Machine

/-- Settles O45: candidates, expected starts, items, breaks and dead requests. -/
theorem itemArmed : Obligations.ItemArmed := by
  unfold Obligations.ItemArmed
  refine ⟨fun s st hl => ⟨State.candidates_short, State.candidates_nodup (hl.nodup st), fun e he ht => ?_, fun e he => ?_,
      State.reevaluate_idle, State.reevaluate_unbroken⟩,
    fun s st e hl he => ⟨State.expectedStart_hard, State.expectedStart_pending, fun h hp => ⟨fun hm hk hh => ?_,
      State.expectedStart_unforeseen (hl.nodup st) he h hp⟩, State.requestKey_unforeseen,
      fun v hv => State.requestKey_foreseen hv⟩,
    fun s st e cart x he hb hv hw hx hat hc hu => ⟨fun d hd hmin => ?_, fun hf => ?_⟩,
    fun s st e cart _ h => State.armItem_still h, fun s st e b pl hl he hb hpl => ⟨State.armBreak_still, fun hw hun => ?_⟩,
    fun s st r e b i hl hr he hb hn => ?_⟩
  · rw [State.candidates_some (State.horizonEntry_some.mpr ⟨he, ht⟩)]
    rfl
  · rw [State.mem_candidates (hl.nodup st) he, State.horizonEntry_some]
  · rw [State.expectedStart_first h hp hm hk hh]
    unfold State.expectedFirst
    refine ⟨fun ha => by rw [ha], fun x b ha hxb => by simp only [ha, hxb], fun x c q y ha hxc hxs hy => ?_⟩
    simp only [ha, hxc, State.pairsToEnd, hxs, hy, State.pairsTo, endPoint_eq]
  · obtain ⟨hg, hfind⟩ := State.requestDeck_granted (e := e) (g := .item e.id) (slot := x.slot)
      (n := s.expectedStart st e) (lp := false) hc hu hd hmin hat (State.lookup_ready hx) (beq_self_eq_true e.id) he
    rw [State.armItem_eq hv hx]
    have hgr : e.granted d (.item e.id) = { e with served := .deck d, state := .armed } := by
      rw [Entry.granted, hw]
      rfl
    rw [hg.own]
    exact ⟨rfl, rfl, rfl, rfl, rfl, rfl, rfl, rfl, rfl, hfind.trans (congrArg some hgr), hg.unasked st,
      fun y hy => hg.bindings hat hy, hg.others⟩
  · obtain ⟨hdk, -, hreq, hfind⟩ := State.requestDeck_waiting (e := e) (g := .item e.id) (slot := x.slot)
      (n := s.expectedStart st e) (lp := false) hc hu hf (beq_self_eq_true e.id) he
    rw [State.armItem_eq hv hx]
    exact ⟨hfind, hreq, hdk⟩
  · have hnd := hl.nodup st
    obtain ⟨hdk, hcond, hcap, hkey, hat, -, -, huna⟩ := @State.planStored_rest s st e pl
    have hown := State.planStored_find (pl := pl) he hb
    have hdeck (d : DeckId) : (s.planStored st e pl).deck d = s.deck d := rfl
    refine ⟨fun hc hany => ?_, fun hc hu => ⟨fun i p q x hn hq hx hr => ⟨fun d hd hmin => ?_, fun hf => ?_⟩,
      fun hno hg hres => ⟨fun c x hcart hx hxat => ⟨fun hbed hf => ?_, fun hbed d hd hmin => ?_⟩, fun hnone => ?_⟩⟩⟩
    · cases hn : pl.nextSpot with
      | none => rw [BreakData.nextSpot_none.mp hn] at hany; cases hany
      | some ip =>
        obtain ⟨hplan, hasks⟩ := State.armBreak_spot hnd he hb hpl hw hun (i := ip.1) (p := ip.2) hn
        cases hq : ip.2.planned with
        | none => exact hplan hq
        | some q => exact (hasks q hq).trans (State.requestDeck_capped (hcap.trans hc) _ _ _ _)
    · refine ⟨_, rfl, ?_⟩
      rw [(State.armBreak_spot hnd he hb hpl hw hun hn).2 q hq]
      obtain ⟨hgr, hfind⟩ := State.requestDeck_granted (e := { e with body := .brk pl }) (g := .spot e.id i)
        (slot := q.slot) (n := e.dueTime) (lp := false) (hcap.trans hc) (huna hu) hd hmin ((hat q.slot).trans hx) hr
        (beq_self_eq_true e.id) hown
      have hgranted : ({ e with body := .brk pl } : Entry).granted d (.spot e.id i) = { e with
          state := .armed
          body := .brk { pl with
            spots := pl.spots.modify i fun y => { y with served := .deck d, state := y.state.armedBy } } } := by
        simp only [Entry.granted, hw, EntryState.armedBy]
      rw [hgr.own]
      exact ⟨rfl, rfl, rfl, congrArg some (State.entryAt_slot hx), rfl, rfl, hfind.trans (congrArg some hgranted),
        hgr.unasked st, hgr.others⟩
    · refine ⟨_, rfl, ?_⟩
      rw [(State.armBreak_spot hnd he hb hpl hw hun hn).2 q hq]
      obtain ⟨hdk', -, hreq, hfind⟩ := State.requestDeck_waiting (e := { e with body := .brk pl }) (g := .spot e.id i)
        (slot := q.slot) (n := e.dueTime) (lp := false) (hcap.trans hc) (huna hu) hf (beq_self_eq_true e.id) hown
      exact ⟨hdk', hfind, by rw [hreq, hkey]⟩
    · refine ⟨_, rfl, ?_⟩
      rw [State.armBreak_filled hnd he hb hpl hw hun (BreakData.nextSpot_none.mpr hno) hg hres hc hcart hx hxat hbed]
      obtain ⟨hdk2, hcond2, hcap2, hkey2, -, -, -, huna2⟩ := @State.planStored_rest s st e (pl.filled c x)
      obtain ⟨hdk', hcond', hreq, hfind⟩ := State.requestDeck_waiting (e := { e with body := .brk (pl.filled c x) })
        (g := .fill e.id) (slot := x.slot) (n := e.dueTime) (lp := true) (hcap2.trans hc) (huna2 hu) hf
        (beq_self_eq_true e.id) (State.planStored_find he hb)
      exact ⟨hdk', hcond', hfind, by rw [hreq, hkey2]⟩
    · refine ⟨_, rfl, ?_⟩
      rw [State.armBreak_filled hnd he hb hpl hw hun (BreakData.nextSpot_none.mpr hno) hg hres hc hcart hx hxat hbed]
      obtain ⟨-, -, hcap2, -, -, -, -, huna2⟩ := @State.planStored_rest s st e (pl.filled c x)
      obtain ⟨hgr, hfind⟩ := State.requestDeck_granted (e := { e with body := .brk (pl.filled c x) }) (g := .fill e.id)
        (slot := x.slot) (n := e.dueTime) (lp := true) (hcap2.trans hc) (huna2 hu) hd hmin hxat (State.lookup_ready hx)
        (beq_self_eq_true e.id) (State.planStored_find he hb)
      have hgranted : ({ e with body := .brk (pl.filled c x) } : Entry).granted d (.fill e.id) = { e with
          state := .armed
          body := .brk { pl with
            fillResolved := true, fillUsed := some c, fillState := .armed, fillServed := .deck d
            fillPlanned := some ⟨x.slot, x.serial, x.owner, x.category, x.level, x.trimOut - x.trimIn⟩ } } := by
        simp only [Entry.granted, hw, EntryState.armedBy, FillState.armedBy, BreakData.filled, DirEntry.planned]
      rw [hgr.own]
      exact ⟨rfl, rfl, rfl, Bool.true_and _, hgr.unasked st, hfind.trans (congrArg some hgranted)⟩
    · obtain ⟨⟨u, hfind⟩, hdk', hreq, hcond'⟩ :=
        State.armBreak_unfilled hnd he hb hpl hw hun (BreakData.nextSpot_none.mpr hno) hg hres hnone
      exact ⟨_, rfl, (hreq st).trans (hu st), hdk', hcond', _, _, hfind, hw, rfl, rfl, rfl⟩
  · rw [State.deadRequest_spot (hl.nodup st) hr he hb hn]
    refine ⟨State.setStation_station _ _ _, rfl, rfl, rfl⟩

end Sys2Proof
end

section
/-!
PROOFS. A spot of a break on air that is DONE stays so, whatever the deck pool and the service of breaks do.
-/

namespace Sys2Proof.Machine

/-- The break is ON_AIR, its spot at the index is DONE, and its gap is at least `g`. -/
def Entry.Spent (i g : Nat) (y : Entry) : Prop :=
  y.state = .onAir ∧ ∃ c : BreakData, y.body = .brk c ∧ (c.spots[i]?).map Spot.state = some .done ∧ g ≤ c.gap

/-- A change of a break that leaves its DONE spots DONE and takes nothing off its gap. -/
def BreakData.OnlySpends (f : BreakData → BreakData) : Prop :=
  ∀ (i : Nat) (c : BreakData), (c.spots[i]?).map Spot.state = some .done →
    ((f c).spots[i]?).map Spot.state = some .done ∧ c.gap ≤ (f c).gap

theorem BreakData.onlySpends_modify {f : BreakData → BreakData} {k : Nat} {h : Spot → Spot}
    (hf : ∀ c, (f c).spots = c.spots.modify k h ∧ c.gap ≤ (f c).gap) (hh : ∀ p, p.state = .done → (h p).state = .done) :
    BreakData.OnlySpends f := fun i c hi => by
  refine ⟨?_, (hf c).2⟩
  obtain ⟨p, hp, hd⟩ := Option.map_eq_some_iff.mp hi
  rw [(hf c).1, List.getElem?_modify, hp]
  by_cases hki : k = i
  · simp [hki, hh p hd]
  · simp [hki, hd]

theorem BreakData.onlySpends_fill {f : BreakData → BreakData} (hf : ∀ c, (f c).spots = c.spots ∧ (f c).gap = c.gap) :
    BreakData.OnlySpends f := fun i c hi => by
  rw [(hf c).1, (hf c).2]
  exact ⟨hi, le_rfl⟩

/-- From `s` to `t` a spent spot stays spent. -/
def StaysSpent (st : StationId) (id i g : Nat) (s t : State) : Prop :=
  (∃ y, (s.station st).find id = some y ∧ y.Spent i g) → ∃ y, (t.station st).find id = some y ∧ y.Spent i g

namespace StaysSpent

variable {st : StationId} {id i g : Nat} {s t u : State}

theorem refl (s : State) : StaysSpent st id i g s s := fun h => h

theorem trans (h : StaysSpent st id i g s t) (k : StaysSpent st id i g t u) : StaysSpent st id i g s u := fun hs => k (h hs)

theorem still (h : (t.station st).find id = (s.station st).find id) : StaysSpent st id i g s t := fun hs => by
  rw [h]
  exact hs

theorem of_stations (h : t.stations = s.stations) : StaysSpent st id i g s t := still (by rw [State.station_congr h])

theorem modStation {v : StationId} {f : Station → Station} (h : ∀ x, (f x).list = x.list) :
    StaysSpent st id i g s (s.modStation v f) := still (by
  by_cases hv : v = st
  · subst hv
    rw [State.modStation_station, Station.find, h]
    rfl
  · rw [State.modStation_station_ne _ _ hv])

theorem modEntry {v : StationId} {j : Nat} {f : Entry → Entry} (hid : ∀ y, (f y).id = y.id)
    (hf : v = st → j = id → ∀ y, y.Spent i g → (f y).Spent i g) : StaysSpent st id i g s (s.modEntry v j f) := by
  by_cases hv : v = st
  · subst hv
    rintro ⟨y, hy, hs⟩
    refine ⟨if y.id = j then f y else y, ?_, ?_⟩
    · rw [State.modEntry_find s v j id hid, hy, Option.map_some]
    · split
      next hj => exact hf rfl (hj.symm.trans (Station.find_id hy)) y hs
      · exact hs
  · exact still (by rw [State.modEntry, State.modStation_station_ne s _ hv])

theorem modBreak {v : StationId} {j : Nat} {f : BreakData → BreakData} (hf : BreakData.OnlySpends f) :
    StaysSpent st id i g s (s.modBreak v j f) := by
  refine modEntry (fun y => by split <;> rfl) fun _ _ y hy => ?_
  obtain ⟨ha, c, hc, hd, hg⟩ := hy
  rw [hc]
  obtain ⟨hd', hg'⟩ := hf i c hd
  exact ⟨ha, f c, rfl, hd', hg.trans hg'⟩

theorem modSpot {v : StationId} {j k : Nat} {h : Spot → Spot} (hh : ∀ p, p.state = .done → (h p).state = .done) :
    StaysSpent st id i g s (s.modSpot v j k h) :=
  modBreak (BreakData.onlySpends_modify (f := fun b => { b with spots := b.spots.modify k h }) (fun _ => ⟨rfl, le_rfl⟩) hh)

theorem markDirty {v : StationId} : StaysSpent st id i g s (s.markDirty v) := modStation fun _ => rfl

theorem raiseStation {v : StationId} {c : StationCond} : StaysSpent st id i g s (s.raiseStation v c) :=
  of_stations (State.raiseBits_stations _ _ _)

theorem reportFault {v : StationId} {c : FaultCause} {j cart n : Nat} :
    StaysSpent st id i g s (s.reportFault v c j cart n) := still (by
  by_cases hv : v = st
  · subst hv
    rw [State.reportFault_station]
    rfl
  · rw [State.reportFault_station_ne s hv])

theorem setWaiting {v : StationId} {x : Target} : StaysSpent st id i g s (s.setWaiting v x) := by
  cases x with
  | item j => exact modEntry (fun _ => rfl) fun _ _ y hy => hy
  | spot j k =>
    exact modSpot fun p hp => hp
  | fill j =>
    refine modBreak (BreakData.onlySpends_fill ?_)
    exact fun c => ⟨rfl, rfl⟩
  | trailSpot => exact refl _
  | trailFill => exact refl _

theorem arm {v : StationId} {j : Nat} :
    StaysSpent st id i g s (s.modEntry v j fun e => { e with state := e.state.armedBy }) :=
  modEntry (fun _ => rfl) fun _ _ y hy => ⟨by rw [hy.1]; rfl, hy.2⟩

theorem setGranted {v : StationId} {d : DeckId} {x : Target} : StaysSpent st id i g s (s.setGranted v d x) := by
  cases x with
  | item j => exact modEntry (fun _ => rfl) fun _ _ y hy => ⟨by rw [hy.1]; rfl, hy.2⟩
  | spot j k =>
    refine trans (modSpot (h := fun p => { p with served := .deck d, state := p.state.armedBy }) ?_) arm
    exact fun p hp => by rw [hp]; rfl
  | fill j =>
    refine trans (modBreak (BreakData.onlySpends_fill
      (f := fun b => { b with fillServed := .deck d, fillState := b.fillState.armedBy }) ?_)) arm
    exact fun c => ⟨rfl, rfl⟩
  | trailSpot => exact refl _
  | trailFill => exact refl _

theorem fillAbsent {v : StationId} {j : Nat} : StaysSpent st id i g s (s.fillAbsent v j) := by
  refine trans (modBreak (BreakData.onlySpends_fill ?_)) raiseStation
  exact fun c => ⟨rfl, rfl⟩

theorem breakRelease {k : Nat} {r : Record} : StaysSpent st id i g s (s.breakRecord k r).release :=
  of_stations (State.release_stations _)

theorem spotMissing {v : StationId} {e : Entry} {b : BreakData} {k : Nat} {p : Spot} :
    StaysSpent st id i g s (s.spotMissing v e b k p) := by
  unfold State.spotMissing
  simp only
  refine trans (modBreak (BreakData.onlySpends_modify (k := k) (fun c => ⟨rfl, Nat.le_add_right _ _⟩) ?_))
    (breakRelease.trans (reportFault.trans markDirty))
  exact fun p _ => rfl

theorem deadRequest {v : StationId} {r : DeckRequest} : StaysSpent st id i g s (s.deadRequest v r) := by
  have herase : StaysSpent st id i g s (s.modStation v fun x => { x with requests := x.requests.erase r, dirty := true }) :=
    modStation fun _ => rfl
  unfold State.deadRequest
  simp only
  refine trans herase ?_
  split
  · exact modEntry (fun _ => rfl) fun _ _ y hy => hy
  next j k _ =>
    split
    · exact refl _
    next e he =>
      split
      · exact refl _
      · split
        · exact refl _
        · split
          · exact spotMissing
          next hn =>
            intro hs
            obtain ⟨y, hy, hsp⟩ := hs
            refine modEntry (fun y => by split <;> rfl) (fun hv hj => ?_) ⟨y, hy, hsp⟩
            subst hv
            subst hj
            rw [hy] at he
            obtain rfl := Option.some.inj he
            exact absurd hsp.1 hn
  · exact fillAbsent
  · exact refl _
  · exact refl _

theorem bound {d : DeckId} {x : Deck} {k : Nat} : StaysSpent st id i g s ((s.setDeck d x).bindSlot k) := of_stations rfl

theorem grant {v : StationId} {r : DeckRequest} {d : DeckId} {x : DirEntry} : StaysSpent st id i g s (s.grant v r d x) := by
  unfold State.grant
  simp only
  refine trans (modStation (v := v) (f := fun x => { x with requests := x.requests.erase r, dirty := true }) ?_)
    (bound.trans setGranted)
  exact fun _ => rfl

theorem arbitrate : StaysSpent st id i g s s.arbitrate := by
  unfold State.arbitrate
  generalize s.waitingRequests = n
  induction n generalizing s with
  | zero => exact refl _
  | succ n ih =>
    unfold arbitrateLoop
    split
    · exact refl _
    next h =>
      refine trans ?_ ih
      unfold State.arbitrateOnce at h
      split at h
      · split at h
        · obtain rfl := Option.some.inj h
          split
          · exact grant
          · exact deadRequest
        · obtain rfl := Option.some.inj h
          exact deadRequest
      · cases h

theorem requestDeck {v : StationId} {x : Target} {slot n : Nat} {lp : Bool} :
    StaysSpent st id i g s (s.requestDeck v x slot lp n) := by
  unfold State.requestDeck
  split
  · exact refl _
  · refine trans (modStation ?_) (setWaiting.trans arbitrate)
    exact fun _ => rfl

/-! ## The service of a break -/

theorem resolveIfDue {v : StationId} {j : Nat} : StaysSpent st id i g s (s.resolveIfDue v j) := by
  have hresolved : StaysSpent st id i g s
      ((s.modBreak v j fun b => { b with fillResolved := true }).fillAbsent v j) :=
    trans (modBreak (BreakData.onlySpends_fill (f := fun b => { b with fillResolved := true }) fun _ => ⟨rfl, rfl⟩))
      fillAbsent
  have habsent (c : Nat) : StaysSpent st id i g s
      ((s.modBreak v j fun b => { b with fillResolved := true, fillUsed := some c }).fillAbsent v j) :=
    trans (modBreak (BreakData.onlySpends_fill (f := fun b => { b with fillResolved := true, fillUsed := some c })
      fun _ => ⟨rfl, rfl⟩)) fillAbsent
  unfold State.resolveIfDue
  split
  · exact refl _
  · split
    · unfold State.resolveFill
      split
      · exact hresolved
      · split
        · exact habsent _
        · split
          · exact modBreak (BreakData.onlySpends_fill fun _ => ⟨rfl, rfl⟩)
          · exact habsent _
    · exact refl _

theorem requestFill {v : StationId} {j n : Nat} {b : BreakData} : StaysSpent st id i g s (s.requestFill v j b n) := by
  unfold State.requestFill
  split
  · split
    · exact refl _
    · split
      · exact requestDeck
      · exact fillAbsent
  · exact refl _

theorem serveSpot {v : StationId} {j n : Nat} : StaysSpent st id i g s (Machine.serveSpot n v j s) := by
  induction n generalizing s with
  | zero => exact refl _
  | succ n ih =>
    unfold Machine.serveSpot
    split
    · exact refl _
    · split
      · exact refl _
      · split
        · exact refl _
        · split
          · exact refl _
          · split
            · exact requestDeck
            · exact spotMissing.trans ih

end StaysSpent

end Sys2Proof.Machine
end

section
/-!
PROOFS. The service of a break on air at a re-evaluation: its next spot, and behind the last its fill.
-/

namespace Sys2Proof.Machine

section Serve

variable {s : State} {st : StationId} {e : Entry} {b : BreakData}

theorem Station.onAirBreak_some {x : Station} (h : x.onAirBreak = some (e, b)) :
    e ∈ x.list ∧ e.state = .onAir ∧ e.body = .brk b := by
  unfold Station.onAirBreak at h
  split at h
  · cases h
  next y hy =>
    split at h
    · cases h
    next c hc =>
      obtain ⟨rfl, rfl⟩ := Prod.mk.inj (Option.some.inj h)
      obtain ⟨hm, ha⟩ := Station.onAir_some hy
      exact ⟨hm, ha, hc⟩

/-- The service of a break's fill, behind that of its spots (R125). -/
def State.serveFill (s : State) (st : StationId) (id : Nat) : State :=
  match (s.resolveIfDue st id).breakOf st id with
  | none => s.resolveIfDue st id
  | some (_, b) => (s.resolveIfDue st id).requestFill st id b ((s.resolveIfDue st id).breakExpected st b)

theorem State.serveBreak_eq (h : (s.station st).onAirBreak = some (e, b)) :
    s.serveBreak st = (serveSpot b.spots.length st e.id s).serveFill st e.id := by
  simp only [State.serveBreak, h, State.serveFill] <;> rfl

theorem State.serveFill_of {t : State} {y : Entry} {c : BreakData} {id : Nat} (ht : s.resolveIfDue st id = t)
    (hf : (t.station st).find id = some { y with body := .brk c }) :
    s.serveFill st id = t.requestFill st id c (t.breakExpected st c) := by
  unfold State.serveFill
  rw [ht, State.breakOf_of_find hf]

theorem State.serveFill_still {y : Entry} {c : BreakData} {id : Nat}
    (hf : (s.station st).find id = some { y with body := .brk c })
    (h : c.nextSpot.isSome = true ∨ c.gap = 0 ∨ c.fillResolved = true)
    (hw : c.fillState ≠ .waiting ∧ c.fillState ≠ .pending ∨ c.fillServed ≠ .none ∨ s.belowCap st = false) :
    s.serveFill st id = s := by
  rw [State.serveFill_of (State.resolveIfDue_still (State.breakOf_of_find hf) h) hf]
  exact State.requestFill_still hw

theorem serveSpot_behind {n : Nat} (hb : s.breakOf st e.id = some (e, b)) (hn : b.nextSpot = none) :
    serveSpot n st e.id s = s := by
  cases n with
  | zero => rfl
  | succ n => simp only [serveSpot, hb, hn]

theorem serveSpot_asks {n i : Nat} {p : Spot} {q : Planned} (hb : s.breakOf st e.id = some (e, b))
    (hn : b.nextSpot = some (i, p)) (hv : p.served = .none) (hq : p.planned = some q) (hr : s.plannedReady q = true) :
    serveSpot (n + 1) st e.id s = s.requestDeck st (.spot e.id i) q.slot false (s.breakExpected st b) := by
  simp only [serveSpot, hb, hn, hv, hq, hr, ne_eq, not_true_eq_false, if_false, if_true]

theorem serveSpot_gone {n i : Nat} {p : Spot} {q : Planned} (hb : s.breakOf st e.id = some (e, b))
    (hn : b.nextSpot = some (i, p)) (hv : p.served = .none) (hq : p.planned = some q) (hr : s.plannedReady q = false) :
    serveSpot (n + 1) st e.id s = serveSpot n st e.id (s.spotMissing st e b i p) := by
  simp only [serveSpot, hb, hn, hv, hq, hr, ne_eq, not_true_eq_false, if_false, Bool.false_eq_true]

theorem BreakData.nextSpot_length {i : Nat} {p : Spot} (hn : b.nextSpot = some (i, p)) : ∃ n, b.spots.length = n + 1 := by
  obtain ⟨hp, -⟩ := BreakData.nextSpot_some hn
  obtain ⟨hlt, -⟩ := List.getElem?_eq_some_iff.mp hp
  exact ⟨b.spots.length - 1, (Nat.sub_add_cancel (Nat.one_le_of_lt hlt)).symm⟩

/-- A spot told that it is served is still to start. -/
theorem BreakData.nextSpot_told {c : BreakData} {i : Nat} {p : Spot} {f : Spot → Spot} (hn : b.nextSpot = some (i, p))
    (hc : c.spots = b.spots.modify i f) (hf : p.remains = true → (f p).remains = true) : c.nextSpot.isSome = true := by
  obtain ⟨hp, hr⟩ := BreakData.nextSpot_some hn
  have hm : f p ∈ c.spots := by
    rw [hc]
    refine List.mem_of_getElem? (i := i) ?_
    rw [List.getElem?_modify, hp]
    simp
  cases h : c.nextSpot with
  | some x => rfl
  | none =>
    have hall := List.any_eq_false.mp (BreakData.nextSpot_none.mp h) _ hm
    exact absurd (hf hr) hall

/-! ## What a spot gone missing leaves -/

/-- The data of a break with a spot gone missing (R123). -/
def BreakData.missed (b : BreakData) (e : Entry) (i : Nat) (p : Spot) (now : Nat) : BreakData :=
  { b with
    spots := b.spots.modify i fun q => { q with state := .done, served := .none }
    gap := b.gap + p.includedLength
    fillDue := b.fillDue || (b.endsWith i && decide (now < e.endTime)) }

/-- A spot gone missing, its record held back. -/
def State.spotGone (s : State) (st : StationId) (e : Entry) (b : BreakData) (i : Nat) (p : Spot) : State :=
  (s.modBreak st e.id fun b' => b'.missed e i p (s.stationTime st)).breakRecord i
    (spotDisposed st e b i p (p.planned.map Planned.used) (s.stationTime st) .missing)

theorem State.spotMissing_eq (s : State) (st : StationId) (e : Entry) (b : BreakData) (i : Nat) (p : Spot) :
    s.spotMissing st e b i p =
      ((s.spotGone st e b i p).release.reportFault st .missing e.id p.cart (s.stationTime st)).markDirty st := rfl

theorem State.spotMissing_station {i : Nat} {p : Spot} (s : State) : (s.spotMissing st e b i p).station st =
    { s.station st with
      list := ((s.modBreak st e.id fun b' => b'.missed e i p (s.stationTime st)).station st).list
      fault := some (faultAfter (s.station st).fault .missing e.id p.cart (s.stationTime st))
      dirty := true } := by
  have hst : (s.spotGone st e b i p).release.station st =
      (s.modBreak st e.id fun b' => b'.missed e i p (s.stationTime st)).station st :=
    State.station_congr (State.release_stations _) st
  have hmod : (s.modBreak st e.id fun b' => b'.missed e i p (s.stationTime st)).station st =
      { s.station st with
        list := ((s.modBreak st e.id fun b' => b'.missed e i p (s.stationTime st)).station st).list } := by
    rw [State.modBreak, State.modEntry, State.modStation_station]
  rw [State.spotMissing_eq, State.markDirty, State.modStation_station, State.reportFault_station, hst, hmod]

theorem State.spotMissing_find {i : Nat} {p : Spot} (he : (s.station st).find e.id = some e) (hb : e.body = .brk b) :
    ((s.spotMissing st e b i p).station st).find e.id =
      some { e with body := .brk (b.missed e i p (s.stationTime st)) } := by
  rw [State.spotMissing_station]
  exact State.modBreak_find_own he hb

theorem State.spotMissing_rest {i : Nat} {p : Spot} :
    (s.spotMissing st e b i p).asrun = (s.spotGone st e b i p).release.asrun ∧
    (s.spotMissing st e b i p).recordsHeld = (s.spotGone st e b i p).release.recordsHeld ∧
    (s.spotMissing st e b i p).decks = s.decks ∧ (s.spotMissing st e b i p).beds = s.beds ∧
    (s.spotMissing st e b i p).media = s.media := by
  have hm : (s.spotMissing st e b i p).media = s.media := (Fixed.fields Pooled.spotMissing.fixed).2.1
  rw [State.spotMissing_eq] at *
  refine ⟨State.reportFault_asrun _ _ _ _ _ _, State.reportFault_recordsHeld _ _ _ _ _ _,
    (State.reportFault_decks _ _ _ _ _ _).trans (State.release_decks _),
    (State.reportFault_beds _ _ _ _ _ _).trans (State.release_beds _), hm⟩

end Serve

end Sys2Proof.Machine
end

section
/-!
PROOFS. The starts of spots and fill of a break on air.
-/

namespace Sys2Proof.Machine

/-- What the resolution of a fill leaves of the state: all but the station, whose other entries it leaves, and the
conditions. -/
structure Resolves (st : StationId) (y : Entry) (c : BreakData) (s t : State) : Prop where
  find : ∃ d, (t.station st).find y.id = some { y with body := .brk d } ∧ c.SameSpots d
  others : ∀ u : StationId, u ≠ st → t.station u = s.station u
  decks : t.decks = s.decks
  beds : t.beds = s.beds
  dir : t.dir = s.dir
  asrun : t.asrun = s.asrun
  media : t.media = s.media

section Resolve

variable {s : State} {st : StationId} {y : Entry} {c : BreakData}

theorem BreakData.SameSpots.trans {a b d : BreakData} (h : a.SameSpots b) (k : b.SameSpots d) : a.SameSpots d :=
  ⟨k.1.trans h.1, k.2.1.trans h.2.1, k.2.2.1.trans h.2.2.1, k.2.2.2.trans h.2.2.2⟩

theorem Resolves.modBreak (hf : (s.station st).find y.id = some { y with body := .brk c }) {f : BreakData → BreakData}
    (hs : c.SameSpots (f c)) : Resolves st y c s (s.modBreak st y.id f) :=
  ⟨⟨f c, State.modBreak_find_of hf, hs⟩, fun _ hu => State.modStation_station_ne _ _ (Ne.symm hu), rfl, rfl, rfl, rfl, rfl⟩

theorem Resolves.absent (hf : (s.station st).find y.id = some { y with body := .brk c }) {f : BreakData → BreakData}
    (hs : c.SameSpots (f c)) : Resolves st y c s ((s.modBreak st y.id f).fillAbsent st y.id) := by
  have h1 := Resolves.modBreak hf hs
  have h2 := Resolves.modBreak (State.modBreak_find_of (f := f) hf)
    (f := fun b => { b with fillState := .absent, fillServed := .none }) ⟨rfl, rfl, rfl, rfl⟩
  obtain ⟨d, hd, hsd⟩ := h2.find
  have hst : ((s.modBreak st y.id f).fillAbsent st y.id).stations = ((s.modBreak st y.id f).modBreak st y.id fun b =>
      { b with fillState := .absent, fillServed := .none }).stations := State.raiseBits_stations _ _ _
  refine ⟨⟨d, ?_, hs.trans hsd⟩, fun u hu => ?_, State.raiseBits_decks _ _ _, State.raiseBits_beds _ _ _,
    State.raiseBits_dir _ _ _, State.raiseBits_asrun _ _ _, State.raiseBits_media _ _ _⟩
  · rw [State.station_congr hst]
    exact hd
  · rw [State.station_congr hst, h2.others u hu, h1.others u hu]

theorem State.resolveIfDue_resolves (hf : (s.station st).find y.id = some { y with body := .brk c }) :
    Resolves st y c s (s.resolveIfDue st y.id) := by
  unfold State.resolveIfDue
  rw [State.breakOf_of_find hf]
  simp only
  split
  · unfold State.resolveFill
    split
    · exact .absent hf ⟨rfl, rfl, rfl, rfl⟩
    · split
      · exact .absent hf ⟨rfl, rfl, rfl, rfl⟩
      · split
        · exact .modBreak hf ⟨rfl, rfl, rfl, rfl⟩
        · exact .absent hf ⟨rfl, rfl, rfl, rfl⟩
  · exact ⟨⟨c, hf, rfl, rfl, rfl, rfl⟩, fun _ _ => rfl, rfl, rfl, rfl, rfl, rfl⟩

end Resolve

section Start

variable {s : State} {st : StationId} {e : Entry} {b : BreakData} {d : DeckId}

theorem State.opSpotStart_eq {i : Nat} {p : Spot} (hair : (s.station st).onAirBreak = some (e, b))
    (ht : s.stationTime st < e.endTime) (hno : b.spotOnAir = none) (hn : b.nextSpot = some (i, p))
    (hv : p.served = .deck d) (hd : (s.deck d).player.state = .primed) :
    s.opSpotStart st = s.startSpot st e i p d := by
  have hdue : s.dueSpot st = some (e, b, i, p) := by
    unfold State.dueSpot
    simp only [hair, hn]
    refine if_neg ?_
    rw [hno]
    rintro (h | h)
    · cases h
    · exact absurd ht (Nat.not_lt.mpr h)
  simp only [State.opSpotStart, hdue, State.primedDeck, hv, hd, if_true]

theorem State.opFillStart_eq (hair : (s.station st).onAirBreak = some (e, b))
    (ht : s.stationTime st < e.endTime) (hno : b.spotOnAir = none) (hn : b.nextSpot = none)
    (hf : b.fillState = .waiting ∨ b.fillState = .armed ∨ b.fillState = .pending)
    (hv : b.fillServed = .deck d) (hd : (s.deck d).player.state = .primed) :
    s.opFillStart st = (s.modPlayer d fun p => p.started ((b.fillPlanned.map Planned.level).getD 0)
      (s.fillRamp st e)).modBreak st e.id fun b' => { b' with fillState := .onAir, fillStart := s.stationTime st } := by
  have hdue : s.dueFill st = some (e, b) := by
    unfold State.dueFill
    simp only [hair]
    refine (if_neg ?_).trans (if_pos hf)
    rw [hno, hn]
    rintro (h | h | h)
    · cases h
    · cases h
    · exact absurd ht (Nat.not_lt.mpr h)
  simp only [State.opFillStart, hdue, State.primedDeck, hv, hd, if_true]

theorem State.opFillClosing_eq (hair : (s.station st).onAirBreak = some (e, b)) (hf : b.fillState = .onAir)
    (hv : b.fillServed = .deck d) (hd : (s.deck d).player.state = .playing)
    (ht : e.endTime ≤ s.stationTime st + (s.station st).cfg.breakFade) :
    s.opFillClosing st = s.modPlayer d fun p => p.faded (e.endTime - s.stationTime st) := by
  have hclose : s.closingFill st = some (e, d) := by
    unfold State.closingFill
    simp only [hair, hf, hv]
    exact if_pos ⟨ht, hd⟩
  simp only [State.opFillClosing, hclose]

theorem State.fillRamp_early (h : s.stationTime st + (s.station st).cfg.breakFade < e.endTime) :
    s.fillRamp st e = ⟨32768, 32768, 0, 0⟩ := if_neg (Nat.not_le.mpr h)

theorem State.fillRamp_closing (h : e.endTime ≤ s.stationTime st + (s.station st).cfg.breakFade) :
    s.fillRamp st e = ⟨32768, 0, e.endTime - s.stationTime st, 0⟩ := if_pos h

/-- The start of a spot on its deck: the deck, the spot, and what stands (R122). -/
theorem State.startSpot_made {i : Nat} {p : Spot} (he : (s.station st).find e.id = some e) (hb : e.body = .brk b)
    (hp : b.spots[i]? = some p) :
    let t := s.startSpot st e i p d
    t.deck d = { s.deck d with
      player := (s.deck d).player.started ((p.planned.map Planned.level).getD 0) ⟨32768, 32768, 0, 0⟩ } ∧
    (∃ (y : Entry) (c : BreakData), (t.station st).find e.id = some y ∧ y.body = .brk c ∧
      c.spots[i]? = some { p with state := .onAir, startTime := s.stationTime st } ∧
      ∀ j : Nat, j ≠ i → c.spots[j]? = b.spots[j]?) ∧
    (∀ q : DeckId, q ≠ d → t.deck q = s.deck q) ∧ t.beds = s.beds ∧ t.dir = s.dir ∧ t.asrun = s.asrun ∧
    t.media = s.media ∧ ∀ u : StationId, u ≠ st → t.station u = s.station u := by
  intro t
  have hfind : (((s.modPlayer d fun q => q.started ((p.planned.map Planned.level).getD 0)
      ⟨Config.unity, Config.unity, 0, 0⟩).modSpot st e.id i fun q =>
        { q with state := .onAir, startTime := s.stationTime st }).station st).find e.id = some { e with
          body := .brk { b with
            spots := b.spots.modify i fun q => { q with state := .onAir, startTime := s.stationTime st } } } :=
    State.modBreak_find_own (s := s.modPlayer d _) he hb
  have hr := State.resolveIfDue_resolves (y := e) hfind
  have ht : t = ((((s.modPlayer d fun q => q.started ((p.planned.map Planned.level).getD 0)
      ⟨Config.unity, Config.unity, 0, 0⟩).modSpot st e.id i fun q =>
        { q with state := .onAir, startTime := s.stationTime st }).resolveIfDue st e.id).markDirty st) := rfl
  clear_value t
  generalize hv : ((s.modPlayer d fun q => q.started ((p.planned.map Planned.level).getD 0)
      ⟨Config.unity, Config.unity, 0, 0⟩).modSpot st e.id i fun q =>
        { q with state := .onAir, startTime := s.stationTime st }) = v at hr ht
  generalize v.resolveIfDue st e.id = w at hr ht
  have hvd : v.decks = (s.modPlayer d fun q => q.started ((p.planned.map Planned.level).getD 0)
      ⟨Config.unity, Config.unity, 0, 0⟩).decks := by rw [← hv]; rfl
  have hdeck (q : DeckId) : t.deck q = (s.modPlayer d fun q => q.started ((p.planned.map Planned.level).getD 0)
      ⟨Config.unity, Config.unity, 0, 0⟩).deck q := by
    rw [ht]
    exact State.deck_congr (hr.decks.trans hvd) q
  obtain ⟨c, hc, hsame⟩ := hr.find
  refine ⟨?_, ⟨{ e with body := .brk c }, c, ?_, rfl, ?_, fun j hj => ?_⟩, fun q hq => ?_, ?_, ?_, ?_, ?_, fun u hu => ?_⟩
  · rw [hdeck, State.modPlayer_deck]
    rfl
  · rw [ht, State.markDirty, State.modStation_station]
    exact hc
  · rw [hsame.1, List.getElem?_modify, hp]
    simp
  · rw [hsame.1, List.getElem?_modify]
    simp [Ne.symm hj]
  · rw [hdeck, State.modPlayer_deck_ne _ _ (Ne.symm hq)]
  · rw [ht, ← hv] at *
    exact hr.beds
  · rw [ht, ← hv] at *
    exact hr.dir
  · rw [ht, ← hv] at *
    exact hr.asrun
  · rw [ht, ← hv] at *
    exact hr.media
  · rw [ht, State.markDirty, State.modStation_station_ne _ _ (Ne.symm hu), hr.others u hu, ← hv]
    exact State.modStation_station_ne _ _ (Ne.symm hu)

end Start

end Sys2Proof.Machine
end

section
/-!
PROOFS. The statement about the spots and the fill of a break on air.
-/

namespace Sys2Proof.Machine

section Serve

variable {s : State} {st : StationId} {e : Entry} {b : BreakData}

/-- A request that stays as it was made: the expected start of a spot or fill (R121, R125). -/
theorem State.breakExpected_of {v : Nat} (h : b.spotOnAir = none ∧ v = 0 ∨ ∃ (k : Nat) (y : Spot) (d : DeckId) (z : DirEntry),
    b.spotOnAir = some (k, y) ∧ y.served = .deck d ∧ s.playerEntry (s.deck d).player = some z ∧
      v = z.trimOut - (s.deck d).player.playPos) : s.breakExpected st b = s.stationTime st + v := by
  unfold State.breakExpected
  rcases h with ⟨hn, rfl⟩ | ⟨k, y, d, z, hn, hy, hz, rfl⟩
  · rw [hn]
  · rw [hn]
    simp only [State.pairsToTrimOut, hy, hz, State.pairsTo]

theorem Spot.remains_waiting (p : Spot) (v : Served) (h : p.remains = true) : ({ p with served := v } : Spot).remains = true := h

theorem Spot.remains_armed (p : Spot) (v : Served) (h : p.remains = true) :
    ({ p with served := v, state := p.state.armedBy } : Spot).remains = true := by
  unfold Spot.remains at *
  simp only at *
  cases hs : p.state <;> simp_all [SpotState.armedBy]

theorem Spot.remains_included {p : Spot} (h : p.remains = true) : p.plan = .included := by
  unfold Spot.remains at h
  simp only [Bool.and_eq_true, beq_iff_eq] at h
  exact h.1.1

/-- The next spot of a break on air asks: what stands then, waiting or granted. -/
theorem State.serveBreak_asks (hair : (s.station st).onAirBreak = some (e, b)) (he : (s.station st).find e.id = some e)
    (hb : e.body = .brk b) {i : Nat} {p : Spot} {q : Planned} (hn : b.nextSpot = some (i, p)) (hv : p.served = .none)
    (hq : p.planned = some q) (hfill : b.fillState ≠ .waiting ∧ b.fillState ≠ .pending ∨ b.fillServed ≠ .none)
    (hr : s.plannedReady q = true) {c : BreakData} {y : Entry} {f : Spot → Spot}
    (hfind : ((s.requestDeck st (.spot e.id i) q.slot false (s.breakExpected st b)).station st).find e.id =
      some { y with body := .brk c })
    (hc : c.spots = b.spots.modify i f) (hf : p.remains = true → (f p).remains = true)
    (hcf : c.fillState = b.fillState ∧ c.fillServed = b.fillServed) :
    s.serveBreak st = s.requestDeck st (.spot e.id i) q.slot false (s.breakExpected st b) := by
  obtain ⟨n, hlen⟩ := BreakData.nextSpot_length hn
  rw [State.serveBreak_eq hair, hlen, serveSpot_asks (State.breakOf_brk he hb) hn hv hq hr]
  refine State.serveFill_still hfind (.inl (BreakData.nextSpot_told hn hc hf)) ?_
  rw [hcf.1, hcf.2]
  exact hfill.elim .inl fun h => .inr (.inl h)

/-- The next spot's entry gone: the spot stays DONE, with its length in the gap (R123). -/
theorem State.serveBreak_gone (hair : (s.station st).onAirBreak = some (e, b)) (he : (s.station st).find e.id = some e)
    (ha : e.state = .onAir) (hb : e.body = .brk b) {i : Nat} {p : Spot} {q : Planned} (hn : b.nextSpot = some (i, p))
    (hv : p.served = .none) (hq : p.planned = some q) (hr : s.plannedReady q = false) :
    (∃ y, ((s.serveBreak st).station st).find e.id = some y ∧ y.Spent i (b.gap + q.effective)) ∧
    ((s.station st).fault = none → ((s.serveBreak st).station st).fault.map FaultRecord.first =
      some (.missing, e.id, p.cart, s.stationTime st)) := by
  obtain ⟨n, hlen⟩ := BreakData.nextSpot_length hn
  obtain ⟨hp, hrem⟩ := BreakData.nextSpot_some hn
  have hfill (t : State) : Pooled t (t.serveFill st e.id) ∧ StaysSpent st e.id i (b.gap + q.effective) t (t.serveFill st e.id) := by
    unfold State.serveFill
    split
    · exact ⟨Pooled.resolveIfDue, StaysSpent.resolveIfDue⟩
    · exact ⟨Pooled.resolveIfDue.trans Pooled.requestFill, StaysSpent.resolveIfDue.trans StaysSpent.requestFill⟩
  rw [State.serveBreak_eq hair, hlen, serveSpot_gone (State.breakOf_brk he hb) hn hv hq hr]
  obtain ⟨hpool, hspent⟩ := hfill (serveSpot n st e.id (s.spotMissing st e b i p))
  refine ⟨(StaysSpent.serveSpot.trans hspent) ⟨_, State.spotMissing_find he hb, ha, _, rfl, ?_, ?_⟩, fun hf => ?_⟩
  · simp [BreakData.missed, hp]
  · have hlen' : p.includedLength = q.effective := by
      simp [Spot.includedLength, Spot.remains_included hrem, hq]
    exact le_of_eq (by rw [BreakData.missed, hlen'])
  · have hfault : ((s.spotMissing st e b i p).station st).fault =
        some (faultAfter none .missing e.id p.cart (s.stationTime st)) := by rw [State.spotMissing_station, hf]
    obtain ⟨g, hg, hgf⟩ := (Pooled.serveSpot.trans hpool).fault_first hfault
    rw [hg, Option.map_some, hgf]
    rfl

/-- Behind the last spot the fill of a break on air is resolved, with an entry or without one (R125). -/
theorem State.serveBreak_unfilled (hair : (s.station st).onAirBreak = some (e, b)) (he : (s.station st).find e.id = some e)
    (hb : e.body = .brk b) (hn : b.nextSpot = none) (hg : 0 < b.gap) (hr : b.fillResolved = false)
    (hno : ∀ (c : Nat) (x : DirEntry), (b.fillCart <|> (s.station st).cfg.fillCart) = some c →
      s.lookup st c = some x → x.category ≠ .bed) :
    (∃ u, ((s.serveBreak st).station st).find e.id = some { e with body := .brk (b.unfilled u) }) ∧
    (s.serveBreak st).decks = s.decks ∧
    (∀ v : StationId, ((s.serveBreak st).station v).requests = (s.station v).requests) ∧
    ((s.serveBreak st).cond (stationSet st)).pending = (s.cond (stationSet st)).pending ||| 0x04 := by
  have hbo := State.breakOf_brk he hb
  have hef : (s.station st).find e.id = some { e with body := .brk b } := by rw [← hb]; exact he
  obtain ⟨f, hf, hfy⟩ := State.resolveFill_absent (s := s) (st := st) (id := e.id) (b := b) hno
  obtain ⟨⟨u, hfind⟩, hrest⟩ := State.unfilled_made (y := e) hef hfy
  rw [← hf, ← State.resolveIfDue_eq hbo hn hg hr] at hfind hrest
  rw [State.serveBreak_eq hair, serveSpot_behind hbo hn, State.serveFill_of rfl hfind,
    State.requestFill_still (.inl ⟨fun h => (by cases h), fun h => by cases h⟩)]
  exact ⟨⟨u, hfind⟩, hrest⟩

theorem State.serveBreak_filled (hair : (s.station st).onAirBreak = some (e, b)) (he : (s.station st).find e.id = some e)
    (hb : e.body = .brk b) (hn : b.nextSpot = none) (hg : 0 < b.gap) (hr : b.fillResolved = false) {c : Nat} {x : DirEntry}
    (hc : (b.fillCart <|> (s.station st).cfg.fillCart) = some c) (hx : s.lookup st c = some x) (hbed : x.category = .bed) :
    s.serveBreak st = (s.modBreak st e.id fun y => y.filled c x).requestFill st e.id (b.filled c x)
      (s.breakExpected st b) := by
  have hbo := State.breakOf_brk he hb
  have hres : s.resolveIfDue st e.id = s.modBreak st e.id fun y => y.filled c x :=
    (State.resolveIfDue_eq hbo hn hg hr).trans (State.resolveFill_bed hc hx hbed)
  have hexp : (s.modBreak st e.id fun y => y.filled c x).breakExpected st (b.filled c x) = s.breakExpected st b := by
    unfold State.breakExpected
    rw [State.modBreak, State.modEntry_stationTime]
    rfl
  rw [State.serveBreak_eq hair, serveSpot_behind hbo hn, State.serveFill_of hres (State.modBreak_find_own he hb), hexp]

end Serve

end Sys2Proof.Machine
end

section
/-!
PROOFS. The statement about the spots and the fill of a break on air, assembled.
-/

namespace Sys2Proof.Machine

/-- A lone record held back that waits for no end of play reaches the log (R132, R185). -/
theorem State.release_one {u : State} {x : Option Nat × Record} (h : u.opening = false)
    (hend : ∀ d : DeckId, (u.deck d).player.ended = none) (hx : u.recordsHeld = [x]) (hacc : u.logAccepts = true) :
    u.release.asrun = u.asrun ++ [{ x.2 with seq := u.nextSeq }] := by
  have hw : u.mustWait x = false := by
    rw [Bool.eq_false_iff, Ne, State.mustWait_iff]
    rintro ⟨k, i, d, g, -, he, -⟩
    rw [hend d] at he
    cases he
  have htake : u.recordsHeld.takeWhile (fun y => !u.mustWait y) = [x] := by
    rw [hx, List.takeWhile_cons, hw]
    rfl
  rw [State.release_closed h]
  unfold State.logWhile
  rw [htake]
  exact State.addRecord_accepted (s := { u with recordsHeld := u.recordsHeld.dropWhile fun y => !u.mustWait y }) hacc x.2

section Missing

variable {s : State} {st : StationId} {e : Entry} {b : BreakData} {i : Nat} {p : Spot}

/-- At the beginning of a period the record of a spot gone missing waits (R123, R132). -/
theorem State.spotMissing_opening (h : s.opening = true) : (s.spotMissing st e b i p).asrun = s.asrun ∧
    (s.spotMissing st e b i p).recordsHeld = placeRecord i
      (spotDisposed st e b i p (p.planned.map Planned.used) (s.stationTime st) .missing) s.recordsHeld := by
  obtain ⟨ha, hh, -⟩ := @State.spotMissing_rest s st e b i p
  have hrel : (s.spotGone st e b i p).release = s.spotGone st e b i p := State.release_opening h
  rw [ha, hh, hrel]
  exact ⟨rfl, rfl⟩

/-- Between two periods it reaches the log at once, where no play has ended. -/
theorem State.spotMissing_closed (h : s.opening = false) (hheld : s.recordsHeld = [])
    (hend : ∀ d : DeckId, (s.deck d).player.ended = none) (hacc : s.logAccepts = true) :
    (s.spotMissing st e b i p).recordsHeld = [] ∧ ((s.spotMissing st e b i p).asrun.drop s.asrun.length).map Record.airing =
      [(.missing, st, e.id, some p.ref, p.cart, s.stationTime st, s.stationTime st, 0)] := by
  obtain ⟨ha, hh, -⟩ := @State.spotMissing_rest s st e b i p
  have hheld' : (s.spotGone st e b i p).recordsHeld = [(some i, spotDisposed st e b i p (p.planned.map Planned.used)
      (s.stationTime st) .missing)] := by
    show placeRecord i _ s.recordsHeld = _
    rw [hheld]
    rfl
  have hclosed : (s.spotGone st e b i p).opening = false := h
  have hdecks : ∀ d : DeckId, ((s.spotGone st e b i p).deck d).player.ended = none := hend
  have haccepts : (s.spotGone st e b i p).logAccepts = true := hacc
  have hasrun : (s.spotGone st e b i p).asrun = s.asrun := rfl
  have hnone := State.release_recordsHeld hclosed hdecks
  rw [ha, hh]
  refine ⟨hnone, ?_⟩
  generalize s.spotGone st e b i p = u at *
  have hlog : u.release.asrun = u.asrun ++ [{ spotDisposed st e b i p (p.planned.map Planned.used)
      (s.stationTime st) .missing with seq := u.nextSeq }] := by
    exact State.release_one hclosed hdecks hheld' haccepts
  rw [hlog, hasrun, List.drop_left]
  rfl

end Missing

theorem Player.faded_playing {p : Player} (h : p.state = .playing) (n : Nat) :
    p.faded n = { p with state := .fading, ramp := ⟨p.ramp.value, 0, n, 0⟩ } := by
  simp only [Player.faded, h, if_true, Ramp.replaced]

end Sys2Proof.Machine

namespace Sys2Proof
open Machine

/-- Settles O49: the service of spots and fill, a spot gone missing, and the starts. -/
theorem spotsAndFillStart : Obligations.SpotsAndFillStart := by
  unfold Obligations.SpotsAndFillStart
  refine ⟨fun s t st e b hl hair ht => ?_, fun s t st e b i p hl he hb hp ht => ?_, fun s st e b d hin hl hair hnow hno => ?_⟩
  · obtain ⟨hm, ha, hb⟩ := Station.onAirBreak_some hair
    have he : (s.station st).find e.id = some e := find?_of_mem (hl.nodup st) hm
    have hef : (s.station st).find e.id = some { e with body := .brk b } := by rw [← hb]; exact he
    have hbo := State.breakOf_brk he hb
    subst ht
    refine ⟨fun i p q hn hv hq hfill => ⟨fun hr hc => ?_, fun x v hr hx hxr hc hu hexp => ⟨fun hf => ?_, fun d hd hmin => ?_⟩,
        fun hr => ?_⟩,
      fun hn hg hf => ?_,
      fun hn hg hr hv => ⟨fun hnone => ?_, fun c x f hc hx hbed hpr hf => ⟨fun hcap => ?_, fun hcap hu hfree => ?_⟩⟩⟩
    · have hcap := State.requestDeck_capped hc (.spot e.id i) q.slot false (s.breakExpected st b)
      refine (State.serveBreak_asks hair he hb hn hv hq hfill hr (y := e) (c := b) (f := id) ?_ ?_ (fun h => h)
        ⟨rfl, rfl⟩).trans hcap
      · rw [hcap]
        exact hef
      · exact (List.modify_id i _).symm
    · obtain ⟨hdk, -, hreq, hfind⟩ := State.requestDeck_waiting (e := { e with body := .brk b }) (g := .spot e.id i)
        (slot := q.slot) (n := s.breakExpected st b) (lp := false) hc hu hf (beq_self_eq_true e.id) hef
      rw [State.serveBreak_asks hair he hb hn hv hq hfill hr hfind rfl (Spot.remains_waiting p .waiting) ⟨rfl, rfl⟩]
      exact ⟨hdk, by rw [hreq, State.breakExpected_of hexp], hfind⟩
    · obtain ⟨hgr, hfind⟩ := State.requestDeck_granted (e := { e with body := .brk b }) (g := .spot e.id i)
        (slot := q.slot) (n := s.breakExpected st b) (lp := false) hc hu hd hmin hx hxr (beq_self_eq_true e.id) hef
      have hgranted : ({ e with body := .brk b } : Entry).granted d (.spot e.id i) = { e with
          body := .brk { b with
            spots := b.spots.modify i fun y => { y with served := .deck d, state := y.state.armedBy } } } := by
        simp only [Entry.granted, ha, EntryState.armedBy]
      rw [hgranted] at hfind
      rw [State.serveBreak_asks hair he hb hn hv hq hfill hr hfind rfl (Spot.remains_armed p (.deck d)) ⟨rfl, rfl⟩, hgr.own]
      exact ⟨rfl, rfl, rfl, congrArg some (State.entryAt_slot hx), rfl, hgr.unasked st, hfind, hgr.others⟩
    · obtain ⟨⟨y, hy, -, c, hyc, hd, hg⟩, hfault⟩ := State.serveBreak_gone hair he ha hb hn hv hq hr
      exact ⟨⟨y, c, hy, hyc, hd, hg⟩, hfault⟩
    · have hn' : b.nextSpot = none := by simpa using hn
      rw [State.serveBreak_eq hair, serveSpot_behind hbo hn']
      exact State.serveFill_still hef (.inr (.inl hg)) (.inl ⟨by rw [hf]; decide, by rw [hf]; decide⟩)
    · obtain ⟨⟨u, hfind⟩, hdk, hreq, hcond⟩ :=
        State.serveBreak_unfilled hair he hb (by simpa using hn) hg hr hnone
      exact ⟨hdk, hreq st, hcond, { e with body := .brk (b.unfilled u) }, _, hfind, rfl, rfl, rfl⟩
    · have hcap' : (s.modBreak st e.id fun y => y.filled c x).belowCap st = false := State.modEntry_belowCap.trans hcap
      rw [State.serveBreak_filled hair he hb (by simpa using hn) hg hr hc hx hbed,
        State.requestFill_still (.inr (.inr hcap')), hf]
      exact ⟨State.modBreak_find_own he hb, rfl, rfl, State.modEntry_requests st⟩
    · have hcap' : (s.modBreak st e.id fun y => y.filled c x).belowCap st = true := State.modEntry_belowCap.trans hcap
      rw [State.serveBreak_filled hair he hb (by simpa using hn) hg hr hc hx hbed,
        State.requestFill_asks (b := b.filled c x) (q := x.planned) rfl hv hcap' rfl hpr]
      obtain ⟨hdk, hcond, hreq, hfind⟩ := State.requestDeck_waiting (s := s.modBreak st e.id fun y => y.filled c x)
        (e := { e with body := .brk (b.filled c x) }) (g := .fill e.id) (slot := x.planned.slot)
        (n := s.breakExpected st b) (lp := true) hcap' (State.modEntry_unasked hu) hfree
        (beq_self_eq_true e.id) (State.modBreak_find_own he hb)
      rw [hreq, hf]
      refine ⟨hcond, hdk, hfind, rfl, fun hno => ?_, fun k y d z hk hy hz => ?_⟩
      · refine congrArg (fun n => [n]) ((State.modEntry_requestKey _).trans ?_)
        rw [State.breakExpected_of (.inl ⟨hno, rfl⟩), Nat.add_zero]
      · refine congrArg (fun n => [n]) ((State.modEntry_requestKey _).trans ?_)
        rw [State.breakExpected_of (.inr ⟨k, y, d, z, hk, hy, hz, rfl⟩)]
  · subst ht
    obtain ⟨-, -, hdk, hbd, hmd⟩ := @State.spotMissing_rest s st e b i p
    refine ⟨⟨_, State.spotMissing_find he hb, rfl, rfl⟩, State.spotMissing_opening, State.spotMissing_closed, fun hf => ?_, ?_,
      hdk, hbd, hmd, fun r hr ha => ?_⟩
    · rw [State.spotMissing_station, hf]
      rfl
    · rw [State.spotMissing_station]
    · have hs : ((s.modStation st fun x => { x with requests := x.requests.erase r, dirty := true }).station st).find e.id =
          some e := by
        rw [State.modStation_station]
        exact he
      unfold State.deadRequest
      simp only [hr, hs, hb, hp, ha, if_true]
  · obtain ⟨hm, ha, hb⟩ := Station.onAirBreak_some hair
    have he : (s.station st).find e.id = some e := find?_of_mem (hl.nodup st) hm
    refine ⟨fun i p q hn hq hv hd => ?_, fun q hn hf hq hv hd => ?_, fun hf hv hd ht => ?_⟩
    · obtain ⟨hp, -⟩ := BreakData.nextSpot_some hn
      obtain ⟨hdk, hspot, hrest⟩ := State.startSpot_made (d := d) he hb hp
      refine ⟨s.startSpot st e i p d, ?_, ?_, hspot, hrest⟩
      · rw [← State.opSpotStart_eq hair hnow hno hn hv hd]
        exact hin.event fun y => y.opSpotStart st
      · rw [hdk, hq]
        rfl
    · have hdeck := (s.modPlayer_deck d fun p => p.started ((b.fillPlanned.map Planned.level).getD 0) (s.fillRamp st e))
      have hfind := State.modBreak_find_own (s := s.modPlayer d fun p => p.started ((b.fillPlanned.map Planned.level).getD 0)
        (s.fillRamp st e)) (f := fun b' => { b' with fillState := .onAir, fillStart := s.stationTime st }) he hb
      have hother (q : DeckId) (hq : d ≠ q) := s.modPlayer_deck_ne
        (fun p => p.started ((b.fillPlanned.map Planned.level).getD 0) (s.fillRamp st e)) hq
      have hown : ((s.opFillStart st).deck d) = { s.deck d with
          player := (s.deck d).player.started q.level (s.fillRamp st e) } := by
        rw [State.opFillStart_eq hair hnow hno hn hf hv hd]
        refine hdeck.trans ?_
        rw [hq]
        rfl
      refine ⟨s.opFillStart st, hin.event fun y => y.opFillStart st, by rw [hown]; rfl, fun hearly => ?_, fun hlate => ?_,
        ?_⟩
      · rw [hown, State.fillRamp_early hearly]
        exact ⟨rfl, rfl⟩
      · rw [hown, State.fillRamp_closing hlate]
        exact ⟨rfl, rfl⟩
      · rw [State.opFillStart_eq hair hnow hno hn hf hv hd]
        exact ⟨⟨{ e with body := .brk { b with fillState := .onAir, fillStart := s.stationTime st } }, hfind, rfl⟩,
          fun q hq => hother q (Ne.symm hq), rfl, rfl, rfl, rfl,
          fun u hu => State.modStation_station_ne (s.modPlayer d _) _ (Ne.symm hu)⟩
    · refine (hin.event fun y => y.opFillClosing st).trans (congrArg (fun t => Host.Outcome.next (State.settlePool t)) ?_)
      rw [State.opFillClosing_eq hair hf hv hd ht]
      exact congrArg (fun p => s.setDeck d { s.deck d with player := p }) (Player.faded_playing hd _)

end Sys2Proof
end

section
/-!
PROOFS. Entries that leave a run list at a request: what becomes of the decks and requests that served them.
-/

namespace Sys2Proof.Machine

/-! ## The arbiter's decks -/

theorem State.deadRequest_decks (s : State) (st : StationId) (r : DeckRequest) : (s.deadRequest st r).decks = s.decks := by
  unfold State.deadRequest
  simp only
  split
  · rfl
  · split
    · rfl
    · split
      · rfl
      · split
        · rfl
        · split
          · exact State.spotMissing_rest.2.2.1
          · rfl
  · exact State.raiseBits_decks _ _ _
  · rfl
  · rfl

theorem State.grant_deck (s : State) (st : StationId) (r : DeckRequest) (d : DeckId) (x : DirEntry) :
    (s.grant st r d x).deck d = ⟨(s.deck d).player.bound x r.looping, some st, some r.target⟩ := by
  unfold State.grant
  exact (State.deck_congr (State.setGranted_rest _ st d r.target).1 d).trans (State.setDeck_deck _ d _)

theorem State.grant_deck_ne (s : State) (st : StationId) (r : DeckRequest) {d q : DeckId} (x : DirEntry) (h : d ≠ q) :
    (s.grant st r d x).deck q = s.deck q := by
  unfold State.grant
  exact (State.deck_congr (State.setGranted_rest _ st d r.target).1 q).trans (State.setDeck_deck_ne
    (s.modStation st fun y => { y with requests := y.requests.erase r, dirty := true }) _ h)

/-! ## Decks let go -/

/-- The deck does not serve the entry. -/
def State.LetGo (s : State) (st : StationId) (id : Nat) (d : DeckId) : Prop :=
  (s.deck d).station = some st → (s.deck d).target.any (Target.belongs id) = false

/-- The deck is FREE and bound to nothing. -/
def State.Idle (s : State) (d : DeckId) : Prop :=
  (s.deck d).player.state = .free ∧ (s.deck d).station = none ∧ (s.deck d).target = none

/-- From `s` to `t` the decks of the list are let go: none of them serves an entry of the station that no request names,
they are FREE where no request waits, and no other deck in use is touched. -/
structure Lets (st : StationId) (vs : List Served) (s t : State) : Prop where
  unclaimed : ∀ id, s.Unclaimed st id → t.Unclaimed st id ∧ ∀ d, .deck d ∈ vs ∨ s.LetGo st id d → t.LetGo st id d
  unasked : s.Unasked → t.Unasked ∧ (∀ d, .deck d ∈ vs ∧ (s.deck d).station.isSome = true ∨ s.Idle d → t.Idle d) ∧
    ∀ d, .deck d ∉ vs → t.deck d = s.deck d
  spared : ∀ d, (s.deck d).player.state ≠ .free → .deck d ∉ vs → t.deck d = s.deck d

namespace Lets

variable {st : StationId} {vs ws : List Served} {s t u : State}

theorem trans (h : Lets st vs s t) (k : Lets st ws t u) : Lets st (vs ++ ws) s u where
  unclaimed id hs := by
    obtain ⟨ht, hl⟩ := h.unclaimed id hs
    obtain ⟨hu, hl'⟩ := k.unclaimed id ht
    refine ⟨hu, fun d hd => hl' d ?_⟩
    rcases hd with hd | hd
    · rcases List.mem_append.mp hd with hd | hd
      · exact .inr (hl d (.inl hd))
      · exact .inl hd
    · exact .inr (hl d (.inr hd))
  unasked hs := by
    obtain ⟨ht, hi, hk⟩ := h.unasked hs
    obtain ⟨hu, hi', hk'⟩ := k.unasked ht
    refine ⟨hu, fun d hd => hi' d ?_, fun d hd => ?_⟩
    · by_cases hv : Served.deck d ∈ vs
      · rcases hd with ⟨-, hd⟩ | hd
        · exact .inr (hi d (.inl ⟨hv, hd⟩))
        · exact .inr (hi d (.inr hd))
      · rcases hd with ⟨hm, hd⟩ | hd
        · refine .inl ⟨(List.mem_append.mp hm).resolve_left hv, ?_⟩
          rw [hk d hv]
          exact hd
        · exact .inr (hi d (.inr hd))
    · rw [List.mem_append, not_or] at hd
      rw [hk' d hd.2, hk d hd.1]
  spared d hd hm := by
    rw [List.mem_append, not_or] at hm
    have h1 := h.spared d hd hm.1
    rw [k.spared d (by rw [h1]; exact hd) hm.2, h1]

/-- What touches no deck and makes no request. -/
theorem still (hd : t.decks = s.decks)
    (hr : ∀ v : StationId, ∀ r ∈ (t.station v).requests, r ∈ (s.station v).requests) : Lets st [] s t := by
  have hdeck (d : DeckId) : t.deck d = s.deck d := State.deck_congr hd d
  refine ⟨fun id hs => ⟨fun r h => hs r (hr st r h), fun d hl => ?_⟩, fun hs => ⟨fun v => ?_, fun d hi => ?_, fun d _ => hdeck d⟩,
    fun d _ _ => hdeck d⟩
  · rw [State.LetGo, hdeck]
    exact hl.resolve_left List.not_mem_nil
  · refine List.eq_nil_iff_forall_not_mem.mpr fun r h => ?_
    have := hr v r h
    rw [hs v] at this
    cases this
  · rw [State.Idle, hdeck]
    exact hi.resolve_left fun h => List.not_mem_nil h.1

theorem refl (s : State) : Lets st [] s s := still rfl fun _ _ h => h

theorem modStation {v : StationId} {f : Station → Station} (h : ∀ x, ∀ r ∈ (f x).requests, r ∈ x.requests) :
    Lets st [] s (s.modStation v f) := still rfl fun u r hr => by
  by_cases hu : v = u
  · subst hu
    rw [State.modStation_station] at hr
    exact h _ r hr
  · rwa [State.modStation_station_ne _ _ hu] at hr

theorem withdraw {v : StationId} {p : Target → Bool} : Lets st [] s (s.withdraw v p) :=
  modStation fun _ _ h => (List.mem_filter.mp h).1

theorem removeEntry {v : StationId} {id : Nat} : Lets st [] s (s.removeEntry v id) := by
  refine still (State.evalLow_decks _ v) fun u r hr => ?_
  by_cases hu : u = v
  · subst hu
    obtain ⟨b, hb⟩ := s.removeEntry_station u id
    rwa [hb] at hr
  · rwa [State.removeEntry_station_ne s id hu] at hr

/-- The arbiter gives an entry that no request names no deck. -/
theorem arbitrate_letGo {id : Nat} (hs : s.Unclaimed st id) {d : DeckId} (h : s.LetGo st id d) : s.arbitrate.LetGo st id d := by
  unfold State.arbitrate
  generalize s.waitingRequests = n
  induction n generalizing s with
  | zero => exact h
  | succ n ih =>
    unfold arbitrateLoop
    split
    · exact h
    next s' hone =>
      have hb := Beside.arbitrateOnce (st := st) (id := id) hone hs
      refine ih hb.1 ?_
      unfold State.arbitrateOnce at hone
      split at hone
      next q v r hq hbest =>
        have hfree := (State.freeDeckNo_eq_some.mp hq).1
        have hdead : (s.deadRequest v r).LetGo st id d := by
          have : (s.deadRequest v r).deck d = s.deck d := State.deck_congr (s.deadRequest_decks v r) d
          rw [State.LetGo, this]
          exact h
        have hgrant (x : DirEntry) : (s.grant v r q x).LetGo st id d := by
          by_cases hdq : d = q
          · subst hdq
            have hown : ((s.grant v r d x).deck d).station = some v ∧ ((s.grant v r d x).deck d).target = some r.target :=
              ⟨congrArg Deck.station (s.grant_deck v r d x), congrArg Deck.target (s.grant_deck v r d x)⟩
            intro hv
            rw [hown.1] at hv
            rw [hown.2]
            exact hs r (Option.some.inj hv ▸ bestRequest_mem hbest)
          · have : (s.grant v r q x).deck d = s.deck d := State.grant_deck_ne s v r x (Ne.symm hdq)
            rw [State.LetGo, this]
            exact h
        split at hone
        · obtain rfl := Option.some.inj hone
          split
          · exact hgrant _
          · exact hdead
        · obtain rfl := Option.some.inj hone
          exact hdead
      · cases hone

/-- A deck as it goes FREE, ahead of the arbiter (R37, R38). -/
theorem unbound {d : DeckId} {v : StationId} (hd : (s.deck d).station = some v) :
    ∃ w : State, s.freeDeck d = w.arbitrate ∧ w.deck d = ⟨(s.deck d).player.freed, none, none⟩ ∧
      (∀ q, q ≠ d → w.deck q = s.deck q) ∧ ∀ u : StationId, (w.station u).requests = (s.station u).requests := by
  have hreq (x : State) (hx : x.stations = s.stations) (u : StationId) :
      ((x.markDirty v).station u).requests = (s.station u).requests := by
    by_cases hu : v = u
    · subst hu
      rw [State.markDirty, State.modStation_station, State.station_congr hx]
    · rw [State.markDirty, State.modStation_station_ne _ _ hu, State.station_congr hx]
  unfold State.freeDeck
  rw [hd]
  simp only
  refine ⟨_, rfl, ?_, fun q hq => ?_, hreq _ ?_⟩
  · split
    · exact State.setDeck_deck _ _ _
    · exact (State.deck_congr (State.unbindSlot_frame _ _).2.2.2.2.2.1 d).trans (State.setDeck_deck _ _ _)
  · split
    · exact State.setDeck_deck_ne _ _ (Ne.symm hq)
    · exact (State.deck_congr (State.unbindSlot_frame _ _).2.2.2.2.2.1 q).trans (State.setDeck_deck_ne _ _ (Ne.symm hq))
  · split
    · rfl
    · exact (State.unbindSlot_frame _ _).2.2.2.2.1

theorem freeDeck {d : DeckId} : Lets st [.deck d] s (s.freeDeck d) := by
  cases hd : (s.deck d).station with
  | none =>
    have hs : s.freeDeck d = s := by
      unfold State.freeDeck
      rw [hd]
    have hone {q : DeckId} (h : Served.deck q ∈ [Served.deck d]) : q = d := by simpa using h
    rw [hs]
    refine ⟨fun id hu => ⟨hu, fun q hq => hq.elim (fun h hst => ?_) fun h => h⟩, fun hu => ⟨hu, fun q hq => ?_, fun _ _ => rfl⟩,
      fun _ _ _ => rfl⟩
    · rw [hone h, hd] at hst
      cases hst
    · refine hq.elim (fun h => ?_) fun h => h
      obtain ⟨hm, hsome⟩ := h
      rw [hone hm, hd] at hsome
      cases hsome
  | some v =>
    obtain ⟨w, hw, hown, hother, hreq⟩ := unbound hd
    have hone {q : DeckId} : Served.deck q ∈ [Served.deck d] ↔ q = d := by simp
    refine ⟨fun id hu => ?_, fun hu => ?_, fun q hq hm => ?_⟩
    · have huw : w.Unclaimed st id := fun r hr => hu r (by rwa [hreq] at hr)
      rw [hw]
      refine ⟨(Beside.arbitrate (id := id) huw).1, fun q hq => arbitrate_letGo huw ?_⟩
      by_cases hqd : q = d
      · intro hst
        rw [hqd, hown] at hst
        cases hst
      · rw [State.LetGo, hother q hqd]
        exact hq.resolve_left fun h => hqd (hone.mp h)
    · have hf := State.freeDeck_freed hu hd
      refine ⟨(Calm.freeDeck hu).unasked, fun q hq => ?_, fun q hq => hf.decks q fun h => hq (hone.mpr h)⟩
      by_cases hqd : q = d
      · rw [State.Idle, hqd, hf.deck]
        exact ⟨rfl, rfl, rfl⟩
      · rw [State.Idle, hf.decks q hqd]
        exact hq.resolve_left fun h => hqd (hone.mp h.1)
    · have hqd : q ≠ d := fun h => hm (hone.mpr h)
      have hr : Reevaluated w w.arbitrate := Reevaluated.arbitrateLoop
      rw [hw, hr.decks q (by rw [hother q hqd]; exact hq), hother q hqd]

theorem freeServed {v : Served} : Lets st [v] s (s.freeServed v) := by
  cases v with
  | deck d => exact freeDeck
  | waiting =>
    have h := refl (st := st) s
    exact ⟨fun id hs => ⟨hs, fun d hd => hd.resolve_left (by simp)⟩, fun hs => ⟨hs, fun d hd => hd.resolve_left (by simp),
      fun _ _ => rfl⟩, fun _ _ _ => rfl⟩
  | none =>
    exact ⟨fun id hs => ⟨hs, fun d hd => hd.resolve_left (by simp)⟩, fun hs => ⟨hs, fun d hd => hd.resolve_left (by simp),
      fun _ _ => rfl⟩, fun _ _ _ => rfl⟩

theorem freeAll : Lets st vs s (Machine.forEach vs (fun v acc => acc.freeServed v) s) := by
  unfold Machine.forEach
  induction vs generalizing s with
  | nil => exact refl s
  | cons v vs ih => exact (freeServed (v := v)).trans ih

/-- An entry that leaves its list lets go what serves it (R70). -/
theorem dropEntry {e : Entry} : Lets st (s.current st e).serving s (s.dropEntry st e) := by
  have h := ((withdraw (st := st) (s := s) (v := st) (p := Target.belongs e.id)).trans removeEntry).trans
    (freeAll (st := st) (vs := (s.current st e).serving)
      (s := (s.withdraw st (Target.belongs e.id)).removeEntry st e.id))
  rwa [List.append_nil, List.nil_append] at h

end Lets

/-! ## One entry after another -/

theorem Beside.removeEntry {s : State} {st v : StationId} {id j : Nat} (h : v = st → j ≠ id) :
    Beside st id s (s.removeEntry v j) := by
  by_cases hv : v = st
  · subst hv
    intro hs
    obtain ⟨b, hb⟩ := s.removeEntry_station v j
    rw [State.Unclaimed, hb]
    refine ⟨hs, ?_⟩
    show ((s.station v).list.filter fun e => e.id != j).find? (fun e => e.id == id) = _
    rw [List.find?_filter]
    refine congrArg (fun p => List.find? p (s.station v).list) (funext fun e => ?_)
    by_cases he : e.id = id
    · simp [he, (h rfl).symm]
    · simp [he]
  · exact still (State.removeEntry_station_ne s j (Ne.symm hv))

theorem Beside.dropEntry {s : State} {st : StationId} {id : Nat} {e : Entry} (h : e.id ≠ id) :
    Beside st id s (s.dropEntry st e) := by
  unfold State.dropEntry
  exact (Beside.withdraw.trans (Beside.removeEntry fun _ => h)).trans (Beside.forEach fun _ _ => Beside.freeServed)

theorem State.dropEntry_unclaimed {s : State} {st : StationId} {e : Entry} {id : Nat} (h : s.Unclaimed st id) :
    (s.dropEntry st e).Unclaimed st id := (Lets.dropEntry.unclaimed id h).1

/-- Entries of a list leave it, no request naming any of them. -/
theorem Lets.dropEntries {st : StationId} {l : List Entry} {s : State} (hl : (l.map Entry.id).Nodup)
    (hf : ∀ y ∈ l, (s.station st).find y.id = some y) (hu : ∀ y ∈ l, s.Unclaimed st y.id) :
    Lets st (l.flatMap Entry.serving) s (forEach l (fun e acc => acc.dropEntry st e) s) := by
  unfold forEach
  induction l generalizing s with
  | nil => exact Lets.refl s
  | cons e l ih =>
    obtain ⟨hne, hl⟩ := List.nodup_cons.mp hl
    have hcur : s.current st e = e := by rw [State.current, hf e List.mem_cons_self]; rfl
    have hdrop := Lets.dropEntry (st := st) (s := s) (e := e)
    rw [hcur] at hdrop
    refine hdrop.trans (ih hl (fun y hy => ?_) fun y hy => ?_)
    · have hey : e.id ≠ y.id := fun h => hne (h ▸ List.mem_map.mpr ⟨y, hy, rfl⟩)
      exact (Beside.dropEntry hey (hu y (List.mem_cons_of_mem _ hy))).2.trans (hf y (List.mem_cons_of_mem _ hy))
    · exact State.dropEntry_unclaimed (hu y (List.mem_cons_of_mem _ hy))

end Sys2Proof.Machine
end

section
/-!
PROOFS. ENTRY_REMOVE and LIST_CLEAR.
-/

namespace Sys2Proof.Machine

section Leave

variable {s : State} {st : StationId} {e : Entry}

/-! ## What leaves a list at a request -/

theorem Station.fixedEntry_of {x : Station} (h : e.notStarted = false ∨ e.state = .pending ∨
    x.take.map PendingTake.target = some e.id ∨ e.preFaded = true) : x.fixedEntry e = true := by
  have hstarted : e.notStarted = false → e.state = .onAir ∨ e.state = .ending := by
    unfold Entry.notStarted
    cases e.state <;> simp [EntryState.notStarted]
  unfold Station.fixedEntry Station.isCommitted
  rcases h with h | h | h | h
  · rcases hstarted h with h | h <;> simp [h]
  · simp [h]
  · obtain ⟨k, hk, hke⟩ := Option.map_eq_some_iff.mp h
    simp [hk, hke]
  · cases hn : e.notStarted
    · rcases hstarted hn with h | h <;> simp [h]
    · simp [h]

theorem Station.fixedEntry_free {x : Station} (hs : e.state = .waiting ∨ e.state = .armed) (hc : x.isCommitted e = false) :
    x.fixedEntry e = false := by
  unfold Station.fixedEntry
  rw [hc]
  rcases hs with h | h <;> rw [h] <;> rfl

theorem State.takesGone_fst {gone : List Entry} :
    (s.takesGone st gone).deferred.map Prod.fst = s.deferred.map Prod.fst := by
  show (s.deferred.map _).map Prod.fst = _
  rw [List.map_map]
  refine List.map_congr_left fun p _ => ?_
  obtain ⟨u, d⟩ := p
  cases d with
  | take id =>
    simp only [Function.comp]
    split
    next h => exact h.1.symm
    · rfl
  | _ => rfl

/-- The entries not started are read off the frames. -/
theorem State.notStarted_frames (s : State) (st : StationId) :
    (s.station st).notStarted = ((s.frames st).filter Entry.notStarted).length := by
  rw [State.frames, List.filter_map, List.length_map]
  have hp : (Entry.notStarted ∘ Entry.frame) = Entry.notStarted := funext Entry.frame_notStarted
  rw [hp]
  rfl

/-- One of the entries not started fewer. -/
theorem State.notStarted_dropped {t : State} (hl : ((s.station st).list.map Entry.id).Nodup)
    (he : e ∈ (s.station st).list) (hn : e.notStarted = true)
    (hf : t.frames st = ((s.station st).list.filter fun y => y.id != e.id).map Entry.frame) :
    (t.station st).notStarted = (s.station st).notStarted - 1 := by
  have hp : (Entry.notStarted ∘ Entry.frame) = Entry.notStarted := funext Entry.frame_notStarted
  have hone : ((s.station st).list.filter Entry.notStarted).countP (fun y => y.id == e.id) = 1 := by
    have hnd : (((s.station st).list.filter Entry.notStarted).map Entry.id).Nodup :=
      (List.filter_sublist.map Entry.id).nodup hl
    have := List.count_eq_one_of_mem hnd (List.mem_map.mpr ⟨e, List.mem_filter.mpr ⟨he, hn⟩, rfl⟩)
    rwa [List.count, List.countP_map] at this
  have hsum := List.length_eq_countP_add_countP (fun y : Entry => y.id == e.id)
    (l := (s.station st).list.filter Entry.notStarted)
  rw [hone] at hsum
  rw [State.notStarted_frames, hf, List.filter_map, List.length_map, hp, List.filter_comm, ← List.countP_eq_length_filter]
  have hne : (fun y : Entry => y.id != e.id) = fun y => !(y.id == e.id) := rfl
  show _ = ((s.station st).list.filter Entry.notStarted).length - 1
  rw [hsum, Nat.add_sub_cancel_left, hne]
  exact congrArg (fun p => List.countP p _) (funext fun y => by rw [Bool.eq_iff_iff]; simp)

theorem State.dropEntry_frames : (s.dropEntry st e).frames st =
    ((s.station st).list.filter fun y => y.id != e.id).map Entry.frame := by
  have h := (Drops.dropEntry (s := s) (st := st) (e := e)).own
  rw [h, State.frames, List.filter_map]
  refine congrArg _ (List.filter_congr fun y _ => ?_)
  simp only [Function.comp, List.contains_cons, List.contains_nil, Bool.or_false]
  rfl

/-- An entry ahead of the release of its decks. -/
def State.unlisted (s : State) (st : StationId) (e : Entry) : State :=
  (s.withdraw st (Target.belongs e.id)).removeEntry st e.id

theorem State.dropEntry_eq (h : s.current st e = e) : s.dropEntry st e =
    forEach e.serving (fun v acc => acc.freeServed v) (s.unlisted st e) := by
  unfold State.dropEntry
  rw [h]
  rfl

theorem State.unlisted_decks : (s.unlisted st e).decks = s.decks := State.evalLow_decks _ st

theorem State.unlisted_requests (u : StationId) : ((s.unlisted st e).station u).requests =
    if u = st then (s.station u).requests.filter (fun r => !r.target.belongs e.id) else (s.station u).requests := by
  split
  next hu =>
    subst hu
    obtain ⟨b, hb⟩ := (s.withdraw u (Target.belongs e.id)).removeEntry_station u e.id
    rw [State.unlisted, hb, State.withdraw, State.modStation_station]
  next hu =>
    rw [State.unlisted, State.removeEntry_station_ne _ _ hu, State.withdraw, State.modStation_station_ne _ _ (Ne.symm hu)]

/-- What an entry that leaves its list lets go: requests, and the decks that serve it (R70). -/
theorem State.dropEntry_letGo (h : s.current st e = e) : (s.dropEntry st e).Unclaimed st e.id ∧
    (∀ d, .deck d ∈ e.serving → (s.dropEntry st e).LetGo st e.id d) ∧
    ((∀ u : StationId, ∀ q ∈ (s.station u).requests, u = st ∧ q.target.belongs e.id = true) →
      ∀ d, .deck d ∈ e.serving → (s.deck d).station.isSome = true → (s.dropEntry st e).Idle d) ∧
    ∀ d, (s.deck d).player.state ≠ .free → .deck d ∉ e.serving → (s.dropEntry st e).deck d = s.deck d := by
  have hlets := Lets.freeAll (st := st) (vs := e.serving) (s := s.unlisted st e)
  rw [← State.dropEntry_eq h] at hlets
  have hdeck (d : DeckId) : (s.unlisted st e).deck d = s.deck d := State.deck_congr State.unlisted_decks d
  have hun : (s.unlisted st e).Unclaimed st e.id := fun r hr => by
    rw [State.unlisted_requests, if_pos rfl] at hr
    simpa using (List.mem_filter.mp hr).2
  obtain ⟨h1, h2⟩ := hlets.unclaimed e.id hun
  refine ⟨h1, fun d hd => h2 d (.inl hd), fun hall d hd hs => (hlets.unasked fun u => ?_).2.1 d (.inl ⟨hd, by rwa [hdeck]⟩),
    fun d hd hn => (hlets.spared d (by rwa [hdeck]) hn).trans (hdeck d)⟩
  refine List.eq_nil_iff_forall_not_mem.mpr fun q hq => ?_
  rw [State.unlisted_requests] at hq
  split at hq
  · obtain ⟨hm, hb⟩ := List.mem_filter.mp hq
    rw [(hall u q hm).2] at hb
    cases hb
  next hu => exact hu (hall u q hq).1

/-! ## A list cleared -/

/-- Nothing of a take or a pre-fade stands. -/
def Station.Unplanned (x : Station) : Prop := x.take = none ∧ x.preFade = none ∧ x.due = none

theorem State.dropEntry_unplanned (h : (s.station st).Unplanned) : ((s.dropEntry st e).station st).Unplanned := by
  obtain ⟨h1, h2, h3⟩ := h
  have hr : (((s.withdraw st (Target.belongs e.id)).removeEntry st e.id).station st).Unplanned := by
    obtain ⟨b, hb⟩ := (s.withdraw st (Target.belongs e.id)).removeEntry_station st e.id
    rw [hb]
    have hw : (s.withdraw st (Target.belongs e.id)).station st = _ := State.modStation_station _ _ _
    rw [hw]
    refine ⟨?_, ?_, ?_⟩
    · simp only [h1]
      rfl
    · simp only [h2]
      rfl
    · show Station.dueBut _ _ = none
      unfold Station.dueBut
      rw [h3]
      exact ite_self none
  have hp := (Pooled.forEach (s := (s.withdraw st (Target.belongs e.id)).removeEntry st e.id)
    (xs := (s.current st e).serving) fun v t => Pooled.freeServed (s := t) (v := v)).frame st
  exact ⟨(congrArg Station.take hp :).trans hr.1, (congrArg Station.preFade hp :).trans hr.2.1,
    (congrArg Station.due hp :).trans hr.2.2⟩

theorem State.dropEntry_marks : (s.dropEntry st e).marks = s.marks := by
  unfold State.dropEntry
  refine (Pooled.forEach fun v t => Pooled.freeServed (s := t) (v := v)).marks.trans ?_
  exact (State.removeEntry_marks _ st e.id).trans Pooled.withdraw.marks

/-- The entries of a list that have not started, as LIST_CLEAR lets them go. -/
def State.clearing (s : State) (st : StationId) : State :=
  State.withdraw (s.modStation st fun x => { x with take := none, due := none, preFade := none, dirty := true }) st
    fun t => (s.station st).waitingList.any fun e => Target.belongs e.id t

theorem State.clearList_eq : s.clearList st = State.takesGone
    (forEach (s.station st).waitingList (fun e acc => acc.dropEntry st e) (s.clearing st)) st (s.station st).waitingList := rfl

theorem State.clearing_station : (s.clearing st).station st = { s.station st with
    take := none, due := none, preFade := none, dirty := true
    requests := (s.station st).requests.filter fun r =>
      !((s.station st).waitingList.any fun e => Target.belongs e.id r.target) } := by
  rw [State.clearing, State.withdraw, State.modStation_station, State.modStation_station]

theorem State.clearing_requests (u : StationId) :
    ((s.clearing st).station u).requests.Sublist (s.station u).requests := by
  by_cases hu : u = st
  · subst hu
    rw [State.clearing_station]
    exact List.filter_sublist
  · rw [State.clearing, State.withdraw, State.modStation_station_ne _ _ (Ne.symm hu),
      State.modStation_station_ne _ _ (Ne.symm hu)]

theorem State.clearing_unclaimed (h : e ∈ (s.station st).waitingList) : (s.clearing st).Unclaimed st e.id := fun r hr => by
  rw [State.clearing_station] at hr
  have hn := (List.mem_filter.mp hr).2
  rw [Bool.not_eq_true'] at hn
  exact Bool.eq_false_iff.mpr fun hb => by
    rw [List.any_eq_true.mpr ⟨e, h, hb⟩] at hn
    cases hn

theorem State.clearing_unasked (h : ∀ u : StationId, ∀ q ∈ (s.station u).requests, u = st ∧
    ∃ y ∈ (s.station st).waitingList, q.target.belongs y.id = true) : (s.clearing st).Unasked := fun u => by
  refine List.eq_nil_iff_forall_not_mem.mpr fun q hq => ?_
  obtain ⟨rfl, y, hy, hb⟩ := h u q ((State.clearing_requests u).subset hq)
  have := State.clearing_unclaimed hy q hq
  rw [this] at hb
  cases hb

/-- What LIST_CLEAR lets go, entry by entry. -/
theorem State.clearList_lets (hl : ((s.station st).list.map Entry.id).Nodup) :
    Lets st ((s.station st).waitingList.flatMap Entry.serving) (s.clearing st)
      (forEach (s.station st).waitingList (fun e acc => acc.dropEntry st e) (s.clearing st)) :=
  Lets.dropEntries ((List.filter_sublist.map Entry.id).nodup hl) (fun y hy => by
    rw [State.clearing_station]
    exact find?_of_mem hl (List.mem_filter.mp hy).1) fun _ hy => State.clearing_unclaimed hy

theorem State.dropEntries_keep (l : List Entry) :
    Moved true true s (forEach l (fun e acc => acc.dropEntry st e) s) ∧
    (forEach l (fun e acc => acc.dropEntry st e) s).marks = s.marks ∧
    ((s.station st).Unplanned → ((forEach l (fun e acc => acc.dropEntry st e) s).station st).Unplanned) := by
  unfold forEach
  induction l generalizing s with
  | nil => exact ⟨.refl s, rfl, id⟩
  | cons e l ih =>
    obtain ⟨h1, h2, h3⟩ := ih (s := s.dropEntry st e)
    exact ⟨Moved.dropEntry.trans h1, h2.trans State.dropEntry_marks, fun h => h3 (State.dropEntry_unplanned h)⟩

end Leave

end Sys2Proof.Machine
end

section
/-!
PROOFS. The statement about ENTRY_REMOVE and LIST_CLEAR.
-/

namespace Sys2Proof
open Machine

/-- Settles O22: the refusal, the removal of one entry, and the list cleared. -/
theorem entriesLeave : Obligations.EntriesLeave := by
  unfold Obligations.EntriesLeave
  intro s r st hs hl hst
  have hw : s.working.ListsKept := hl
  refine ⟨fun e hp he hfix => ?_, fun e t ht hp he hstate hcom => ?_, fun t ht hp => ?_⟩
  · have hid := Station.find_id he
    refine exec_request_same hs rfl (?_ : handleEntryRemove r s.working = _)
    rw [handleEntryRemove, stationRequest_pass hp hst]
    have he' : (s.working.station st).find (field r.payload 0 2) = some e := he
    have hf' : (s.working.station st).fixedEntry e = true := Station.fixedEntry_of hfix
    simp only [he', hf', if_true]
    rfl
  · have hid := Station.find_id he
    rw [← hid] at he
    have hmem := List.mem_of_find?_eq_some he
    have hn : e.notStarted = true := by
      unfold Entry.notStarted
      rcases hstate with h | h <;> rw [h] <;> rfl
    have hcur : s.working.current st e = e := by
      have he' : (s.working.station st).find e.id = some e := he
      rw [State.current, he']
      rfl
    have hmoved : Moved true true s.working (s.working.dropEntry st e) := Moved.dropEntry
    have hframes : t.frames st = ((s.station st).list.filter fun y => y.id != e.id).map Entry.frame := by
      rw [ht]
      exact State.dropEntry_frames (s := s.working)
    have hothers : ∀ u : StationId, u ≠ st → t.frames u = s.frames u := fun u hu => by
      rw [ht]
      exact (Drops.dropEntry (s := s.working) (st := st) (e := e)).others u hu
    have hcount := State.notStarted_dropped (t := t) (hl.nodup st) hmem hn hframes
    obtain ⟨hhouse, hmedia, hqueue, href, hla, hlb⟩ := Fixed.fields hmoved.fixed
    obtain ⟨hunc, hlet, hidle, hspare⟩ := State.dropEntry_letGo hcur
    refine ⟨?_, hframes, hothers, ?_, fun d hd hst' => ⟨?_, fun hall => ?_⟩, ?_, fun d hd hv => ?_, ?_, ?_, ?_, ?_, ?_, ?_, ?_⟩
    · rw [← hcount]
      refine exec_request_taken hs rfl (?_ : handleEntryRemove r s.working = _)
      rw [handleEntryRemove, stationRequest_pass hp hst]
      have he' : (s.working.station st).find (field r.payload 0 2) = some e := by rw [← hid]; exact he
      have hf' : (s.working.station st).fixedEntry e = false := Station.fixedEntry_free hstate hcom
      simp only [he', hf', Bool.false_eq_true, if_false, ht]
      rfl
    · rw [ht]
      exact hunc
    · rw [ht]
      exact hlet d hd
    · rw [ht]
      exact hidle hall d hd (by rw [show (s.working.deck d).station = some st from hst']; rfl)
    · rw [ht]
      exact State.takesGone_none _ _ _ _ List.mem_cons_self
    · rw [ht]
      exact hspare d hd fun hm => hv _ hm rfl
    · rw [ht]
      exact hmoved.beds
    · rw [ht]; exact hmedia
    · rw [ht]; exact hhouse
    · rw [ht]; exact hqueue
    · rw [ht]; exact href
    · rw [ht]; exact hla
    · rw [ht]; exact hlb
  · obtain ⟨hmoved, hmarks, hplan⟩ := State.dropEntries_keep (s := s.working.clearing st) (st := st)
      (s.working.station st).waitingList
    have hlets := State.clearList_lets (s := s.working) (hl.nodup st)
    have hdrops := Drops.forEach (s := s.working.clearing st) (st := st) (xs := (s.working.station st).waitingList)
      (f := fun e acc => acc.dropEntry st e) fun e t => Drops.dropEntry
    have hcl := State.clearing_station (s := s.working) (st := st)
    have hclf (u : StationId) : (s.working.clearing st).frames u = s.frames u := by
      by_cases hu : u = st
      · subst hu
        rw [State.frames, hcl]
        rfl
      · rw [State.frames, State.clearing, State.withdraw, State.modStation_station_ne _ _ (Ne.symm hu),
          State.modStation_station_ne _ _ (Ne.symm hu)]
        rfl
    have hdeck (d : DeckId) : (s.working.clearing st).deck d = s.deck d := rfl
    rw [State.clearList_eq] at ht
    have hfst : s.deferred.map Prod.fst = t.deferred.map Prod.fst := by
      rw [ht, State.takesGone_fst]
      exact congrArg (List.map Prod.fst) (congrArg Fixed.deferred hmoved.fixed :).symm
    have hnone : ∀ e ∈ (s.station st).waitingList, (st, Deferred.take e.id) ∉ t.deferred := fun e he => by
      rw [ht]
      exact State.takesGone_none _ _ _ _ he
    have hexec : exec (.listClear r) s = .next (t.replied 0x24 r 0x00 (toBytes 1 (s.station st).notStarted)) := by
      refine exec_request_taken hs rfl (?_ : handleListClear r s.working = _)
      rw [handleListClear, stationRequest_pass (by rw [hp]; rfl) hst, ht]
      rfl
    have htst : t.stations = (forEach (s.working.station st).waitingList (fun e acc => acc.dropEntry st e)
        (s.working.clearing st)).stations := by rw [ht]; rfl
    have htdk : t.decks = (forEach (s.working.station st).waitingList (fun e acc => acc.dropEntry st e)
        (s.working.clearing st)).decks := by rw [ht]; rfl
    have htcond : t.conds = (forEach (s.working.station st).waitingList (fun e acc => acc.dropEntry st e)
        (s.working.clearing st)).conds := by rw [ht]; rfl
    have htrest : t.beds = s.beds ∧ t.media = s.media ∧ t.house = s.house ∧ t.queue = s.queue ∧ t.ref = s.ref ∧
        t.linkA = s.linkA ∧ t.linkB = s.linkB := by
      obtain ⟨hhouse, hmedia, hqueue, href, hla, hlb⟩ := Fixed.fields hmoved.fixed
      rw [ht]
      exact ⟨hmoved.beds, hmedia, hhouse, hqueue, href, hla, hlb⟩
    clear ht
    generalize forEach (s.working.station st).waitingList (fun e acc => acc.dropEntry st e) (s.working.clearing st) = w at *
    obtain ⟨htake, hpre, hdue⟩ := hplan (by rw [hcl]; exact ⟨rfl, rfl, rfl⟩)
    have hserving {e : Entry} {d : DeckId} (he : e ∈ (s.station st).waitingList) (hd : Served.deck d ∈ e.serving) :
        Served.deck d ∈ (s.working.station st).waitingList.flatMap Entry.serving := List.mem_flatMap.mpr ⟨e, he, hd⟩
    have hst' (u : StationId) : t.station u = w.station u := State.station_congr htst u
    have hdk' (d : DeckId) : t.deck d = w.deck d := State.deck_congr htdk d
    refine ⟨hexec, ?_, ?_, ?_, ?_, ?_, fun u hu => ?_, fun e he => ⟨?_, hnone e he, fun d hd hds => ⟨?_, fun hall => ?_⟩⟩,
      fun d hd hv => ?_, hfst, htrest⟩
    · rw [hst']
      refine hdrops.own.trans ?_
      rw [hclf st]
      exact frames_kept (hl.nodup st) Entry.notStarted
    · rw [hst']; exact htake
    · rw [hst']; exact hpre
    · rw [hst']; exact hdue
    · rw [State.cond_congr htcond]
      exact congrFun (congrArg Prod.snd hmarks) st
    · rw [hst']
      exact (hdrops.others u hu).trans (hclf u)
    · rw [hst']
      exact (hlets.unclaimed e.id (State.clearing_unclaimed he)).1
    · rw [hdk']
      exact (hlets.unclaimed e.id (State.clearing_unclaimed he)).2 d (.inl (hserving he hd))
    · rw [hdk']
      exact (hlets.unasked (State.clearing_unasked hall)).2.1 d (.inl ⟨hserving he hd, by rw [hdeck, hds]; rfl⟩)
    · rw [hdk']
      refine (hlets.spared d hd fun hm => ?_).trans (hdeck d)
      obtain ⟨e, he, hme⟩ := List.mem_flatMap.mp hm
      exact hv e he _ hme rfl

end Sys2Proof
end

section
/-!
PROOFS. The reclaim walk of an ITEM_OPEN (R11, R12) where no station waits for a deck and no bed player minds a
directory change, and the lowest empty slot (R3).
-/

namespace Sys2Proof.Machine

/-! ## The lowest empty slot -/

/-- Below the lowest empty slot every slot has its entry (R3). -/
theorem below_lowestEmpty {dir : List DirEntry} {k n : Nat} (hk : k ≤ n) (hn : n < lowestEmpty dir k) :
    ∃ e ∈ dir, e.slot = n := by
  induction dir generalizing k with
  | nil => exact absurd hn (Nat.not_lt.mpr hk)
  | cons x xs ih =>
    rw [lowestEmpty] at hn
    split at hn
    next hx =>
      rcases Nat.eq_or_lt_of_le hk with rfl | hlt
      · exact ⟨x, List.mem_cons_self, hx⟩
      · obtain ⟨e, he, hs⟩ := ih hlt hn
        exact ⟨e, List.mem_cons_of_mem _ he, hs⟩
    next => exact absurd hn (Nat.not_lt.mpr hk)

theorem State.entryAt_eq_none {s : State} {k : Nat} : s.entryAt k = none ↔ ∀ e ∈ s.dir, e.slot ≠ k := by
  simp [State.entryAt]

/-- With a slot empty, the lowest one is within the directory, empty, and every slot below it is taken (R3). -/
theorem State.DirectoryKept.lowestEmpty {s : State} (h : s.DirectoryKept) (hl : s.dir.length < 4096) :
    lowestEmpty s.dir 0 < 4096 ∧ s.entryAt (lowestEmpty s.dir 0) = none ∧
      ∀ n : Nat, n < Machine.lowestEmpty s.dir 0 → s.entryAt n ≠ none := by
  obtain ⟨hfree, _, hle⟩ := lowestEmpty_spec (k := 0) h.1 fun _ _ => Nat.zero_le _
  refine ⟨by omega, State.entryAt_eq_none.mpr fun e he hs => hfree (hs ▸ List.mem_map_of_mem he), fun n hn hnone => ?_⟩
  obtain ⟨e, he, hs⟩ := below_lowestEmpty (Nat.zero_le n) hn
  exact State.entryAt_eq_none.mp hnone e he hs

/-! ## A directory change that concerns nobody -/

theorem State.NoneConcerned.bedCheck {s : State} (h : s.NoneConcerned) (st : StationId) : s.bedCheck st = s := by
  have hsound := (h st).2
  have hidle : ¬((s.bed st).player.state = .bound ∨ (s.bed st).player.state = .primed) := by
    rcases hsound with hs | ⟨hf, _⟩
    · intro hb
      rcases hb with hb | hb <;> simp [Player.sounds, hb] at hs
    · rw [hf]; decide
  have hbind : s.bedTryBind st = s := by
    unfold State.bedTryBind
    split
    next hf =>
      rcases hsound with hs | ⟨_, hc⟩
      · simp [Player.sounds, hf.1] at hs
      · have hn : s.fallbackEntry st = none := by unfold State.fallbackEntry; rw [hc]
        rw [hn]
    next => rfl
  unfold State.bedCheck
  simp only
  rw [if_neg fun hb => hidle hb.1, hbind]

/-- A change of no more than that stations owe a re-evaluation. -/
structure State.OnlyOwes (s t : State) : Prop where
  dir : t.dir = s.dir
  freeBlocks : t.freeBlocks = s.freeBlocks
  reclaim : t.reclaim = s.reclaim
  concerned : s.NoneConcerned → t.NoneConcerned

theorem State.OnlyOwes.markDirty {s : State} {st : StationId} : s.OnlyOwes (s.markDirty st) where
  dir := rfl
  freeBlocks := rfl
  reclaim := rfl
  concerned h u := by
    have hbed : (s.markDirty st).bed u = s.bed u := rfl
    rw [hbed]
    by_cases hu : st = u
    · subst hu
      rw [State.markDirty, State.modStation_station]
      exact h st
    · rw [State.markDirty, State.modStation_station_ne _ _ hu]
      exact h u

theorem State.OnlyOwes.forEach {xs : List StationId} {s : State} :
    s.OnlyOwes (forEach xs (fun st acc => acc.markDirty st) s) := by
  induction xs generalizing s with
  | nil => exact ⟨rfl, rfl, rfl, id⟩
  | cons x xs ih =>
    obtain ⟨hd, hf, hr, hc⟩ := State.OnlyOwes.markDirty (s := s) (st := x)
    obtain ⟨hd', hf', hr', hc'⟩ := ih (s := s.markDirty x)
    exact ⟨hd'.trans hd, hf'.trans hf, hr'.trans hr, hc' ∘ hc⟩

/-- An announcement that concerns nobody has every station owe a re-evaluation, and no more (R8). -/
theorem State.NoneConcerned.announce {s : State} (h : s.NoneConcerned) : s.OnlyOwes s.announce := by
  have hdead : ∀ st : StationId, s.deadOf st = [] := fun st => by
    unfold State.deadOf; rw [(h st).1]; rfl
  have hmark := State.OnlyOwes.forEach (xs := allStations) (s := s)
  unfold State.announce
  simp only
  rw [forEach_stays (f := fun st acc => Machine.forEach (acc.deadOf st) (fun r a => a.deadRequest st r) acc)
      fun st _ => by rw [hdead]; rfl,
    forEach_stays fun st _ => (hmark.concerned h).bedCheck st]
  exact hmark

/-! ## Evictions -/

/-- The blocks that the entries of the slots given hold. -/
def blocksAt (dir : List DirEntry) (gone : List Nat) : Nat :=
  ((dir.filter fun e => gone.contains e.slot).map fun e => runsTotal e.blocks).sum

/-- In a directory without double slots, one slot's blocks and those of further slots in what is left make up the
blocks of them all. -/
theorem blocksAt_cons {dir : List DirEntry} (hd : (dir.map DirEntry.slot).Pairwise (· < ·)) {x : DirEntry} (hx : x ∈ dir)
    (ks : List Nat) :
    blocksAt dir (x.slot :: ks) = runsTotal x.blocks + blocksAt (dir.filter fun e => e.slot != x.slot) ks := by
  induction dir with
  | nil => cases hx
  | cons y ys ih =>
    rw [List.map_cons, List.pairwise_cons] at hd
    obtain ⟨hy, hys⟩ := hd
    by_cases hyx : y.slot = x.slot
    · have heq : y = x := by
        rcases List.mem_cons.mp hx with rfl | hm
        · rfl
        · exact absurd hyx (Nat.ne_of_lt (hy _ (List.mem_map_of_mem hm)))
      subst heq
      have hrest : ∀ e ∈ ys, e.slot ≠ y.slot := fun e he => (Nat.ne_of_lt (hy _ (List.mem_map_of_mem he))).symm
      have hstay : ys.filter (fun e => e.slot != y.slot) = ys :=
        List.filter_eq_self.mpr fun e he => bne_iff_ne.mpr (hrest e he)
      have hsame : ys.filter (fun e => (y.slot :: ks).contains e.slot) = ys.filter fun e => ks.contains e.slot :=
        List.filter_congr fun e he => by simp [hrest e he]
      rw [blocksAt, blocksAt, List.filter_cons_of_pos (by simp), List.filter_cons_of_neg (by simp), hstay, hsame,
        List.map_cons, List.sum_cons]
    · have hm : x ∈ ys := (List.mem_cons.mp hx).resolve_left fun h => hyx (h ▸ rfl)
      have ih := ih hys hm
      unfold blocksAt at ih ⊢
      rw [List.filter_cons_of_pos (p := fun e : DirEntry => e.slot != x.slot) (bne_iff_ne.mpr hyx)]
      by_cases hk : y.slot ∈ ks
      · rw [List.filter_cons_of_pos (by simp [hk]), List.filter_cons_of_pos (by simp [hk]), List.map_cons,
          List.sum_cons, List.map_cons, List.sum_cons, ih]
        omega
      · rw [List.filter_cons_of_neg (by simp [hk, hyx]), List.filter_cons_of_neg (by simp [hk]), ih]

/-- What the evictions of the slots given, in this order, make of the directory, the free list and the reclaim pointer. -/
structure State.Evicted (gone : List Nat) (s t : State) : Prop where
  dir : t.dir = s.dir.filter fun e => !gone.contains e.slot
  free : runsTotal t.freeBlocks = runsTotal s.freeBlocks + blocksAt s.dir gone
  length : t.dir.length + gone.length = s.dir.length
  reclaim : t.reclaim = (gone.getLast?.map fun k => (k + 1) % Config.slotCount).getD s.reclaim
  concerned : t.NoneConcerned

theorem State.Evicted.none {s : State} (h : s.NoneConcerned) : s.Evicted [] s where
  dir := by simp
  free := by simp [blocksAt]
  length := rfl
  reclaim := rfl
  concerned := h

theorem State.entryAt_of_mem {s : State} (hd : (s.dir.map DirEntry.slot).Pairwise (· < ·)) {x : DirEntry}
    (hx : x ∈ s.dir) : s.entryAt x.slot = some x := by
  have hnd : (s.dir.map DirEntry.slot).Nodup := hd.imp Nat.ne_of_lt
  cases hy : s.entryAt x.slot with
  | none => exact absurd rfl (State.entryAt_eq_none.mp hy x hx)
  | some y => rw [List.inj_on_of_nodup_map hnd (List.mem_of_find?_eq_some hy) hx (State.entryAt_slot hy)]

theorem State.removeDir_of_mem {s : State} (hd : (s.dir.map DirEntry.slot).Pairwise (· < ·)) {x : DirEntry}
    (hx : x ∈ s.dir) :
    s.removeDir x.slot = { s with dir := s.dir.filter fun e => e.slot != x.slot, freeBlocks := x.blocks ++ s.freeBlocks } := by
  have hat : s.entryAt x.slot = some x := State.entryAt_of_mem hd hx
  unfold State.removeDir
  rw [hat]

/-- One eviction of an entry (R12). -/
theorem State.Evicted.one {s : State} (h : s.NoneConcerned) (hd : (s.dir.map DirEntry.slot).Pairwise (· < ·))
    {x : DirEntry} (hx : x ∈ s.dir) :
    (s.evict x.slot).dir = s.dir.filter (fun e => e.slot != x.slot) ∧
      runsTotal (s.evict x.slot).freeBlocks = runsTotal s.freeBlocks + runsTotal x.blocks ∧
      (s.evict x.slot).reclaim = (x.slot + 1) % Config.slotCount ∧ (s.evict x.slot).NoneConcerned := by
  unfold State.evict
  generalize hu : ({ s.removeDir x.slot with reclaim := (x.slot + 1) % Config.slotCount } : State) = u
  have hrem := State.removeDir_of_mem hd hx
  have hudir : u.dir = s.dir.filter fun e => e.slot != x.slot := by rw [← hu, hrem]
  have hufree : u.freeBlocks = x.blocks ++ s.freeBlocks := by rw [← hu, hrem]
  have hurec : u.reclaim = (x.slot + 1) % Config.slotCount := by rw [← hu]
  have hucon : u.NoneConcerned := by rw [← hu, hrem]; exact h
  obtain ⟨hdir, hfree, hreclaim, hcon⟩ := hucon.announce
  refine ⟨hdir.trans hudir, ?_, hreclaim.trans hurec, hcon hucon⟩
  rw [hfree, hufree, runsTotal, List.map_append, List.sum_append, Nat.add_comm]
  rfl

/-- In a directory without double slots, what leaves one slot takes one entry. -/
theorem length_filter_slot {dir : List DirEntry} (hd : (dir.map DirEntry.slot).Pairwise (· < ·)) {x : DirEntry}
    (hx : x ∈ dir) : (dir.filter fun e => e.slot != x.slot).length + 1 = dir.length := by
  have hnd : (dir.map DirEntry.slot).Nodup := hd.imp Nat.ne_of_lt
  have hfil : dir.filter (fun e => e.slot != x.slot) = dir.erase x := by
    rw [(hnd.of_map _).erase_eq_filter]
    refine List.filter_congr fun e he => ?_
    by_cases hex : e = x
    · simp [hex]
    · rw [bne_iff_ne.mpr hex, bne_iff_ne.mpr fun hs => hex (List.inj_on_of_nodup_map hnd he hx hs)]
  rw [hfil, List.length_erase_of_mem hx]
  have := List.length_pos_of_mem hx
  omega

/-- One eviction, and the evictions behind it (R12). -/
theorem State.Evicted.cons {s t : State} (h : s.NoneConcerned) (hd : (s.dir.map DirEntry.slot).Pairwise (· < ·))
    {x : DirEntry} (hx : x ∈ s.dir) {ks : List Nat} (hrest : (s.evict x.slot).Evicted ks t) :
    s.Evicted (x.slot :: ks) t := by
  obtain ⟨hdir, hfree, hreclaim, hcon⟩ := State.Evicted.one h hd hx
  have hlen := length_filter_slot hd hx
  refine ⟨?_, ?_, ?_, ?_, hrest.concerned⟩
  · rw [hrest.dir, hdir, List.filter_filter]
    refine List.filter_congr fun e _ => ?_
    by_cases he : e.slot = x.slot <;> simp [he]
  · rw [hrest.free, hfree, hdir, blocksAt_cons hd hx, Nat.add_assoc]
  · have := hrest.length
    rw [hdir] at this
    rw [List.length_cons]
    omega
  · rw [hrest.reclaim, hreclaim]
    cases ks with
    | nil => rfl
    | cons k ks => rw [List.getLast?_cons_cons, List.getLast?_cons]; rfl

/-- The walk evicts from the front of its order, stops as soon as the need is met, and not before (R12). -/
theorem reclaimWalk_evicted {need : Nat} {ks : List Nat} {s : State} (h : s.NoneConcerned)
    (hd : (s.dir.map DirEntry.slot).Pairwise (· < ·)) (hks : ks.Nodup) (hin : ∀ k ∈ ks, ∃ e ∈ s.dir, e.slot = k) :
    ∃ n : Nat, n ≤ ks.length ∧ s.Evicted (ks.take n) (reclaimWalk need ks s) ∧
      (n = ks.length ∨ need ≤ (reclaimWalk need ks s).freeCount) ∧
      ∀ m : Nat, m < n → ∃ u : State, s.Evicted (ks.take m) u ∧ ¬(need ≤ u.freeCount ∧ u.slotFree = true) := by
  induction ks generalizing s with
  | nil => exact ⟨0, le_refl 0, .none h, .inl rfl, fun m hm => absurd hm (Nat.not_lt_zero m)⟩
  | cons k ks ih =>
    rw [reclaimWalk]
    split
    next hmet => exact ⟨0, Nat.zero_le _, .none h, .inr hmet.1, fun m hm => absurd hm (Nat.not_lt_zero m)⟩
    next hgo =>
      obtain ⟨x, hx, rfl⟩ := hin k List.mem_cons_self
      obtain ⟨hdir, _, _, hcon⟩ := State.Evicted.one h hd hx
      have hd' : ((s.evict x.slot).dir.map DirEntry.slot).Pairwise (· < ·) := by
        rw [hdir]; exact hd.sublist (List.filter_sublist.map _)
      have hin' : ∀ k ∈ ks, ∃ e ∈ (s.evict x.slot).dir, e.slot = k := fun k hk => by
        obtain ⟨e, he, rfl⟩ := hin k (List.mem_cons_of_mem _ hk)
        refine ⟨e, hdir ▸ List.mem_filter.mpr ⟨he, bne_iff_ne.mpr fun hs => ?_⟩, rfl⟩
        exact (List.nodup_cons.mp hks).1 (hs ▸ hk)
      obtain ⟨n, hn, hev, hstop, hbefore⟩ := ih hcon hd' (List.nodup_cons.mp hks).2 hin'
      refine ⟨n + 1, Nat.succ_le_succ hn, .cons h hd hx hev, hstop.imp (congrArg Nat.succ) id, fun m hm => ?_⟩
      cases m with
      | zero => exact ⟨s, .none h, hgo⟩
      | succ m =>
        obtain ⟨u, hu, hno⟩ := hbefore m (Nat.lt_of_succ_lt_succ hm)
        exact ⟨u, .cons h hd hx hu, hno⟩

/-! ## The order of the walk -/

theorem State.walkOrder_perm {s : State} : s.walkOrder.Perm (s.reclaimable.map DirEntry.slot) := by
  unfold State.walkOrder
  simp only
  have hneg : (fun k => decide (k < s.reclaim)) = fun k => !decide (s.reclaim ≤ k) :=
    funext fun k => by rw [← decide_not, decide_eq_decide, Nat.not_le]
  rw [hneg]
  exact List.filter_append_perm _ _

theorem State.walkOrder_nodup {s : State} (hd : (s.dir.map DirEntry.slot).Pairwise (· < ·)) : s.walkOrder.Nodup :=
  State.walkOrder_perm.nodup_iff.mpr
    ((hd.imp Nat.ne_of_lt : (s.dir.map DirEntry.slot).Nodup).sublist (List.filter_sublist.map _))

/-- The slots of the walk hold the blocks of the candidates (R11). -/
theorem State.blocksAt_walkOrder {s : State} (hd : (s.dir.map DirEntry.slot).Pairwise (· < ·)) :
    blocksAt s.dir s.walkOrder = s.reclaimBlocks := by
  have hnd : (s.dir.map DirEntry.slot).Nodup := hd.imp Nat.ne_of_lt
  unfold blocksAt State.reclaimBlocks State.reclaimable
  refine congrArg (fun l : List DirEntry => (l.map fun e => runsTotal e.blocks).sum) (List.filter_congr fun e he => ?_)
  rw [Bool.eq_iff_iff, List.contains_iff_mem, State.walkOrder_perm.mem_iff, List.mem_map]
  constructor
  · rintro ⟨x, hx, hs⟩
    obtain ⟨hxd, hc⟩ := List.mem_filter.mp hx
    rwa [List.inj_on_of_nodup_map hnd hxd he hs] at hc
  · exact fun hc => ⟨e, List.mem_filter.mpr ⟨he, hc⟩, rfl⟩

end Sys2Proof.Machine
end

section
/-!
PROOFS. The statement about ITEM_OPEN (R10 to R12).
-/

namespace Sys2Proof.Machine

/-- An ITEM_OPEN in range without a rival comes to the question of blocks and slots (R10, R11). -/
theorem handleItemOpen_inRange {s : State} {r : Req} {owner : Option StationId} {f : OpenForm}
    (hl : r.payload.length = 35) (ho : ownerOf r.station = some owner) (hf : f = openForm r.payload)
    (hr : f.inRange = true) (hk : s.keyed f.cart owner (· != .dropping) = none) :
    handleItemOpen r s =
      if blocksFor f.length ≤ s.freeCount ∧ s.slotFree then f.create s owner
      else if s.slotFree = false ∧ s.reclaimable = [] then refuse s rDIR_FULL
      else if s.reclaimBlocks < blocksFor f.length - s.freeCount then refuse s rSTORE_FULL
      else f.create (reclaimWalk (blocksFor f.length) s.walkOrder s) owner := by
  subst hf
  unfold handleItemOpen
  rw [if_neg (not_not.mpr hl), ho]
  simp only
  rw [hr, hk, if_neg (by decide), if_neg (by decide)]

theorem OpenForm.inRange_codes {f : OpenForm} (h : f.inRange = true) :
    ∃ (c : Category) (k : Retention), f.category = some c ∧ f.retention = some k := by
  simp only [OpenForm.inRange, Bool.and_eq_true] at h
  obtain ⟨⟨⟨⟨_, hc⟩, hk⟩, _⟩, _⟩ := h
  obtain ⟨c, hc⟩ := Option.isSome_iff_exists.mp hc
  obtain ⟨k, hk⟩ := Option.isSome_iff_exists.mp hk
  exact ⟨c, k, hc, hk⟩

/-- The state an ITEM_OPEN's creation leaves (R3, R10). -/
def OpenForm.created (f : OpenForm) (s : State) (owner : Option StationId) (c : Category) (k : Retention) : State :=
  { s with
    dir := insertDir
      { slot := lowestEmpty s.dir 0, cart := f.cart, owner := owner, category := c, retention := k, state := .loading,
        length := f.length, trimIn := f.trimIn, segue := f.segue, trimOut := f.trimOut, loop := f.loop,
        level := f.level, blocks := (takeBlocks (blocksFor f.length) s.freeBlocks).1, received := 0, bindings := 0,
        serial := s.opens } s.dir
    freeBlocks := (takeBlocks (blocksFor f.length) s.freeBlocks).2
    opens := s.opens + 1 }

theorem OpenForm.create_eq {f : OpenForm} {s : State} {owner : Option StationId} {c : Category} {k : Retention}
    (hc : f.category = some c) (hk : f.retention = some k) :
    f.create s owner = (f.created s owner c k, .reply rOK
      (toBytes 2 (lowestEmpty s.dir 0) ++ toBytes 2 (blocksFor f.length) ++ toBytes 2 f.level)) := by
  unfold OpenForm.create OpenForm.created OpenForm.entry answerOk
  simp only [hc, hk, Option.getD_some]

theorem State.slotFree_iff {s : State} : s.slotFree = true ↔ s.dir.length < 4096 := decide_eq_true_iff

theorem State.reclaimable_eq_nil {s : State} : s.reclaimable = [] ↔ ∀ e ∈ s.dir, e.isCandidate = false := by
  rw [State.reclaimable, List.filter_eq_nil_iff]
  simp

/-- With a slot empty or a candidate there, DIR_FULL does not arise (R11). -/
theorem State.slotFree_or_reclaimable {s : State} (h : s.dir.length < 4096 ∨ ∃ e ∈ s.dir, e.isCandidate = true) :
    ¬(s.slotFree = false ∧ s.reclaimable = []) := fun ⟨hfull, hnone⟩ => by
  rcases h with hl | ⟨e, he, hcan⟩
  · rw [State.slotFree_iff.mpr hl] at hfull; cases hfull
  · rw [State.reclaimable_eq_nil.mp hnone e he] at hcan; cases hcan

/-- The evictions that an ITEM_OPEN makes meet its need, in the walk's order and with none too many (R12). -/
theorem reclaimWalk_meets {s : State} {need : Nat} (hc : s.NoneConcerned) (hd : s.DirectoryKept)
    (hcand : s.dir.length < 4096 ∨ ∃ e ∈ s.dir, e.isCandidate = true)
    (hneed : need ≤ runsTotal s.freeBlocks + s.reclaimBlocks) {w : State} (hw : w = reclaimWalk need s.walkOrder s) :
    ∃ (n : Nat) (gone : List Nat), n ≤ s.walkOrder.length ∧ gone = s.walkOrder.take n ∧
      w.dir = s.dir.filter (fun e => !gone.contains e.slot) ∧
      runsTotal w.freeBlocks = runsTotal s.freeBlocks +
        ((s.dir.filter fun e => gone.contains e.slot).map fun e => runsTotal e.blocks).sum ∧
      need ≤ runsTotal w.freeBlocks ∧ w.dir.length < 4096 ∧
      (∀ k : Nat, gone.getLast? = some k → w.reclaim = (k + 1) % 4096) ∧
      ∀ m : Nat, m < n → runsTotal s.freeBlocks +
          ((s.dir.filter fun e => (s.walkOrder.take m).contains e.slot).map fun e => runsTotal e.blocks).sum < need ∨
        4096 ≤ s.dir.length - m := by
  obtain ⟨n, hn, hev, hstop, hbefore⟩ :=
    reclaimWalk_evicted (need := need) hc hd.1 (State.walkOrder_nodup hd.1) fun k hk => walkOrder_mem hk
  have hslot : w.slotFree = true := hw ▸ reclaimWalk_slotFree hd (State.slotFree_or_reclaimable hcand)
  rw [← hw] at hev hstop
  refine ⟨n, _, hn, rfl, hev.dir, hev.free, ?_, State.slotFree_iff.mp hslot, fun k hk => ?_, fun m hm => ?_⟩
  · rcases hstop with hall | hmet
    · rw [hev.free, hall, List.take_length, State.blocksAt_walkOrder hd.1]
      exact hneed
    · exact hmet
  · rw [hev.reclaim, hk]; rfl
  · obtain ⟨u, hu, hno⟩ := hbefore m hm
    have hblocks := hu.free
    have hlen := hu.length
    rw [List.length_take_of_le (hm.le.trans hn)] at hlen
    by_cases hfree : need ≤ u.freeCount
    · refine .inr ?_
      have : ¬u.dir.length < 4096 := fun hl => hno ⟨hfree, State.slotFree_iff.mpr hl⟩
      omega
    · refine .inl ?_
      rw [State.freeCount, hblocks] at hfree
      exact Nat.lt_of_not_le hfree

end Sys2Proof.Machine

namespace Sys2Proof
open Machine

/-- Settles O15: creation, the two refusals and the reclaim walk. -/
theorem itemOpenCreates : Obligations.ItemOpenCreates := by
  unfold Obligations.ItemOpenCreates
  intro s r owner f hs hl ho hf hr hk
  have hgo : handlerFor 0x10 r s.working = _ := handleItemOpen_inRange (s := s.working) hl ho hf hr hk
  have hlacking : runsTotal s.freeBlocks < blocksFor f.length ∨ 4096 ≤ s.dir.length →
      ¬(blocksFor f.length ≤ s.working.freeCount ∧ s.working.slotFree = true) := fun hlack ⟨hfree, hslot⟩ => by
    rcases hlack with hl | hl
    · exact absurd hfree (Nat.not_le_of_lt hl)
    · exact absurd (State.slotFree_iff.mp hslot) (Nat.not_lt.mpr hl)
  refine ⟨fun hfree hslot => ?_, fun hlack => ⟨fun hfull hnone => ?_, fun hcand => ⟨fun hsmall => ?_, fun hneed => ?_⟩⟩⟩
  · obtain ⟨c, k, hc, hk⟩ := OpenForm.inRange_codes hr
    refine ⟨lowestEmpty s.dir 0, c, k, hc, hk, fun hd => hd.lowestEmpty hslot, ?_⟩
    refine exec_request_effect hs (f := fun x => (f.created x owner c k)) rfl (fun _ => rfl) hs.clean (hgo.trans ?_)
    rw [if_pos ⟨hfree, State.slotFree_iff.mpr hslot⟩]
    exact OpenForm.create_eq hc hk
  · have hslot : s.slotFree = false := decide_eq_false (Nat.not_lt.mpr hfull)
    refine exec_request_same hs rfl (hgo.trans ?_)
    rw [if_neg fun h => Bool.noConfusion (hslot.symm.trans h.2), if_pos ⟨hslot, State.reclaimable_eq_nil.mpr hnone⟩]
    rfl
  · have hshort : s.working.reclaimBlocks < blocksFor f.length - s.working.freeCount := Nat.lt_sub_of_add_lt (by
      rw [Nat.add_comm]; exact hsmall)
    refine exec_request_same hs rfl (hgo.trans ?_)
    rw [if_neg (hlacking hlack), if_neg (State.slotFree_or_reclaimable (s := s.working) hcand), if_pos hshort]
    rfl
  · have henough : ¬s.working.reclaimBlocks < blocksFor f.length - s.working.freeCount := fun h => by
      have := Nat.add_lt_of_lt_sub h
      exact absurd hneed (Nat.not_le_of_lt (by rw [Nat.add_comm]; exact this))
    refine ⟨_, rfl, ?_, fun hc hd => reclaimWalk_meets (s := s.working) hc hd hcand hneed rfl⟩
    refine exec_request_taken hs rfl (hgo.trans ?_)
    rw [if_neg (hlacking hlack), if_neg (State.slotFree_or_reclaimable (s := s.working) hcand), if_neg henough]
    rfl

end Sys2Proof
end

section
/-!
PROOFS. What an edge of the reference leaves of a link whose loss timer does not run out with the period, and of the
conditions that stand.
-/

namespace Sys2Proof.Machine

/-! ## Device conditions that stay -/

/-- The device conditions pending in `s` are pending in `t`. -/
def State.Reports (s t : State) : Prop :=
  ∀ m : Byte, (s.cond deviceSet).pending &&& m = m → (t.cond deviceSet).pending &&& m = m

theorem State.Reports.of_cond {s t : State} (h : t.cond deviceSet = s.cond deviceSet) : s.Reports t := fun m hm => by
  rw [h]; exact hm

theorem State.Reports.of_conds {s t : State} (h : t.conds = s.conds) : s.Reports t := .of_cond (State.cond_congr h _)

theorem State.Reports.trans {s t u : State} (h : s.Reports t) (k : t.Reports u) : s.Reports u := fun m hm => k m (h m hm)

theorem State.Reports.raiseDevice (s : State) (c : DeviceCond) : s.Reports (s.raiseDevice c) := fun m hm => by
  rw [State.cond_raiseDevice]
  ext i hi
  have hbit := congrArg (fun x : Byte => x.getLsbD i) hm
  simp only [CondSet.raise, BitVec.getElem_and, BitVec.getElem_or, BitVec.getLsbD_eq_getElem hi] at hbit ⊢
  revert hbit
  cases (s.cond deviceSet).pending[i] <;> cases c.mask[i] <;> cases m[i] <;> decide

theorem State.Reports.addRecord (s : State) (r : Record) : s.Reports (s.addRecord r) := by
  unfold State.addRecord
  simp only
  split
  · refine State.Reports.trans ?_ (.raiseDevice _ _)
    exact .of_conds rfl
  · split
    · refine State.Reports.trans ?_ (.raiseDevice _ _)
      exact .of_conds rfl
    · exact .of_conds rfl

theorem State.Reports.logWhile (s : State) (p : Option Nat × Record → Bool) : s.Reports (s.logWhile p) := by
  have hall (l : List (Option Nat × Record)) (s : State) : s.Reports (forEach l (fun x acc => acc.addRecord x.2) s) := by
    unfold forEach
    induction l generalizing s with
    | nil => exact .of_conds rfl
    | cons x l ih => exact (State.Reports.addRecord s x.2).trans (ih _)
  exact State.Reports.trans (t := { s with recordsHeld := s.recordsHeld.dropWhile p }) (.of_conds rfl) (hall _ _)

theorem State.Reports.raiseStation (s : State) (st : StationId) (c : StationCond) : s.Reports (s.raiseStation st c) :=
  .of_cond (s.raiseBits_cond_ne _ (stationSet_ne_deviceSet st))

theorem Pooled.reports {s t : State} (h : Pooled s t) : s.Reports t := by
  induction h with
  | trans _ _ h k => exact h.trans k
  | fault s st c id cart t =>
    unfold State.reportFault
    split
    · refine State.Reports.trans ?_ (.raiseStation _ _ _)
      exact .of_conds rfl
    · exact .of_conds rfl
  | gap s st => exact .raiseStation s st _
  | release s =>
    unfold State.release
    split
    · exact .of_conds rfl
    · exact .logWhile s _
  | unbindSlot s k => exact .of_cond (State.cond_congr (s.unbindSlot_frame k).1 _)
  | refl | station | bound | freed | bindSlot | missing => exact .of_conds rfl

theorem Moved.reports {keep shut : Bool} {s t : State} (h : Moved keep shut s t) : s.Reports t := by
  induction h with
  | pool h => exact h.reports
  | trans _ _ h k => exact h.trans k
  | station | deck | bed | breakRecord => exact .of_conds rfl
  | drop s st m => exact .of_cond (State.setCond_cond_ne _ _ (stationSet_ne_deviceSet st))
  | raise s st c => exact .raiseStation s st c
  | record s r =>
    unfold State.record
    split
    · exact .addRecord s r
    · exact .of_conds rfl
  | logHeld s => exact .logWhile s _

/-! ## A boundary ahead of a link's loss -/

/-- A link whose loss timer has not run out at the moment given is left as it is, and so are conditions that stand. -/
structure Heeds (l : LinkId) (now : Nat) (s t : State) : Prop where
  link : (s.link l).losing now = false → t.link l = s.link l
  reports : s.Reports t

namespace Heeds

variable {l : LinkId} {now : Nat} {s t u : State}

theorem refl (s : State) : Heeds l now s s := ⟨fun _ => rfl, .of_conds rfl⟩

theorem trans (h : Heeds l now s t) (k : Heeds l now t u) : Heeds l now s u where
  link hl := (k.link (by rw [h.link hl]; exact hl)).trans (h.link hl)
  reports := h.reports.trans k.reports

theorem ite {b : Prop} [Decidable b] (h : Heeds l now s t) (k : Heeds l now s u) : Heeds l now s (if b then t else u) := by
  split
  · exact h
  · exact k

theorem forEach {α : Type} {xs : List α} {f : α → State → State} (h : ∀ x t, Heeds l now t (f x t)) :
    Heeds l now s (Machine.forEach xs f s) := by
  unfold Machine.forEach
  induction xs generalizing s with
  | nil => exact refl _
  | cons x xs ih => exact (h x s).trans ih

theorem of_links (ha : t.linkA = s.linkA) (hb : t.linkB = s.linkB) (hr : s.Reports t) : Heeds l now s t :=
  ⟨fun _ => State.link_congr ha hb l, hr⟩

theorem of_moved {keep shut : Bool} (h : Moved keep shut s t) : Heeds l now s t :=
  of_links (congrArg Fixed.linkA h.fixed :) (congrArg Fixed.linkB h.fixed :) h.reports

theorem raiseDevice (s : State) (c : DeviceCond) : Heeds l now s (s.raiseDevice c) :=
  ⟨fun _ => State.raiseDevice_link _ _ _, .raiseDevice s c⟩

theorem silenceOrder {st : StationId} : Heeds l now s (s.silenceOrder st) := by
  unfold State.silenceOrder
  simp only
  refine ite (of_links rfl rfl (.of_conds rfl)) (trans ?_ (of_links rfl rfl (.of_conds rfl)))
  exact trans (of_moved (keep := true) (shut := true) (Moved.reportFault.trans Moved.withdrawTake))
    (of_links rfl rfl (.of_conds rfl))

theorem loseIfDue (s : State) (k : LinkId) : Heeds l now s (s.loseIfDue k now) := by
  unfold State.loseIfDue
  split
  next hk =>
    unfold State.loseLink
    refine trans ⟨fun hl => (OnLink.setLink k s _).link_ne ?_, .of_cond ?_⟩ (raiseDevice _ _)
    · rintro rfl
      rw [hl] at hk
      cases hk
    · cases k <;> rfl
  · exact refl s

theorem rxBoundary (s : State) : Heeds l now s s.rxBoundary := by
  unfold State.rxBoundary
  refine ite ?_ (ite (refl s) (of_links rfl rfl (.of_conds rfl)))
  unfold State.discardMessage
  refine trans ?_ (raiseDevice _ .badMessage)
  exact of_links rfl rfl (.of_conds rfl)

theorem closePeriod (s : State) : Heeds l now s (s.closePeriod now) := by
  unfold State.closePeriod
  simp only
  refine trans ?_ (rxBoundary _)
  have hends : Heeds l now s _ := of_moved (State.endsOfPlay_moved true s)
  generalize (State.settlePool _).logHeld = t at hends ⊢
  have h := ((hends.trans (forEach (xs := allStations) fun st x => silenceOrder (s := x) (st := st))).trans
    (loseIfDue _ .a)).trans (loseIfDue _ .b)
  generalize State.loseIfDue _ .b now = u at h ⊢
  refine ite (h.trans ?_) h
  exact of_links rfl rfl (.of_conds rfl)

theorem deferredLoop (n : Nat) (s : State) : Heeds l now s (deferredLoop n s) := by
  induction n generalizing s with
  | zero => exact refl s
  | succ n ih =>
    rw [Machine.deferredLoop]
    split
    · exact refl s
    next st d rest h =>
      have hm : Moved false false { s with deferred := rest } (State.settlePool (State.act { s with deferred := rest } st d)) :=
        Moved.act.trans Moved.settlePool
      exact trans (t := { s with deferred := rest }) (of_links rfl rfl (.of_conds rfl)) ((of_moved hm).trans (ih _))

/-- A boundary leaves a link that is not lost with it (R171). -/
theorem boundary {len : Nat} (ho : s.opening = false) : Heeds l (s.periodStart + len) s (s.boundary len) := by
  unfold State.boundary
  rw [State.settle_atRest ho]
  have hclose := closePeriod (l := l) (now := s.periodStart + len) s
  generalize s.closePeriod (s.periodStart + len) = u at hclose ⊢
  have hopen : Heeds l (s.periodStart + len) u (u.openPeriod (s.periodStart + len)) :=
    of_links rfl rfl (.of_conds rfl)
  generalize u.openPeriod (s.periodStart + len) = v at hopen ⊢
  exact hclose.trans (hopen.trans (deferredLoop _ v))

end Heeds

end Sys2Proof.Machine
end

section
/-!
PROOFS. An edge of the reference as a whole: what it leaves of a link whose loss timer does not run out with it.
-/

namespace Sys2Proof.Machine

/-- The link with its elastic store empty (R174). -/
def AirLink.emptied (k : AirLink) : AirLink :=
  { k with framing := k.framing.map fun f => { f with newPlace := none, sentPlace := none } }

theorem AirLink.emptied_emptied (k : AirLink) : k.emptied.emptied = k.emptied := by
  unfold AirLink.emptied
  rw [Option.map_map]
  rfl

/-- What an edge of the reference leaves: the link but for its store, what only requests and the media port change, the
enable bits and the device conditions that stand. -/
structure Edged (l : LinkId) (s t : State) : Prop where
  link : t.link l = s.link l ∨ t.link l = (s.link l).emptied
  reports : s.Reports t
  media : t.media = s.media
  port : t.port = s.port
  claim : t.claim = s.claim
  queue : t.queue = s.queue
  handler : t.handler = s.handler
  enabled : ∀ i : SetId, (t.cond i).enabled = (s.cond i).enabled

/-- However a bridging period ends, the next period has begun (R148, R157). -/
theorem State.endBridging_next {s : State} (ho : s.opening = false) (b : Bridge) (len : Nat) (missed : Bool) :
    NextPeriod s (s.endBridging b len missed) len := by
  unfold State.endBridging
  simp only
  refine NextPeriod.watch (NextPeriod.raiseDevice ?_ _)
  have h := (State.boundary_next ho len).1
  generalize s.boundary len = u at h ⊢
  split
  · exact h.setRef _
  · exact (h.setRef _).dropStore _

/-- An edge of the target moves the controller alone, or ends the period (R156, R157). -/
theorem State.edgeOfTarget_still {s : State} (ho : s.opening = false) (src : Source) (p : Phase) :
    (∃ r : RefControl, s.edgeOfTarget src p = { s with ref := r }) ∨ (s.edgeOfTarget src p).house = s.house + 1 := by
  unfold State.edgeOfTarget
  simp only
  split
  · exact .inl ⟨_, rfl⟩
  · split
    · refine .inr ?_
      generalize ({ s.ref.judgeEdge (s.periodStart + p) with bridging := _ } : RefControl) = r
      exact (State.endBridging_next (s := { s with ref := r }) ho _ p false).house
    · exact .inl ⟨_, rfl⟩

namespace Edged

variable {l : LinkId} {s t u : State} {len : Nat}

theorem refl (s : State) : Edged l s s := ⟨.inl rfl, .of_conds rfl, rfl, rfl, rfl, rfl, rfl, fun _ => rfl⟩

theorem trans (h : Edged l s t) (k : Edged l t u) : Edged l s u where
  link := by
    rcases h.link with hl | hl <;> rcases k.link with kl | kl <;> rw [hl] at kl
    · exact .inl kl
    · exact .inr kl
    · exact .inr kl
    · exact .inr (kl.trans (AirLink.emptied_emptied _))
  reports := h.reports.trans k.reports
  media := k.media.trans h.media
  port := k.port.trans h.port
  claim := k.claim.trans h.claim
  queue := k.queue.trans h.queue
  handler := k.handler.trans h.handler
  enabled i := (k.enabled i).trans (h.enabled i)

theorem ite {b : Prop} [Decidable b] (h : Edged l s t) (k : Edged l s u) : Edged l s (if b then t else u) := by
  split
  · exact h
  · exact k

theorem of_next (h : NextPeriod s t len) (hl : t.link l = s.link l) (hr : s.Reports t) : Edged l s t :=
  ⟨.inl hl, hr, h.media, h.port, h.claim, h.queue, h.handler, h.enabled⟩

theorem setRef (s : State) (r : RefControl) : Edged l s { s with ref := r } :=
  ⟨.inl (State.link_congr rfl rfl l), .of_conds rfl, rfl, rfl, rfl, rfl, rfl, fun _ => rfl⟩

theorem watch (s : State) : Edged l s s.watch := by
  rw [State.watch_eq]
  exact setRef s _

theorem onLink {k : LinkId} (h : OnLink k s t) (hl : t.link l = s.link l ∨ t.link l = (s.link l).emptied)
    (hr : s.Reports t) : Edged l s t :=
  ⟨hl, hr, h.media, h.port, h.claim, h.queue, h.handler, fun i => by
    by_cases hi : i = deviceSet
    · rw [hi]
      exact h.enabled
    · rw [h.conds i hi]⟩

theorem raiseDevice (s : State) (c : DeviceCond) : Edged l s (s.raiseDevice c) :=
  onLink (OnLink.raiseDevice l s c) (.inl (State.raiseDevice_link _ _ _)) (.raiseDevice s c)

theorem dropStore (s : State) (src : Source) : Edged l s (s.dropStore src) := by
  cases src with
  | internal => exact refl s
  | word => exact refl s
  | link k =>
    refine onLink (OnLink.modFraming k s _) ?_ (.of_conds (State.modFraming_conds _ _ _))
    by_cases hk : l = k
    · subst hk
      exact .inr (State.setLink_link _ _ _)
    · exact .inl ((OnLink.modFraming k s _).link_ne hk)

theorem losing_setRef (r : RefControl) {n : Nat} (h : (s.link l).losing n = false) :
    (({ s with ref := r } : State).link l).losing n = false := by
  cases l <;> exact h

variable (ho : s.opening = false) (hl : (s.link l).losing (s.periodStart + len) = false)
include ho hl

theorem boundary : Edged l s (s.boundary len) :=
  have h := Heeds.boundary (l := l) (len := len) ho
  of_next (State.boundary_next ho len).1 (h.link hl) h.reports

theorem endBridging (b : Bridge) (missed : Bool) : Edged l s (s.endBridging b len missed) := by
  unfold State.endBridging
  simp only
  refine trans ?_ (watch _)
  refine trans ?_ (raiseDevice _ .refSwitched)
  have h := boundary (len := len) ho hl
  generalize s.boundary len = u at h ⊢
  have hset := h.trans (setRef u (u.ref.bridged b missed))
  refine ite hset (hset.trans ?_)
  exact dropStore _ _

theorem switchInternal : Edged l s (s.switchInternal len) := by
  unfold State.switchInternal
  have h := boundary (len := len) ho hl
  generalize s.boundary len = u at h ⊢
  refine trans ?_ (raiseDevice _ .refSwitched)
  exact h.trans (setRef u _)

theorem acceptEdge : Edged l s (s.acceptEdge len) := by
  unfold State.acceptEdge
  refine ite (switchInternal ho hl) ?_
  have h := boundary (len := len) ho hl
  generalize s.boundary len = u at h ⊢
  exact h.trans (setRef u _)

theorem edgeOfTarget (src : Source) : Edged l s (s.edgeOfTarget src len) := by
  unfold State.edgeOfTarget
  simp only
  refine ite (setRef s _) (ite ?_ (setRef s _))
  generalize ({ s.ref.judgeEdge (s.periodStart + len) with bridging := _ } : RefControl) = r
  exact (setRef s r).trans (endBridging (s := { s with ref := r }) ho (losing_setRef r hl) _ _)

/-- An edge of the reference, whatever the controller makes of it (R151). -/
theorem refEdge (src : Source) : Edged l s (s.refEdge src len) := by
  unfold State.refEdge
  split
  next b hb =>
    refine ite ?_ (ite (edgeOfTarget ho hl src) (refl s))
    have hbe : Edged l s (s.bridgeEdge src len) ∧ (s.bridgeEdge src len).opening = false ∧
        ((s.bridgeEdge src len).link l).losing ((s.bridgeEdge src len).periodStart + len) = false := by
      unfold State.bridgeEdge
      split
      · exact ⟨setRef s _, ho, losing_setRef _ hl⟩
      · exact ⟨refl s, ho, hl⟩
    obtain ⟨he, heo, hel⟩ := hbe
    simp only
    exact ite (he.trans (endBridging heo hel b false)) he
  next hb =>
    have hmade : Edged l s (if s.ref.target = some src then s.edgeOfTarget src len else s) :=
      ite (edgeOfTarget ho hl src) (refl s)
    have hstill : (∃ r : RefControl, (if s.ref.target = some src then s.edgeOfTarget src len else s) =
        { s with ref := r }) ∨ (if s.ref.target = some src then s.edgeOfTarget src len else s).house = s.house + 1 := by
      split
      · exact State.edgeOfTarget_still ho src len
      · exact .inl ⟨s.ref, rfl⟩
    simp only
    generalize (if s.ref.target = some src then s.edgeOfTarget src len else s) = u at hmade hstill ⊢
    split
    next hacc =>
      rcases hstill with ⟨r, rfl⟩ | hh
      · exact hmade.trans (acceptEdge (s := { s with ref := r }) ho (losing_setRef r hl))
      · exact absurd (hacc.2.2.2.2.symm.trans hh) (by bv_omega)
    next => exact hmade

end Edged

end Sys2Proof.Machine
end

section
/-!
PROOFS. A frame pulse of a SLAVE link: its framing, and the frame that begins with it.
-/

namespace Sys2Proof.Machine

/-! ## The framing -/

/-- The same framing, the elastic store aside. -/
structure Framing.SamePlace (f g : Framing) : Prop where
  bit : g.bit = f.bit
  run : g.run = f.run
  sub : g.sub = f.sub
  lossFrom : g.lossFrom = f.lossFrom

theorem Framing.SamePlace.trans {f g h : Framing} (x : f.SamePlace g) (y : g.SamePlace h) : f.SamePlace h :=
  ⟨y.bit.trans x.bit, y.run.trans x.run, y.sub.trans x.sub, y.lossFrom.trans x.lossFrom⟩

/-- The framing after a pulse is what R170 and R171 say. -/
theorem Framing.pulse_pulsed (f : Framing) (bit now : Nat) : f.Pulsed (f.pulse bit now) bit now := by
  cases hb : f.bit with
  | none =>
    have hp : f.pulse bit now = { f with bit := some 0, run := 0, lossFrom := now } := by
      unfold Framing.pulse
      rw [hb]
    rw [hp]
    exact ⟨rfl, rfl, fun _ => ⟨rfl, rfl⟩, fun h => by simp [hb] at h, fun h => by simp [hb] at h⟩
  | some k =>
    by_cases hbit : bit = 768
    · have hp : f.pulse bit now =
          { f with
            bit := some 0
            run := min (f.run + 1) Config.syncRun
            sub := if min (f.run + 1) Config.syncRun = Config.syncRun then .sync else f.sub
            lossFrom := now } := by
        unfold Framing.pulse
        rw [hb]
        exact if_pos hbit
      rw [hp]
      exact ⟨rfl, rfl, fun h => by simp [hb] at h, fun _ _ => ⟨rfl, rfl⟩, fun _ hn => absurd hbit hn⟩
    · have hp : f.pulse bit now =
          { f with bit := some 0, run := 0, sub := if f.sub = .sync then .hunt else f.sub, lossFrom := now } := by
        unfold Framing.pulse
        rw [hb]
        exact if_neg hbit
      rw [hp]
      exact ⟨rfl, rfl, fun h => by simp [hb] at h, fun _ he => absurd he hbit, fun _ _ => ⟨rfl, rfl⟩⟩

theorem Framing.pulse_store (f : Framing) (bit now : Nat) :
    (f.pulse bit now).newPlace = f.newPlace ∧ (f.pulse bit now).sentPlace = f.sentPlace := by
  unfold Framing.pulse
  split
  · exact ⟨rfl, rfl⟩
  · simp only
    split <;> exact ⟨rfl, rfl⟩

/-- A framing the pulse made, its store changed since, is still what R170 and R171 say. -/
theorem Framing.Pulsed.samePlace {f g h : Framing} {bit now : Nat} (hp : f.Pulsed g bit now) (hs : g.SamePlace h) :
    f.Pulsed h bit now where
  place := hs.bit.trans hp.place
  timer := hs.lossFrom.trans hp.timer
  first hb := by rw [hs.run, hs.sub]; exact hp.first hb
  spaced hb he := by rw [hs.run, hs.sub]; exact hp.spaced hb he
  misplaced hb he := by rw [hs.run, hs.sub]; exact hp.misplaced hb he

theorem Framing.misplaced_iff {f : Framing} {bit : Nat} :
    f.misplaced bit = true ↔ f.bit.isSome = true ∧ bit ≠ 768 := by
  rw [Framing.misplaced, Bool.and_eq_true, bne_iff_ne]
  exact Iff.rfl

/-! ## The pulse ahead of the reference controller -/

/-- The part as the reference controller sees it at a pulse: the framing moved on, a misplaced pulse counted. -/
def State.pulsed (s : State) (l : LinkId) (f : Framing) (bit now : Nat) : State :=
  (if f.misplaced bit then s.alignment l else s).modFraming l fun g => g.pulse bit now

/-- The link after a pulse, ahead of the reference controller. -/
def AirLink.pulsed (k : AirLink) (f : Framing) (bit now : Nat) : AirLink :=
  { k with
    alignments := if f.misplaced bit then Count32.succHold k.alignments else k.alignments
    framing := some (f.pulse bit now) }

theorem AirLink.emptied_framing {k : AirLink} {f : Framing} (h : k.framing = some f) :
    k.emptied.framing = some { f with newPlace := none, sentPlace := none } := by
  rw [AirLink.emptied, h]
  rfl

section
variable {s : State} {l : LinkId} {f : Framing} {bit now : Nat}

theorem State.alignment_onLink : OnLink l s (s.alignment l) :=
  (OnLink.setLink l s _).trans (OnLink.raiseDevice l _ _)

theorem State.alignment_link :
    (s.alignment l).link l = { s.link l with alignments := Count32.succHold (s.link l).alignments } := by
  rw [State.alignment, State.raiseDevice_link, State.setLink_link]

theorem State.pulsed_onLink : OnLink l s (s.pulsed l f bit now) := by
  unfold State.pulsed
  refine OnLink.trans ?_ (OnLink.modFraming l _ _)
  split
  · exact State.alignment_onLink
  · exact OnLink.refl l s

theorem State.pulsed_link (h : (s.link l).framing = some f) :
    (s.pulsed l f bit now).link l = (s.link l).pulsed f bit now := by
  unfold State.pulsed AirLink.pulsed
  split
  · rw [State.modFraming_link (f := f) (by rw [State.alignment_link]; exact h), State.alignment_link]
  · rw [State.modFraming_link h]

theorem State.pulsed_cond : (s.pulsed l f bit now).cond deviceSet =
    if f.misplaced bit then (s.cond deviceSet).raise 0x10 else s.cond deviceSet := by
  unfold State.pulsed
  rw [State.cond_congr (State.modFraming_conds _ _ _)]
  split
  · rw [State.alignment, State.cond_raiseDevice, State.cond_congr (State.setLink_conds _ _ _)]
    rfl
  · rfl

/-- A frame pulse is the framing moved on, then the edge of the link as a reference, then the frame (R161, R170). -/
theorem exec_framePulse {p : Phase} (hs : s.AtRest) (h : (s.link l).framing = some f)
    (ht : f.sub = .lost ∨ s.periodStart + p ≤ f.lossFrom + 4000000) : exec (.framePulse l bit p) s =
      .next (((s.pulsed l f bit (s.periodStart + p)).refEdge (.link l) p).beginFrame l) := by
  have hlose : ¬(s.link l).losing (s.periodStart + p - 1) = true := by
    rw [AirLink.losing, h, Option.any_some, Bool.and_eq_true, bne_iff_ne, decide_eq_true_eq]
    rintro ⟨hlost, hle⟩
    have hle : f.lossFrom + 4000000 ≤ s.periodStart + p - 1 := hle
    have := ht.resolve_left hlost
    omega
  have hlive : exec (.framePulse l bit p) s = .next (s.opFramePulse l bit p) :=
    if_neg (by rw [hs.1]; exact Bool.false_ne_true)
  rw [hlive, State.opFramePulse, State.settle_atRest hs.2]
  simp only [if_neg hlose]
  unfold State.framePulse State.pulsed
  simp only [h]

/-- The timer that a pulse has started does not run out with it (R171). -/
theorem State.pulsed_losing (h : (s.link l).framing = some f) :
    ((s.pulsed l f bit now).link l).losing now = false := by
  rw [State.pulsed_link h, AirLink.losing, AirLink.pulsed]
  simp only [Option.any_some, Bool.and_eq_false_iff, decide_eq_false_iff_not]
  refine .inr fun hle => ?_
  rw [(f.pulse_pulsed bit now).timer] at hle
  have hle : now + 4000000 ≤ now := hle
  omega

end

/-! ## The frame -/

/-- However a frame begins, its link keeps its place and its settings, and the part what no frame changes. -/
theorem State.beginFrame_keeps {u : State} {l : LinkId} {g : Framing} (h : (u.link l).framing = some g) :
    OnLink l u (u.beginFrame l) ∧ (u.link l).SameSet ((u.beginFrame l).link l) ∧ u.Reports (u.beginFrame l) ∧
      ∃ g' : Framing, ((u.beginFrame l).link l).framing = some g' ∧ g.SamePlace g' := by
  unfold State.beginFrame
  split
  · refine ⟨OnLink.setLink _ _ _, ?_, .of_conds (State.setLink_conds _ _ _), g, ?_, rfl, rfl, rfl, rfl⟩ <;>
      rw [State.setLink_link]
    · exact ⟨rfl, rfl, rfl, rfl, rfl, rfl, rfl⟩
    · exact h
  · obtain ⟨hon, hsame, -, -, hplain, hstored, hrepeat⟩ := State.frameContent_frame rfl h
    by_cases hsync : g.sub = .sync
    · by_cases hpace : u.ref.pacing = .link l
      · obtain ⟨hfr, -, hc⟩ := hplain (.inr hpace)
        exact ⟨hon, hsame, .of_conds hc, g, hfr, rfl, rfl, rfl, rfl⟩
      · cases hnew : g.newPlace with
        | some img =>
          obtain ⟨-, hfr, -, hc⟩ := hstored hsync hpace img hnew
          exact ⟨hon, hsame, .of_conds hc, _, hfr, rfl, rfl, rfl, rfl⟩
        | none =>
          obtain ⟨-, hfr, -, hc⟩ := hrepeat hsync hpace hnew
          refine ⟨hon, hsame, fun m hm => ?_, g, hfr, rfl, rfl, rfl, rfl⟩
          rw [hc]
          have := State.Reports.raiseDevice u .linkSlip m hm
          rwa [State.cond_raiseDevice] at this
    · obtain ⟨hfr, -, hc⟩ := hplain (.inl hsync)
      exact ⟨hon, hsame, .of_conds hc, g, hfr, rfl, rfl, rfl, rfl⟩

/-! ## The edge -/

/-- An edge of a source that does not pace the periods moves the controller alone while no lock completes behind half
the period (R156, R157). -/
theorem State.refEdge_beside {s : State} {src : Source} {p : Phase} (hb : s.ref.bridging = none)
    (hp : s.ref.pacing ≠ src)
    (hshort : s.ref.target = some src → s.ref.progress < 63 ∨ s.ref.progress = 63 ∧ p < 500000) :
    ∃ r : RefControl, s.refEdge src p = { s with ref := r } ∧ r.pacing = s.ref.pacing ∧
      (s.ref.target ≠ some src → r = s.ref) ∧
      (s.ref.target = some src →
        (s.ref.lastEdge = none → r = { s.ref with lastEdge := some (s.periodStart + p) }) ∧
        ∀ last : Nat, s.ref.lastEdge = some last →
          (s.periodStart + p < last + 990000 ∨ last + 1010000 < s.periodStart + p →
            r = { s.ref with progress := 0, lastEdge := some (s.periodStart + p) }) ∧
          (last + 990000 ≤ s.periodStart + p → s.periodStart + p ≤ last + 1010000 →
            (s.ref.progress < 63 →
              r = { s.ref with progress := s.ref.progress + 1, lastEdge := some (s.periodStart + p) }) ∧
            (s.ref.progress = 63 →
              r =
                { s.ref with
                  progress := 64
                  lastEdge := some (s.periodStart + p)
                  bridging := some ⟨src, s.ref.origin, s.periodStart + p⟩ }))) := by
  by_cases ht : s.ref.target = some src
  · have hedge : s.refEdge src p = s.edgeOfTarget src p := State.refEdge_target hb ht hp
    have hle : s.ref.progress < 64 := by
      rcases hshort ht with h | ⟨h, -⟩ <;> omega
    cases hl : s.ref.lastEdge with
    | none =>
      refine ⟨_, hedge.trans (State.edgeOfTarget_short (RefControl.judgeEdge_first hl) hle), rfl, fun hn => absurd ht hn,
        fun _ => ⟨fun _ => rfl, fun last h => (by cases h)⟩⟩
    | some last =>
      by_cases hin : last + 990000 ≤ s.periodStart + p ∧ s.periodStart + p ≤ last + 1010000
      · obtain ⟨h1, h2⟩ := hin
        have hj := RefControl.judgeEdge_good hl h1 h2
        rcases hshort ht with hlt | ⟨heq, hhalf⟩
        · refine ⟨_, hedge.trans (State.edgeOfTarget_short hj (Nat.succ_lt_succ hlt)), rfl, fun hn => absurd ht hn,
            fun _ => ⟨fun h => (by cases h), ?_⟩⟩
          rintro _ ⟨⟩
          exact ⟨fun hout => by omega, fun _ _ => ⟨fun _ => rfl, fun he => absurd he (Nat.ne_of_lt hlt)⟩⟩
        · rw [heq] at hj
          refine ⟨_, hedge.trans ((State.edgeOfTarget_locks hj (Nat.le_refl 64)).trans
            (if_neg (show ¬ Config.halfPeriod ≤ p from Nat.not_le.mpr hhalf))), rfl, fun hn => absurd ht hn,
            fun _ => ⟨fun h => (by cases h), ?_⟩⟩
          rintro _ ⟨⟩
          exact ⟨fun hout => by omega, fun _ _ => ⟨fun hlt => absurd heq (Nat.ne_of_lt hlt), fun _ => rfl⟩⟩
      · have hout : s.periodStart + p < last + 990000 ∨ last + 1010000 < s.periodStart + p := by omega
        refine ⟨_, hedge.trans (State.edgeOfTarget_short (RefControl.judgeEdge_astray hl hout) (by decide : (0 : Nat) < 64)),
          rfl, fun hn => absurd ht hn, fun _ => ⟨fun h => (by cases h), ?_⟩⟩
        rintro _ ⟨⟩
        exact ⟨fun _ => rfl, fun h1 h2 => absurd ⟨h1, h2⟩ hin⟩
  · refine ⟨s.ref, ?_, rfl, fun _ => rfl, fun h => absurd h ht⟩
    unfold State.refEdge
    rw [hb]
    simp only [if_neg ht]
    exact if_neg fun h => hp h.1

/-! ## How a frame begins -/

theorem State.beginFrame_opening {u : State} {l : LinkId} (h : u.opening = true) :
    u.beginFrame l = u.setLink l { u.link l with frame := some Image.zero, frameOpens := true } := if_pos h

theorem State.beginFrame_running {u : State} {l : LinkId} (h : u.opening = false) :
    u.beginFrame l = u.frameContent l := if_neg (by rw [h]; exact Bool.false_ne_true)

end Sys2Proof.Machine
end

section
/-!
PROOFS. The statement about a frame pulse on a SLAVE link.
-/

namespace Sys2Proof.Machine

section
variable {s t u : State} {l : LinkId} {f g : Framing} {bit : Nat} {p : Phase}

/-- What every frame pulse does, whatever the reference controller makes of it (R170, R171). -/
theorem framePulse_framing (hs : s.AtRest) (h : (s.link l).framing = some f)
    (ht : t = ((s.pulsed l f bit (s.periodStart + p)).refEdge (.link l) p).beginFrame l) :
    ∃ g : Framing, (t.link l).framing = some g ∧ f.Pulsed g bit (s.periodStart + p) ∧
      (t.link l).mode = (s.link l).mode ∧
      (t.link l).active = (s.link l).active ∧ (t.link l).mirror = (s.link l).mirror ∧
      (t.link l).assigns = (s.link l).assigns ∧ (t.link l).drops = (s.link l).drops ∧
      (f.bit.isSome = true → bit ≠ 768 → (t.link l).alignments = Count32.succHold (s.link l).alignments ∧
        (t.cond deviceSet).pending &&& 0x10 = 0x10) ∧
      ((f.bit = none ∨ bit = 768) → (t.link l).alignments = (s.link l).alignments) ∧
      (∀ i : SetId, (t.cond i).enabled = (s.cond i).enabled) ∧ t.media = s.media ∧ t.port = s.port ∧
      t.claim = s.claim ∧ t.queue = s.queue ∧ t.handler = s.handler := by
  have hon := State.pulsed_onLink (s := s) (l := l) (f := f) (bit := bit) (now := s.periodStart + p)
  have hlink := State.pulsed_link (bit := bit) (now := s.periodStart + p) h
  have hcond := State.pulsed_cond (s := s) (l := l) (f := f) (bit := bit) (now := s.periodStart + p)
  have hlos := State.pulsed_losing (bit := bit) (now := s.periodStart + p) h
  generalize s.pulsed l f bit (s.periodStart + p) = v at hon hlink hcond hlos ht
  rw [← hon.periodStart] at hlos
  have hedge := Edged.refEdge (len := p) (hon.opening.trans hs.2) hlos (.link l)
  generalize v.refEdge (.link l) p = u at hedge ht
  have hpre : (u.link l).mode = (v.link l).mode ∧ (u.link l).active = (v.link l).active ∧
      (u.link l).mirror = (v.link l).mirror ∧ (u.link l).assigns = (v.link l).assigns ∧
      (u.link l).drops = (v.link l).drops ∧ (u.link l).alignments = (v.link l).alignments ∧
      ∃ g : Framing, (u.link l).framing = some g ∧ (f.pulse bit (s.periodStart + p)).SamePlace g := by
    have hv : (v.link l).framing = some (f.pulse bit (s.periodStart + p)) := by rw [hlink]; rfl
    rcases hedge.link with hl | hl <;> rw [hl]
    · exact ⟨rfl, rfl, rfl, rfl, rfl, rfl, _, hv, rfl, rfl, rfl, rfl⟩
    · exact ⟨rfl, rfl, rfl, rfl, rfl, rfl, _, AirLink.emptied_framing hv, rfl, rfl, rfl, rfl⟩
  obtain ⟨umode, uact, umir, uass, udrop, ualign, g, hg, hsame⟩ := hpre
  obtain ⟨uon, uset, urep, g', hg', hsame'⟩ := State.beginFrame_keeps hg
  rw [← ht] at uon uset urep hg'
  have halign : (t.link l).alignments = ((s.link l).pulsed f bit (s.periodStart + p)).alignments :=
    uset.alignments.trans (ualign.trans (by rw [hlink]))
  refine ⟨g', hg', (f.pulse_pulsed bit _).samePlace (hsame.trans hsame'), uset.mode.trans (umode.trans (by rw [hlink]; rfl)),
    uset.active.trans (uact.trans (by rw [hlink]; rfl)), uset.mirror.trans (umir.trans (by rw [hlink]; rfl)),
    uset.assigns.trans (uass.trans (by rw [hlink]; rfl)), uset.drops.trans (udrop.trans (by rw [hlink]; rfl)),
    fun hb hbit => ⟨?_, ?_⟩, fun hb => ?_, fun i => ?_, uon.media.trans (hedge.media.trans hon.media),
    uon.port.trans (hedge.port.trans hon.port), uon.claim.trans (hedge.claim.trans hon.claim),
    uon.queue.trans (hedge.queue.trans hon.queue), uon.handler.trans (hedge.handler.trans hon.handler)⟩
  · rw [halign]
    exact if_pos (Framing.misplaced_iff.mpr ⟨hb, hbit⟩)
  · refine urep _ (hedge.reports _ ?_)
    rw [hcond, if_pos (Framing.misplaced_iff.mpr ⟨hb, hbit⟩)]
    exact CondSet.raise_pending_and _ _
  · rw [halign]
    refine if_neg fun hm => ?_
    obtain ⟨h1, h2⟩ := Framing.misplaced_iff.mp hm
    rcases hb with hb | hb
    · rw [hb] at h1; cases h1
    · exact h2 hb
  · have hen (x y : State) (k : OnLink l x y) : (y.cond i).enabled = (x.cond i).enabled := by
      by_cases hi : i = deviceSet
      · rw [hi]; exact k.enabled
      · rw [k.conds i hi]
    exact (hen u t uon).trans ((hedge.enabled i).trans (hen s v hon))

/-- A frame that begins at once on a link that does not pace the periods (R172, R173). -/
theorem framePulse_frame (hon : OnLink l s u) (hlink : u.link l = (s.link l).pulsed f bit p)
    (hcond : u.cond deviceSet = if f.misplaced bit then (s.cond deviceSet).raise 0x10 else s.cond deviceSet)
    {r : RefControl} (hp : r.pacing ≠ .link l) (ht : t = State.frameContent { u with ref := r } l)
    (hg : (t.link l).framing = some g) :
    OnLink l { u with ref := r } t ∧ (t.link l).image = (s.link l).image ∧
      (g.sub ≠ .sync → (t.link l).frame = some Image.zero ∧ g.newPlace = f.newPlace ∧ g.sentPlace = f.sentPlace) ∧
      (∀ img : Image, g.sub = .sync → f.newPlace = some img →
        (t.link l).frame = some img ∧ g.newPlace = none ∧ g.sentPlace = some img) ∧
      (g.sub = .sync → f.newPlace = none → (t.link l).frame = some (f.sentPlace.getD Image.zero) ∧
        (t.link l).repeats = Count32.succHold (s.link l).repeats ∧ (t.cond deviceSet).pending &&& 0x20 = 0x20) ∧
      ((g.sub ≠ .sync ∨ f.newPlace.isSome = true) → (t.link l).repeats = (s.link l).repeats ∧
        (t.cond deviceSet).pending &&& 0x20 = (s.cond deviceSet).pending &&& 0x20) ∧
      ((f.bit = none ∨ bit = 768) →
        (t.cond deviceSet).pending &&& 0x10 = (s.cond deviceSet).pending &&& 0x10) ∧
      (t.cond deviceSet).pending &&& 0xCF = (s.cond deviceSet).pending &&& 0xCF ∧
      ∀ i : SetId, i ≠ deviceSet → t.cond i = s.cond i := by
  have hwl : (({ u with ref := r } : State).link l) = (s.link l).pulsed f bit p := by
    rw [← hlink]; exact State.link_congr rfl rfl l
  have hwf : (({ u with ref := r } : State).link l).framing = some (f.pulse bit p) := by rw [hwl]; rfl
  have hwc (i : SetId) : (({ u with ref := r } : State).cond i) = u.cond i := rfl
  have hwp : ({ u with ref := r } : State).ref.pacing ≠ .link l := hp
  generalize ({ u with ref := r } : State) = w at ht hwl hwf hwc hwp ⊢
  obtain ⟨uon, uset, uhunt, -, uplain, ustored, urepeat⟩ := State.frameContent_frame ht hwf
  obtain ⟨hnew, hsent⟩ := f.pulse_store bit p
  have hrepeats : (w.link l).repeats = (s.link l).repeats := by rw [hwl]; rfl
  have himage : (t.link l).image = (s.link l).image := uset.image.trans (by rw [hwl]; rfl)
  have hothers (i : SetId) (hi : i ≠ deviceSet) : t.cond i = s.cond i :=
    (uon.conds i hi).trans ((hwc i).trans (hon.conds i hi))
  have halarm (k : Byte) (hk : (0x10 : Byte) &&& k = 0) :
      (w.cond deviceSet).pending &&& k = (s.cond deviceSet).pending &&& k := by
    rw [hwc, hcond]
    split
    · exact CondSet.raise_pending_off _ hk
    · rfl
  have hspaced (hb : f.bit = none ∨ bit = 768) : w.cond deviceSet = s.cond deviceSet := by
    rw [hwc, hcond]
    refine if_neg fun hm => ?_
    obtain ⟨h1, h2⟩ := Framing.misplaced_iff.mp hm
    rcases hb with hb | hb
    · rw [hb] at h1; cases h1
    · exact h2 hb
  refine ⟨uon, himage, ?_⟩
  by_cases hsync : (f.pulse bit p).sub = .sync
  · cases hplace : f.newPlace with
    | some img =>
      obtain ⟨hframe, hfr, hrep, hc⟩ := ustored hsync hwp img (hnew.trans hplace)
      have hgf := Option.some.inj (hg.symm.trans hfr)
      have hgs : g.sub = .sync := by rw [hgf]; exact hsync
      have hcd : t.cond deviceSet = w.cond deviceSet := State.cond_congr hc _
      refine ⟨fun hn => absurd hgs hn, ?_, fun _ hn => (by cases hn), fun _ => ⟨hrep.trans hrepeats, ?_⟩, fun hb => ?_,
        ?_, hothers⟩
      · rintro _ - ⟨⟩
        rw [hgf]
        exact ⟨hframe, rfl, rfl⟩
      · rw [hcd]; exact halarm _ (by decide)
      · rw [hcd, hspaced hb]
      · rw [hcd]; exact halarm _ (by decide)
    | none =>
      obtain ⟨hframe, hfr, hrep, hc⟩ := urepeat hsync hwp (hnew.trans hplace)
      have hgf := Option.some.inj (hg.symm.trans hfr)
      have hgs : g.sub = .sync := by rw [hgf]; exact hsync
      refine ⟨fun hn => absurd hgs hn, fun _ _ hn => (by cases hn), fun _ _ => ⟨?_, ?_, ?_⟩, fun hn => ?_, fun hb => ?_,
        ?_, hothers⟩
      · rw [hframe, hsent]
      · rw [hrep, hrepeats]
      · rw [hc]; exact CondSet.raise_pending_and _ _
      · exact hn.elim (absurd hgs) fun h => (by cases h)
      · rw [hc, CondSet.raise_pending_off _ (by decide), hspaced hb]
      · rw [hc, CondSet.raise_pending_off _ (by decide)]
        exact halarm _ (by decide)
  · obtain ⟨hfr, hrep, hc⟩ := uplain (.inl hsync)
    have hgf := Option.some.inj (hg.symm.trans hfr)
    have hgs : g.sub ≠ .sync := by rw [hgf]; exact hsync
    have hcd : t.cond deviceSet = w.cond deviceSet := State.cond_congr hc _
    refine ⟨fun _ => ⟨uhunt hsync, ?_, ?_⟩, fun _ hs => absurd hs hgs, fun hs => absurd hs hgs,
      fun _ => ⟨hrep.trans hrepeats, ?_⟩, fun hb => ?_, ?_, hothers⟩
    · rw [hgf, hnew]
    · rw [hgf, hsent]
    · rw [hcd]; exact halarm _ (by decide)
    · rw [hcd, hspaced hb]
    · rw [hcd]; exact halarm _ (by decide)

/-- What precedes the boundary may differ on a link and in the device conditions. -/
theorem NextPeriod.of_onLink {len : Nat} (h : NextPeriod u t len) (k : OnLink l s u)
    (hm : (u.link l).mode = (s.link l).mode ∧ (u.link l).active = (s.link l).active ∧
      (u.link l).mirror = (s.link l).mirror ∧ (u.link l).assigns = (s.link l).assigns) : NextPeriod s t len where
  house := h.house.trans (by rw [k.house])
  start := h.start.trans (by rw [k.periodStart])
  opening := h.opening
  deferred := h.deferred
  media := h.media.trans k.media
  port := h.port.trans k.port
  claim := h.claim.trans k.claim
  handler := h.handler.trans k.handler
  queue := h.queue.trans k.queue
  settings st := by rw [← State.station_congr k.stations st]; exact h.settings st
  links j := by
    by_cases hj : j = l
    · subst hj
      obtain ⟨h1, h2, h3, h4⟩ := h.links j
      obtain ⟨m1, m2, m3, m4⟩ := hm
      exact ⟨h1.trans m1, h2.trans m2, h3.trans m3, h4.trans m4⟩
    · rw [← k.link_ne hj]
      exact h.links j
  asrun := by rw [← k.asrun]; exact h.asrun
  enabled i := by
    refine (h.enabled i).trans ?_
    by_cases hi : i = deviceSet
    · rw [hi]
      exact k.enabled
    · rw [k.conds i hi]

/-- A frame that begins with a period waits for that period's image (R172). -/
theorem beginFrame_waits {len : Nat} (h : NextPeriod s u len) (ht : t = u.beginFrame l) :
    NextPeriod s t len ∧ t.ref = u.ref ∧ t.conds = u.conds ∧
      t.link l = { u.link l with frame := some Image.zero, frameOpens := true } := by
  rw [State.beginFrame_opening h.opening] at ht
  subst ht
  refine ⟨h.onLink (OnLink.setLink l u _) ?_, (OnLink.setLink l u _).ref, State.setLink_conds _ _ _, State.setLink_link _ _ _⟩
  rw [State.setLink_link]
  exact ⟨rfl, rfl, rfl, rfl⟩

/-- A completed lock on a link leaves it the current source with its store empty (R157, R174). -/
theorem State.endBridging_link {b : Bridge} (ho : s.opening = false) (hb : s.ref.bridging = some b)
    (hsrc : b.source = .link l) (hw : s.ref.switchFrom = none) (ht : s.ref.target = some (.link l))
    (hp : s.ref.progress = 64) (hf : s.ref.fallen = true → b.origin = .autoReturn)
    (hl : (s.link l).losing (s.periodStart + p) = false) :
    Switched s (s.endBridging b p false) (.link l) p 0 ∧ (s.endBridging b p false).link l = (s.link l).emptied := by
  obtain ⟨hsw, he⟩ := State.endBridging_switched ho hb hw (by rw [hsrc]; exact ht) hp hf p false
  rw [hsrc] at hsw
  refine ⟨hsw, ?_⟩
  have hlink := (Heeds.boundary (l := l) (len := p) ho).link hl
  rw [he, hsrc, State.raiseDevice_link]
  generalize s.boundary p = x at hlink ⊢
  have hx : (({ x with ref := s.ref.bridged b false } : State).link l) = s.link l := by
    rw [← hlink]; exact State.link_congr rfl rfl l
  rw [← hx]
  exact State.setLink_link _ _ _

end

end Sys2Proof.Machine

namespace Sys2Proof
open Machine

/-- Settles O38: the framing, and then the pulse by what the reference controller makes of it. -/
theorem framePulses : Obligations.FramePulses := by
  unfold Obligations.FramePulses
  intro s l bit p f hs h hlost
  have hon := State.pulsed_onLink (s := s) (l := l) (f := f) (bit := bit) (now := s.periodStart + p)
  have hlink := State.pulsed_link (bit := bit) (now := s.periodStart + p) h
  have hcond := State.pulsed_cond (s := s) (l := l) (f := f) (bit := bit) (now := s.periodStart + p)
  have hlos := State.pulsed_losing (bit := bit) (now := s.periodStart + p) h
  generalize ht : ((s.pulsed l f bit (s.periodStart + p)).refEdge (.link l) p).beginFrame l = t
  obtain ⟨g, hg, hgeneral⟩ := framePulse_framing hs h ht.symm
  refine ⟨t, g, (exec_framePulse hs h hlost).trans (congrArg _ ht), ⟨hg, hgeneral⟩, ?_⟩
  generalize s.pulsed l f bit (s.periodStart + p) = v at hon hlink hcond hlos ht
  have hvref := hon.ref
  have hvstart := hon.periodStart
  have hvo : v.opening = false := hon.opening.trans hs.2
  rw [← hvstart] at hlos
  have hvset : (v.link l).mode = (s.link l).mode ∧ (v.link l).active = (s.link l).active ∧
      (v.link l).mirror = (s.link l).mirror ∧ (v.link l).assigns = (s.link l).assigns := by
    rw [hlink]; exact ⟨rfl, rfl, rfl, rfl⟩
  have hvf : (v.link l).framing = some (f.pulse bit (s.periodStart + p)) := by rw [hlink]; rfl
  obtain ⟨hnew, hsent⟩ := f.pulse_store bit (s.periodStart + p)
  refine ⟨fun hb hpace hshort => ?_, fun hb hw hcur htar => ?_, fun hw htar hcase => ?_⟩
  · obtain ⟨r, hu, hrp, hrsame, hrtar⟩ := State.refEdge_beside (s := v) (src := .link l) (p := p)
      (by rw [hvref]; exact hb) (by rw [hvref]; exact hpace) (by rw [hvref]; exact hshort)
    rw [hvref] at hrp
    rw [hvref] at hrsame
    rw [hvref, hvstart] at hrtar
    rw [hu, State.beginFrame_running (u := { v with ref := r }) hvo] at ht
    obtain ⟨uon, himg, h1, h2, h3, h4, h5, h6, h7⟩ :=
      framePulse_frame hon hlink hcond (by rw [hrp]; exact hpace) ht.symm hg
    have htr : t.ref = r := uon.ref
    refine ⟨h1, h2, h3, h4, fun hn => htr.trans (hrsame hn), fun hT => ?_, fun k hk => ?_, himg,
      uon.house.trans hon.house, uon.periodStart.trans hvstart, uon.opening.trans hvo, uon.stations.trans hon.stations,
      uon.decks.trans hon.decks, uon.dir.trans hon.dir, h5, h6, h7, uon.beds.trans hon.beds, uon.asrun.trans hon.asrun,
      uon.recordsHeld.trans hon.recordsHeld, uon.rx.trans hon.rx, uon.deferred.trans hon.deferred⟩
    · rw [htr]
      exact hrtar hT
    · exact (uon.link_ne hk).trans ((State.link_congr rfl rfl k).trans (hon.link_ne hk))
  · have hpace : v.ref.pacing = .link l := by rw [hvref, RefControl.pacing_current hw]; exact hcur
    have hvb : v.ref.bridging = none := by rw [hvref]; exact hb
    have hvt : v.ref.target ≠ some v.ref.pacing := by rw [hpace, hvref]; exact htar
    have hvw : v.ref.switchFrom = none := by rw [hvref]; exact hw
    rw [← hpace] at ht
    cases hin : inWindow p with
    | true =>
      obtain ⟨hlo, hhi⟩ := inWindow_eq_true.mp hin
      rw [State.refEdge_accepted hvb hvt (by rw [hpace]; exact Source.noConfusion) hin] at ht
      obtain ⟨hn, hr⟩ := State.acceptEdge_next (p := p) hvo hvw
      have hul : (v.acceptEdge p).link l = v.link l := by
        have hbound := (Heeds.boundary (l := l) (len := p) hvo).link hlos
        rw [State.acceptEdge_following hvw]
        generalize v.boundary p = x at hbound ⊢
        rw [← hbound]
        exact State.link_congr rfl rfl l
      generalize v.acceptEdge p = u at ht hn hr hul
      obtain ⟨hnt, htr, -, htl⟩ := beginFrame_waits hn ht.symm
      have hgf : g = f.pulse bit (s.periodStart + p) := by
        rw [htl, hul] at hg
        exact Option.some.inj (hg.symm.trans hvf)
      rw [hvref, hvstart] at hr
      refine ⟨by rw [hgf, hnew], by rw [hgf, hsent], by rw [htl, hul, hlink]; rfl, fun _ _ =>
        ⟨hnt.of_onLink hon hvset, htr.trans hr, by rw [htl]⟩, fun hout => ?_⟩
      exact (hout.elim (Nat.not_lt.mpr hlo) (Nat.not_lt.mpr hhi)).elim
    | false =>
      rw [State.refEdge_outside hvb hvt hin, State.beginFrame_running hvo] at ht
      obtain ⟨uon, uset, uhunt, upaced, uplain, -, -⟩ := State.frameContent_frame ht.symm hvf
      obtain ⟨hfr, hrep, -⟩ := uplain (.inr hpace)
      have hgf : g = f.pulse bit (s.periodStart + p) := Option.some.inj (hg.symm.trans hfr)
      refine ⟨by rw [hgf, hnew], by rw [hgf, hsent], hrep.trans (by rw [hlink]; rfl), fun hlo hhi => ?_, fun _ =>
        ⟨?_, uon.ref.trans hvref, uon.house.trans hon.house, uon.periodStart.trans hvstart, uon.opening.trans hvo,
          uon.stations.trans hon.stations, uon.decks.trans hon.decks, uon.beds.trans hon.beds, uon.asrun.trans hon.asrun,
          uon.deferred.trans hon.deferred, fun k hk => (uon.link_ne hk).trans (hon.link_ne hk)⟩⟩
      · rw [inWindow_eq_true.mpr ⟨hlo, hhi⟩] at hin
        cases hin
      · rw [hgf]
        split
        next hsync => rw [upaced hsync hpace, hlink]; rfl
        next hsync => exact uhunt hsync
  · have hvt : v.ref.target = some (.link l) := by rw [hvref]; exact htar
    have hvw : v.ref.switchFrom = none := by rw [hvref]; exact hw
    have hswitch : ∃ u : State, t = u.beginFrame l ∧ u.link l = (v.link l).emptied ∧
        NextPeriod v u p ∧ u.ref.current = .link l ∧ u.ref.target = none ∧ u.ref.progress = 0 ∧ u.ref.miss = 0 ∧
        u.ref.fallen = false ∧ u.ref.bridging = none ∧ (u.cond deviceSet).pending &&& 0x04 = 0x04 := by
      rcases hcase with ⟨b, hb, hsrc, h64, hlo, hhi, hf⟩ | ⟨last, hb, hcur, h63, hl, hlo, hhi, hhalf, hf⟩
      · have hvb : v.ref.bridging = some b := by rw [hvref]; exact hb
        have hv64 : v.ref.progress = 64 := by rw [hvref]; exact h64
        have hends : b.endsAt (v.periodStart + p) = true := by
          rw [hvstart]; exact Bridge.endsAt_eq_true.mpr ⟨hlo, hhi⟩
        obtain ⟨hsw, hul⟩ := State.endBridging_link hvo hvb hsrc hvw hvt hv64 (by rw [hvref]; exact hf) hlos
        have hedge := State.refEdge_bridging hvb (by rw [hsrc]; exact hvt) hv64 hends
        rw [hsrc] at hedge
        rw [hedge] at ht
        exact ⟨_, ht.symm, hul, hsw.next, hsw.current, hsw.target, hsw.progress, hsw.miss, hsw.fallen, hsw.bridging,
          hsw.reported⟩
      · have hj : v.ref.judgeEdge (v.periodStart + p) =
            { v.ref with progress := 64, lastEdge := some (v.periodStart + p) } := by
          rw [RefControl.judgeEdge_good (by rw [hvref]; exact hl) (by rw [hvstart]; exact hlo) (by rw [hvstart]; exact hhi),
            hvref, h63]
        have hpace : v.ref.pacing ≠ .link l := by rw [hvref, RefControl.pacing_current hw]; exact hcur
        rw [State.refEdge_target (by rw [hvref]; exact hb) hvt hpace, State.edgeOfTarget_locks hj (Nat.le_refl 64),
          if_pos (show Config.halfPeriod ≤ p from hhalf)] at ht
        generalize hr : ({ v.ref with
          progress := 64
          lastEdge := some (v.periodStart + p)
          bridging := some ⟨.link l, v.ref.origin, v.periodStart + p⟩ } : RefControl) = r at ht
        obtain ⟨hsw, hul⟩ := State.endBridging_link (s := { v with ref := r })
          (b := ⟨.link l, v.ref.origin, v.periodStart + p⟩) hvo (by rw [← hr]) rfl (by rw [← hr]; exact hvw)
          (by rw [← hr]; exact hvt) (by rw [← hr]) (by rw [← hr, hvref]; exact hf) (Edged.losing_setRef r hlos)
        refine ⟨_, ht.symm, hul.trans (congrArg _ (State.link_congr rfl rfl l)), hsw.next.ofRef, hsw.current, hsw.target,
          hsw.progress, hsw.miss, hsw.fallen, hsw.bridging, hsw.reported⟩
    obtain ⟨u, htu, hul, hn, hcur, htarget, hprog, hmiss, hfall, hbr, hrep⟩ := hswitch
    obtain ⟨hnt, htr, htc, htl⟩ := beginFrame_waits hn htu
    have hgf := Option.some.inj (hg.symm.trans (show (t.link l).framing = _ by
      rw [htl, hul]; exact AirLink.emptied_framing hvf))
    refine ⟨hnt.of_onLink hon hvset, by rw [htr]; exact hcur, by rw [htr]; exact htarget, by rw [htr]; exact hprog,
      by rw [htr]; exact hmiss, by rw [htr]; exact hfall, by rw [htr]; exact hbr, ?_, by rw [hgf], by rw [hgf],
      by rw [htl]⟩
    rw [State.cond_congr htc]
    exact hrep

end Sys2Proof
end

section
/-!
PROOFS. A move to IDLE that closes a break early while a stray request names an entry whose item still sounds: the deck
that the close lets go has the request withdrawn, the entry forgets its deck, and the cut passes that deck by.
-/

namespace Sys2Proof.Machine

/-! ## The stray request -/

/-- A spot that has not started, INCLUDED and ARMED on deck 2. -/
def heldSpot : Spot :=
  { Spot.fresh (8, 1) with plan := .included, state := .armed, served := .deck 2 }

/-- Its break, ON_AIR as entry 2. -/
def heldBreak : BreakData :=
  { duration := 48000, spots := [heldSpot], fillCart := none, join := some 1000, gap := 0, fillUsed := none,
    fillPlanned := none, fillServed := .none, fillState := .none, fillStart := 0, fillResolved := false,
    fillDue := false }

def heldEntry : Entry :=
  { id := 2, startKind := .hard, due := some 1000, level := none, fadeIn := none, fadeOut := none, state := .onAir,
    served := .none, lateness := none, startTime := 0, cut := false, preFaded := false, body := .brk heldBreak }

/-- An ENDING entry that sounds on deck 3. -/
def endingEntry : Entry :=
  { id := 9, startKind := .take, due := none, level := none, fadeIn := none, fadeOut := none, state := .ending,
    served := .deck 3, lateness := none, startTime := 0, cut := false, preFaded := false, body := .item 7 }

/-- The part with both, and a request that waits in the ENDING entry's name for a slot without an entry. -/
def strayRequest : State :=
  let s := State.reset.modStation 0 fun x =>
    { x with mode := .idle, list := [heldEntry, endingEntry], requests := [⟨.item 9, 0, false, 0⟩] }
  (s.setDeck 2 ⟨{ Player.reset with state := .primed }, some 0, some (.spot 2 0)⟩).setDeck 3
    ⟨{ Player.reset with state := .playing, ramp := ⟨32768, 32768, 0, 0⟩ }, some 0, some (.item 9)⟩

theorem strayRequest_listsKept : strayRequest.ListsKept := by decide +kernel

/-- Deck 3 sounds for the station's list, and neither the break nor an entry that has not started names it. -/
theorem strayRequest_sounding :
    3 ∈ (strayRequest.station 0).soundingDecks ∧ (strayRequest.deck 3).player.sounds = true ∧
      ∀ e ∈ (strayRequest.station 0).list, (e.notStarted = true ∨ e.isBreak = true) →
        e.served ≠ .deck 3 ∧ ∀ v ∈ e.serving, v ≠ .deck 3 := by
  decide +kernel

/-- The move to IDLE leaves deck 3 sounding at its level, which a cut would have fade. -/
theorem strayRequest_uncut :
    ((strayRequest.act 0 (.toIdle false false)).deck 3).player.ramp.target = 32768 ∧
      ((strayRequest.deck 3).player.ramp.cutOver (strayRequest.station 0).cfg.stopFade).target = 0 := by
  decide +kernel

end Sys2Proof.Machine

namespace Sys2Proof
open Machine

/-- Refutes O29: in a state where a request waits for an entry that already sounds, the early close of a break withdraws
the request and takes the entry's deck from it, so that the move to IDLE does not cut that deck (`strayRequest`). -/
theorem not_standsDown : ¬ Obligations.StandsDown := by
  unfold Obligations.StandsDown
  intro h
  obtain ⟨-, -, -, -, -, -, -, -, hleave⟩ := h
  obtain ⟨-, -, -, -, -, -, -, -, -, hlists⟩ :=
    hleave strayRequest _ 0 false false (.toIdle false false) (.inl rfl) rfl
  obtain ⟨-, hcut, -⟩ := hlists strayRequest_listsKept
  obtain ⟨hmem, hsounds, hapart⟩ := strayRequest_sounding
  have hramp := congrArg Ramp.target (hcut 3 hmem hsounds hapart)
  obtain ⟨hleft, hwould⟩ := strayRequest_uncut
  exact absurd (hleft.symm.trans (hramp.trans hwould)) (by decide)

end Sys2Proof
end

section
/-!
PROOFS. `Filed rs s t`: `t` has come from `s` by records being made, `rs` of them. What the log and the records held back
then hold, and that nothing else has changed.
-/

namespace Sys2Proof.Machine

/-- A state but for its log, its records held back, its conditions and what it is to send. -/
def State.unlogged (s : State) : State :=
  { s.unsent with asrun := [], nextSeq := 0, wrapHold := false, recordsHeld := [] }

/-- A record as it was made, before it had a number. -/
def Record.unnumbered (r : Record) : Record := { r with seq := 0 }

/-- The records held back. -/
def State.heldRecords (s : State) : List Record := s.recordsHeld.map fun x => x.2.unnumbered

/-- The log has room for further records as long as it is not full: no number wraps before it is. -/
def State.Roomy (s : State) : Prop := s.wrapHold = false ∧ s.nextSeq.toNat + 512 < 4294967296 + s.asrun.length

/-- The records `made` have reached the log and others are held back, all of them from those held back before and those
given, and none missing where the log had room. -/
structure Filed.Log (rs : List Record) (s t : State) (made : List Record) : Prop where
  asrun : t.asrun = s.asrun ++ made
  from_ : ∀ m ∈ made.map Record.unnumbered ++ t.heldRecords, m ∈ s.heldRecords ++ rs.map Record.unnumbered
  all : s.Roomy → t.asrun.length < 512 → t.Roomy ∧
    (made.map Record.unnumbered ++ t.heldRecords).Perm (s.heldRecords ++ rs.map Record.unnumbered)

/-- From `s` to `t` the records given have been made, and nothing else has changed. -/
structure Filed (rs : List Record) (s t : State) : Prop where
  frame : t.unlogged = s.unlogged
  log : ∃ made : List Record, Filed.Log rs s t made
  enables : t.enables = s.enables
  sends : s.sending.isSome = true →
    t.sending = s.sending ∧ t.txOrder.filter TxItem.isReply = s.txOrder.filter TxItem.isReply

/-! ## Conditions and what is to be sent -/

theorem State.pump_sends {s : State} (h : s.sending.isSome = true) : s.pump = s := if_pos h

theorem State.raiseBits_sends (s : State) (i : SetId) (m : Byte) (h : s.sending.isSome = true) :
    (s.raiseBits i m).sending = s.sending ∧
      (s.raiseBits i m).txOrder.filter TxItem.isReply = s.txOrder.filter TxItem.isReply := by
  unfold State.raiseBits
  have hset : (s.setCond i ((s.cond i).raise m)).sending = s.sending ∧
      (s.setCond i ((s.cond i).raise m)).txOrder = s.txOrder := ⟨rfl, rfl⟩
  simp only
  generalize s.setCond i ((s.cond i).raise m) = u at hset ⊢
  obtain ⟨hs, ht⟩ := hset
  split
  · exact ⟨hs, by rw [ht]⟩
  · unfold State.trigger
    split
    · exact ⟨hs, by rw [ht]⟩
    · split
      · exact ⟨hs, by rw [← ht]⟩
      · rw [State.pump_sends (by rw [← hs] at h; exact h)]
        refine ⟨hs, ?_⟩
        rw [← ht, List.filter_append]
        simp [TxItem.isReply]

namespace Filed

variable {rs qs : List Record} {s t u : State}

/-! ## Composition -/

theorem refl (s : State) : Filed [] s s :=
  ⟨rfl, ⟨[], by simp, by simp, fun h _ => ⟨h, by simp⟩⟩, rfl, fun _ => ⟨rfl, rfl⟩⟩

theorem trans (h : Filed rs s t) (k : Filed qs t u) : Filed (rs ++ qs) s u where
  frame := k.frame.trans h.frame
  log := by
    obtain ⟨made, ha, hfrom, hall⟩ := h.log
    obtain ⟨more, ka, kfrom, kall⟩ := k.log
    refine ⟨made ++ more, by rw [ka, ha, List.append_assoc], fun m hm => ?_, fun hroom hlen => ?_⟩
    · rw [List.map_append, List.append_assoc] at hm
      rw [List.map_append, ← List.append_assoc]
      rcases List.mem_append.mp hm with hm | hm
      · exact List.mem_append_left _ (hfrom m (List.mem_append_left _ hm))
      · rcases List.mem_append.mp (kfrom m hm) with hm | hm
        · exact List.mem_append_left _ (hfrom m (List.mem_append_right _ hm))
        · exact List.mem_append_right _ hm
    · have hshort : t.asrun.length < 512 := by rw [ka, List.length_append] at hlen; omega
      obtain ⟨htroom, hperm⟩ := hall hroom hshort
      obtain ⟨huroom, kperm⟩ := kall htroom hlen
      refine ⟨huroom, ?_⟩
      rw [List.map_append, List.append_assoc, List.map_append, ← List.append_assoc s.heldRecords]
      refine (kperm.append_left _).trans ?_
      rw [← List.append_assoc]
      exact hperm.append_right _
  enables := k.enables.trans h.enables
  sends hs := by
    obtain ⟨h1, h2⟩ := h.sends hs
    obtain ⟨k1, k2⟩ := k.sends (by rw [h1]; exact hs)
    exact ⟨k1.trans h1, k2.trans h2⟩

theorem of_eq {ps : List Record} (h : Filed rs s t) (he : rs = ps) : Filed ps s t := he ▸ h

/-- Records that are made for one thing after another. -/
theorem forEach {α : Type} {f : α → State → State} {g : α → List Record}
    (h : ∀ x t, t.unlogged = s.unlogged → Filed (g x) t (f x t)) (xs : List α) :
    Filed (xs.flatMap g) s (Machine.forEach xs f s) := by
  have hgo (t : State) (ht : t.unlogged = s.unlogged) : Filed (xs.flatMap g) t (Machine.forEach xs f t) := by
    unfold Machine.forEach
    induction xs generalizing t with
    | nil => exact refl t
    | cons x xs ih =>
      have hx := h x t ht
      exact (hx.trans (ih _ (hx.frame.trans ht))).of_eq rfl
  exact hgo s rfl

/-! ## The single operations -/

theorem addRecord (s : State) (r : Record) : Filed [r] s (s.addRecord r) where
  frame := by
    have h := s.addRecord_unsent r
    unfold State.unlogged
    rw [h]
  log := by
    have hheld : (s.addRecord r).heldRecords = s.heldRecords := by
      unfold State.heldRecords
      rw [show (s.addRecord r).recordsHeld = s.recordsHeld from (congrArg State.recordsHeld (s.addRecord_unsent r) :)]
    cases hacc : s.logAccepts with
    | true =>
      have hasrun := State.addRecord_accepted hacc r
      refine ⟨[{ r with seq := s.nextSeq }], hasrun, fun m hm => ?_, fun hroom hlen => ⟨⟨?_, ?_⟩, ?_⟩⟩
      · rw [hheld] at hm
        exact List.perm_append_comm.mem_iff.mp hm
      · obtain ⟨hw, hseq⟩ := hroom
        rw [hasrun, List.length_append] at hlen
        have hlast : (s.nextSeq == 4294967295) = false := by
          refine beq_eq_false_iff_ne.mpr fun he => ?_
          have hn : s.nextSeq.toNat = 4294967295 := congrArg BitVec.toNat he
          simp only [List.length_singleton] at hlen
          omega
        rw [State.addRecord_wrapHold, hw, hlast]
        rfl
      · obtain ⟨hw, hseq⟩ := hroom
        rw [hasrun, List.length_append, List.length_singleton] at hlen ⊢
        rw [State.addRecord_nextSeq, BitVec.toNat_add]
        have hone : (1 : Count32).toNat = 1 := rfl
        rw [hone, Nat.mod_eq_of_lt (by omega)]
        omega
      · rw [hheld]
        exact List.perm_append_comm
    | false =>
      have hasrun : (s.addRecord r).asrun = s.asrun := by
        rw [State.addRecord_asrun, hacc]
        rfl
      refine ⟨[], by rw [hasrun, List.append_nil], fun m hm => ?_, fun hroom hlen => ?_⟩
      · rw [hheld] at hm
        exact List.mem_append_left _ hm
      · rw [hasrun] at hlen
        rw [State.logAccepts_iff.mpr ⟨hlen, hroom.1⟩] at hacc
        cases hacc
  enables := (s.addRecord_frame r).2.1
  sends hs := by
    unfold State.addRecord
    simp only
    split
    · exact State.raiseBits_sends _ _ _ hs
    · split
      · exact State.raiseBits_sends _ _ _ hs
      · exact ⟨rfl, rfl⟩

theorem placeRecord_perm (i : Nat) (r : Record) (l : List (Option Nat × Record)) :
    (placeRecord i r l).Perm ((some i, r) :: l) := by
  induction l with
  | nil => exact List.Perm.refl _
  | cons x xs ih =>
    rw [placeRecord]
    split
    · exact List.Perm.refl _
    · exact (ih.cons x).trans (List.Perm.swap _ _ _)

/-- A change of the records held back alone, by one record. -/
theorem of_held {l : List (Option Nat × Record)} {x : Option Nat × Record} (h : l.Perm (s.recordsHeld ++ [x])) :
    Filed [x.2] s { s with recordsHeld := l } where
  frame := rfl
  log := by
    have hperm : (({ s with recordsHeld := l } : State).heldRecords).Perm
        (s.heldRecords ++ [x.2].map Record.unnumbered) := by
      have := h.map fun x => x.2.unnumbered
      rw [List.map_append] at this
      exact this
    exact ⟨[], (List.append_nil _).symm, fun m hm => hperm.mem_iff.mp hm, fun hroom _ => ⟨hroom, hperm⟩⟩
  enables := rfl
  sends _ := ⟨rfl, rfl⟩

theorem breakRecord (s : State) (i : Nat) (r : Record) : Filed [r] s (s.breakRecord i r) :=
  of_held (x := (some i, r)) ((placeRecord_perm i r _).trans (List.perm_append_comm (l₁ := [_])))

theorem record (s : State) (r : Record) : Filed [r] s (s.record r) := by
  unfold State.record
  split
  · exact addRecord s r
  · exact of_held (x := (none, r)) (List.Perm.refl _)

/-- All records held back reach the log. -/
theorem logHeld (s : State) : Filed [] s s.logHeld ∧ s.logHeld.recordsHeld = [] := by
  have hheld : s.logHeld.recordsHeld = [] := by
    unfold State.logHeld
    rw [State.logWhile_recordsHeld, List.dropWhile_eq_nil_iff]
    exact fun _ _ => rfl
  refine ⟨?_, hheld⟩
  have hall := forEach (s := { s with recordsHeld := [] }) (f := fun (x : Option Nat × Record) acc => acc.addRecord x.2)
    (g := fun x => [x.2]) (fun x t _ => addRecord t x.2) s.recordsHeld
  have hlog : s.logHeld = Machine.forEach s.recordsHeld (fun x acc => acc.addRecord x.2) { s with recordsHeld := [] } := by
    unfold State.logHeld State.logWhile
    rw [takeWhile_true, List.dropWhile_eq_nil_iff.mpr fun _ _ => rfl]
  rw [← hlog] at hall
  obtain ⟨hframe, ⟨made, ha, hfrom, hperm⟩, hen, hsend⟩ := hall
  have hrs : (s.recordsHeld.flatMap fun x => [x.2]).map Record.unnumbered = s.heldRecords := by
    unfold State.heldRecords
    rw [← List.map_eq_flatMap, List.map_map]
    rfl
  rw [hrs] at hfrom hperm
  refine ⟨hframe, ⟨made, ha, fun m hm => ?_, fun hroom hlen => ?_⟩, hen, hsend⟩
  · exact List.mem_append_left _ ((List.mem_append.mp (hfrom m hm)).resolve_left List.not_mem_nil)
  · obtain ⟨h1, h2⟩ := hperm hroom hlen
    refine ⟨h1, h2.trans ?_⟩
    rw [List.map_nil, List.append_nil]
    exact List.Perm.refl _

end Filed

end Sys2Proof.Machine
end

section
/-!
PROOFS. The records a RESTART makes (R212): one for everything that sounds, as it stands as the restart acts.
-/

namespace Sys2Proof.Machine

/-! ## What sounds, and its record -/

/-- The records of an entry's decks that are on the air. -/
def State.entryCuts (s : State) (st : StationId) (e : Entry) : List Record :=
  if e.notStarted then []
  else
    match e.body with
    | .item _ => e.served.deckNo.toList.map fun d => s.itemPlayed st e d (s.stationTime st) .cut
    | .brk b =>
      (b.spotOnAir.toList.flatMap fun x => x.2.served.deckNo.toList.map fun d =>
          s.spotPlayed st e b x.1 x.2 d (s.stationTime st) .cut) ++
        if b.fillState = .onAir then b.fillServed.deckNo.toList.map fun d => s.fillPlayed st e b d (s.stationTime st)
        else []

/-- The record of a deck that trails a break with a spot. -/
def State.trailSpotCuts (s : State) (st : StationId) (d : DeckId) : List Record :=
  match (s.deck d).target with
  | some (.trailSpot t) => [s.trailPlayed st t d (s.stationTime st) .cut]
  | _ => []

/-- The record of a deck that trails a break with its fill. -/
def State.trailFillCuts (s : State) (st : StationId) (d : DeckId) : List Record :=
  match (s.deck d).target with
  | some (.trailFill t) => [s.trailPlayed st t d (s.stationTime st) .fill]
  | _ => []

/-- The record of a bed player that sounds. -/
def State.bedCuts (s : State) (st : StationId) : List Record :=
  if (s.bed st).player.sounds then [s.bedPlayed st (s.stationTime st)] else []

/-- The records of a station. -/
def State.cuts (s : State) (st : StationId) : List Record :=
  (s.station st).list.flatMap (s.entryCuts st) ++ (s.held st).flatMap (s.trailSpotCuts st) ++
    (s.held st).flatMap (s.trailFillCuts st) ++ s.bedCuts st

/-! ## They are what the restart makes -/

section
variable {s t : State} {st : StationId} {e : Entry} {d : DeckId}

theorem State.entryCuts_congr (h : t.unlogged = s.unlogged) : t.entryCuts st e = s.entryCuts st e :=
  calc t.entryCuts st e = t.unlogged.entryCuts st e := rfl
    _ = s.unlogged.entryCuts st e := by rw [h]
    _ = s.entryCuts st e := rfl

theorem State.trailSpotCuts_congr (h : t.unlogged = s.unlogged) : t.trailSpotCuts st d = s.trailSpotCuts st d :=
  calc t.trailSpotCuts st d = t.unlogged.trailSpotCuts st d := rfl
    _ = s.unlogged.trailSpotCuts st d := by rw [h]
    _ = s.trailSpotCuts st d := rfl

theorem State.trailFillCuts_congr (h : t.unlogged = s.unlogged) : t.trailFillCuts st d = s.trailFillCuts st d :=
  calc t.trailFillCuts st d = t.unlogged.trailFillCuts st d := rfl
    _ = s.unlogged.trailFillCuts st d := by rw [h]
    _ = s.trailFillCuts st d := rfl

theorem State.bedCuts_congr (h : t.unlogged = s.unlogged) : t.bedCuts st = s.bedCuts st :=
  calc t.bedCuts st = t.unlogged.bedCuts st := rfl
    _ = s.unlogged.bedCuts st := by rw [h]
    _ = s.bedCuts st := rfl

theorem State.cuts_congr (h : t.unlogged = s.unlogged) : t.cuts st = s.cuts st :=
  calc t.cuts st = t.unlogged.cuts st := rfl
    _ = s.unlogged.cuts st := by rw [h]
    _ = s.cuts st := rfl

/-- The record of a break's spot that is on the air. -/
def State.cutSpot (s : State) (st : StationId) (e : Entry) (b : BreakData) : State :=
  match b.spotOnAir with
  | some (i, p) =>
    match p.served with
    | .deck d => s.breakRecord i (s.spotPlayed st e b i p d (s.stationTime st) .cut)
    | _ => s
  | none => s

/-- The record of a break's fill that is on the air. -/
def State.cutFill (s : State) (st : StationId) (e : Entry) (b : BreakData) (stop : Nat) : State :=
  match b.fillState, b.fillServed with
  | .onAir, .deck d => s.breakRecord b.spots.length (s.fillPlayed st e b d stop)
  | _, _ => s

theorem State.restartEntry_brk {b : BreakData} (hn : e.notStarted = false) (hb : e.body = .brk b) :
    s.restartEntry st e = (s.cutSpot st e b).cutFill st e b (s.stationTime st) := by
  unfold State.restartEntry
  simp only
  rw [if_neg (by rw [hn]; exact Bool.false_ne_true), hb]
  rfl

theorem Filed.cutSpot (s : State) (st : StationId) (e : Entry) (b : BreakData) :
    Filed (b.spotOnAir.toList.flatMap fun x => x.2.served.deckNo.toList.map fun d =>
      s.spotPlayed st e b x.1 x.2 d (s.stationTime st) .cut) s (s.cutSpot st e b) := by
  unfold State.cutSpot
  cases hair : b.spotOnAir with
  | none => exact Filed.refl s
  | some x =>
    obtain ⟨i, p⟩ := x
    simp only
    cases hserved : p.served with
    | deck d =>
      refine (Filed.breakRecord s i _).of_eq ?_
      simp only [Option.toList, List.flatMap_singleton, hserved, Served.deckNo, List.map_cons, List.map_nil]
    | waiting =>
      refine (Filed.refl s).of_eq ?_
      simp only [Option.toList, List.flatMap_singleton, hserved, Served.deckNo, List.map_nil]
    | none =>
      refine (Filed.refl s).of_eq ?_
      simp only [Option.toList, List.flatMap_singleton, hserved, Served.deckNo, List.map_nil]

theorem Filed.cutFill (s : State) (st : StationId) (e : Entry) (b : BreakData) (stop : Nat) :
    Filed (if b.fillState = .onAir then b.fillServed.deckNo.toList.map fun d => s.fillPlayed st e b d stop else []) s
      (s.cutFill st e b stop) := by
  unfold State.cutFill
  cases hstate : b.fillState <;> cases hserved : b.fillServed
  case onAir.deck d => exact Filed.breakRecord s _ _
  all_goals exact Filed.refl s

theorem Filed.restartEntry (s : State) (st : StationId) (e : Entry) :
    Filed (s.entryCuts st e) s (s.restartEntry st e) := by
  cases hn : e.notStarted with
  | true =>
    refine Filed.of_eq (rs := []) ?_ (if_pos hn).symm
    rw [show s.restartEntry st e = s from if_pos hn]
    exact Filed.refl s
  | false =>
    cases hbody : e.body with
    | item c =>
      have hcuts : s.entryCuts st e = e.served.deckNo.toList.map fun d => s.itemPlayed st e d (s.stationTime st) .cut := by
        unfold State.entryCuts
        rw [if_neg (by rw [hn]; exact Bool.false_ne_true), hbody]
      rw [hcuts]
      unfold State.restartEntry
      simp only
      rw [if_neg (by rw [hn]; exact Bool.false_ne_true), hbody]
      cases hserved : e.served with
      | deck d => exact Filed.record s _
      | waiting => exact Filed.refl s
      | none => exact Filed.refl s
    | brk b =>
      rw [State.restartEntry_brk hn hbody]
      have hspot := Filed.cutSpot s st e b
      refine (hspot.trans (Filed.cutFill _ st e b (s.stationTime st))).of_eq ?_
      have hsame (d : DeckId) : (s.cutSpot st e b).fillPlayed st e b d (s.stationTime st) =
          s.fillPlayed st e b d (s.stationTime st) :=
        calc (s.cutSpot st e b).fillPlayed st e b d (s.stationTime st)
            = (s.cutSpot st e b).unlogged.fillPlayed st e b d (s.stationTime st) := rfl
          _ = s.unlogged.fillPlayed st e b d (s.stationTime st) := by rw [hspot.frame]
          _ = s.fillPlayed st e b d (s.stationTime st) := rfl
      unfold State.entryCuts
      rw [if_neg (show ¬e.notStarted = true by rw [hn]; exact Bool.false_ne_true), hbody]
      simp only [hsame]

theorem Filed.restartTrailSpot (s : State) (st : StationId) (d : DeckId) :
    Filed (s.trailSpotCuts st d) s (s.restartTrailSpot st d) := by
  unfold State.trailSpotCuts State.restartTrailSpot
  cases (s.deck d).target with
  | none => exact Filed.refl s
  | some x =>
    cases x
    case trailSpot t => exact Filed.breakRecord s _ _
    all_goals exact Filed.refl s

theorem Filed.restartTrailFill (s : State) (st : StationId) (d : DeckId) :
    Filed (s.trailFillCuts st d) s (s.restartTrailFill st d) := by
  unfold State.trailFillCuts State.restartTrailFill
  cases (s.deck d).target with
  | none => exact Filed.refl s
  | some x =>
    cases x
    case trailFill t => exact Filed.breakRecord s _ _
    all_goals exact Filed.refl s

theorem Filed.restartRecords (s : State) (st : StationId) : Filed (s.cuts st) s (s.restartRecords st) := by
  unfold State.restartRecords
  simp only
  have h1 := Filed.forEach (s := s) (f := fun e acc => acc.restartEntry st e) (g := s.entryCuts st)
    (fun e t ht => (Filed.restartEntry t st e).of_eq (State.entryCuts_congr ht)) (s.station st).list
  generalize Machine.forEach (s.station st).list (fun e acc => acc.restartEntry st e) s = s1 at h1 ⊢
  have h2 := Filed.forEach (s := s1) (f := fun d acc => acc.restartTrailSpot st d) (g := s.trailSpotCuts st)
    (fun d t ht => (Filed.restartTrailSpot t st d).of_eq (State.trailSpotCuts_congr (ht.trans h1.frame))) (s.held st)
  generalize Machine.forEach (s.held st) (fun d acc => acc.restartTrailSpot st d) s1 = s2 at h2 ⊢
  have h12 := h1.trans h2
  have h3 := Filed.forEach (s := s2) (f := fun d acc => acc.restartTrailFill st d) (g := s.trailFillCuts st)
    (fun d t ht => (Filed.restartTrailFill t st d).of_eq (State.trailFillCuts_congr (ht.trans h12.frame))) (s.held st)
  generalize Machine.forEach (s.held st) (fun d acc => acc.restartTrailFill st d) s2 = s3 at h3 ⊢
  have h123 := h12.trans h3
  refine h123.trans (Filed.of_eq (rs := s3.bedCuts st) ?_ (State.bedCuts_congr h123.frame))
  have htime : s3.stationTime st = s.stationTime st :=
    calc s3.stationTime st = s3.unlogged.stationTime st := rfl
      _ = s.unlogged.stationTime st := by rw [h123.frame]
      _ = s.stationTime st := rfl
  have hbed : s3.bed st = s.bed st :=
    calc s3.bed st = s3.unlogged.bed st := rfl
      _ = s.unlogged.bed st := by rw [h123.frame]
      _ = s.bed st := rfl
  unfold State.bedCuts
  rw [hbed, htime]
  split
  · exact Filed.record s3 _
  · exact Filed.refl s3

/-- All records of the restart, in the log (R212). -/
theorem Filed.restart (s : State) :
    Filed (allStations.flatMap s.cuts) s (Machine.forEach allStations (fun st acc => acc.restartRecords st) s).logHeld ∧
      (Machine.forEach allStations (fun st acc => acc.restartRecords st) s).logHeld.recordsHeld = [] := by
  have hall := Filed.forEach (s := s) (f := fun st acc => acc.restartRecords st) (g := s.cuts)
    (fun st t ht => (Filed.restartRecords t st).of_eq (State.cuts_congr ht)) allStations
  obtain ⟨hlog, hheld⟩ := Filed.logHeld (Machine.forEach allStations (fun st acc => acc.restartRecords st) s)
  exact ⟨(hall.trans hlog).of_eq (List.append_nil _), hheld⟩

end

/-! ## What they tell -/

section
variable {s : State} {st : StationId} {e : Entry} {d : DeckId} {r : Record}

/-- A record of the restart: one of a station, ending with the restart's period. -/
def Record.EndsAt (r : Record) (s : State) (st : StationId) : Prop :=
  r.station = st ∧ r.endTime = s.stationTime st ∧ (r.outcome = .cut ∨ r.outcome = .fill ∨ r.outcome = .fallback)

theorem State.entryCuts_ends (h : r ∈ s.entryCuts st e) : r.EndsAt s st := by
  unfold State.entryCuts at h
  split at h
  · cases h
  · split at h
    · obtain ⟨d, -, rfl⟩ := List.mem_map.mp h
      exact ⟨rfl, rfl, .inl rfl⟩
    · rcases List.mem_append.mp h with h | h
      · obtain ⟨x, -, h⟩ := List.mem_flatMap.mp h
        obtain ⟨d, -, rfl⟩ := List.mem_map.mp h
        exact ⟨rfl, rfl, .inl rfl⟩
      · split at h
        · obtain ⟨d, -, rfl⟩ := List.mem_map.mp h
          exact ⟨rfl, rfl, .inr (.inl rfl)⟩
        · cases h

theorem State.cuts_ends (h : r ∈ s.cuts st) : r.EndsAt s st := by
  unfold State.cuts at h
  rcases List.mem_append.mp h with h | h
  · rcases List.mem_append.mp h with h | h
    · rcases List.mem_append.mp h with h | h
      · obtain ⟨e, -, h⟩ := List.mem_flatMap.mp h
        exact State.entryCuts_ends h
      · obtain ⟨d, -, h⟩ := List.mem_flatMap.mp h
        unfold State.trailSpotCuts at h
        split at h
        · rw [List.mem_singleton.mp h]
          exact ⟨rfl, rfl, .inl rfl⟩
        · cases h
    · obtain ⟨d, -, h⟩ := List.mem_flatMap.mp h
      unfold State.trailFillCuts at h
      split at h
      · rw [List.mem_singleton.mp h]
        exact ⟨rfl, rfl, .inr (.inl rfl)⟩
      · cases h
  · unfold State.bedCuts at h
    split at h
    · rw [List.mem_singleton.mp h]
      exact ⟨rfl, rfl, .inr (.inr rfl)⟩
    · cases h

theorem State.entryCuts_length : (s.entryCuts st e).length = e.soundingCount := by
  unfold State.entryCuts Entry.soundingCount
  split
  · rfl
  · cases hbody : e.body with
    | item c => exact List.length_map _
    | brk b =>
      simp only
      rw [List.length_append]
      congr 1
      · cases b.spotOnAir with
        | none => rfl
        | some x => simp
      · split
        · exact List.length_map _
        · rfl

/-- One record for everything that sounds in the station, and no more. -/
theorem State.cuts_length : (s.cuts st).length = s.soundingCount st := by
  have hlist : ((s.station st).list.flatMap (s.entryCuts st)).length =
      ((s.station st).list.map Entry.soundingCount).sum := by
    rw [List.length_flatMap]
    exact congrArg List.sum (List.map_congr_left fun e _ => State.entryCuts_length)
  have hone (d : DeckId) : (s.trailSpotCuts st d).length + (s.trailFillCuts st d).length =
      if (s.deck d).target.any Target.trails then 1 else 0 := by
    unfold State.trailSpotCuts State.trailFillCuts
    cases (s.deck d).target with
    | none => rfl
    | some x => cases x <;> rfl
  have htrail (l : List DeckId) : (l.flatMap (s.trailSpotCuts st)).length + (l.flatMap (s.trailFillCuts st)).length =
      (l.filter fun d => (s.deck d).target.any Target.trails).length := by
    induction l with
    | nil => rfl
    | cons d l ih =>
      rw [List.flatMap_cons, List.flatMap_cons, List.length_append, List.length_append, List.filter_cons]
      have hd := hone d
      split at hd
      next ht =>
        rw [if_pos ht, List.length_cons]
        omega
      next ht =>
        rw [if_neg ht]
        omega
  have hbed : (s.bedCuts st).length = (s.bed st).player.sounds.toNat := by
    unfold State.bedCuts
    cases (s.bed st).player.sounds <;> rfl
  unfold State.cuts State.soundingCount
  rw [List.length_append, List.length_append, List.length_append, hlist, hbed, ← htrail]
  omega

end

end Sys2Proof.Machine
end

section
/-!
PROOFS. The bed players as a RESTART binds them anew (R213, R40), and the condition unit as it leaves it (R196).
-/

namespace Sys2Proof.Machine

/-! ## Lookups -/

/-- A search by what binding counts do not touch finds the same entry but for its count. -/
theorem find?_frame {p : DirEntry → Bool} (hp : ∀ e, p e.frame = p e) (l : List DirEntry) :
    (l.find? p).map DirEntry.frame = (l.map DirEntry.frame).find? p := by
  rw [List.find?_map]
  exact congrArg _ (congrArg (fun q => l.find? q) (funext fun e => (hp e).symm))

/-- A search for READY entries finds them where the others are gone. -/
theorem find?_ready {p : DirEntry → Bool} (hp : ∀ e, p e = true → e.state = .ready) (l : List DirEntry) :
    (l.filter fun e => e.state == .ready).find? p = l.find? p := by
  rw [List.find?_filter]
  refine congrArg (fun q => l.find? q) (funext fun e => ?_)
  cases he : p e with
  | false => simp
  | true => simp [hp e he]

section
variable {s t : State} {st : StationId} {c : Nat}

/-- Lookups of READY entries find the same in both, binding counts aside. -/
def State.FindsAlike (s t : State) : Prop := ∀ (c : Nat) (owner : Option StationId),
  (t.keyed c owner (· == .ready)).map DirEntry.frame = (s.keyed c owner (· == .ready)).map DirEntry.frame

theorem State.FindsAlike.of_frames (h : t.dir.map DirEntry.frame = s.dir.map DirEntry.frame) : s.FindsAlike t :=
  fun c owner => by
    unfold State.keyed
    rw [find?_frame (fun _ => rfl), h, ← find?_frame (fun _ => rfl)]

theorem State.FindsAlike.of_ready
    (h : t.dir.map DirEntry.frame = (s.dir.filter fun e => e.state == .ready).map DirEntry.frame) : s.FindsAlike t :=
  fun c owner => by
    have hready : ∀ e : DirEntry, (e.cart == c && e.owner == owner && e.state == .ready) = true → e.state = .ready :=
      fun e he => by
        rw [Bool.and_eq_true, beq_iff_eq] at he
        exact he.2
    unfold State.keyed
    rw [find?_frame (fun _ => rfl), h, ← find?_frame (fun _ => rfl), find?_ready hready]

theorem State.FindsAlike.lookup (h : s.FindsAlike t) :
    (t.lookup st c).map DirEntry.frame = (s.lookup st c).map DirEntry.frame := by
  have hown := h c (some st)
  have hnet := h c none
  unfold State.lookup
  cases hs : s.keyed c (some st) (· == .ready) with
  | none =>
    rw [hs, Option.map_none, Option.map_eq_none_iff] at hown
    rw [hown]
    exact hnet
  | some x =>
    rw [hs] at hown
    cases ht : t.keyed c (some st) (· == .ready) with
    | none =>
      rw [ht] at hown
      cases hown
    | some y =>
      rw [ht] at hown
      exact hown

theorem State.FindsAlike.fallbackEntry (h : s.FindsAlike t)
    (hc : (t.station st).cfg.fallbackCart = (s.station st).cfg.fallbackCart) :
    (t.fallbackEntry st).map DirEntry.slot = (s.fallbackEntry st).map DirEntry.slot := by
  have hslot (o : Option DirEntry) : o.map DirEntry.slot = (o.map DirEntry.frame).map DirEntry.slot := by
    rw [Option.map_map]; rfl
  unfold State.fallbackEntry
  rw [hc]
  cases (s.station st).cfg.fallbackCart with
  | none => rfl
  | some c =>
    simp only
    rw [hslot, h.lookup, ← hslot]

end

/-! ## The bindings -/

/-- A state but for its bed players and its directory. -/
def State.unbound (s : State) : State := { s with beds := Vector.replicate 6 Bed.reset, dir := [] }

/-- How many of the stations given find their fallback cart in a slot. -/
def State.bindCount (s : State) (sts : List StationId) (k : Nat) : Nat :=
  (sts.filter fun v => (s.fallbackEntry v).map DirEntry.slot == some k).length

section
variable {s t : State} {st : StationId}

/-- What an EMPTY bed player makes of its attempt to bind (R40). -/
structure State.BoundBed (s t : State) (st : StationId) : Prop where
  wanted : (t.bed st).airWanted = false
  spent : (t.bed st).spent = false
  slot : (t.bed st).player.slot = (s.fallbackEntry st).map DirEntry.slot
  state : (t.bed st).player.state = if (s.fallbackEntry st).isSome then .bound else .free

theorem State.bedTryBind_reset (h : s.bed st = Bed.reset) :
    (s.bedTryBind st).unbound = s.unbound ∧
      (s.bedTryBind st).dir = s.dir.map (fun e => { e with bindings := e.bindings + s.bindCount [st] e.slot }) ∧
      (∀ v : StationId, v ≠ st → (s.bedTryBind st).bed v = s.bed v) ∧ s.BoundBed (s.bedTryBind st) st := by
  have hfree : (s.bed st).player.state = .free ∧ (s.bed st).spent = false := by rw [h]; exact ⟨rfl, rfl⟩
  cases hf : s.fallbackEntry st with
  | none =>
    have hsame : s.bedTryBind st = s := by
      unfold State.bedTryBind
      rw [if_pos hfree, hf]
    have hzero (k : Nat) : s.bindCount [st] k = 0 := by
      unfold State.bindCount
      rw [List.filter_cons_of_neg (by rw [hf]; exact Bool.false_ne_true)]
      rfl
    rw [hsame]
    refine ⟨rfl, ?_, fun _ _ => rfl, ?_, ?_, ?_, ?_⟩
    · simp only [hzero, Nat.add_zero]
      exact (List.map_id _).symm
    · rw [h]; rfl
    · rw [h]; rfl
    · rw [h, hf]; rfl
    · rw [h, hf]; rfl
  | some e =>
    have hbind : s.bedTryBind st = s.bedBind st e := by
      unfold State.bedTryBind
      rw [if_pos hfree, hf]
    have hbed : (s.bedBind st e).bed st = { s.bed st with player := (s.bed st).player.bound e true } :=
      State.setBed_bed _ _ _
    rw [hbind]
    refine ⟨rfl, ?_, fun v hv => State.setBed_bed_ne _ _ hv.symm, ?_, ?_, ?_, ?_⟩
    · refine List.map_congr_left fun x _ => ?_
      have hcount : s.bindCount [st] x.slot = if x.slot = e.slot then 1 else 0 := by
        unfold State.bindCount
        by_cases hx : x.slot = e.slot
        · rw [List.filter_cons_of_pos (by rw [hf, hx]; simp), if_pos hx]
          rfl
        · rw [List.filter_cons_of_neg (by rw [hf]; simpa using Ne.symm hx), if_neg hx]
          rfl
      rw [hcount]
      by_cases hx : x.slot = e.slot
      · rw [if_pos hx, if_pos hx]
      · rw [if_neg hx, if_neg hx]
        rfl
    · rw [hbed, h]; rfl
    · rw [hbed, h]; rfl
    · rw [hbed, hf]; rfl
    · rw [hbed, hf]; rfl

/-- The bed players of several stations, all EMPTY, bind one after another. -/
theorem State.bindBeds {sts : List StationId} (hnd : sts.Nodup) (hb : ∀ v ∈ sts, s.bed v = Bed.reset)
    (ht : t = forEach sts (fun st acc => acc.bedTryBind st) s) :
    t.unbound = s.unbound ∧
      t.dir = s.dir.map (fun e => { e with bindings := e.bindings + s.bindCount sts e.slot }) ∧
      (∀ v : StationId, v ∉ sts → t.bed v = s.bed v) ∧ ∀ v ∈ sts, s.BoundBed t v := by
  induction sts generalizing s with
  | nil =>
    subst ht
    refine ⟨rfl, ?_, fun _ _ => rfl, fun v hv => (by cases hv)⟩
    exact (List.map_id _).symm
  | cons st sts ih =>
    obtain ⟨hfresh, hnd⟩ := List.nodup_cons.mp hnd
    obtain ⟨hu, hdir, hothers, hbound⟩ := State.bedTryBind_reset (hb st List.mem_cons_self)
    have ht' : t = forEach sts (fun st acc => acc.bedTryBind st) (s.bedTryBind st) := ht
    generalize s.bedTryBind st = u at hu hdir hothers hbound ht'
    have hub : ∀ v ∈ sts, u.bed v = Bed.reset := fun v hv => by
      rw [hothers v fun he => hfresh (he ▸ hv)]
      exact hb v (List.mem_cons_of_mem _ hv)
    obtain ⟨ku, kdir, kothers, kbound⟩ := ih hnd hub ht'
    have hfall (v : StationId) : (u.fallbackEntry v).map DirEntry.slot = (s.fallbackEntry v).map DirEntry.slot := by
      refine State.FindsAlike.fallbackEntry (.of_frames ?_) ?_
      · rw [hdir, List.map_map]
        rfl
      · rw [State.station_congr (s := s) (t := u) (congrArg State.stations hu :)]
    have hcount (k : Nat) : u.bindCount sts k = s.bindCount sts k := by
      unfold State.bindCount
      simp only [hfall]
    refine ⟨ku.trans hu, ?_, fun v hv => ?_, fun v hv => ?_⟩
    · rw [kdir, hdir, List.map_map]
      refine List.map_congr_left fun e _ => ?_
      have hsum : s.bindCount (st :: sts) e.slot = s.bindCount [st] e.slot + s.bindCount sts e.slot := by
        unfold State.bindCount
        rw [← List.singleton_append, List.filter_append, List.length_append]
      simp only [Function.comp_apply, hcount, hsum, Nat.add_assoc]
    · rw [kothers v fun hm => hv (List.mem_cons_of_mem _ hm), hothers v fun he => hv (he ▸ List.mem_cons_self)]
    · rcases List.mem_cons.mp hv with rfl | hm
      · obtain ⟨h1, h2, h3, h4⟩ := hbound
        rw [← kothers v hfresh] at h1 h2 h3 h4
        exact ⟨h1, h2, h3, h4⟩
      · obtain ⟨h1, h2, h3, h4⟩ := kbound v hm
        have hsome : (u.fallbackEntry v).isSome = (s.fallbackEntry v).isSome := by
          have := congrArg Option.isSome (hfall v)
          rwa [Option.isSome_map, Option.isSome_map] at this
        rw [hfall v] at h3
        rw [hsome] at h4
        exact ⟨h1, h2, h3, h4⟩

end

/-! ## The condition unit -/

/-- The condition unit cleared, its waiting notices withdrawn. -/
def State.condsCleared (s : State) : State :=
  { s with
    conds := s.conds.map fun c => { c with pending := 0 }
    txOrder := s.txOrder.filter TxItem.isReply
    behind := [] }

theorem State.condsCleared_cond (s : State) (i : SetId) : s.condsCleared.cond i = ⟨0, (s.cond i).enabled⟩ := by
  simp [State.condsCleared, State.cond]

/-- What ASRUN_PENDING, taken anew, makes of the transmit order: a notice where its bit is enabled (R194, R196). -/
def State.asrunNotice (s : State) : List TxItem :=
  if s.asrun ≠ [] ∧ (s.cond deviceSet).enabled &&& 0x01 = 0x01 then [.notice deviceSet] else []

theorem enabled_first (x : Byte) : (0x01 &&& x &&& ~~~(0 : Byte) = 0) ↔ ¬(x &&& 0x01 = 0x01) := by
  revert x
  decide

/-- ASRUN_PENDING raised in a cleared condition unit: its notice is placed at once, for no request is in hand. -/
theorem State.condsCleared_raised {s u : State} (hh : s.handler = .restarting)
    (hu : u = s.condsCleared.raiseDevice .asrunPending) (hlog : s.asrun ≠ []) :
    u.behind = [] ∧ (s.sending.isSome = true → u.sending = s.sending ∧
      u.txOrder = s.txOrder.filter TxItem.isReply ++ s.asrunNotice) := by
  have hwaits : (s.condsCleared.setCond deviceSet ((s.condsCleared.cond deviceSet).raise 0x01)).noticeWaits deviceSet =
      false := by
    have hnone : (s.txOrder.filter TxItem.isReply).contains (.notice deviceSet) = false := by
      simp [TxItem.isReply]
    exact hnone
  have hraise : u =
      if (0x01 : Byte) &&& (s.condsCleared.cond deviceSet).enabled &&& ~~~(s.condsCleared.cond deviceSet).pending = 0 then
        s.condsCleared.setCond deviceSet ((s.condsCleared.cond deviceSet).raise 0x01)
      else (s.condsCleared.setCond deviceSet ((s.condsCleared.cond deviceSet).raise 0x01)).trigger deviceSet := hu
  simp only [State.condsCleared_cond, enabled_first] at hraise hwaits
  have hset : ∀ c : CondSet, (s.condsCleared.setCond deviceSet c).behind = [] ∧
      (s.condsCleared.setCond deviceSet c).sending = s.sending ∧
      (s.condsCleared.setCond deviceSet c).txOrder = s.txOrder.filter TxItem.isReply ∧
      (s.condsCleared.setCond deviceSet c).handler = .restarting := fun c => ⟨rfl, rfl, rfl, hh⟩
  obtain ⟨hb, hs, ht, hr⟩ := hset (CondSet.raise ⟨0, (s.cond deviceSet).enabled⟩ 0x01)
  generalize s.condsCleared.setCond deviceSet _ = v at hraise hwaits hb hs ht hr
  unfold State.asrunNotice
  by_cases hen : (s.cond deviceSet).enabled &&& 0x01 = 0x01
  · rw [if_neg (not_not.mpr hen)] at hraise
    rw [if_pos ⟨hlog, hen⟩, hraise, State.trigger, if_neg (by rw [hwaits]; exact Bool.false_ne_true),
      if_neg (by rw [hr]; decide)]
    refine ⟨?_, fun hsend => ?_⟩
    · unfold State.pump
      split <;> exact hb
    · rw [State.pump_sends (by rw [← hs] at hsend; exact hsend)]
      exact ⟨hs, by rw [← ht]⟩
  · rw [if_pos hen] at hraise
    rw [if_neg fun h => hen h.2, hraise, List.append_nil]
    exact ⟨hb, fun _ => ⟨hs, ht⟩⟩

/-- The condition unit behind a restart (R196, R213). -/
theorem State.condsRestart_spec {s t : State} (hh : s.handler = .restarting) (ht : t = s.condsRestart) :
    t.unsent = s.unsent ∧ (∀ i : SetId, i ≠ deviceSet → (t.cond i).pending = 0) ∧
      (t.cond deviceSet).pending = (if s.asrun = [] then 0 else 0x01) ∧
      (∀ i : SetId, (t.cond i).enabled = (s.cond i).enabled) ∧ t.behind = [] ∧
      (s.sending.isSome = true → t.sending = s.sending ∧
        t.txOrder = s.txOrder.filter TxItem.isReply ++ s.asrunNotice) := by
  have hdef : t = if s.asrun.isEmpty then s.condsCleared else s.condsCleared.raiseDevice .asrunPending := ht
  cases hlog : s.asrun with
  | nil =>
    have hclear : t = s.condsCleared := hdef.trans (if_pos (by rw [hlog]; rfl))
    subst hclear
    refine ⟨rfl, fun i _ => by rw [State.condsCleared_cond], by rw [State.condsCleared_cond, if_pos rfl],
      fun i => by rw [State.condsCleared_cond], rfl, fun hs => ⟨rfl, ?_⟩⟩
    unfold State.asrunNotice
    rw [if_neg fun h => h.1 hlog, List.append_nil]
    rfl
  | cons r rs =>
    have hraised : t = s.condsCleared.raiseDevice .asrunPending :=
      hdef.trans (if_neg (by rw [hlog]; exact Bool.false_ne_true))
    have hne : s.asrun ≠ [] := by rw [hlog]; exact List.cons_ne_nil _ _
    obtain ⟨hbehind, hsend⟩ := State.condsCleared_raised hh hraised hne
    refine ⟨?_, fun i hi => ?_, ?_, fun i => ?_, hbehind, hsend⟩
    · rw [hraised, State.raiseDevice, State.raiseBits_unsent]
      rfl
    · rw [hraised, State.raiseDevice, State.raiseBits_cond_ne _ _ hi.symm, State.condsCleared_cond]
    · rw [hraised, State.cond_raiseDevice, State.condsCleared_cond, if_neg (List.cons_ne_nil _ _)]
      exact (by decide : (0 : Byte) ||| 0x01 = 0x01)
    · rw [hraised]
      refine (congrFun (State.raiseBits_enables _ _ _) i).trans ?_
      rw [State.enables, State.condsCleared_cond]

end Sys2Proof.Machine
end

section
/-!
PROOFS. The statement about RESTART (R211 to R213).
-/

namespace Sys2Proof.Machine

/-! ## The answer -/

theorem State.replied_restarting {t : State} (hc : ∀ st : StationId, (t.station st).dirty = false)
    (hh : t.handler = .restarting) (k : Byte) (r : Req) (c : Byte) (p : List Byte) :
    t.replied k r c p = t.answered k r c p := by
  have hsame : ({ t with handler := t.handler.replied } : State) = t := by
    rw [hh]
    exact congrArg (fun h => ({ t with handler := h } : State)) hh.symm
  unfold State.replied State.answered
  rw [hsame]
  refine State.settlePool_clean fun st => ?_
  have hplace : (t.placeReply (replyBody k r c p)).stations = t.stations := by
    unfold State.placeReply State.pump
    split <;> rfl
  rw [State.station_congr hplace]
  exact hc st

theorem exec_restart {s : State} {r : Req} (h : s.Ready) (hp : r.payload = []) (hst : r.station = 0xFF) :
    exec (.restart r) s = .next
      (State.answered { s with handler := .restarting } 0x0F r 0x00 (toBytes 6 (s.house + 1).toNat)) := by
  have hjudged : handlerFor 0x0F r s.working =
      (({ s with handler := .restarting } : State), .reply 0x00 (toBytes 6 (s.house + 1).toNat)) := by
    refine (?_ : handleRestart r s.working = _)
    rw [handleRestart, deviceRequest_pass (by rw [hp]; rfl) hst]
    rfl
  rw [exec_request_ready h rfl, hjudged, Answer.after]
  exact congrArg _ (State.replied_restarting (t := { s with handler := .restarting }) h.clean rfl _ _ _ _)

/-! ## What the restart ends -/

/-- The part with its stations, decks, bed players and store as a restart leaves them, ahead of the bindings. -/
def State.wiped (s : State) : State :=
  State.storeRestart
    { s with
      stations := s.stations.map Station.restarted
      decks := Vector.replicate 16 Deck.reset
      beds := Vector.replicate 6 Bed.reset
      port := s.port.voided
      deferred := [] }

/-- The part with its records made, and what the restart ends ended. -/
def State.ended (s : State) : State := State.watch { s.wiped with ref := s.ref.dropTarget }

theorem State.restart_eq (s : State) : s.restart =
    { forEach allStations (fun st acc => acc.bedTryBind st)
        (forEach allStations (fun st acc => acc.restartRecords st) s).logHeld.ended.condsRestart with
      handler := .ready } := by
  unfold State.restart State.ended
  simp only
  generalize (forEach allStations (fun st acc => acc.restartRecords st) s).logHeld = u
  rfl

theorem State.ended_eq (s : State) : s.ended = { s.wiped with ref := s.ended.ref } := State.watch_eq _

theorem State.wiped_dir (s : State) : s.wiped.dir = (s.dir.filter fun e => e.state == .ready).map DirEntry.frame := rfl

theorem State.wiped_station (s : State) (st : StationId) : s.wiped.station st = (s.station st).restarted := by
  simp [State.wiped, State.storeRestart, State.station]

theorem State.wiped_deck (s : State) (d : DeckId) : s.wiped.deck d = Deck.reset := by
  simp [State.wiped, State.storeRestart, State.deck]

theorem State.wiped_bed (s : State) (st : StationId) : s.wiped.bed st = Bed.reset := by
  simp [State.wiped, State.storeRestart, State.bed]

theorem Port.voided_fetch {p : Port} {f : Fetch} (h : p = .fetch f) : p.voided = .fetch { f with void := true } := by
  rw [h]
  rfl

theorem Port.voided_other {p : Port} (h : ∀ f : Fetch, p ≠ .fetch f) : p.voided = p := by
  cases p
  case fetch f => exact absurd rfl (h f)
  all_goals rfl

/-! ## The reference -/

theorem RefControl.dropTarget_fields (r : RefControl) : r.dropTarget.current = r.current ∧
    r.dropTarget.preferred = r.preferred ∧ r.dropTarget.autoReturn = r.autoReturn ∧ r.dropTarget.miss = r.miss ∧
    r.dropTarget.fallen = r.fallen := by
  unfold RefControl.dropTarget
  split <;> exact ⟨rfl, rfl, rfl, rfl, rfl⟩

theorem RefControl.dropTarget_unbridged {r : RefControl} (hb : r.bridging = none)
    (h : r.target.isSome = true ∨ r.progress = 0) : r.dropTarget.target = none ∧ r.dropTarget.progress = 0 := by
  unfold RefControl.dropTarget
  rw [RefControl.judgedTarget_eq hb]
  cases ht : r.target with
  | some src => exact ⟨rfl, rfl⟩
  | none => exact ⟨ht, h.resolve_left (by rw [ht]; exact Bool.false_ne_true)⟩

/-- What the reference controller keeps through a restart, and what its watch makes of it (R164, R160). -/
theorem State.ended_ref {s : State} (ha : s.linkA.mode = s.linkA.active) (hb : s.linkB.mode = s.linkB.active) :
    s.ended.ref.current = s.ref.current ∧ s.ended.ref.preferred = s.ref.preferred ∧
      s.ended.ref.autoReturn = s.ref.autoReturn ∧ s.ended.ref.miss = s.ref.miss ∧
      s.ended.ref.fallen = s.ref.fallen ∧
      (s.ref.bridging = none → (s.ref.target.isSome = true ∨ s.ref.progress = 0) → s.ended.ref.progress = 0 ∧
        (s.ref.fallen = true → s.ref.autoReturn = true → (s.ref.preferred = .word ∨
            ∃ l : LinkId, s.ref.preferred = .link l ∧ (s.link l).mode = .slave) →
          s.ended.ref.target = some s.ref.preferred ∧ s.ended.ref.origin = .autoReturn) ∧
        ((s.ref.fallen = false ∨ s.ref.autoReturn = false ∨ s.ref.preferred = .internal ∨
            ∃ l : LinkId, s.ref.preferred = .link l ∧ (s.link l).mode ≠ .slave) → s.ended.ref.target = none)) := by
  have hlink (l : LinkId) : (s.wiped.link l) = s.link l := by cases l <;> rfl
  have hmode (l : LinkId) : (s.link l).active = (s.link l).mode := by
    cases l
    · exact ha.symm
    · exact hb.symm
  have hw : ({ s.wiped with ref := s.ref.dropTarget } : State).ref = s.ref.dropTarget := rfl
  have hl (l : LinkId) : (({ s.wiped with ref := s.ref.dropTarget } : State).link l) = s.link l := by cases l <;> rfl
  unfold State.ended
  generalize ({ s.wiped with ref := s.ref.dropTarget } : State) = u at hw hl ⊢
  obtain ⟨dcur, dpref, dauto, dmiss, dfall⟩ := s.ref.dropTarget_fields
  obtain ⟨wcur, wmiss, wfall, wprog, wpref, wauto⟩ := u.watch_ref_fields
  rw [hw] at wcur wmiss wfall wprog wpref wauto
  refine ⟨wcur.trans dcur, wpref.trans dpref, wauto.trans dauto, wmiss.trans dmiss, wfall.trans dfall,
    fun hbr ht => ?_⟩
  obtain ⟨htnone, hpzero⟩ := RefControl.dropTarget_unbridged hbr ht
  refine ⟨wprog hpzero, fun hf haut hsrc => ?_, fun hoff => ?_⟩
  · have hwatch : u.watchable s.ref.preferred = true := by
      rcases hsrc with h | ⟨l, h, hm⟩
      · rw [h]; rfl
      · rw [h]
        exact State.watchable_link.mpr ⟨by rw [hl, hmode]; exact hm, by rw [hl]; exact hm⟩
    rw [State.watch_ref_on hw dpref (dfall.trans hf) (dauto.trans haut) hwatch htnone]
    exact ⟨rfl, rfl⟩
  · have hnot : u.watch = u := by
      refine State.watch_off ?_
      rw [hw, dfall, dauto, dpref]
      rcases hoff with h | h | h | ⟨l, h, hm⟩
      · exact .inl h
      · exact .inr (.inl h)
      · rw [h]; exact .inr (.inr (.inl rfl))
      · refine .inr (.inr (.inl (Bool.eq_false_iff.mpr fun hwt => hm ?_)))
        rw [h] at hwt
        rw [← hl]
        exact (State.watchable_link.mp hwt).2
    rw [hnot, hw]
    exact htnone

end Sys2Proof.Machine
end

section
/-!
PROOFS. The statement about RESTART, assembled.
-/

namespace Sys2Proof.Machine

section
variable {s t s1 : State}

theorem State.fallbackEntry_unsent {u v : State} (h : v.unsent = u.unsent) (st : StationId) :
    v.fallbackEntry st = u.fallbackEntry st :=
  calc v.fallbackEntry st = v.unsent.fallbackEntry st := rfl
    _ = u.unsent.fallbackEntry st := by rw [h]
    _ = u.fallbackEntry st := rfl

/-- The state behind a restart, in parts: what the records leave, the condition unit, and the bed players. -/
structure State.RestartParts (s1 t : State) : Prop where
  rest : ({ t with handler := .restarting } : State).unbound.unsent =
    ({ s1.wiped with ref := s1.ended.ref } : State).unbound.unsent
  handler : t.handler = .ready
  dir : t.dir = s1.wiped.dir.map fun e => { e with bindings := e.bindings + s1.ended.bindCount allStations e.slot }
  beds : ∀ st : StationId, s1.ended.BoundBed t st
  pending : ∀ i : SetId, i ≠ deviceSet → (t.cond i).pending = 0
  device : (t.cond deviceSet).pending = if s1.asrun = [] then 0 else 0x01
  enabled : ∀ i : SetId, (t.cond i).enabled = (s1.cond i).enabled
  behind : t.behind = []
  sends : s1.sending.isSome = true → t.sending = s1.sending ∧
    t.txOrder = s1.txOrder.filter TxItem.isReply ++ s1.asrunNotice

theorem State.restart_parts (hh : s.handler = .restarting) (ht : t = s.restart) :
    ∃ s1 : State, Filed (allStations.flatMap s.cuts) s s1 ∧ s1.recordsHeld = [] ∧ s1.RestartParts t := by
  obtain ⟨hfiled, hheld⟩ := Filed.restart s
  rw [State.restart_eq] at ht
  generalize (forEach allStations (fun st acc => acc.restartRecords st) s).logHeld = s1 at hfiled hheld ht
  refine ⟨s1, hfiled, hheld, ?_⟩
  have hh1 : s1.handler = .restarting := (congrArg State.handler hfiled.frame :).trans hh
  have hended := s1.ended_eq
  have hasrun : s1.ended.asrun = s1.asrun := (congrArg State.asrun hended :)
  have hconds : s1.ended.conds = s1.conds := (congrArg State.conds hended :)
  have hsending : s1.ended.sending = s1.sending := (congrArg State.sending hended :)
  have horder : s1.ended.txOrder = s1.txOrder := (congrArg State.txOrder hended :)
  have hhandler : s1.ended.handler = .restarting := (congrArg State.handler hended :).trans hh1
  have hdir0 : s1.ended.dir = s1.wiped.dir := (congrArg State.dir hended :)
  have hbeds0 (st : StationId) : s1.ended.bed st = Bed.reset := by
    rw [← s1.wiped_bed st]
    exact (congrArg (fun x : State => x.bed st) hended :)
  have hnotice : s1.ended.asrunNotice = s1.asrunNotice := by
    unfold State.asrunNotice
    rw [hasrun, State.cond_congr hconds]
  generalize hu : s1.ended = u at hended hasrun hconds hsending horder hhandler hdir0 hbeds0 hnotice ht
  obtain ⟨hv, hpend, hdev, hen, hbehind, hsends⟩ := State.condsRestart_spec hhandler rfl
  generalize u.condsRestart = v at *
  have hvbeds : ∀ st ∈ allStations, v.bed st = Bed.reset := fun st _ =>
    (congrArg (fun x : State => x.bed st) hv :).trans (hbeds0 st)
  obtain ⟨hx, hdir, -, hbound⟩ := State.bindBeds (by decide) hvbeds rfl
  generalize forEach allStations (fun st acc => acc.bedTryBind st) v = x at *
  have hcount (k : Nat) : v.bindCount allStations k = u.bindCount allStations k := by
    unfold State.bindCount
    simp only [State.fallbackEntry_unsent hv]
  have hrest : ({ t with handler := .restarting } : State).unbound.unsent = u.unbound.unsent :=
    calc ({ t with handler := .restarting } : State).unbound.unsent
        = { x.unbound.unsent with handler := .restarting } := by rw [ht]; rfl
      _ = { v.unbound.unsent with handler := .restarting } := by rw [hx]
      _ = { u.unbound.unsent with handler := .restarting } := by
          rw [show v.unbound.unsent = u.unbound.unsent from (congrArg State.unbound hv :)]
      _ = { u.unbound.unsent with handler := u.handler } := by rw [hhandler]
      _ = u.unbound.unsent := rfl
  have hxc : x.conds = v.conds := (congrArg State.conds hx :)
  have htc (i : SetId) : t.cond i = v.cond i := by
    rw [ht]
    exact State.cond_congr hxc i
  have hxbehind : x.behind = v.behind := (congrArg State.behind hx :)
  have hxsending : x.sending = v.sending := (congrArg State.sending hx :)
  have hxorder : x.txOrder = v.txOrder := (congrArg State.txOrder hx :)
  have hvdir : v.dir = u.dir := (congrArg State.dir hv :)
  refine ⟨?_, by rw [ht], ?_, fun st => ?_, fun i hi => by rw [htc, hpend i hi], ?_, fun i => ?_, ?_, fun hs => ?_⟩
  · rw [hu]
    exact hrest.trans (congrArg (fun y : State => y.unbound.unsent) hended)
  · rw [ht, hu]
    refine hdir.trans ?_
    rw [hvdir, hdir0]
    simp only [hcount]
  · obtain ⟨h1, h2, h3, h4⟩ := hbound st (mem_allStations st)
    rw [hu, ht]
    rw [State.fallbackEntry_unsent hv] at h3 h4
    exact ⟨h1, h2, h3, h4⟩
  · rw [htc, hdev, hasrun]
  · rw [htc, hen, State.cond_congr hconds]
  · rw [ht]
    exact hxbehind.trans hbehind
  · obtain ⟨h1, h2⟩ := hsends (by rw [hsending]; exact hs)
    rw [ht]
    refine ⟨hxsending.trans (h1.trans hsending), hxorder.trans (h2.trans ?_)⟩
    rw [horder, hnotice]

/-! ## The log -/

/-- The log behind a restart: the records held back and one for everything that sounds (R212). -/
theorem State.restart_log (hf : Filed (allStations.flatMap s.cuts) s s1) (hheld : s1.recordsHeld = []) :
    ∃ made : List Record, s1.asrun = s.asrun ++ made ∧
      (s.recordsHeld = [] → ∀ r ∈ made, r.endTime = s.stationTime r.station ∧
        (r.outcome = .cut ∨ r.outcome = .fill ∨ r.outcome = .fallback)) ∧
      (s1.asrun.length < 512 → s.wrapHold = false → s.nextSeq.toNat + 512 < 4294967296 →
        made.length = s.recordsHeld.length + (allStations.map s.soundingCount).sum ∧
        ∀ (st : StationId) (c : Record), c ∈ s.cuts st → ∃ r ∈ made, r.airing = c.airing) := by
  obtain ⟨made, hasrun, hfrom, hall⟩ := hf.log
  have hnone : s1.heldRecords = [] := by unfold State.heldRecords; rw [hheld]; rfl
  rw [hnone, List.append_nil] at hfrom hall
  refine ⟨made, hasrun, fun hempty r hr => ?_, fun hlen hw hseq => ?_⟩
  · have hstart : s.heldRecords = [] := by unfold State.heldRecords; rw [hempty]; rfl
    have hmem := hfrom r.unnumbered (List.mem_map_of_mem hr)
    rw [hstart, List.nil_append] at hmem
    obtain ⟨c, hc, he⟩ := List.mem_map.mp hmem
    obtain ⟨st, -, hc⟩ := List.mem_flatMap.mp hc
    obtain ⟨h1, h2, h3⟩ := State.cuts_ends hc
    have hst : r.station = c.station := (congrArg Record.station he :).symm
    have hend : r.endTime = c.endTime := (congrArg Record.endTime he :).symm
    have hout : r.outcome = c.outcome := (congrArg Record.outcome he :).symm
    rw [hst, hend, hout, h1]
    exact ⟨h2, h3⟩
  · obtain ⟨-, hperm⟩ := hall ⟨hw, by omega⟩ hlen
    refine ⟨?_, fun st c hc => ?_⟩
    · have hlength := hperm.length_eq
      rw [List.length_map, List.length_append, List.length_map, List.length_flatMap, State.heldRecords,
        List.length_map] at hlength
      rw [hlength]
      exact congrArg (fun l : List Nat => s.recordsHeld.length + l.sum)
        (List.map_congr_left fun st _ => State.cuts_length)
    · have hmem : c.unnumbered ∈ made.map Record.unnumbered := hperm.mem_iff.mpr (List.mem_append_right _
        (List.mem_map_of_mem (List.mem_flatMap.mpr ⟨st, mem_allStations st, hc⟩)))
      obtain ⟨r, hr, he⟩ := List.mem_map.mp hmem
      exact ⟨r, hr, (congrArg Record.airing he :)⟩

/-! ## Which records there are -/

section
variable {st : StationId} {e : Entry} {d : DeckId}

theorem State.entryCuts_mem {c : Record} (he : e ∈ (s.station st).list) (h : c ∈ s.entryCuts st e) : c ∈ s.cuts st :=
  List.mem_append_left _ (List.mem_append_left _ (List.mem_append_left _ (List.mem_flatMap.mpr ⟨e, he, h⟩)))

theorem State.cuts_item {c : Nat} (he : e ∈ (s.station st).list) (hn : e.notStarted = false) (hb : e.body = .item c)
    (hv : e.served = .deck d) : ∃ r ∈ s.cuts st, r.airing =
      (.cut, st, e.id, none, c, e.startTime, s.stationTime st, (s.deck d).player.consumed) := by
  refine ⟨s.itemPlayed st e d (s.stationTime st) .cut, State.entryCuts_mem he ?_, ?_⟩
  · unfold State.entryCuts
    rw [if_neg (by rw [hn]; exact Bool.false_ne_true), hb, hv]
    exact List.mem_singleton_self _
  · have hcart : e.cart = c := by unfold Entry.cart; rw [hb]
    rw [← hcart]
    rfl

theorem State.entryCuts_brk {b : BreakData} (hn : e.notStarted = false) (hb : e.body = .brk b) : s.entryCuts st e =
    (b.spotOnAir.toList.flatMap fun x => x.2.served.deckNo.toList.map fun d =>
        s.spotPlayed st e b x.1 x.2 d (s.stationTime st) .cut) ++
      if b.fillState = .onAir then b.fillServed.deckNo.toList.map fun d => s.fillPlayed st e b d (s.stationTime st)
      else [] := by
  unfold State.entryCuts
  rw [if_neg (show ¬e.notStarted = true by rw [hn]; exact Bool.false_ne_true), hb]

theorem State.cuts_spot {b : BreakData} {i : Nat} {p : Spot} (he : e ∈ (s.station st).list)
    (hn : e.notStarted = false) (hb : e.body = .brk b) (ha : b.spotOnAir = some (i, p)) (hv : p.served = .deck d) :
    ∃ r ∈ s.cuts st, r.airing = (.cut, st, e.id, some p.ref, p.cart, p.startTime, s.stationTime st,
      (s.deck d).player.consumed) := by
  refine ⟨s.spotPlayed st e b i p d (s.stationTime st) .cut, State.entryCuts_mem he ?_, rfl⟩
  rw [State.entryCuts_brk hn hb, ha]
  refine List.mem_append_left _ (List.mem_flatMap.mpr ⟨(i, p), List.mem_singleton_self _, ?_⟩)
  simp only [hv]
  exact List.mem_singleton_self _

theorem State.cuts_fill {b : BreakData} (he : e ∈ (s.station st).list) (hn : e.notStarted = false)
    (hb : e.body = .brk b) (ha : b.fillState = .onAir) (hv : b.fillServed = .deck d) :
    ∃ r ∈ s.cuts st, r.airing = (.fill, st, e.id, none, b.fillUsed.getD 0, b.fillStart, s.stationTime st,
      (s.deck d).player.consumed) := by
  refine ⟨s.fillPlayed st e b d (s.stationTime st), State.entryCuts_mem he ?_, rfl⟩
  rw [State.entryCuts_brk hn hb, if_pos ha, hv]
  exact List.mem_append_right _ (List.mem_singleton_self _)

theorem State.held_mem (h : (s.deck d).station = some st) : d ∈ s.held st :=
  List.mem_filter.mpr ⟨mem_allDecks d, beq_iff_eq.mpr h⟩

theorem State.cuts_trailSpot {tr : Trail} (hst : (s.deck d).station = some st)
    (ht : (s.deck d).target = some (.trailSpot tr)) : ∃ r ∈ s.cuts st, r.airing =
      (.cut, st, tr.entryId, tr.spotRef, tr.cart, tr.startTime, s.stationTime st, (s.deck d).player.consumed) := by
  refine ⟨s.trailPlayed st tr d (s.stationTime st) .cut, ?_, rfl⟩
  refine List.mem_append_left _ (List.mem_append_left _ (List.mem_append_right _ ?_))
  refine List.mem_flatMap.mpr ⟨d, State.held_mem hst, ?_⟩
  unfold State.trailSpotCuts
  rw [ht]
  exact List.mem_singleton_self _

theorem State.cuts_trailFill {tr : Trail} (hst : (s.deck d).station = some st)
    (ht : (s.deck d).target = some (.trailFill tr)) : ∃ r ∈ s.cuts st, r.airing =
      (.fill, st, tr.entryId, tr.spotRef, tr.cart, tr.startTime, s.stationTime st, (s.deck d).player.consumed) := by
  refine ⟨s.trailPlayed st tr d (s.stationTime st) .fill, ?_, rfl⟩
  refine List.mem_append_left _ (List.mem_append_right _ ?_)
  refine List.mem_flatMap.mpr ⟨d, State.held_mem hst, ?_⟩
  unfold State.trailFillCuts
  rw [ht]
  exact List.mem_singleton_self _

theorem State.cuts_bed (h : (s.bed st).player.sounds = true) : ∃ r ∈ s.cuts st, ∃ cart : Nat, r.airing =
    (.fallback, st, 0, none, cart, (s.bed st).startTime, s.stationTime st, (s.bed st).player.consumed) := by
  refine ⟨s.bedPlayed st (s.stationTime st), List.mem_append_right _ ?_, _, rfl⟩
  unfold State.bedCuts
  rw [if_pos h]
  exact List.mem_singleton_self _

end

/-! ## A station -/

/-- A station and its bed player behind a restart (R83, R110, R147, R196). -/
theorem State.restart_station {st : StationId} (hframe : s1.unlogged = s.unlogged)
    (hrest : ({ t with handler := .restarting } : State).unbound.unsent =
      ({ s1.wiped with ref := s1.ended.ref } : State).unbound.unsent) (hbed : s1.ended.BoundBed t st) :
    (t.station st).mode = .idle ∧ (t.station st).leftMode = none ∧ (t.station st).list = [] ∧
      (t.station st).requests = [] ∧ (t.station st).take = none ∧ (t.station st).preFade = none ∧
      (t.station st).due = none ∧ (t.station st).silence = 0 ∧ (t.station st).fault = none ∧
      (t.station st).cfg = (s.station st).cfg ∧ (t.station st).offset = (s.station st).offset ∧
      (t.station st).clips = (s.station st).clips ∧ (t.station st).out = ⟨0, 0, 0, true⟩ ∧
      ((t.station st).lowRel = true ↔ 0 < (s.station st).cfg.lowMark) ∧
      (t.bed st).airWanted = false ∧ (t.bed st).spent = false ∧
      (∀ (c : Nat) (x : DirEntry), (s.station st).cfg.fallbackCart = some c → s.lookup st c = some x →
        (t.bed st).player.state = .bound ∧ (t.bed st).player.slot = some x.slot) ∧
      (((s.station st).cfg.fallbackCart.bind (s.lookup st)) = none →
        (t.bed st).player.state = .free ∧ (t.bed st).player.slot = none) := by
  have hst : s1.station st = s.station st := (congrArg (fun x : State => x.station st) hframe :)
  have hwiped : s1.wiped.station st = (s.station st).restarted := by rw [s1.wiped_station, hst]
  have hstation : t.station st = (s.station st).restarted :=
    (congrArg (fun x : State => x.station st) hrest :).trans hwiped
  have hended := s1.ended_eq
  have hedir : s1.ended.dir = (s1.dir.filter fun e => e.state == .ready).map DirEntry.frame :=
    (congrArg State.dir hended :)
  have hecfg : (s1.ended.station st).cfg = (s.station st).cfg := by
    rw [show s1.ended.station st = s1.wiped.station st from (congrArg (fun x : State => x.station st) hended :), hwiped]
    rfl
  have hsdir : s1.dir = s.dir := (congrArg State.dir hframe :)
  have hfall : (s1.ended.fallbackEntry st).map DirEntry.slot = (s.fallbackEntry st).map DirEntry.slot := by
    refine State.FindsAlike.fallbackEntry (.of_ready ?_) (by rw [hecfg])
    rw [hedir, hsdir, List.map_map]
    exact List.map_congr_left fun e _ => rfl
  have hsome : (s1.ended.fallbackEntry st).isSome = (s.fallbackEntry st).isSome := by
    have := congrArg Option.isSome hfall
    rwa [Option.isSome_map, Option.isSome_map] at this
  have hbind : s.fallbackEntry st = (s.station st).cfg.fallbackCart.bind (s.lookup st) := by
    unfold State.fallbackEntry
    cases (s.station st).cfg.fallbackCart <;> rfl
  obtain ⟨hwanted, hspent, hslot, hstate⟩ := hbed
  rw [hfall] at hslot
  rw [hsome] at hstate
  rw [hstation]
  refine ⟨rfl, rfl, rfl, rfl, rfl, rfl, rfl, rfl, rfl, rfl, rfl, rfl, rfl, decide_eq_true_iff, hwanted, hspent,
    fun c x hc hx => ?_, fun hnone => ?_⟩
  · rw [hbind, hc, Option.bind_some, hx] at hslot hstate
    exact ⟨hstate, hslot⟩
  · rw [hbind, hnone] at hslot hstate
    exact ⟨hstate, hslot⟩

end

end Sys2Proof.Machine

namespace Sys2Proof
open Machine

/-- Settles O19: the answer, and then the restart in parts. -/
theorem restartDone : Obligations.RestartDone := by
  unfold Obligations.RestartDone
  refine ⟨fun s r hs hp hst => exec_restart hs hp hst, fun s hr ho hh ha hb => ?_⟩
  have hexec : exec .restartPeriod s = .next s.restart := by
    refine (if_neg (by rw [hr]; exact Bool.false_ne_true)).trans (congrArg _ ?_)
    exact (if_pos ho).trans (if_pos hh)
  generalize ht : s.restart = t at hexec
  obtain ⟨s1, hf, hheld, hparts⟩ := State.restart_parts hh ht.symm
  obtain ⟨made, hasrun, hends, hall⟩ := State.restart_log hf hheld
  obtain ⟨hrest, hhandler, hdir, hbeds, hpend, hdevice, hen, hbehind, hsends⟩ := hparts
  have hframe := hf.frame
  have hdir1 : s1.dir = s.dir := (congrArg State.dir hframe :)
  have hport1 : s1.port = s.port := (congrArg State.port hframe :)
  have htasrun : t.asrun = s1.asrun := (congrArg State.asrun hrest :)
  refine ⟨t, hexec, hhandler, ?_, fun st => ?_, fun d => ?_, ?_, fun hd e he => ?_, ?_, fun f hport => ?_, fun hport => ?_,
    ⟨made, ?_, ?_, hends, fun hlen hw hseq => ?_⟩, fun st => ?_, ?_, fun i => ?_, hbehind, fun hs => ?_, ?_⟩
  · exact (congrArg State.opening hrest :).trans ((congrArg State.opening hframe :).trans ho)
  · exact State.restart_station hframe hrest (hbeds st)
  · have hdeck : t.deck d = Deck.reset := (congrArg (fun x : State => x.deck d) hrest :).trans (s1.wiped_deck d)
    rw [hdeck]
    exact ⟨rfl, rfl, rfl, rfl, rfl, rfl⟩
  · rw [hdir, List.map_map, State.wiped_dir, hdir1, List.map_map]
    exact List.map_congr_left fun e _ => rfl
  · rw [hdir] at he
    obtain ⟨x, hx, rfl⟩ := List.mem_map.mp he
    rw [State.wiped_dir] at hx
    obtain ⟨y, -, rfl⟩ := List.mem_map.mp hx
    have hslots (u : StationId) : (t.bed u).player.slot = (s1.ended.fallbackEntry u).map DirEntry.slot := (hbeds u).slot
    simp only [hslots]
    exact Nat.zero_add _
  · have hfree : t.freeBlocks = (s1.dir.filter fun e => e.state != .ready).flatMap DirEntry.blocks ++ s1.freeBlocks :=
      (congrArg State.freeBlocks hrest :)
    have hfree1 : s1.freeBlocks = s.freeBlocks := (congrArg State.freeBlocks hframe :)
    rw [hfree, hdir1, hfree1, runsTotal_append, runsTotal_flatMap, Nat.add_comm]
  · exact (congrArg State.port hrest :).trans (Port.voided_fetch (hport1.trans hport))
  · exact (congrArg State.port hrest :).trans ((Port.voided_other (by rw [hport1]; exact hport)).trans hport1)
  · exact htasrun.trans hasrun
  · exact (congrArg State.recordsHeld hrest :).trans hheld
  · rw [htasrun] at hlen
    obtain ⟨hcount, hrecords⟩ := hall hlen hw hseq
    have hmade {st : StationId} {x : _} (h : ∃ r ∈ s.cuts st, r.airing = x) : ∃ r ∈ made, r.airing = x := by
      obtain ⟨c, hc, rfl⟩ := h
      exact hrecords st c hc
    refine ⟨hcount, fun st => ⟨fun e he hn => ⟨fun c d hb hv => hmade (State.cuts_item he hn hb hv), fun b hb =>
      ⟨fun i p d ha hv => hmade (State.cuts_spot he hn hb ha hv), fun d ha hv => hmade (State.cuts_fill he hn hb ha hv)⟩⟩,
      fun d tr hst => ⟨fun h => hmade (State.cuts_trailSpot hst h), fun h => hmade (State.cuts_trailFill hst h)⟩,
      fun h => ?_⟩⟩
    obtain ⟨c, hc, cart, hcart⟩ := State.cuts_bed h
    obtain ⟨r, hr, he⟩ := hrecords st c hc
    exact ⟨r, hr, cart, he.trans hcart⟩
  · exact hpend _ (stationSet_ne_deviceSet st)
  · rw [hdevice, htasrun]
  · exact (hen i).trans (congrFun hf.enables i)
  · obtain ⟨hsend1, horder1⟩ := hf.sends hs
    obtain ⟨h1, h2⟩ := hsends (by rw [hsend1]; exact hs)
    refine ⟨h1.trans hsend1, h2.trans ?_⟩
    have hen1 : (s1.cond deviceSet).enabled = (s.cond deviceSet).enabled := congrFun hf.enables deviceSet
    unfold State.asrunNotice
    rw [horder1, hen1, htasrun]
  · have hmode1 : s1.linkA = s.linkA ∧ s1.linkB = s.linkB ∧ s1.ref = s.ref :=
      ⟨(congrArg State.linkA hframe :), (congrArg State.linkB hframe :), (congrArg State.ref hframe :)⟩
    obtain ⟨hla, hlb, href⟩ := hmode1
    have hlink (l : LinkId) : s1.link l = s.link l := State.link_congr hla hlb l
    have hends := State.ended_ref (s := s1) (by rw [hla]; exact ha) (by rw [hlb]; exact hb)
    have htref : t.ref = s1.ended.ref := (congrArg State.ref hrest :)
    rw [← htref, href] at hends
    simp only [hlink] at hends
    obtain ⟨h1, h2, h3, h4, h5, h6⟩ := hends
    exact ⟨(congrArg State.media hrest :).trans (congrArg State.media hframe :),
      (congrArg State.reclaim hrest :).trans (congrArg State.reclaim hframe :),
      (congrArg State.queue hrest :).trans (congrArg State.queue hframe :),
      (congrArg State.rx hrest :).trans (congrArg State.rx hframe :),
      (congrArg State.house hrest :).trans (congrArg State.house hframe :), h1, h2, h3, h4, h5, h6,
      (congrArg State.linkA hrest :).trans hla, (congrArg State.linkB hrest :).trans hlb,
      (congrArg State.badMessages hrest :).trans (congrArg State.badMessages hframe :)⟩

end Sys2Proof
end
